-- ==== Sys2Proof/Word.lean ====
section
/-! DEFINITION. The fixed-width words of the T240's formats and counters (00_scope.md, "Units and conventions").
A word is used where the manual adds, shifts or carries the thing as bits; everything else is a Lean type of its own. -/

namespace Sys2Proof

/-- One byte of a byte-framed format. -/
abbrev Byte := BitVec 8

/-- A 48-bit grain count: station time, main-site time, or a signed 48-bit difference of the two (R1, R57). -/
abbrev Time := BitVec 48

/-- A feed channel number as the formats carry it, in one byte; profiled channels are 1 to 64. -/
abbrev Channel := BitVec 8

/-- A station number on the site bus, 0 to 15. -/
abbrev Station := BitVec 4

/-- An outlet of the playout server, 0 to 3. -/
abbrev OutletNo := Fin 4

/-- An event id; 0 stands for "none" or "head of the list" where a format says so. -/
abbrev EventId := BitVec 32

/-- A schedule version, compared for equality only (R17, R23). -/
abbrev Version := BitVec 16

/-- A material id, opaque to the part (section 2.2). -/
abbrev Material := BitVec 128

end Sys2Proof
end

