-- ==== Sys2Proof/Syntax.lean ====
section
/-! DEFINITION. The commands of the T240: one constructor of `Instr` for every row of spec/opcode_table.json, with the
operands the row's message, frame, cue or local-port command carries. A received message is an operand in the fields of its
layout table; the rows for messages that a receiver throws away carry the bytes, which their meanings judge. -/

namespace Sys2Proof

/-! ## Feed messages (section 2.2) -/

/-- An event's start rule: FIXED carries its main-site start time. -/
inductive StartRule where
  | fixed (start : Time)
  | follow
  | manual
deriving DecidableEq, Repr

/-- A side cue: its offset in frames from the event's start, and its cue code. -/
structure SideCue where
  offset : BitVec 24
  code : BitVec 16
deriving DecidableEq, Repr

/-- The feed-supplied fields of an event record, in layout order (section 2.2). -/
structure EventData where
  id : EventId
  start : StartRule
  duration : BitVec 24
  material : Material
  entry : BitVec 24
  flags : Byte
  cues : List SideCue
deriving DecidableEq, Repr

/-- The body of a schedule message, kinds 2 to 6 of the feed layout. -/
inductive SchedBody where
  | snapOpen (version : Version) (count : BitVec 16)
  | snapEvent (version : Version) (index : Byte) (event : EventData)
  | snapClose (version : Version) (count : BitVec 16)
  | editPut (base new : Version) (anchor : EventId) (event : EventData)
  | editDrop (base new : Version) (id : EventId)
deriving DecidableEq, Repr

/-- A schedule message with its channel, as the ingest queue holds it (R18). -/
structure SchedMsg where
  channel : Channel
  body : SchedBody
deriving DecidableEq, Repr

/-- The main state of a beacon; RESUME_OFFER alone carries a switch time (section 2.2). -/
inductive MainState where
  | running
  | standingDown
  | resumeOffer (switchTime : Time)
deriving DecidableEq, Repr

/-- A BEACON message. -/
structure BeaconMsg where
  channel : Channel
  stamp : Time
  main : MainState
  version : Version
  onAir : EventId
deriving DecidableEq, Repr

/-! ## Site-bus frames (section 5.2) -/

/-- The time class of the time base (R12): 0 LOCKED, 1 HOLDOVER, 2 SEEKING. -/
inductive TimeClass where
  | locked
  | holdover
  | seeking
deriving DecidableEq, Repr

/-- The hold state of a HOLD body: 1 JOINING, 2 ON_AIR, 3 HANDING_BACK. -/
inductive HoldState where
  | joining
  | onAir
  | handingBack
deriving DecidableEq, Repr

/-- The reason of a RELEASE body: 1 HANDED_BACK, 2 STOOD_DOWN, 3 JOIN_FAILED, 4 FORCED. -/
inductive ReleaseReason where
  | handedBack
  | stoodDown
  | joinFailed
  | forced
deriving DecidableEq, Repr

/-- The body of a STATUS frame. `active` is the station state: false LISTENING_IN, true ACTIVE. -/
structure StatusBody where
  active : Bool
  freeOutlets : Nat
  timeClass : TimeClass
  held : Nat
  serve : BitVec 64
deriving DecidableEq, Repr

/-- A frame's class with its body. -/
inductive FrameBody where
  | claim (channel : Channel)
  | hold (channel : Channel) (state : HoldState) (version : Version) (event : EventId)
  | release (channel : Channel) (reason : ReleaseReason)
  | status (body : StatusBody)
deriving DecidableEq, Repr

/-- A site-bus frame: merit, sender's station number, class and body. -/
structure Frame where
  merit : Byte
  station : Station
  body : FrameBody
deriving DecidableEq, Repr

/-- The bits of a received frame as the receiver takes them by its body length, whatever they say: class, merit, station,
body bytes, check, and whether the end bit was read recessive (R80). -/
structure RawFrame where
  cls : BitVec 3
  merit : Byte
  station : Station
  body : List Byte
  check : BitVec 16
  endRecessive : Bool
deriving DecidableEq, Repr

/-- The reason of a server REFUSED: 1 NO_MATERIAL, 2 TOO_LATE, 3 BAD_ENTRY, 4 OUTLET_BUSY, 5 OTHER (section 9.2). -/
inductive RefusedReason where
  | noMaterial
  | tooLate
  | badEntry
  | outletBusy
  | other
deriving DecidableEq, Repr

/-! ## Commands -/

/-- The T240's commands, in the order of spec/opcode_table.json. Local-port commands carry their parameter bytes. -/
inductive Instr where
  | pinReset
  | referencePulse
  | missingPulse
  | referenceSilence
  /-- `begun`: the first bytes of a message had been taken from WAIT when the line fell idle. -/
  | feedIdleGap (begun : Bool)
  | feedLengthAbandon
  | feedMessageDiscard (kind channel : Byte) (body : List Byte) (check : BitVec 16)
  | beacon (b : BeaconMsg)
  | driftCheck
  | reclaimSweep
  | scheduleMessage (m : SchedMsg)
  | snapOpen
  | snapEvent
  | snapClose
  | editPut
  | editDrop
  | doubtfulDeadline (channel : Channel)
  | lostDeadline (channel : Channel)
  | returnDeadline (channel : Channel)
  | windowEnd (channel : Channel)
  | busHeaderMalformed
  | malformedFrame (raw : RawFrame)
  | clashFrame (frame : Frame)
  | claimFrame (merit : Byte) (station : Station) (channel : Channel)
  | holdFrame (merit : Byte) (station : Station) (channel : Channel) (state : HoldState) (version : Version)
      (event : EventId)
  | releaseFrame (merit : Byte) (station : Station) (channel : Channel) (reason : ReleaseReason)
  | statusFrame (station : Station) (body : StatusBody)
  | attempt
  | arbitrationLoss
  | bitFault
  | sentWhole
  | quietDeadline
  | listeningInDeadline
  | statusDeadline
  | peerSilenceDeadline (station : Station)
  | foreignClaimExpiry (channel : Channel)
  | holderDeadline (channel : Channel)
  | yieldDeadline (channel : Channel)
  | claimWindowEnd (channel : Channel)
  | holdDeadline (channel : Channel)
  | cueMoment (channel : Channel)
  | sideCueTime (channel : Channel)
  /-- `serverReady`: the level of the server-ready input SRDY when the link would begin the command. -/
  | commandSend (serverReady : Bool)
  | queuedCommandMissed (outlet : OutletNo)
  | replyDeadline (outlet : OutletNo)
  | startDeadline (outlet : OutletNo)
  | armedStopTime (outlet : OutletNo)
  /-- `begun`: the first bytes of a server message had been taken from WAIT when the line fell idle. -/
  | cueIdleGap (begun : Bool)
  | cueLengthAbandon
  | cueMessageDiscard (kind tag : Byte) (body : List Byte) (check : BitVec 16)
  | taken (tag : Byte)
  | refused (tag : Byte) (reason : RefusedReason)
  | started (tag outlet : Byte) (actual : Time)
  | stopPoint (channel : Channel)
  | switchDeadline (channel : Channel)
  | replyFetch
  | truncatedCommand
  | overlongCommand
  | unknownCommand (code : Byte) (params : List Byte) (check : BitVec 16)
  | loadStation (params : List Byte)
  | addChannel (params : List Byte)
  | start (params : List Byte)
  | readNotice (params : List Byte)
  | clearNotice (params : List Byte)
  | setFloor (params : List Byte)
  | readChannel (params : List Byte)
  | readEvent (params : List Byte)
  | readPeers (params : List Byte)
  | readTime (params : List Byte)
  | readOutlets (params : List Byte)
  | readCounts (params : List Byte)
  | takeAsrun (params : List Byte)
  | forceLost (params : List Byte)
  | unforce (params : List Byte)
  | inhibit (params : List Byte)
  | allow (params : List Byte)
  | release (params : List Byte)
  | go (params : List Byte)
  | clearOutlet (params : List Byte)
  | busRestart (params : List Byte)
  | clockCycle
  | busFree
deriving DecidableEq, Repr

end Sys2Proof
end

