-- ==== Sys2Proof/Decode.lean ====
section
/-! DEFINITION. Decoding. The T240 fetches no instructions: its commands come as messages, frames, transfers, deadlines and pin
events, and spec/opcode_table.json gives no row any bits. -/

namespace Sys2Proof

/-- The command a table word spells: none, since no row of the table gives bits (log 4). -/
def decodeTableWord (_nbits _w : Nat) : Option Instr := none

end Sys2Proof
end

