-- ==== Sys2Proof/Config.lean ====
section
/-! DEFINITION. The numbers the manual fixes for every part, and the values it leaves open. An open value is a constant with
no body: nothing can be proved of it, so a claim holds whatever it is. -/

namespace Sys2Proof.Config

/-- Grains in one millisecond (00_scope.md, "Grains and station time"). -/
def grainsPerMs : Nat := 240

/-- Grains in one second. -/
def grainsPerSecond : Nat := 240000

/-- The time the feed link and the cue link take to carry one byte (section 2.1). -/
def characterTime : Nat := 2

/-- The nominal STEP, which pin reset sets (R2). -/
def nominalStep : Nat := 21474836

/-- The clamp range of STEP (R7). -/
def stepMin : Nat := 21470541
def stepMax : Nat := 21479131

/-- Reference periods of one measurement (R4). -/
def measurementPeriods : Nat := 256

/-- Records of the event pool (R20). -/
def poolSize : Nat := 1536

/-- Most events of one channel list or incoming list (R21). -/
def listLimit : Nat := 240

/-- Depths of the ingest queue, the transmit queue, an outlet's command queue, its awaiting list and the as-run queue
(R18, R84, R157, R160, R152). -/
def ingestDepth : Nat := 24
def transmitDepth : Nat := 8
def commandDepth : Nat := 4
def awaitingDepth : Nat := 4
def asrunDepth : Nat := 64

/-- The as-run queue length that raises ASRUN_WATERMARK (R152). -/
def asrunWatermark : Nat := 48

/-- The consecutive fault count that puts the bus controller in QUIET, and the QUIET time in milliseconds (R91). -/
def quietFaults : Nat := 16
def quietMs : Nat := 1000

/-- Most channel parts of a profile (R184). -/
def maxChannels : Nat := 16

/-- The frame period in grains of a rate code, or 0 for an invalid code (00_scope.md, "Frame rates"). -/
def ratePeriod : Nat → Nat
  | 1 => 10010
  | 2 => 10000
  | 3 => 9600
  | 4 => 8008
  | 5 => 8000
  | 6 => 4800
  | 7 => 4004
  | 8 => 4000
  | _ => 0

/-- DESIGN CHOICE (log 7): the frames played of an item whose next item is reported started before it itself started, of
which R151 states no value. Safe: nothing is known of it. The arguments are the two start times. -/
opaque framesPlayedBackward : Time → Time → Nat

/-- DESIGN CHOICE (log 29): what the four bytes of frames played carry in a reply for a count of 2^32 or more, of which R196
states no form. Safe: nothing is known of it. The argument is the count. -/
opaque framesPlayedWide : Nat → Nat

/-- DESIGN CHOICE (log 6): how the detail codes of each notice class stand for what they tell, of which the manual gives no values.
Safe: nothing is known of it but that it is one to one, as a code that names what occurred must be (R186). -/
opaque noticeCodes : Fin 12 → Equiv.Perm Byte

end Sys2Proof.Config
end

