-- ==== Sys2Proof/Machine/State.lean ====
section
/-! DEFINITION. Everything the manual gives the T240 to remember, block by block (00_scope.md, "Blocks"), as plain data, and
its value after pin reset. Fields marked "the model's own" are listed with their reason in INVENTORY.md. -/

namespace Sys2Proof.Machine

/-! ## Profile (section 11.2) -/

/-- The station part as stored, every field clamped to its range (R183). -/
structure StationPart where
  number : Nat
  rate : Nat
  feedDelay : Nat
  claimWindow : Nat
  holdPeriod : Nat
  statusPeriod : Nat
  cueLead : Nat
  replyTimeout : Nat
  handbackMin : Nat
  retention : Nat
  slewLimit : Nat
deriving DecidableEq, Repr

/-- A channel part as stored, every field clamped to its range (R184). -/
structure ChannelPart where
  channel : Channel
  rate : Nat
  filler : Material
  rank : Nat
  beaconPeriod : Nat
  k1 : Nat
  k2 : Nat
  windowMin : Nat
  returnCount : Nat
  minTail : Nat
deriving DecidableEq, Repr

/-! ## Time base (01_station_time.md) -/

/-- The time-base states of section 1.3. -/
inductive TimeBaseState where
  | freeRun
  | seeking
  | locked
  | holdover
deriving DecidableEq, Repr

/-- The time base: the count, its rate, the measurement in progress and the state (R1 to R14). -/
structure TimeBase where
  now : Time
  acc : Nat
  step : Nat
  state : TimeBaseState
  measuring : Bool
  cycles : Nat
  periods : Nat
  lastPulse : Option Time
  missingDl : Option Time
  silenceDl : Option Time
  suspectRun : Nat
deriving DecidableEq, Repr

/-! ## Mirror (02_the_schedule_mirror.md, 03_event_timing_and_resolution.md) -/

/-- The times resolution gives a resolved record; all present or all absent (R42). -/
structure Times where
  nomStart : Time
  nomEnd : Time
  effEnd : Time
deriving DecidableEq, Repr

/-- An event record of the pool. `slot` is its place in the pool of 1536, by which the runner names it (R35). -/
structure EventRec where
  slot : Nat
  data : EventData
  times : Option Times
  eclipsed : Bool
  pinned : Bool
deriving DecidableEq, Repr

/-- The mirror's judgement of a copy (R23). -/
inductive Condition where
  | empty
  | current
  | stale
  | short
deriving DecidableEq, Repr

/-- The fields present while a snapshot fills (R23). -/
structure Filling where
  version : Version
  expected : Nat
  next : Nat
deriving DecidableEq, Repr

/-- The mirror record of a channel (R23). `filling` absent is the clear filling flag. -/
structure MirrorRec where
  condition : Condition
  version : Option Version
  filling : Option Filling
  rate : Nat
  reclaimed : Nat
deriving DecidableEq, Repr

/-- A request the mirror serves when it is free, in the order made (R18): a drift check or a reclaim sweep. -/
inductive MirrorReq where
  | drift (channel : Channel) (version : Version) (onAir : EventId)
  | sweep (channel : Channel)
deriving DecidableEq, Repr

/-- The framing states of the feed receiver and of the cue receiver (R15, R155). -/
inductive Framing where
  | hunt
  | wait
  | receiving
deriving DecidableEq, Repr

/-- The feed receiver: framing, ingest queue, counts (R15, R18, R19). -/
structure FeedRx where
  framing : Framing
  ingest : List SchedMsg
  faults : Nat
  drops : Nat
deriving DecidableEq, Repr

/-! ## Watch (04_channel_watch.md) -/

/-- The watch states (section 4.3). -/
inductive WatchState where
  | unseen
  | live
  | doubtful
  | lost
  | returning
deriving DecidableEq, Repr

/-- A main state without its switch time, as the watch record keeps the last one (section 4.1). -/
inductive MainKind where
  | running
  | standingDown
  | resumeOffer
deriving DecidableEq, Repr

/-- The watch record of a channel (section 4.1). Signed 48-bit values are held as their 48 bits. -/
structure WatchRec where
  state : WatchState
  forced : Bool
  lastArrival : Option Time
  doubtfulDl : Option Time
  lostDl : Option Time
  returnDl : Option Time
  quiet : Bool
  windowEnd : Option Time
  windowCount : Nat
  met : Bool
  returns : Nat
  estimate : Time
  seeded : Bool
  peak : Option Time
  valley : Option Time
  lastMain : Option MainKind
  lastOnAir : Option EventId
  lastSwitch : Option Time
deriving DecidableEq, Repr

/-! ## Site bus (05_the_site_bus.md) -/

/-- The bus states (section 5.6). -/
inductive BusState where
  | detached
  | listeningIn
  | active
  | quiet
deriving DecidableEq, Repr

/-- The receive framing states (R80); `off` is "not taking bits" in DETACHED (R100). -/
inductive BusRx where
  | off
  | hunt
  | free
  | receiving
deriving DecidableEq, Repr

/-- The frame under attempt, with its withdrawn mark (R86, R87). -/
structure Attempt where
  frame : Frame
  withdrawn : Bool
deriving DecidableEq, Repr

/-- A peer's presence (section 5.8). -/
inductive Presence where
  | absent
  | present
  | silent
deriving DecidableEq, Repr

/-- A peer table entry (section 5.8). -/
structure Peer where
  presence : Presence
  lastFrame : Option Time
  silenceDl : Option Time
  status : Option StatusBody
deriving DecidableEq, Repr

/-- The bus controller (R78 to R100). The entry of the own number in `peers` stays ABSENT. -/
structure BusCtl where
  state : BusState
  own : Station
  rx : BusRx
  huntCount : Nat
  queue : List Frame
  attempt : Option Attempt
  driving : List Bool
  faults : Nat
  drops : Nat
  losses : Nat
  malformed : Nat
  listeningDl : Option Time
  quietDl : Option Time
  statusDl : Option Time
  quietFromListening : Bool
  peers : Vector Peer 16
  heard : BitVec 16
deriving DecidableEq, Repr

/-! ## Takeover (06_claims_and_takeover.md, 10_handback.md) -/

/-- A key: merit and station (R103). -/
structure Key where
  merit : Byte
  station : Station
deriving DecidableEq, Repr

/-- Why a channel is BLOCKED (section 6.1). -/
inductive BlockedReason where
  | noOutlet
  | inhibited
  | noMirror
  | awaitLive
deriving DecidableEq, Repr

/-- The takeover states; the blocked reason is present in BLOCKED alone (section 6.1). -/
inductive TakeoverState where
  | detached
  | idle
  | blocked (reason : BlockedReason)
  | contending
  | yielded
  | joining
  | onAir
  | handingBack
deriving DecidableEq, Repr

/-- The best foreign claim (R104). -/
structure ForeignClaim where
  key : Key
  heard : Time
  expiry : Time
deriving DecidableEq, Repr

/-- The known holder (R105). -/
structure Holder where
  key : Key
  state : HoldState
  version : Version
  event : EventId
  lastHold : Time
  deadline : Time
deriving DecidableEq, Repr

/-- The fields of a channel in HANDING_BACK (section 10.1). `switchDl` is the switch deadline of R172, and `stopWaiting` says
that the stop point was reached while the request waits (R174). -/
structure Handback where
  switch : Time
  localSwitch : Time
  runSwitch : Time
  forced : Bool
  stopPoint : Option Time
  stopRequested : Bool
  stopWaiting : Bool
  switchDl : Option Time
deriving DecidableEq, Repr

/-- The takeover record of a channel (section 6.1). -/
structure TakeoverRec where
  state : TakeoverState
  ownClaim : Option Key
  claimSent : Bool
  windowEnd : Option Time
  best : Option ForeignClaim
  holder : Option Holder
  yieldDl : Option Time
  ownHold : Option Key
  holdDl : Option Time
  outlet : Option OutletNo
  inhibit : Bool
  awaitLive : Bool
  handback : Option Handback
deriving DecidableEq, Repr

/-! ## Runner (08_running_a_taken_channel.md) -/

/-- What an item airs: the record in a pool slot with its event id, or filler (section 8.1). -/
inductive ItemSource where
  | event (slot : Nat) (id : EventId)
  | filler
deriving DecidableEq, Repr

/-- An item (section 8.1). `upTo` is the record that a join result of filler up to an event names beside its FILLER item, which the
runner pins with it (R126, R134, table 7.5; log 60). `nextCue` is the place among the record's side cues of the next one not yet issued (R146);
`byGo` says that GO cued it (R148, R151); `serial` is the model's own name for it (log 14). -/
structure Item where
  source : ItemSource
  upTo : Option Nat
  mainStart : Time
  localStart : Time
  entry : Nat
  skipped : Nat
  play : Nat
  cuedEnd : Option Time
  locked : Bool
  runStart : Option Time
  unconfirmed : Bool
  nextCue : Nat
  byGo : Bool
  serial : Nat
deriving DecidableEq, Repr

/-- The run mode (section 8.1). -/
inductive RunMode where
  | running
  | awaitingGo
deriving DecidableEq, Repr

/-- The run anchor GO sets (R47, R148). -/
structure Anchor where
  id : EventId
  main : Time
deriving DecidableEq, Repr

/-- The run record of a taken channel (section 8.1). `goReport` holds the start report of the go item that waits for the
cued item (R144): the start time, and whether it is unconfirmed. `goOrigin` is the walk origin as it stood when the go item was
locked, which a failed go item leaves behind again (R145; log 42), and `cuedOrigin` as it stood when the cued item was locked, which a
restore cue that abandons that item leaves behind again (R177; log 16). -/
structure RunRec where
  outlet : OutletNo
  offset : Time
  mode : RunMode
  manualHold : Option EventId
  onAir : Option Item
  cued : Option Item
  goItem : Option Item
  goReport : Option (Time × Bool)
  goOrigin : Option EventId
  cuedOrigin : Option EventId
  walkOrigin : Option EventId
  cueMoment : Option Time
  anchor : Option Anchor
deriving DecidableEq, Repr

/-- How an aired item ended (R151). -/
inductive Ending where
  | full
  | cut
  | missed
  | stoodDown
  | handedBack
  | forced
deriving DecidableEq, Repr

/-- An as-run record (R151). `event` is absent for a FILLER item. -/
structure AsRun where
  channel : Channel
  outlet : OutletNo
  event : Option EventId
  runStart : Time
  mainStart : Time
  skipped : Nat
  played : Nat
  ending : Ending
  unconfirmed : Bool
deriving DecidableEq, Repr

/-! ## Channels -/

/-- Everything the part keeps for one profiled channel. The mirror and watch records exist from START on; before it they
hold their START values and nothing reads them (log 28). -/
structure Chan where
  part : ChannelPart
  latestQueued : Option Version
  mirror : MirrorRec
  list : List EventRec
  incoming : List EventRec
  unlinked : List EventRec
  watch : WatchRec
  tk : TakeoverRec
  run : Option RunRec
deriving DecidableEq, Repr

/-! ## Outlets and the cue port (09_outlets_and_the_cue_port.md) -/

/-- The outlet states (R153). -/
inductive OutletState where
  | free
  | reserved
  | air
  | stopping
  | faulted
deriving DecidableEq, Repr

/-- The kinds of command to the server (section 9.2). -/
inductive CmdKind where
  | prep
  | side
  | stop
deriving DecidableEq, Repr

/-- How a command fails (R164). -/
inductive Failure where
  | refused (reason : RefusedReason)
  | lapsed
  | missed
  | startLapse
deriving DecidableEq, Repr

/-- A PREP: its item's serial, the join mark, and its body but for the outlet (R160). -/
structure Prep where
  serial : Nat
  join : Bool
  material : Material
  entry : Nat
  start : Time
  duration : Nat
deriving DecidableEq, Repr

/-- A command to the server; a STOP carries whether it is the deciding STOP (R160 to R162). -/
inductive Cmd where
  | prep (p : Prep)
  | side (code : BitVec 16) (at_ : Time)
  | stop (at_ : Time) (deciding : Bool)
deriving DecidableEq, Repr

/-- The outstanding command (section 9.1). `sentAt` is the station time of its last check byte (R158). -/
structure Outstanding where
  cmd : Cmd
  tag : Nat
  sentAt : Time
  deadline : Time
  orphaned : Bool
deriving DecidableEq, Repr

/-- A PREP the server has taken whose STARTED has not come (section 9.1). -/
structure Awaiting where
  tag : Nat
  prep : Prep
  startDl : Time
deriving DecidableEq, Repr

/-- What became of the deciding STOP (R162). -/
inductive StopOutcome where
  | pending
  | taken
  | failed (failure : Failure)
deriving DecidableEq, Repr

/-- The armed stop with its outcome; local time 0 is "at once" (R162, R168). -/
structure ArmedStop where
  at_ : Time
  outcome : StopOutcome
deriving DecidableEq, Repr

/-- An outlet record (section 9.1) with its air output (R153). -/
structure Outlet where
  state : OutletState
  channel : Option Channel
  air : Bool
  queue : List Cmd
  outstanding : Option Outstanding
  awaiting : List Awaiting
  seq : Nat
  armed : Option ArmedStop
  fault : Option (CmdKind × Failure)
deriving DecidableEq, Repr

/-- The cue link: receiver framing, send order, the station time of the last byte of the command last begun (ahead of now while
it goes out), the late reply count, and that command's bytes on CQO (R155, R158). -/
structure CueLink where
  framing : Framing
  sendOrder : List OutletNo
  lastSent : Option Time
  late : Nat
  cqo : List Byte
deriving DecidableEq, Repr

/-! ## Local port and notices (11_local_port_profile_and_notices.md) -/

/-- The cause of a CHANNEL_LOST notice (R75). -/
inductive LostCause where
  | silence
  | returnBroken
  | standingDown
  | forced
deriving DecidableEq, Repr

/-- What a notice's detail says beside its subject, as the raising rule names it. The code byte that stands for it in a
reply is not given by the manual (log 6). Where a rule names two things for the one subject byte, the channel is the subject and
the other is part of the code (R121 to R123, R178; DESIGN CHOICE, log 43). -/
inductive NoticeCode where
  | plain
  | dualHolder (better : Station) (left : HoldState)
  | joinFailed (outlet : OutletNo) (failure : Failure)
  | stationClash (cls : BitVec 3)
  | channelLost (cause : LostCause)
  | taken (outlet : OutletNo)
  | cueFault (kind : CmdKind) (failure : Failure)
  | handedBack (outlet : OutletNo) (forced : Bool)
  | handbackNotLive
  | handbackTooSoon
  | mirror (condition : Condition)
  | poolShortSnapshot
  | poolShortEdit
  | busQuiet (fromListening : Bool)
  | timeHoldover
  | asrunWatermark
deriving DecidableEq, Repr

/-- A notice's detail (R186). -/
structure Detail where
  subject : Byte
  code : NoticeCode
deriving DecidableEq, Repr

/-- One class of the notice set (R186). -/
structure Notice where
  pending : Bool
  count : Nat
  detail : Option Detail
deriving DecidableEq, Repr

/-- The status of a reply (section 11.1). -/
inductive ReplyStatus where
  | done
  | clamped
  | refused
deriving DecidableEq, Repr

/-- A reply: its status and data bytes (section 11.1). -/
structure Reply where
  status : ReplyStatus
  data : List Byte
deriving DecidableEq, Repr

/-- The local port: the pending reply, and the bytes LSDO carries after the command part of the last transfer (R181). -/
structure Port where
  reply : Option Reply
  lsdo : List Byte
deriving DecidableEq, Repr

/-- A PREP failure or start lapse of a running channel's later item, on its way to the runner within one step (log 14). -/
structure ItemReport where
  channel : Channel
  serial : Nat
  lapse : Bool
deriving DecidableEq, Repr

/-! ## The whole part -/

/-- The state of the T240, with the queue of commands that wait (first in, first out). -/
structure State where
  tb : TimeBase
  station : Option StationPart
  locked : Bool
  chans : List Chan
  feed : FeedRx
  mirrorReqs : List MirrorReq
  poolFree : List Nat
  bus : BusCtl
  outlets : Vector Outlet 4
  cue : CueLink
  asrun : List AsRun
  asrunDrops : Nat
  notices : Vector Notice 12
  floor : Nat
  attn : Bool
  port : Port
  itemSerial : Nat
  reports : List ItemReport
  pending : List Instr
deriving DecidableEq, Repr

/-- Why the part stops with a fault. The manual gives no event after which the part stops, so there is no reason and no
command faults; a type without constructors is safe. -/
inductive Fault where
deriving DecidableEq, Repr

/-- Why a command is refused. -/
inductive Refusal where
  /-- Raised by an arm of `exec` whose command has no meaning yet; safe. No arm raises it now. -/
  | notModelled (mnemonic : String)
deriving DecidableEq, Repr

/-! ## Pin reset -/

/-- The time base after pin reset (R13). -/
def TimeBase.reset : TimeBase :=
  { now := 0, acc := 0, step := Config.nominalStep, state := .freeRun, measuring := false, cycles := 0, periods := 0,
    lastPulse := none, missingDl := none, silenceDl := none, suspectRun := 0 }

/-- A peer entry never heard (section 5.8). -/
def Peer.blank : Peer := { presence := .absent, lastFrame := none, silenceDl := none, status := none }

/-- The bus controller after pin reset (R100). -/
def BusCtl.reset : BusCtl :=
  { state := .detached, own := 0, rx := .off, huntCount := 0, queue := [], attempt := none, driving := [], faults := 0,
    drops := 0, losses := 0, malformed := 0, listeningDl := none, quietDl := none, statusDl := none,
    quietFromListening := false, peers := Vector.replicate 16 Peer.blank, heard := 0 }

/-- An outlet after pin reset (R170). -/
def Outlet.reset : Outlet :=
  { state := .free, channel := none, air := false, queue := [], outstanding := none, awaiting := [], seq := 0,
    armed := none, fault := none }

/-- A notice class that is clear (R205). -/
def Notice.blank : Notice := { pending := false, count := 0, detail := none }

/-- The T240 right after pin reset (R13, R40, R77, R100, R101, R152, R170, R205), with no command waiting. -/
def State.reset : State :=
  { tb := TimeBase.reset
    station := none
    locked := false
    chans := []
    feed := { framing := .hunt, ingest := [], faults := 0, drops := 0 }
    mirrorReqs := []
    poolFree := List.range Config.poolSize
    bus := BusCtl.reset
    outlets := Vector.replicate 4 Outlet.reset
    cue := { framing := .hunt, sendOrder := [], lastSent := none, late := 0, cqo := [] }
    asrun := []
    asrunDrops := 0
    notices := Vector.replicate 12 Notice.blank
    floor := 12
    attn := false
    port := { reply := none, lsdo := [] }
    itemSerial := 0
    reports := []
    pending := [] }

end Sys2Proof.Machine
end

