-- ==== Sys2Proof/Machine/Ops.lean ====
section
/-! DEFINITION. The operations every block uses: comparisons of times, saturating counts, and reading and changing one
channel record, one outlet record or one notice class. -/

namespace Sys2Proof.Machine

/-! ## Times (00_scope.md, "Time comparisons"; R1, R3) -/

/-- `a` less `b`, read as a signed 48-bit value. -/
def diff (a b : Time) : Int := (a - b).toInt

/-- `a` is before `b`. -/
def before (a b : Time) : Bool := decide (diff a b < 0)

/-- `a` is at or before `b`. -/
def atOrBefore (a b : Time) : Bool := decide (diff a b ≤ 0)

/-- The later of two times. -/
def laterOf (a b : Time) : Time := if before a b then b else a

/-- `n` grains after `t`. -/
def plus (t : Time) (n : Nat) : Time := t + BitVec.ofNat 48 n

/-- `n` grains before `t`. -/
def minus (t : Time) (n : Nat) : Time := t - BitVec.ofNat 48 n

/-- The deadline `d` is armed and reached at station time `now` (R3). At a distance of exactly 2^47 it counts as reached
(DESIGN CHOICE, log 45). -/
def due (d : Option Time) (now : Time) : Bool :=
  match d with
  | some t => atOrBefore t now
  | none => false

/-- Milliseconds as grains (R3). -/
def msGrains (n : Nat) : Nat := n * Config.grainsPerMs

/-- A quotient of grain counts rounded up. -/
def ceilDiv (n d : Nat) : Nat := (n + d - 1) / d

/-! ## Saturating counts -/

/-- A count of 16 bits that stays at 65535 once reached. -/
def sat16 (n : Nat) : Nat := min 65535 n

/-- A count of 8 bits that stays at 255 once reached. -/
def sat8 (n : Nat) : Nat := min 255 n

/-! ## Lists -/

/-- Takes the first element that passes the test out of a list. -/
def takeFirst {α : Type} (p : α → Bool) : List α → Option (α × List α)
  | [] => none
  | x :: xs =>
    if p x then some (x, xs)
    else match takeFirst p xs with
      | some (y, ys) => some (y, x :: ys)
      | none => none

/-- Drops a list through the last element that passes the test; the whole list stays when none does. -/
def dropThroughLast {α : Type} (p : α → Bool) : List α → List α
  | [] => []
  | x :: xs => if xs.any p then dropThroughLast p xs else if p x then xs else x :: xs

/-! ## The profile -/

/-- A station part in which nothing is set: what a block would read before LOAD_STATION. From START on a station part is
always loaded (R185), so no step after START reads this one. -/
def StationPart.blank : StationPart :=
  { number := 0, rate := 0, feedDelay := 0, claimWindow := 0, holdPeriod := 0, statusPeriod := 0, cueLead := 0,
    replyTimeout := 0, handbackMin := 0, retention := 0, slewLimit := 0 }

/-- The station part every block reads its values from (R205). -/
def State.sp (s : State) : StationPart := s.station.getD StationPart.blank

/-- Station time now. -/
def State.now (s : State) : Time := s.tb.now

/-! ## Channel records -/

/-- The record of a profiled channel. -/
def State.chan? (s : State) (c : Channel) : Option Chan := s.chans.find? (fun ch => ch.part.channel == c)

/-- Changes the record of a channel; nothing happens for a channel not in the profile. -/
def State.modChan (s : State) (c : Channel) (f : Chan → Chan) : State :=
  { s with chans := s.chans.map (fun ch => if ch.part.channel == c then f ch else ch) }

/-- Changes a channel's takeover record. -/
def State.modTk (s : State) (c : Channel) (f : TakeoverRec → TakeoverRec) : State :=
  s.modChan c (fun ch => { ch with tk := f ch.tk })

/-- Changes a channel's watch record. -/
def State.modWatch (s : State) (c : Channel) (f : WatchRec → WatchRec) : State :=
  s.modChan c (fun ch => { ch with watch := f ch.watch })

/-- Changes a channel's mirror record. -/
def State.modMirror (s : State) (c : Channel) (f : MirrorRec → MirrorRec) : State :=
  s.modChan c (fun ch => { ch with mirror := f ch.mirror })

/-- Changes a channel's run record, if it has one. -/
def State.modRun (s : State) (c : Channel) (f : RunRec → RunRec) : State :=
  s.modChan c (fun ch => { ch with run := ch.run.map f })

/-- The channel's frame period in grains, from the rate in its mirror record (R41, section 7.1). -/
def Chan.period (ch : Chan) : Nat := Config.ratePeriod ch.mirror.rate

/-- The channel's beacon period in grains (section 4.1). -/
def Chan.beaconGrains (ch : Chan) : Nat := msGrains ch.part.beaconPeriod

/-- The cue lead in grains on a channel (section 7.1). -/
def State.lead (s : State) (ch : Chan) : Nat := s.sp.cueLead * ch.period

/-- This station holds the channel: JOINING, ON_AIR or HANDING_BACK (00_scope.md, "holder"). -/
def TakeoverState.holding : TakeoverState → Bool
  | .joining | .onAir | .handingBack => true
  | _ => false

/-! ## Outlet records -/

/-- One outlet's record. -/
def State.outlet (s : State) (o : OutletNo) : Outlet := s.outlets[o]

/-- Changes one outlet's record. -/
def State.modOutlet (s : State) (o : OutletNo) (f : Outlet → Outlet) : State :=
  { s with outlets := s.outlets.set o (f (s.outlet o)) }

/-! ## Event pool (R20) -/

/-- Takes a record from the free list; `none` when the pool is empty. -/
def State.allocSlot (s : State) : Option (Nat × State) :=
  match s.poolFree with
  | [] => none
  | n :: rest => some (n, { s with poolFree := rest })

/-- Returns records to the free list. -/
def State.freeRecords (s : State) (rs : List EventRec) : State :=
  { s with poolFree := rs.map (·.slot) ++ s.poolFree }

end Sys2Proof.Machine
end

