-- ==== Sys2Proof/Machine/Resolution.lean ====
section
/-! DEFINITION. Event timing and resolution (03_event_timing_and_resolution.md): the two passes that give every event of a
channel list its nominal start, nominal end, effective end and eclipsed mark, and what is read off them. -/

namespace Sys2Proof.Machine

/-- The start that places an event by itself: a FIXED event's start time, or the anchor's main start for the anchored MANUAL
event (R44, R47). -/
def ownStart (anchor : Option Anchor) (e : EventRec) : Option Time :=
  match e.data.start with
  | .fixed t => some t
  | .follow => none
  | .manual => anchor.bind (fun a => if a.id = e.data.id then some a.main else none)

/-- The reference start: that of the first FIXED or anchored event in list order (R43). A list without one resolves nothing,
so the stand-in 0 is never used for a time. -/
def referenceStart (anchor : Option Anchor) (l : List EventRec) : Time := (l.findSome? (ownStart anchor)).getD 0

/-- The whole frames between two offsets, 0 when the end is at or before the start (R49). -/
def wholeFrames (period : Nat) (start stop : Int) : Nat := (stop - start).toNat / period

/-- The earlier of an offset and a limit that may be infinite (R48, R49). -/
def minLimit (x : Int) : Option Int → Int
  | some l => min x l
  | none => x

/-- Pass 1 on the way down the list, with the nominal end of the event before, and pass 2 on the way back, handing up the
earliest FIXED or anchored start met (R43 to R49). All times are exact offsets from the reference start. -/
def resolveFrom (period : Nat) (anchor : Option Anchor) (ref : Time) :
    Option Int → List EventRec → List EventRec × Option Int
  | _, [] => ([], none)
  | prevEnd, e :: rest =>
    let own : Option Int := (ownStart anchor e).map (fun t => diff t ref)
    let start : Option Int :=
      match own with
      | some x => some x
      | none => if e.data.start = .follow then prevEnd else none
    let nomEnd : Option Int := start.map (fun x => x + (e.data.duration.toNat * period : Nat))
    let below := resolveFrom period anchor ref nomEnd rest
    let e' : EventRec :=
      match start with
      | none => { e with times := none, eclipsed := false }
      | some st =>
        let ne : Int := st + (e.data.duration.toNat * period : Nat)
        let ee : Int := minLimit ne below.2
        { e with
          times := some
            { nomStart := ref + BitVec.ofInt 48 st, nomEnd := ref + BitVec.ofInt 48 ne, effEnd := ref + BitVec.ofInt 48 ee }
          eclipsed := wholeFrames period st ee == 0 }
    (e' :: below.1,
      match own with
      | some x => some (minLimit x below.2)
      | none => below.2)

/-- Resolution of a whole channel list (R41). -/
def resolve (period : Nat) (anchor : Option Anchor) (l : List EventRec) : List EventRec :=
  (resolveFrom period anchor (referenceStart anchor l) none l).1

/-- The effective duration of an event with the times `t`, in whole frames: 0 when it is eclipsed (R49). -/
def EventRec.framesOf (e : EventRec) (period : Nat) (t : Times) : Nat :=
  if e.eclipsed then 0 else (t.effEnd - t.nomStart).toNat / period

/-- An event's effective duration in whole frames; absent while it is unresolved (R42). -/
def EventRec.effFrames (e : EventRec) (period : Nat) : Option Nat := e.times.map (e.framesOf period)

/-- A resolved, non-eclipsed event has an interval (R51, R52). -/
def EventRec.airs (e : EventRec) : Bool := e.times.isSome && !e.eclipsed

/-- A resolved, non-eclipsed event whose effective end is at or before `t`. -/
def EventRec.endsBy (e : EventRec) (t : Time) : Bool :=
  match e.times with
  | some x => !e.eclipsed && atOrBefore x.effEnd t
  | none => false

/-- The JOIN_WHOLE flag, the lowest bit of the flags byte (section 2.2). -/
def EventRec.joinWhole (e : EventRec) : Bool := e.data.flags.getLsbD 0

/-- A side cue is live when its offset is less than the event's effective duration (R53); without one it is not. -/
def EventRec.liveCue (e : EventRec) (period : Nat) (c : SideCue) : Bool :=
  (e.effFrames period).any (fun n => decide (c.offset.toNat < n))

end Sys2Proof.Machine
end

