-- ==== Sys2Proof/Machine/JoinPoint.lean ====
section
/-! DEFINITION. The join computation (07_the_join_point.md): a function of the channel list as the last resolution left it, the
offset, the period, the cue lead and the min tail, from a decision time. It keeps no state. -/

namespace Sys2Proof.Machine

/-- The inputs of a join but the list (section 7.1). `lead` is the cue lead in grains. -/
structure JoinInput where
  time : Time
  offset : Time
  period : Nat
  lead : Nat
  minTail : Nat
deriving DecidableEq, Repr

/-- A join result (section 7.5): an event entered `k` frames past its start, the next event at its own start, `frames` of
filler up to the next event `e`, or filler without end with its manual hold. -/
inductive JoinResult where
  | entry (e : EventRec) (start : Time) (k frames : Nat)
  | eventStart (e : EventRec) (start : Time) (frames : Nat)
  | fillerThen (e : EventRec) (start next : Time) (frames : Nat)
  | fillerOpen (start : Time) (hold : Option EventId)
deriving DecidableEq, Repr

/-- The join time J: the main decision time plus the lead (R127). -/
def JoinInput.joinTime (i : JoinInput) : Time := plus (i.time - i.offset) i.lead

/-- An event contains `j`: resolved, not eclipsed, nominal start ≤ j < effective end (R128). -/
def EventRec.contains (e : EventRec) (j : Time) : Bool :=
  match e.times with
  | some t => !e.eclipsed && atOrBefore t.nomStart j && before j t.effEnd
  | none => false

/-- The frames from an event's nominal start to its first frame boundary at or after `j` (R129). -/
def boundaryFrames (period : Nat) (start j : Time) : Nat := ceilDiv (j - start).toNat period

/-- The tail test on the containing event, of effective duration `frames`, with its `k` (R130). -/
def tailPasses (e : EventRec) (frames minTail k : Nat) : Bool :=
  decide (k + minTail ≤ frames) && !(e.joinWhole && decide (0 < k))

/-- The walk to what comes next (R132, R133). A next event whose start reads as before J is taken as lying ahead (DESIGN CHOICE,
log 53). -/
def joinWalk (i : JoinInput) : List EventRec → JoinResult
  | [] => .fillerOpen i.joinTime none
  | e :: rest =>
    match e.times with
    | none => .fillerOpen i.joinTime (if e.data.start = .manual then some e.data.id else none)
    | some t =>
      if e.eclipsed then joinWalk i rest
      else
        let f := (t.nomStart - i.joinTime).toNat / i.period
        if f = 0 then .eventStart e t.nomStart (e.framesOf i.period t)
        else .fillerThen e (minus t.nomStart (f * i.period)) t.nomStart f

/-- The events after the first one that contains `j`, with it, when there is one (R128). -/
def splitAtContaining (j : Time) : List EventRec → Option (EventRec × List EventRec)
  | [] => none
  | e :: rest => if e.contains j then some (e, rest) else splitAtContaining j rest

/-- The join computation over the events at and after the search origin (R126 to R133). -/
def join (i : JoinInput) (events : List EventRec) : JoinResult :=
  let j := i.joinTime
  match splitAtContaining j events with
  | some (e, rest) =>
    match e.times with
    | none => joinWalk i rest
    | some t =>
      let k := boundaryFrames i.period t.nomStart j
      if tailPasses e (e.framesOf i.period t) i.minTail k then
        .entry e (plus t.nomStart (k * i.period)) k (e.framesOf i.period t - k)
      else joinWalk i rest
  | none => joinWalk i (dropThroughLast (fun e => e.endsBy j) events)

/-- The main start of a join result (section 7.5). -/
def JoinResult.mainStart : JoinResult → Time
  | .entry _ t _ _ => t
  | .eventStart _ t _ => t
  | .fillerThen _ t _ _ => t
  | .fillerOpen t _ => t

/-- The manual hold a join result carries (section 7.5). -/
def JoinResult.hold : JoinResult → Option EventId
  | .fillerOpen _ h => h
  | _ => none

end Sys2Proof.Machine
end

