-- ==== Sys2Proof/Machine/Flags.lean ====
section
/-! DEFINITION. The judged conditions of the part, and the notice set with its attention output (R186): the time class (R12),
the merit and the order of keys (R102, R103), the mirror's condition requests (R24). -/

namespace Sys2Proof.Machine

/-! ## Notices (R186) -/

/-- The notice classes of section 11.3. -/
inductive NoticeClass where
  | dualHolder
  | joinFailed
  | stationClash
  | channelLost
  | taken
  | cueFault
  | handback
  | mirrorStale
  | poolShort
  | busQuiet
  | peerSilent
  | timeOrAsrun
deriving DecidableEq, Repr

/-- The number of a notice class (section 11.3). -/
def NoticeClass.number : NoticeClass → Fin 12
  | .dualHolder => 0
  | .joinFailed => 1
  | .stationClash => 2
  | .channelLost => 3
  | .taken => 4
  | .cueFault => 5
  | .handback => 6
  | .mirrorStale => 7
  | .poolShort => 8
  | .busQuiet => 9
  | .peerSilent => 10
  | .timeOrAsrun => 11

/-- The class of a detail's code; `plain` is the code of the one notice whose rule names no detail code, PEER_SILENT (R97). -/
def NoticeCode.cls : NoticeCode → NoticeClass
  | .dualHolder .. => .dualHolder
  | .joinFailed .. => .joinFailed
  | .stationClash _ => .stationClash
  | .channelLost _ => .channelLost
  | .taken _ => .taken
  | .cueFault .. => .cueFault
  | .handedBack .. => .handback
  | .handbackNotLive => .handback
  | .handbackTooSoon => .handback
  | .mirror _ => .mirrorStale
  | .poolShortSnapshot => .poolShort
  | .poolShortEdit => .poolShort
  | .busQuiet _ => .busQuiet
  | .plain => .peerSilent
  | .timeHoldover => .timeOrAsrun
  | .asrunWatermark => .timeOrAsrun

/-- A number of a failure, with the reason of a REFUSED, below 8. -/
def Failure.index : Failure → Nat
  | .refused .noMaterial => 0
  | .refused .tooLate => 1
  | .refused .badEntry => 2
  | .refused .outletBusy => 3
  | .refused .other => 4
  | .lapsed => 5
  | .missed => 6
  | .startLapse => 7

/-- A number of what a code tells, which no two codes of one class share. It stands for no byte: the byte is free (log 6). -/
def NoticeCode.index : NoticeCode → Nat
  | .plain => 0
  | .dualHolder st .joining => st.toNat
  | .dualHolder st .onAir => 16 + st.toNat
  | .dualHolder st .handingBack => 32 + st.toNat
  | .joinFailed o f => 8 * o.val + f.index
  | .stationClash cls => cls.toNat
  | .channelLost .silence => 0
  | .channelLost .returnBroken => 1
  | .channelLost .standingDown => 2
  | .channelLost .forced => 3
  | .taken o => o.val
  | .cueFault .prep f => f.index
  | .cueFault .side f => 8 + f.index
  | .cueFault .stop f => 16 + f.index
  | .handedBack o false => o.val
  | .handedBack o true => 4 + o.val
  | .handbackNotLive => 8
  | .handbackTooSoon => 9
  | .mirror .empty => 0
  | .mirror .current => 1
  | .mirror .stale => 2
  | .mirror .short => 3
  | .poolShortSnapshot => 0
  | .poolShortEdit => 1
  | .busQuiet false => 0
  | .busQuiet true => 1
  | .timeHoldover => 0
  | .asrunWatermark => 1

/-- The byte of a detail's code (R186): a free value, with nothing known of it but that codes of one class have bytes of their own,
since each tells what its rule names, and in classes 6 and 11 which of the two notices occurred. -/
def noticeCodeByte (c : NoticeCode) : Byte := Config.noticeCodes c.cls.number (BitVec.ofNat 8 c.index)

/-- Some pending class is numbered below the floor (R186). -/
def attentionOf (notices : Vector Notice 12) (floor : Nat) : Bool :=
  (List.finRange 12).any (fun i => notices[i].pending && decide (i.val < floor))

/-- Judges the attention output from the notice set and the floor (R186). -/
def State.judgeAttention (s : State) : State := { s with attn := attentionOf s.notices s.floor }

/-- Changes one notice class and judges the attention output again. -/
def State.modNotice (s : State) (i : Fin 12) (f : Notice → Notice) : State :=
  ({ s with notices := s.notices.set i (f s.notices[i]) }).judgeAttention

/-- Raises a notice with its subject byte and what its code tells (R186). -/
def State.raise (s : State) (cls : NoticeClass) (subject : Byte) (code : NoticeCode) : State :=
  s.modNotice cls.number (fun n =>
    { pending := true, count := sat8 (n.count + 1), detail := some { subject := subject, code := code } })

/-! ## Time class (R12) -/

/-- The time class of a time-base state. -/
def TimeBaseState.timeClass : TimeBaseState → TimeClass
  | .locked => .locked
  | .holdover => .holdover
  | .seeking => .seeking
  | .freeRun => .seeking

/-- The code of a time class (section 5.2). -/
def timeClassCode : TimeClass → Nat
  | .locked => 0
  | .holdover => 1
  | .seeking => 2

/-! ## Merit and keys (R102, R103) -/

/-- The mirror class of a condition; EMPTY has none (R102). -/
def Condition.mirrorClass : Condition → Option Nat
  | .empty => none
  | .current => some 0
  | .stale => some 1
  | .short => some 2

/-- 64 × mirror class + 4 × serving rank + time class (R102). -/
def meritOf (mirrorClass rank : Nat) (tc : TimeClass) : Nat := 64 * mirrorClass + 4 * rank + timeClassCode tc

/-- The merit of this station's claim for a channel as things stand; absent for an EMPTY mirror (R102). -/
def State.merit (s : State) (ch : Chan) : Option Byte :=
  ch.mirror.condition.mirrorClass.map (fun m => BitVec.ofNat 8 (meritOf m ch.part.rank s.tb.state.timeClass))

/-- One key is better than another (R103). -/
def Key.better (a b : Key) : Bool :=
  decide (a.merit.toNat < b.merit.toNat ∨ (a.merit = b.merit ∧ a.station.toNat < b.station.toNat))

/-- A recorded foreign claim counts against an own key: it is not past its expiry and its key is better (R111, R113).
At the very moment of its expiry it still counts until the expiry is taken (R117; log 10). -/
def ForeignClaim.beats (f : ForeignClaim) (now : Time) (k : Key) : Bool := !before f.expiry now && f.key.better k

/-! ## Condition requests (R24) -/

/-- What "mark stale" makes of a condition. -/
def Condition.markStale : Condition → Condition
  | .current => .stale
  | c => c

/-- What "mark short" makes of a condition. -/
def Condition.markShort : Condition → Condition
  | .current => .short
  | .stale => .short
  | c => c

end Sys2Proof.Machine
end

