-- ==== Sys2Proof/Machine/Operands.lean ====
section
/-! DEFINITION. The formats of the part: the check word (00_scope.md, "Byte order and check words"), feed messages (section
2.2), bus frames (section 5.2), cue messages (section 9.2), local-port frames and profile fields (sections 11.1, 11.2), and
the encodings of the read replies (section 11.4). A parse answers nothing for bytes its layout does not admit. -/

namespace Sys2Proof.Machine

/-! ## Bytes and the check word -/

/-- `n` bytes of a number, most significant first. -/
def beBytes : Nat → Nat → List Byte
  | 0, _ => []
  | n + 1, v => BitVec.ofNat 8 (v / 256 ^ n) :: beBytes n v

/-- The number that bytes spell, most significant first. -/
def beNat (l : List Byte) : Nat := l.foldl (fun acc b => acc * 256 + b.toNat) 0

/-- Takes an `n`-byte number off the front, when so many bytes are left. -/
def takeNat (n : Nat) (l : List Byte) : Option (Nat × List Byte) :=
  if l.length < n then none else some (beNat (l.take n), l.drop n)

/-- `n` bits of a number, most significant first. -/
def beBits : Nat → Nat → List Bool
  | 0, _ => []
  | n + 1, v => v.testBit n :: beBits n v

/-- One bit of the cyclic check x^16 + x^12 + x^5 + 1. -/
def crcBit (crc : BitVec 16) (b : Bool) : BitVec 16 :=
  if crc.msb != b then (crc <<< 1) ^^^ 0x1021#16 else crc <<< 1

/-- One byte of the check, most significant bit first. -/
def crcByte (crc : BitVec 16) (b : Byte) : BitVec 16 := (beBits 8 b.toNat).foldl crcBit crc

/-- The check word of a run of bytes: initial value all ones, nothing reflected, nothing added at the end. -/
def checkWord (l : List Byte) : BitVec 16 := l.foldl crcByte 0xFFFF#16

/-! ## Feed messages (section 2.2, R16) -/

/-- A feed message that has passed the structure test. -/
inductive FeedMsg where
  | beacon (b : BeaconMsg)
  | sched (m : SchedMsg)
deriving DecidableEq, Repr

/-- The bytes of a side cue. -/
def cueBytes (c : SideCue) : List Byte := beBytes 3 c.offset.toNat ++ beBytes 2 c.code.toNat

/-- The start-kind byte and, for FIXED, the start time. -/
def startBytes : StartRule → List Byte
  | .fixed t => beBytes 1 1 ++ beBytes 6 t.toNat
  | .follow => beBytes 1 2
  | .manual => beBytes 1 3

/-- The bytes of an event record. -/
def eventBytes (e : EventData) : List Byte :=
  beBytes 4 e.id.toNat ++ startBytes e.start ++ beBytes 3 e.duration.toNat ++ beBytes 16 e.material.toNat
    ++ beBytes 3 e.entry.toNat ++ [e.flags] ++ beBytes 1 e.cues.length ++ (e.cues.map cueBytes).flatten

/-- Reads the side cues; the count must use up the bytes. -/
def parseCues : Nat → List Byte → Option (List SideCue)
  | 0, l => if l.isEmpty then some [] else none
  | n + 1, l => do
    let (off, l) ← takeNat 3 l
    let (code, l) ← takeNat 2 l
    let rest ← parseCues n l
    some ({ offset := BitVec.ofNat 24 off, code := BitVec.ofNat 16 code } :: rest)

/-- Reads the start rule: its code must be 1, 2 or 3 (R16). -/
def parseStart (l : List Byte) : Option (StartRule × List Byte) := do
  let (k, l) ← takeNat 1 l
  match k with
  | 1 => do
    let (t, l) ← takeNat 6 l
    some (.fixed (BitVec.ofNat 48 t), l)
  | 2 => some (.follow, l)
  | 3 => some (.manual, l)
  | _ => none

/-- Reads an event record that uses up the bytes; the side-cue count is at most 4 (R16). -/
def parseEvent (l : List Byte) : Option EventData := do
  let (id, l) ← takeNat 4 l
  let (start, l) ← parseStart l
  let (dur, l) ← takeNat 3 l
  let (mat, l) ← takeNat 16 l
  let (entry, l) ← takeNat 3 l
  let (flags, l) ← takeNat 1 l
  let (n, l) ← takeNat 1 l
  if 4 < n then none
  else do
    let cues ← parseCues n l
    some { id := BitVec.ofNat 32 id, start := start, duration := BitVec.ofNat 24 dur,
           material := BitVec.ofNat 128 mat, entry := BitVec.ofNat 24 entry, flags := BitVec.ofNat 8 flags,
           cues := cues }

/-- The main-state byte of a beacon. -/
def mainStateCode : MainState → Nat
  | .running => 1
  | .standingDown => 2
  | .resumeOffer _ => 3

/-- A beacon's body bytes. -/
def beaconBody (b : BeaconMsg) : List Byte :=
  beBytes 6 b.stamp.toNat ++ beBytes 1 (mainStateCode b.main) ++ beBytes 2 b.version.toNat ++ beBytes 4 b.onAir.toNat
    ++ (match b.main with
        | .resumeOffer t => beBytes 6 t.toNat
        | _ => [])

/-- Reads a beacon's body: 13 bytes, or 19 with RESUME_OFFER (R16). -/
def parseBeacon (c : Channel) (l : List Byte) : Option BeaconMsg := do
  let (stamp, l) ← takeNat 6 l
  let (k, l) ← takeNat 1 l
  let (ver, l) ← takeNat 2 l
  let (ev, l) ← takeNat 4 l
  let main ← match k with
    | 1 => if l.isEmpty then some MainState.running else none
    | 2 => if l.isEmpty then some MainState.standingDown else none
    | 3 => do
      let (t, l) ← takeNat 6 l
      if l.isEmpty then some (MainState.resumeOffer (BitVec.ofNat 48 t)) else none
    | _ => none
  some { channel := c, stamp := BitVec.ofNat 48 stamp, main := main, version := BitVec.ofNat 16 ver,
         onAir := BitVec.ofNat 32 ev }

/-- The kind byte of a schedule message. -/
def schedKind : SchedBody → Nat
  | .snapOpen .. => 2
  | .snapEvent .. => 3
  | .snapClose .. => 4
  | .editPut .. => 5
  | .editDrop .. => 6

/-- A schedule message's body bytes. -/
def schedBytes : SchedBody → List Byte
  | .snapOpen v n => beBytes 2 v.toNat ++ beBytes 2 n.toNat
  | .snapEvent v i e => beBytes 2 v.toNat ++ [i] ++ eventBytes e
  | .snapClose v n => beBytes 2 v.toNat ++ beBytes 2 n.toNat
  | .editPut b n a e => beBytes 2 b.toNat ++ beBytes 2 n.toNat ++ beBytes 4 a.toNat ++ eventBytes e
  | .editDrop b n i => beBytes 2 b.toNat ++ beBytes 2 n.toNat ++ beBytes 4 i.toNat

/-- Reads the two 2-byte fields of a SNAP_OPEN or SNAP_CLOSE body. -/
def parsePair (l : List Byte) : Option (Nat × Nat) := do
  let (v, l) ← takeNat 2 l
  let (n, l) ← takeNat 2 l
  if l.isEmpty then some (v, n) else none

/-- Reads a SNAP_EVENT body. -/
def parseSnapEvent (l : List Byte) : Option SchedBody := do
  let (v, l) ← takeNat 2 l
  let (i, l) ← takeNat 1 l
  let e ← parseEvent l
  some (.snapEvent (BitVec.ofNat 16 v) (BitVec.ofNat 8 i) e)

/-- Reads an EDIT_PUT body. -/
def parseEditPut (l : List Byte) : Option SchedBody := do
  let (b, l) ← takeNat 2 l
  let (n, l) ← takeNat 2 l
  let (a, l) ← takeNat 4 l
  let e ← parseEvent l
  some (.editPut (BitVec.ofNat 16 b) (BitVec.ofNat 16 n) (BitVec.ofNat 32 a) e)

/-- Reads an EDIT_DROP body. -/
def parseEditDrop (l : List Byte) : Option SchedBody := do
  let (b, l) ← takeNat 2 l
  let (n, l) ← takeNat 2 l
  let (i, l) ← takeNat 4 l
  if l.isEmpty then some (.editDrop (BitVec.ofNat 16 b) (BitVec.ofNat 16 n) (BitVec.ofNat 32 i)) else none

/-- The structure test of a feed message: the third step of R16. -/
def parseFeed (kind : Nat) (c : Channel) (body : List Byte) : Option FeedMsg :=
  match kind with
  | 1 => (parseBeacon c body).map .beacon
  | 2 => (parsePair body).map (fun p => .sched ⟨c, .snapOpen (BitVec.ofNat 16 p.1) (BitVec.ofNat 16 p.2)⟩)
  | 3 => (parseSnapEvent body).map (fun b => .sched ⟨c, b⟩)
  | 4 => (parsePair body).map (fun p => .sched ⟨c, .snapClose (BitVec.ofNat 16 p.1) (BitVec.ofNat 16 p.2)⟩)
  | 5 => (parseEditPut body).map (fun b => .sched ⟨c, b⟩)
  | 6 => (parseEditDrop body).map (fun b => .sched ⟨c, b⟩)
  | _ => none

/-- The kind byte of a feed message. -/
def feedKind : FeedMsg → Nat
  | .beacon _ => 1
  | .sched m => schedKind m.body

/-- The channel byte of a feed message. -/
def feedChannel : FeedMsg → Channel
  | .beacon b => b.channel
  | .sched m => m.channel

/-- The body bytes of a feed message. -/
def feedBody : FeedMsg → List Byte
  | .beacon b => beaconBody b
  | .sched m => schedBytes m.body

/-- The check of a byte-framed message with a 2-byte length: over kind, second header byte, length and body
(sections 2.2 and 9.2). -/
def messageCheck (kind second : Byte) (body : List Byte) : BitVec 16 :=
  checkWord (kind :: second :: beBytes 2 body.length ++ body)

/-- The structure test of the fields of an event record that are operands already: at most 4 side cues (R16). -/
def eventStructure (e : EventData) : Bool := decide (e.cues.length ≤ 4)

/-- The structure test of a schedule message that is an operand already (R16). -/
def schedStructure : SchedBody → Bool
  | .snapEvent _ _ e => eventStructure e
  | .editPut _ _ _ e => eventStructure e
  | _ => true

/-! ## Bus frames (section 5.2, R79, R81) -/

/-- The class of a frame body. -/
def frameClass : FrameBody → Nat
  | .claim _ => 1
  | .hold .. => 2
  | .release .. => 3
  | .status _ => 4

/-- The hold-state byte. -/
def holdStateCode : HoldState → Nat
  | .joining => 1
  | .onAir => 2
  | .handingBack => 3

/-- The release-reason byte. -/
def reasonCode : ReleaseReason → Nat
  | .handedBack => 1
  | .stoodDown => 2
  | .joinFailed => 3
  | .forced => 4

/-- The bytes of a STATUS body. -/
def statusBytes (b : StatusBody) : List Byte :=
  beBytes 1 (if b.active then 2 else 1) ++ beBytes 1 b.freeOutlets ++ beBytes 1 (timeClassCode b.timeClass)
    ++ beBytes 1 b.held ++ beBytes 8 b.serve.toNat

/-- A frame's body bytes. -/
def frameBytes : FrameBody → List Byte
  | .claim c => [c]
  | .hold c h v e => [c] ++ beBytes 1 (holdStateCode h) ++ beBytes 2 v.toNat ++ beBytes 4 e.toNat
  | .release c r => [c] ++ beBytes 1 (reasonCode r)
  | .status b => statusBytes b

/-- The arbitration field: class × 4096 + merit × 16 + station (section 5.2). -/
def frameField (f : Frame) : Nat := frameClass f.body * 4096 + f.merit.toNat * 16 + f.station.toNat

/-- The check of a frame from its three header bytes and its body (R79). -/
def busCheck (cls : Nat) (merit : Byte) (station : Station) (body : List Byte) : BitVec 16 :=
  checkWord (beBytes 1 cls ++ [merit] ++ beBytes 1 (station.toNat * 16 + body.length) ++ body)

/-- The bits a station drives for a frame, start bit to end bit; true is recessive, the level of a 1 (section 5.2, R88). -/
def frameBits (f : Frame) : List Bool :=
  let body := frameBytes f.body
  [false] ++ beBits 15 (frameField f) ++ beBits 4 body.length ++ (body.map (fun b => beBits 8 b.toNat)).flatten
    ++ beBits 16 (busCheck (frameClass f.body) f.merit f.station body).toNat ++ [true]

/-- Reads a coded hold state. -/
def parseHoldState : Nat → Option HoldState
  | 1 => some .joining
  | 2 => some .onAir
  | 3 => some .handingBack
  | _ => none

/-- Reads a coded release reason. -/
def parseReason : Nat → Option ReleaseReason
  | 1 => some .handedBack
  | 2 => some .stoodDown
  | 3 => some .joinFailed
  | 4 => some .forced
  | _ => none

/-- Reads a coded time class. -/
def parseTimeClass : Nat → Option TimeClass
  | 0 => some .locked
  | 1 => some .holdover
  | 2 => some .seeking
  | _ => none

/-- Reads a frame body of the length the body table gives for its class, its coded fields in range (R81). -/
def parseFrameBody (cls : Nat) (body : List Byte) : Option FrameBody :=
  match cls, body with
  | 1, [c] => some (.claim c)
  | 2, c :: h :: rest =>
    if rest.length = 6 then
      (parseHoldState h.toNat).map (fun h =>
        .hold c h (BitVec.ofNat 16 (beNat (rest.take 2))) (BitVec.ofNat 32 (beNat (rest.drop 2))))
    else none
  | 3, [c, r] => (parseReason r.toNat).map (fun r => .release c r)
  | 4, st :: fo :: tc :: held :: serve =>
    if serve.length = 8 ∧ (st = 1 ∨ st = 2) then
      (parseTimeClass tc.toNat).map (fun tc =>
        .status { active := st == 2, freeOutlets := fo.toNat, timeClass := tc, held := held.toNat,
                  serve := BitVec.ofNat 64 (beNat serve) })
    else none
  | _, _ => none

/-- The field tests of R81: merit and channel ranges, merit 0 for STATUS, counts at most 4. -/
def frameFieldsOk (f : Frame) : Bool :=
  let claimRange (c : Channel) : Bool :=
    decide (4 ≤ f.merit.toNat ∧ f.merit.toNat ≤ 186 ∧ 1 ≤ c.toNat ∧ c.toNat ≤ 64)
  match f.body with
  | .claim c => claimRange c
  | .hold c _ _ _ => claimRange c
  | .release c _ => claimRange c
  | .status b => decide (f.merit = 0 ∧ b.freeOutlets ≤ 4 ∧ b.held ≤ 4)

/-- The judgement of a closed frame's bits: the good frame, or nothing when it is malformed (R80, R81). -/
def parseFrame (r : RawFrame) : Option Frame :=
  if r.endRecessive ∧ r.body.length ≤ 12 ∧ r.check = busCheck r.cls.toNat r.merit r.station r.body then
    match parseFrameBody r.cls.toNat r.body with
    | some b =>
      let f : Frame := { merit := r.merit, station := r.station, body := b }
      if frameFieldsOk f then some f else none
    | none => none
  else none

/-! ## Cue messages (section 9.2) -/

/-- A server message that has passed R155. -/
inductive ServerMsg where
  | taken (tag : Byte)
  | refused (tag : Byte) (reason : RefusedReason)
  | started (tag outlet : Byte) (actual : Time)
deriving DecidableEq, Repr

/-- The kind of a command. -/
def cmdKind : Cmd → CmdKind
  | .prep _ => .prep
  | .side .. => .side
  | .stop .. => .stop

/-- The kind byte of a command. -/
def cmdKindCode : CmdKind → Nat
  | .prep => 1
  | .side => 2
  | .stop => 3

/-- A command's body bytes on an outlet. -/
def cmdBody (o : OutletNo) : Cmd → List Byte
  | .prep p => beBytes 1 o.val ++ beBytes 16 p.material.toNat ++ beBytes 4 p.entry ++ beBytes 6 p.start.toNat
      ++ beBytes 3 p.duration
  | .side code t => beBytes 1 o.val ++ beBytes 2 code.toNat ++ beBytes 6 t.toNat
  | .stop t _ => beBytes 1 o.val ++ beBytes 6 t.toNat

/-- The bytes of a command as sent, check included. -/
def cmdBytes (o : OutletNo) (tag : Nat) (c : Cmd) : List Byte :=
  let kind : Byte := BitVec.ofNat 8 (cmdKindCode (cmdKind c))
  let body := cmdBody o c
  kind :: BitVec.ofNat 8 tag :: beBytes 2 body.length ++ body
    ++ beBytes 2 (messageCheck kind (BitVec.ofNat 8 tag) body).toNat

/-- Reads a coded refusal reason. -/
def parseRefused : Nat → Option RefusedReason
  | 1 => some .noMaterial
  | 2 => some .tooLate
  | 3 => some .badEntry
  | 4 => some .outletBusy
  | 5 => some .other
  | _ => none

/-- The tests of R155 but for the check: kind, body length, reason, and a STARTED's outlet against its tag. -/
def parseServer (kind tag : Byte) (body : List Byte) : Option ServerMsg :=
  match kind.toNat, body with
  | 9, [] => some (.taken tag)
  | 10, [r] => (parseRefused r.toNat).map (fun r => .refused tag r)
  | 11, o :: t =>
    if t.length = 6 ∧ o.toNat = tag.toNat / 4 then some (.started tag o (BitVec.ofNat 48 (beNat t))) else none
  | _, _ => none

/-- The outlet and sequence parts of a tag; a tag above 15 names no outlet (section 9.2). -/
def tagOutlet (tag : Byte) : Option OutletNo :=
  if h : tag.toNat / 4 < 4 then some ⟨tag.toNat / 4, h⟩ else none

/-! ## Profile fields (section 11.2) -/

/-- Splits parameters into big-endian fields of the given widths; they must end on a field boundary (R183, R184). -/
def splitFields : List Nat → List Byte → Option (List Nat)
  | _, [] => some []
  | [], _ :: _ => none
  | w :: ws, b :: bs =>
    if (b :: bs).length < w then none
    else (splitFields ws ((b :: bs).drop w)).map (fun r => beNat ((b :: bs).take w) :: r)

/-- The nearer limit of a value outside its range (R183). -/
def clamp (lo hi v : Nat) : Nat := max lo (min hi v)

/-- The widths of the station fields. -/
def stationWidths : List Nat := [1, 1, 3, 2, 2, 2, 1, 2, 1, 2, 2]

/-- The widths of the channel fields. -/
def channelWidths : List Nat := [1, 1, 16, 1, 2, 1, 1, 1, 1, 1]

/-- Field `i` of a split parameter list, or its default when it was left off. -/
def fieldOr (fs : List Nat) (i : Nat) (d : Nat) : Nat := fs.getD i d

/-- The station part of split fields, unclamped, with defaults. -/
def rawStation (fs : List Nat) : StationPart :=
  { number := fieldOr fs 0 0, rate := fieldOr fs 1 0, feedDelay := fieldOr fs 2 0, claimWindow := fieldOr fs 3 300,
    holdPeriod := fieldOr fs 4 200, statusPeriod := fieldOr fs 5 1000, cueLead := fieldOr fs 6 12,
    replyTimeout := fieldOr fs 7 100, handbackMin := fieldOr fs 8 5, retention := fieldOr fs 9 60,
    slewLimit := fieldOr fs 10 2400 }

/-- Clamps every numeric field of a station part; the rate code is left to be judged (R183). -/
def clampStation (p : StationPart) : StationPart :=
  { number := clamp 0 15 p.number, rate := p.rate, feedDelay := clamp 0 2400000 p.feedDelay,
    claimWindow := clamp 50 2000 p.claimWindow, holdPeriod := clamp 100 1000 p.holdPeriod,
    statusPeriod := clamp 250 5000 p.statusPeriod, cueLead := clamp 4 100 p.cueLead,
    replyTimeout := clamp 20 500 p.replyTimeout, handbackMin := clamp 1 60 p.handbackMin,
    retention := clamp 0 600 p.retention, slewLimit := clamp 24 24000 p.slewLimit }

/-- The bytes of a station part in table order. -/
def stationBytes (p : StationPart) : List Byte :=
  beBytes 1 p.number ++ beBytes 1 p.rate ++ beBytes 3 p.feedDelay ++ beBytes 2 p.claimWindow ++ beBytes 2 p.holdPeriod
    ++ beBytes 2 p.statusPeriod ++ beBytes 1 p.cueLead ++ beBytes 2 p.replyTimeout ++ beBytes 1 p.handbackMin
    ++ beBytes 2 p.retention ++ beBytes 2 p.slewLimit

/-- The channel part of split fields, unclamped but for the channel, with defaults. -/
def rawChannel (fs : List Nat) : ChannelPart :=
  { channel := BitVec.ofNat 8 (fieldOr fs 0 0), rate := fieldOr fs 1 0, filler := BitVec.ofNat 128 (fieldOr fs 2 0),
    rank := fieldOr fs 3 15, beaconPeriod := fieldOr fs 4 500, k1 := fieldOr fs 5 3, k2 := fieldOr fs 6 8,
    windowMin := fieldOr fs 7 6, returnCount := fieldOr fs 8 5, minTail := fieldOr fs 9 25 }

/-- Clamps every numeric field of a channel part, the feed channel included (R184). -/
def clampChannel (p : ChannelPart) : ChannelPart :=
  { channel := BitVec.ofNat 8 (clamp 1 64 p.channel.toNat), rate := p.rate, filler := p.filler,
    rank := clamp 1 15 p.rank, beaconPeriod := clamp 100 2000 p.beaconPeriod, k1 := clamp 2 20 p.k1,
    k2 := clamp 3 60 p.k2, windowMin := clamp 1 8 p.windowMin, returnCount := clamp 1 15 p.returnCount,
    minTail := clamp 1 250 p.minTail }

/-- The bytes of a channel part in table order. -/
def channelBytes (p : ChannelPart) : List Byte :=
  [p.channel] ++ beBytes 1 p.rate ++ beBytes 16 p.filler.toNat ++ beBytes 1 p.rank ++ beBytes 2 p.beaconPeriod
    ++ beBytes 1 p.k1 ++ beBytes 1 p.k2 ++ beBytes 1 p.windowMin ++ beBytes 1 p.returnCount ++ beBytes 1 p.minTail

/-- A rate code is one of the eight of 00_scope.md. -/
def rateValid (r : Nat) : Bool := decide (1 ≤ r ∧ r ≤ 8)

/-! ## Encodings of the read replies (section 11.4) -/

/-- A mark: 0 clear, 1 set. -/
def markByte (b : Bool) : List Byte := beBytes 1 (if b then 1 else 0)

/-- A field that may be absent: a presence byte, then the value when present. -/
def optField {α : Type} (f : α → List Byte) : Option α → List Byte
  | none => beBytes 1 0
  | some a => beBytes 1 1 ++ f a

/-- A station time, main-site time or signed 48-bit value. -/
def timeBytes (t : Time) : List Byte := beBytes 6 t.toNat

/-- A key: merit, then station. -/
def keyBytes (k : Key) : List Byte := [k.merit] ++ beBytes 1 k.station.toNat

/-- The place of a watch state in the list of section 4.1, from 1. -/
def watchPlace : WatchState → Nat
  | .unseen => 1
  | .live => 2
  | .doubtful => 3
  | .lost => 4
  | .returning => 5

/-- The place of a condition in the list of section 2.5. -/
def conditionPlace : Condition → Nat
  | .empty => 1
  | .current => 2
  | .stale => 3
  | .short => 4

/-- The place of a takeover state in the list of section 6.1. -/
def takeoverPlace : TakeoverState → Nat
  | .detached => 1
  | .idle => 2
  | .blocked _ => 3
  | .contending => 4
  | .yielded => 5
  | .joining => 6
  | .onAir => 7
  | .handingBack => 8

/-- The place of a blocked reason in the list of section 6.1. -/
def blockedPlace : BlockedReason → Nat
  | .noOutlet => 1
  | .inhibited => 2
  | .noMirror => 3
  | .awaitLive => 4

/-- The blocked reason, present in BLOCKED. -/
def blockedOf : TakeoverState → Option BlockedReason
  | .blocked r => some r
  | _ => none

/-- The code of a beacon's main state (section 2.2). -/
def mainKindCode : MainKind → Nat
  | .running => 1
  | .standingDown => 2
  | .resumeOffer => 3

/-- The place of a bus state in the table of section 5.6. -/
def busPlace : BusState → Nat
  | .detached => 1
  | .listeningIn => 2
  | .active => 3
  | .quiet => 4

/-- The place of a presence in the list of section 5.8. -/
def presencePlace : Presence → Nat
  | .absent => 1
  | .present => 2
  | .silent => 3

/-- The place of a time-base state in the table of section 1.3. -/
def timeBasePlace : TimeBaseState → Nat
  | .freeRun => 1
  | .seeking => 2
  | .locked => 3
  | .holdover => 4

/-- The place of an outlet state in the list of section 9.1. -/
def outletPlace : OutletState → Nat
  | .free => 1
  | .reserved => 2
  | .air => 3
  | .stopping => 4
  | .faulted => 5

/-- The place of a stop outcome in the list of section 9.1. -/
def stopPlace : StopOutcome → Nat
  | .pending => 1
  | .taken => 2
  | .failed _ => 3

/-- The place of a failure in the list of R164. -/
def failurePlace : Failure → Nat
  | .refused _ => 1
  | .lapsed => 2
  | .missed => 3
  | .startLapse => 4

/-- The place of a run mode in the list of section 8.1. -/
def modePlace : RunMode → Nat
  | .running => 1
  | .awaitingGo => 2

/-- The code of an ending in an as-run record (R196). -/
def endingCode : Ending → Nat
  | .full => 1
  | .cut => 2
  | .missed => 3
  | .stoodDown => 4
  | .handedBack => 5
  | .forced => 6

/-- The code of a reply status (section 11.1). -/
def statusCode : ReplyStatus → Nat
  | .done => 1
  | .clamped => 2
  | .refused => 3

/-- The bytes of a reply frame, check included (section 11.1). -/
def replyBytes (r : Reply) : List Byte :=
  let head := beBytes 1 (statusCode r.status) ++ beBytes 1 r.data.length ++ r.data
  head ++ beBytes 2 (checkWord head).toNat

/-- The check of a command frame over its code, length and parameters (section 11.1). -/
def commandCheck (code : Byte) (params : List Byte) : BitVec 16 :=
  checkWord (code :: beBytes 1 params.length ++ params)

end Sys2Proof.Machine
end

