-- ==== Sys2Proof/Machine/BusQueue.lean ====
section
/-! DEFINITION. The transmit queue of the bus controller (R84 to R86) and the frames the station builds for it (R93 to R96). -/

namespace Sys2Proof.Machine

/-- Two frames of one class for one channel, or two STATUS frames: the coalescing test of R84. RELEASE does not coalesce. -/
def coalesces : FrameBody → FrameBody → Bool
  | .claim a, .claim b => a == b
  | .hold a .., .hold b .. => a == b
  | .status _, .status _ => true
  | _, _ => false

/-- Puts a newly offered frame in ascending order of field, after frames of equal field (R84). -/
def insertOffered (f : Frame) : List Frame → List Frame
  | [] => [f]
  | g :: rest => if frameField g ≤ frameField f then g :: insertOffered f rest else f :: g :: rest

/-- Puts a returning frame in ascending order of field, before frames of equal field: it was offered before them, and it
keeps the head when nothing of lower field was queued meanwhile (R84, R87; DEDUCED, log 11). -/
def insertReturned (f : Frame) : List Frame → List Frame
  | [] => [f]
  | g :: rest => if frameField g < frameField f then g :: insertReturned f rest else f :: g :: rest

/-- Changes the transmit queue. -/
def State.setQueue (s : State) (q : List Frame) : State := { s with bus := { s.bus with queue := q } }

/-- Adds one to the transmit drop count (R85). -/
def State.countDrop (s : State) : State := { s with bus := { s.bus with drops := sat16 (s.bus.drops + 1) } }

/-- Puts a frame that replaces nothing in the queue by `place`: added below 8 frames, else the full-queue policy of R85. A
dropped HOLD or RELEASE is not offered again, so its report changes nothing (R119, R124). -/
def State.enqueueBy (s : State) (place : Frame → List Frame → List Frame) (f : Frame) : State :=
  let q := s.bus.queue
  if q.length < Config.transmitDepth then s.setQueue (place f q)
  else
    match q.getLast? with
    | some last =>
      if frameField f < frameField last then (s.setQueue (place f q.dropLast)).countDrop else s.countDrop
    | none => s.countDrop

/-- Offers a frame to the transmit queue: coalescing, then the queue's place or the full-queue policy (R84, R85). -/
def State.offerFrame (s : State) (f : Frame) : State :=
  let q := s.bus.queue
  if q.any (fun g => coalesces f.body g.body) then
    s.setQueue (insertOffered f (q.filter (fun g => !coalesces f.body g.body)))
  else s.enqueueBy insertOffered f

/-- Returns the frame of a failed attempt: discarded when withdrawn or when a newer frame of its kind was offered meanwhile,
else queued as an offered frame that keeps its place among equals (R86, R87). -/
def State.returnFrame (s : State) (a : Attempt) : State :=
  if a.withdrawn then s
  else if s.bus.queue.any (fun g => coalesces a.frame.body g.body) then s
  else s.enqueueBy insertReturned a.frame

/-- Withdraws the CLAIM of a channel: removed from the queue, marked when it is under attempt (R86). -/
def State.withdrawClaim (s : State) (c : Channel) : State :=
  { s with bus := { s.bus with
      queue := s.bus.queue.filter (fun g => !coalesces (.claim c) g.body)
      attempt := s.bus.attempt.map (fun a =>
        if coalesces (.claim c) a.frame.body then { a with withdrawn := true } else a) } }

/-- A frame body is a RELEASE for the channel. -/
def isReleaseFor (c : Channel) : FrameBody → Bool
  | .release d _ => c == d
  | _ => false

/-- A RELEASE for the channel is queued or under attempt (R124). -/
def State.releaseWaiting (s : State) (c : Channel) : Bool :=
  s.bus.queue.any (fun g => isReleaseFor c g.body) || s.bus.attempt.any (fun a => isReleaseFor c a.frame.body)

/-- Offers a CLAIM for a channel with the merit of the own claim key (R94). -/
def State.offerClaim (s : State) (c : Channel) (k : Key) : State :=
  s.offerFrame { merit := k.merit, station := s.bus.own, body := .claim c }

/-- Offers a RELEASE with the merit of the holding key it releases, unless one for the channel waits (R96, R124). -/
def State.offerRelease (s : State) (c : Channel) (k : Key) (r : ReleaseReason) : State :=
  if s.releaseWaiting c then s else s.offerFrame { merit := k.merit, station := s.bus.own, body := .release c r }

/-- The hold state of a holding takeover state (section 5.2). -/
def holdStateOf : TakeoverState → HoldState
  | .onAir => .onAir
  | .handingBack => .handingBack
  | _ => .joining

/-- The runner's current event id of a channel: the on-air EVENT item's id, else 0 (R149). -/
def Chan.currentEvent (ch : Chan) : EventId :=
  match ch.run.bind (·.onAir) with
  | some it =>
    match it.source with
    | .event _ id => id
    | .filler => 0
  | none => 0

/-- The HOLD frame of a holding channel as it stands (R95, R119). A held channel's mirror version is present; 0 stands for an
absent one, which no run reaches (log 21). -/
def Chan.holdFrame (ch : Chan) (own : Station) (k : Key) : Frame :=
  { merit := k.merit, station := own,
    body := .hold ch.part.channel (holdStateOf ch.tk.state) (ch.mirror.version.getD 0) ch.currentEvent }

/-- Offers a HOLD for a holding channel and arms the hold deadline one hold period after station time (R3, R119). -/
def State.assertHold (s : State) (c : Channel) : State :=
  match s.chan? c with
  | none => s
  | some ch =>
    match ch.tk.ownHold with
    | none => s
    | some k =>
      (s.offerFrame (ch.holdFrame s.bus.own k)).modTk c (fun tk =>
        { tk with holdDl := some (plus s.now (msGrains s.sp.holdPeriod)) })

/-- An outlet is FREE. -/
def Outlet.isFree (o : Outlet) : Bool := o.state == .free

/-- The lowest-numbered FREE outlet (R110). -/
def State.freeOutlet (s : State) : Option OutletNo := (List.finRange 4).find? (fun o => (s.outlet o).isFree)

/-- The number of FREE outlets (R93). -/
def State.freeCount (s : State) : Nat := (List.finRange 4).countP (fun o => (s.outlet o).isFree)

/-- An outlet is RESERVED for, or AIR for, a channel (R93, R153). -/
def State.outletNames (s : State) (c : Channel) : Bool :=
  (List.finRange 4).any (fun o =>
    ((s.outlet o).state == .reserved || (s.outlet o).state == .air) && (s.outlet o).channel == some c)

/-- A channel stands in the serve set (R93). -/
def State.serves (s : State) (ch : Chan) : Bool :=
  decide (ch.part.rank ≤ 14) && !ch.tk.inhibit && (ch.mirror.condition != .empty)
    && (decide (0 < s.freeCount) || s.outletNames ch.part.channel)

/-- The serve set: channel c at bit c − 1 (section 5.2). -/
def State.serveSet (s : State) : BitVec 64 :=
  s.chans.foldl (fun acc ch =>
    if s.serves ch then acc ||| BitVec.ofNat 64 (2 ^ ch.part.channel.toNat / 2) else acc) 0

/-- The STATUS body as things stand (R93). -/
def State.statusBody (s : State) : StatusBody :=
  { active := s.bus.state == .active
    freeOutlets := s.freeCount
    timeClass := s.tb.state.timeClass
    held := s.chans.countP (fun ch => ch.tk.state.holding)
    serve := s.serveSet }

/-- Builds a STATUS and offers it (R93). -/
def State.offerStatus (s : State) : State :=
  s.offerFrame { merit := 0, station := s.bus.own, body := .status s.statusBody }

/-- Some PRESENT peer's stored STATUS body lists the channel in its serve set (R98). -/
def State.peerLists (s : State) (c : Channel) : Bool :=
  s.bus.peers.toList.any (fun p =>
    p.presence == .present && p.status.any (fun b => b.serve.getLsbD (c.toNat - 1)))

end Sys2Proof.Machine
end

