-- ==== Sys2Proof/Machine/TakeoverOps.lean ====
section
/-! DEFINITION. The takeover unit's shared operations: reserving and freeing outlets (R110, R154), leaving CONTENDING (R114,
R115), the takeover check and its passes (R108 to R111), re-keying (R113), and the await-live mark (R118). -/

namespace Sys2Proof.Machine

/-- The memory span: two claim windows (R104). -/
def State.memorySpan (s : State) : Nat := 2 * msGrains s.sp.claimWindow

/-- Reserves an outlet for a channel (R154). -/
def State.reserveOutlet (s : State) (o : OutletNo) (c : Channel) : State :=
  s.modOutlet o (fun x => { x with state := .reserved, channel := some c })

/-- Returns a RESERVED outlet to FREE; the pass that follows is the caller's (R110, R154). -/
def State.unreserve (s : State) (o : OutletNo) : State :=
  s.modOutlet o (fun x => if x.state = .reserved then { x with state := .free, channel := none } else x)

/-- A channel leaves CONTENDING other than to JOINING, for `next`: its CLAIM is withdrawn, its outlet freed and its claim
fields cleared (R110, R114, R115). The pass the freeing starts is the caller's. -/
def State.leaveContending (s : State) (c : Channel) (next : TakeoverState) : State :=
  match s.chan? c with
  | none => s
  | some ch =>
    let s := s.withdrawClaim c
    let s := match ch.tk.outlet with
      | some o => s.unreserve o
      | none => s
    s.modTk c (fun tk =>
      { tk with state := next, outlet := none, ownClaim := none, claimSent := false, windowEnd := none })

/-- Arms the yield deadline one memory span ahead (R111, R114). -/
def State.armYield (s : State) (c : Channel) : State :=
  s.modTk c (fun tk => { tk with yieldDl := some (plus s.now s.memorySpan) })

/-- This station's own claim key for a channel as things stand (R103). -/
def State.claimKey (s : State) (ch : Chan) : Option Key :=
  (s.merit ch).map (fun m => { merit := m, station := s.bus.own })

/-- Entry to CONTENDING with its outlet `o` (R110, R111). The second result says that the outlet was freed again, because a
better foreign claim made the channel yield at once. -/
def State.enterContending (s : State) (ch : Chan) (o : OutletNo) (k : Key) : State × Bool :=
  let c := ch.part.channel
  let s := (s.reserveOutlet o c).modTk c (fun tk =>
    { tk with state := .contending, outlet := some o, ownClaim := some k, claimSent := false, windowEnd := none })
  if ch.tk.best.any (fun f => f.beats s.now k) then ((s.leaveContending c .yielded).armYield c, true)
  else (s.offerClaim c k, false)

/-- What the takeover check gives a channel in IDLE or BLOCKED, step by step (R109). -/
inductive CheckOutcome where
  | idle
  | blocked (reason : BlockedReason)
  | yielded
  | contend (outlet : OutletNo) (key : Key)
deriving DecidableEq, Repr

/-- The table of R109: the first outcome whose test holds. -/
def State.checkOutcome (s : State) (ch : Chan) : CheckOutcome :=
  if ch.part.rank = 15 then .idle
  else if ch.watch.state ≠ .lost then .idle
  else if ch.tk.awaitLive then .blocked .awaitLive
  else if s.bus.state ≠ .active then .idle
  else if ch.tk.inhibit then .blocked .inhibited
  else if ch.tk.holder.isSome then .yielded
  else match s.claimKey ch with
    | none => .blocked .noMirror
    | some k =>
      match s.freeOutlet with
      | none => .blocked .noOutlet
      | some o => .contend o k

/-- The takeover check decides in IDLE and BLOCKED alone (R108). -/
def TakeoverState.checked : TakeoverState → Bool
  | .idle => true
  | .blocked _ => true
  | _ => false

/-- The takeover check for one channel, changing nothing in any state but IDLE and BLOCKED (R108, R109). The second result
says that an outlet was freed. -/
def State.checkChannel (s : State) (c : Channel) : State × Bool :=
  match s.chan? c with
  | none => (s, false)
  | some ch =>
    if !ch.tk.state.checked then (s, false)
    else match s.checkOutcome ch with
      | .idle => (s.modTk c (fun tk => { tk with state := .idle }), false)
      | .blocked r => (s.modTk c (fun tk => { tk with state := .blocked r }), false)
      | .yielded => (s.modTk c (fun tk => { tk with state := .yielded, yieldDl := none }), false)
      | .contend o k => s.enterContending ch o k

/-- Puts a channel in its place by serving rank, best first, then channel number (R108). -/
def insertRanked (ch : Chan) : List Chan → List Chan
  | [] => [ch]
  | d :: rest =>
    if ch.part.rank < d.part.rank ∨ (ch.part.rank = d.part.rank ∧ ch.part.channel.toNat < d.part.channel.toNat) then
      ch :: d :: rest
    else d :: insertRanked ch rest

/-- The channels in the order a pass takes them (R108). -/
def State.passOrder (s : State) : List Channel := (s.chans.foldr insertRanked []).map (·.part.channel)

/-- Checks channels one after another, telling whether any freed an outlet. -/
def State.checkAll (s : State) : List Channel → State × Bool
  | [] => (s, false)
  | c :: rest =>
    let (s1, f1) := s.checkChannel c
    let (s2, f2) := s1.checkAll rest
    (s2, f1 || f2)

/-- A pass, then again a pass for as long as one freed an outlet, which starts a pass that runs after it (R108). Each freeing
takes a channel out of IDLE and BLOCKED, so no more passes follow than there are channels. -/
def State.passes : Nat → State → State
  | 0, s => s
  | n + 1, s =>
    let (s1, freed) := s.checkAll s.passOrder
    if freed then State.passes n s1 else s1

/-- A pass of the takeover check (R108). -/
def State.pass (s : State) : State := State.passes (s.chans.length + 1) s

/-- The takeover check for one channel, with the passes it starts (R108). -/
def State.check (s : State) (c : Channel) : State :=
  let (s1, freed) := s.checkChannel c
  if freed then s1.pass else s1

/-- The channel is in CONTENDING. -/
def Chan.contending (ch : Chan) : Bool := ch.tk.state == .contending

/-- Re-keys one channel in CONTENDING after a term of its merit changed (R113). The second result says that it yielded and
its outlet was freed. -/
def State.rekeyOne (s : State) (c : Channel) : State × Bool :=
  match s.chan? c with
  | none => (s, false)
  | some ch =>
    if !ch.contending then (s, false)
    else match s.claimKey ch with
      | none => (s, false)
      | some k =>
        if ch.tk.ownClaim = some k then (s, false)
        else if ch.tk.best.any (fun f => f.beats s.now k) then ((s.leaveContending c .yielded).armYield c, true)
        else
          ((s.modTk c (fun tk => { tk with ownClaim := some k, claimSent := false, windowEnd := none })).offerClaim c k,
            false)

/-- Re-keys channels one by one. -/
def State.rekeyAll (s : State) : List Channel → State × Bool
  | [] => (s, false)
  | c :: rest =>
    let (s1, f1) := s.rekeyOne c
    let (s2, f2) := s1.rekeyAll rest
    (s2, f1 || f2)

/-- A change of time class reaches every channel in CONTENDING, in the order of R108 (R12, R113). All of them are re-keyed before
the one pass that the outlets freed by yields start (DESIGN CHOICE, log 47). -/
def State.timeClassChanged (s : State) : State :=
  let (s1, freed) := s.rekeyAll s.passOrder
  if freed then s1.pass else s1

/-- A change of condition reaches the takeover unit: CONTENDING re-keys, IDLE and BLOCKED run the check (R24, R108, R113). -/
def State.conditionChanged (s : State) (c : Channel) : State :=
  match s.chan? c with
  | none => s
  | some ch =>
    if ch.contending then
      let (s1, freed) := s.rekeyOne c
      if freed then s1.pass else s1
    else s.check c

/-- Leaving ACTIVE takes every CONTENDING channel to IDLE (R115). -/
def State.leaveAllContending (s : State) : List Channel → State
  | [] => s
  | c :: rest =>
    (match s.chan? c with
      | some ch => if ch.contending then s.leaveContending c .idle else s
      | none => s).leaveAllContending rest

/-- The bus has left ACTIVE: contending channels go to IDLE, and a pass runs (R92, R108, R115). -/
def State.busLeftActive (s : State) : State := (s.leaveAllContending s.passOrder).pass

/-- Sets the await-live mark; it clears at once when the watch is not LOST (R118). -/
def State.setAwaitLive (s : State) (c : Channel) : State :=
  s.modChan c (fun ch => { ch with tk := { ch.tk with awaitLive := ch.watch.state == .lost } })

/-- A channel leaves YIELDED for IDLE and its check runs; the yield deadline is disarmed (R117). -/
def State.leaveYielded (s : State) (c : Channel) : State :=
  (s.modTk c (fun tk => { tk with state := .idle, yieldDl := none })).check c

/-- The known holder has become absent: YIELDED goes to IDLE, and in IDLE and BLOCKED the check runs (R106, R107). -/
def State.holderGone (s : State) (c : Channel) : State :=
  match s.chan? c with
  | none => s
  | some ch => if ch.tk.state = .yielded then s.leaveYielded c else s.check c

end Sys2Proof.Machine
end

