-- ==== Sys2Proof/Machine/MirrorOps.lean ====
section
/-! DEFINITION. The mirror's shared operations: condition requests (R24), abandoning a filling (R25), record content (R22),
resolving a channel's list (R41), pins (R35 to R37), unlinking (R36) and the reclaim sweep (R38, R39). -/

namespace Sys2Proof.Machine

/-- Gives a channel's copy a condition: a change into STALE or SHORT raises MIRROR_STALE, and every change is reported to the
takeover unit (R24). -/
def State.setCondition (s : State) (c : Channel) (f : Condition → Condition) : State :=
  match s.chan? c with
  | none => s
  | some ch =>
    let new := f ch.mirror.condition
    if new = ch.mirror.condition then s
    else
      let s := s.modMirror c (fun m => { m with condition := new })
      let s := if new = .stale ∨ new = .short then s.raise .mirrorStale c (.mirror new) else s
      s.conditionChanged c

/-- The mark-stale request (R24). -/
def State.markStale (s : State) (c : Channel) : State := s.setCondition c Condition.markStale

/-- The mark-short request (R24). -/
def State.markShort (s : State) (c : Channel) : State := s.setCondition c Condition.markShort

/-- The make-current request (R24). -/
def State.makeCurrent (s : State) (c : Channel) : State := s.setCondition c (fun _ => .current)

/-- Abandons any filling of a channel (R25). -/
def State.abandonFilling (s : State) (c : Channel) : State :=
  match s.chan? c with
  | none => s
  | some ch =>
    (s.freeRecords ch.incoming).modChan c (fun ch =>
      { ch with incoming := [], mirror := { ch.mirror with filling := none } })

/-- Side-cue offsets are strictly ascending (R22). -/
def ascending : List SideCue → Bool
  | [] => true
  | [_] => true
  | a :: b :: rest => decide (a.offset.toNat < b.offset.toNat) && ascending (b :: rest)

/-- A record's content is valid (R22). -/
def validEvent (e : EventData) : Bool :=
  (e.id != 0) && (e.duration != 0) && e.cues.all (fun c => decide (c.offset.toNat < e.duration.toNat)) && ascending e.cues

/-- A record as it joins a list: the feed's fields, no times, not pinned (R22). -/
def newRecord (slot : Nat) (e : EventData) : EventRec :=
  { slot := slot, data := e, times := none, eclipsed := false, pinned := false }

/-- An event with the id stands in a list. -/
def hasId (id : EventId) (l : List EventRec) : Bool := l.any (fun e => e.data.id == id)

/-- Resolves a channel's list with the run anchor as it stands (R41). -/
def State.resolveChan (s : State) (c : Channel) : State :=
  s.modChan c (fun ch => { ch with list := resolve ch.period (ch.run.bind (·.anchor)) ch.list })

/-- Removes records from a channel's list for good: the unpinned ones are freed, the pinned ones kept unlinked (R36). -/
def State.unlink (s : State) (c : Channel) (gone : List EventRec) : State :=
  (s.freeRecords (gone.filter (fun e => !e.pinned))).modChan c (fun ch =>
    { ch with unlinked := ch.unlinked ++ gone.filter (·.pinned) })

/-- Pins a record that stands in the channel list (R35). -/
def State.pin (s : State) (c : Channel) (slot : Nat) : State :=
  s.modChan c (fun ch =>
    { ch with list := ch.list.map (fun e => if e.slot = slot then { e with pinned := true } else e) })

/-- Unpins a record: an unlinked one is freed, one in the list loses its mark (R37). -/
def State.unpin (s : State) (c : Channel) (slot : Nat) : State :=
  match s.chan? c with
  | none => s
  | some ch =>
    match takeFirst (fun e => e.slot == slot) ch.unlinked with
    | some (e, rest) => (s.freeRecords [e]).modChan c (fun ch => { ch with unlinked := rest })
    | none => s.modChan c (fun ch =>
        { ch with list := ch.list.map (fun e => if e.slot = slot then { e with pinned := false } else e) })

/-- The record in a pool slot, in the channel's list or unlinked. -/
def Chan.record? (ch : Chan) (slot : Nat) : Option EventRec := (ch.list ++ ch.unlinked).find? (fun e => e.slot == slot)

/-- The sweep of a list from tail to head: what is kept, what is freed, and whether the event at the head of what follows is
a FOLLOW event that is kept (R39). -/
def sweepFrom (cutoff : Time) : List EventRec → List EventRec × List EventRec × Bool
  | [] => ([], [], false)
  | e :: rest =>
    let r := sweepFrom cutoff rest
    let past := match e.times with
      | some t => before t.effEnd cutoff
      | none => false
    if e.pinned || !past || r.2.2 then (e :: r.1, r.2.1, e.data.start == .follow)
    else (r.1, e :: r.2.1, false)

/-- The cutoff of a sweep: main-site time now, less the retention (R38). -/
def State.cutoff (s : State) (ch : Chan) : Time :=
  minus (s.now - ch.watch.estimate) (s.sp.retention * Config.grainsPerSecond)

/-- The reclaim sweep of one channel's list; nothing while the watch's estimate is not seeded (R38, R39). -/
def State.sweep (s : State) (c : Channel) : State :=
  match s.chan? c with
  | none => s
  | some ch =>
    if !ch.watch.seeded then s
    else
      let r := sweepFrom (s.cutoff ch) ch.list
      (s.freeRecords r.2.1).modChan c (fun ch =>
        { ch with list := r.1, mirror := { ch.mirror with reclaimed := sat16 (ch.mirror.reclaimed + r.2.1.length) } })

/-- The drift check of one beacon (R26). -/
def State.driftCheck (s : State) (c : Channel) (v : Version) (onAir : EventId) : State :=
  match s.chan? c with
  | none => s
  | some ch =>
    if ch.latestQueued ≠ some v ∨ (ch.mirror.condition = .current ∧ onAir ≠ 0 ∧ hasId onAir ch.list = false) then
      s.markStale c
    else s

/-- Serves one request to the mirror (R18). -/
def State.serve (s : State) : MirrorReq → State
  | .drift c v e => s.driftCheck c v e
  | .sweep c => s.sweep c

/-- Serves requests in the order they were made, through the first that passes the test. -/
def State.serveThrough (p : MirrorReq → Bool) : List MirrorReq → State → State
  | [], s => s
  | r :: rest, s =>
    let s := ({ s with mirrorReqs := rest }).serve r
    if p r then s else State.serveThrough p rest s

/-- Serves every request that waits, which the mirror does before it takes its next ingest message (R18). -/
def State.serveAll (s : State) : State := State.serveThrough (fun _ => false) s.mirrorReqs s

/-- The mirror's turn before the runner of a channel asks it for pins, an anchor or a resolution: the requests that wait were made
before and are served first (R18; log 5). A channel without a run record has no runner that asks. -/
def State.mirrorTurn (s : State) (c : Channel) : State :=
  if (s.chan? c).any (fun ch => ch.run.isSome) then s.serveAll else s

/-- The mirror's turn before a report of an outlet reaches the runner of the channel it serves (R18). -/
def State.outletTurn (s : State) (o : OutletNo) : State :=
  match (s.outlet o).channel with
  | none => s
  | some c => s.mirrorTurn c

end Sys2Proof.Machine
end

