-- ==== Sys2Proof/Machine/RunClose.lean ====
section
/-! DEFINITION. As-run records and the as-run queue (R151, R152), and the closing of a run record (R150). -/

namespace Sys2Proof.Machine

/-- The pool slot an item's record holds. -/
def Item.slot? (it : Item) : Option Nat :=
  match it.source with
  | .event slot _ => some slot
  | .filler => none

/-- The pool slot of the record that the runner holds pinned for an item: an EVENT item's record (R35), and for filler that a join
result plays up to an event, that event's (R126, R134, table 7.5; log 60). -/
def Item.pins? (it : Item) : Option Nat :=
  match it.source with
  | .event slot _ => some slot
  | .filler => it.upTo

/-- The event id of an EVENT item. -/
def Item.event? (it : Item) : Option EventId :=
  match it.source with
  | .event _ id => some id
  | .filler => none

/-- The item is filler without end. -/
def Item.openFiller (it : Item) : Bool := it.source == .filler && it.cuedEnd.isNone

/-- The frames played between a run start and a stop time: whole periods of the span, as R151 states, which may count the
remainder that R50 does not count when a sub-frame gap follows it (DESIGN CHOICE, log 46). Where the stop lies before the start
the manual states no value (log 7). -/
def framesPlayed (period : Nat) (start stop : Time) : Nat :=
  if before stop start then Config.framesPlayedBackward start stop else (stop - start).toNat / period

/-- The frames skipped that an as-run record gives: the item's, 0 for filler (R151). -/
def Item.framesSkipped (it : Item) : Nat :=
  match it.source with
  | .event .. => it.skipped
  | .filler => 0

/-- The as-run record of an item that ends at station time `stop` (R151). -/
def asRunEnded (ch : Chan) (r : RunRec) (it : Item) (stop : Time) (ending : Ending) : AsRun :=
  let start := it.runStart.getD it.localStart
  { channel := ch.part.channel, outlet := r.outlet, event := it.event?, runStart := start, mainStart := start - r.offset,
    skipped := it.framesSkipped, played := framesPlayed ch.period start stop, ending := ending, unconfirmed := it.unconfirmed }

/-- The as-run record of an item that did not air (R145, R151). -/
def asRunMissed (ch : Chan) (r : RunRec) (it : Item) : AsRun :=
  { channel := ch.part.channel, outlet := r.outlet, event := it.event?, runStart := it.localStart,
    mainStart := it.localStart - r.offset, skipped := it.framesSkipped, played := 0, ending := .missed,
    unconfirmed := it.unconfirmed }

/-- Writes an as-run record: dropped and counted at 64, and ASRUN_WATERMARK at the record that makes 48 (R152). -/
def State.writeAsRun (s : State) (a : AsRun) : State :=
  if Config.asrunDepth ≤ s.asrun.length then { s with asrunDrops := sat16 (s.asrunDrops + 1) }
  else
    let s := { s with asrun := s.asrun ++ [a] }
    if s.asrun.length = Config.asrunWatermark then s.raise .timeOrAsrun a.channel .asrunWatermark else s

/-- The items of a run record. -/
def RunRec.items (r : RunRec) : List Item := r.onAir.toList ++ r.cued.toList ++ r.goItem.toList

/-- Unpins several records. -/
def State.unpinAll (s : State) (c : Channel) (slots : List Nat) : State := slots.foldl (fun s n => s.unpin c n) s

/-- Closes a channel's run record: the on-air item's as-run record, the pins, the run anchor, the record (R150). `cause` is
the ending and the stop time, absent where no item can have started. -/
def State.closeRun (s : State) (c : Channel) (cause : Option (Ending × Time)) : State :=
  match s.chan? c with
  | none => s
  | some ch =>
    match ch.run with
    | none => s
    | some r =>
      let s := match r.onAir, cause with
        | some it, some (e, t) => s.writeAsRun (asRunEnded ch r it t e)
        | _, _ => s
      let s := s.unpinAll c (r.items.filterMap Item.pins?)
      let s := s.modChan c (fun ch => { ch with run := none })
      if r.anchor.isSome then s.resolveChan c else s

end Sys2Proof.Machine
end

