-- ==== Sys2Proof/Machine/OutletOps.lean ====
section
/-! DEFINITION. The outlet controller's shared operations: the send order (R158), offering a command (R157), a command's
failure and its routing (R164), the join failure (R123), stop requests (R162) and taking an outlet off air (R168). -/

namespace Sys2Proof.Machine

/-- An outlet number as a subject byte. -/
def outletByte (o : OutletNo) : Byte := BitVec.ofNat 8 o.val

/-- The outlet's head command is sendable (R158). -/
def Outlet.sendable (x : Outlet) : Bool := !x.queue.isEmpty && x.outstanding.isNone

/-- Brings an outlet's standing in the send order up to date: it joins at the tail when its head became sendable, keeps its
place while it stays so, and leaves otherwise (R158, R159). That it keeps its place, too, when a withdrawn STOP uncovers the next
command (R162), is the model's choice (DESIGN CHOICE, log 61). -/
def State.settleOrder (s : State) (o : OutletNo) : State :=
  if (s.outlet o).sendable then
    if s.cue.sendOrder.contains o then s else { s with cue := { s.cue with sendOrder := s.cue.sendOrder ++ [o] } }
  else { s with cue := { s.cue with sendOrder := s.cue.sendOrder.filter (fun p => p != o) } }

/-- Makes the outstanding command, if any, orphaned (R164, R168). -/
def orphan (x : Option Outstanding) : Option Outstanding := x.map (fun u => { u with orphaned := true })

/-- An outlet becomes FAULTED: off air, its channel absent, its queue and awaiting list emptied, its outstanding command
orphaned (R153, R164). -/
def State.faultOutlet (s : State) (o : OutletNo) (k : CmdKind) (f : Failure) : State :=
  (s.modOutlet o (fun x =>
    { x with state := .faulted, channel := none, air := false, queue := [], awaiting := [],
             outstanding := orphan x.outstanding, armed := none, fault := some (k, f) })).settleOrder o

/-- A join failure: the outlet FAULTED, RELEASE JOIN_FAILED offered, the notice raised, the run closed, the channel IDLE and
checked (R123, R164). -/
def State.joinFailed (s : State) (c : Channel) (o : OutletNo) (f : Failure) : State :=
  match s.chan? c with
  | none => s
  | some ch =>
    if ch.tk.state ≠ .joining then s
    else
      let s := s.faultOutlet o .prep f
      let s := match ch.tk.ownHold with
        | some k => s.offerRelease c k .joinFailed
        | none => s
      let s := s.raise .joinFailed c (.joinFailed o f)
      let s := s.closeRun c none
      let s := s.modTk c (fun tk => { tk with state := .idle, outlet := none, ownHold := none, holdDl := none })
      s.check c

/-- The deciding STOP has failed: the outcome is FAILED, and a STOPPING outlet becomes FAULTED (R162). -/
def State.stopFailed (s : State) (o : OutletNo) (f : Failure) : State :=
  let s := s.modOutlet o (fun x => { x with armed := x.armed.map (fun a => { a with outcome := .failed f }) })
  if (s.outlet o).state = .stopping then s.faultOutlet o .stop f else s

/-- A command fails: CUE_FAULT is raised, and the failure is routed by the command (R164). A later item's failure goes to the
runner by the reports of the step. A STOP that no longer decides raises the notice too (DESIGN CHOICE, log 51). -/
def State.failCmd (s : State) (o : OutletNo) (cmd : Cmd) (orphaned : Bool) (f : Failure) : State :=
  let s := s.raise .cueFault (outletByte o) (.cueFault (cmdKind cmd) f)
  if orphaned then s
  else match cmd with
    | .side .. => s
    | .stop _ deciding => if deciding then s.stopFailed o f else s
    | .prep p =>
      match (s.outlet o).channel with
      | none => s
      | some c =>
        if (s.outlet o).state = .reserved ∧ p.join then s.joinFailed c o f
        else { s with reports := s.reports ++ [{ channel := c, serial := p.serial, lapse := decide (f = .startLapse) }] }

/-- Offers a command to an outlet's queue (R157). -/
def State.offerCmd (s : State) (o : OutletNo) (cmd : Cmd) : State :=
  let x := s.outlet o
  if (x.state = .stopping ∨ x.state = .faulted) ∧ cmdKind cmd ≠ .stop then s
  else if x.queue.length < Config.commandDepth then
    (s.modOutlet o (fun x => { x with queue := x.queue ++ [cmd] })).settleOrder o
  else s.failCmd o cmd false .missed

/-- A command is a STOP. -/
def Cmd.isStop : Cmd → Bool
  | .stop .. => true
  | _ => false

/-- A command is the deciding STOP. -/
def Cmd.isDeciding : Cmd → Bool
  | .stop _ d => d
  | _ => false

/-- A STOP that no longer decides (R162). -/
def Cmd.undecide : Cmd → Cmd
  | .stop t _ => .stop t false
  | c => c

/-- A stop request for a local time, 0 for at once: the armed stop, and its STOP in the place of a STOP still queued or at
the tail (R162). -/
def State.requestStop (s : State) (o : OutletNo) (t : Time) : State :=
  let s := s.modOutlet o (fun x =>
    { x with armed := some { at_ := t, outcome := .pending }
             outstanding := x.outstanding.map (fun u => { u with cmd := u.cmd.undecide }) })
  if (s.outlet o).queue.any Cmd.isStop then
    s.modOutlet o (fun x => { x with queue := x.queue.map (fun c => if c.isStop then .stop t true else c) })
  else s.offerCmd o (.stop t true)

/-- Withdraws the armed stop (R162); the outlet keeps its place in the send order while its head stays sendable (DESIGN CHOICE,
log 61). -/
def State.withdrawStop (s : State) (o : OutletNo) : State :=
  (s.modOutlet o (fun x =>
    { x with armed := none
             queue := x.queue.filter (fun c => !c.isDeciding)
             outstanding := x.outstanding.map (fun u => { u with cmd := u.cmd.undecide }) })).settleOrder o

/-- The deciding STOP has been sent and was not refused (R175, R176): it is no longer queued, and it did not fail by REFUSED,
nor by MISSED, which is a failure before sending. -/
def Outlet.stopMayStand (x : Outlet) : Bool :=
  match x.armed with
  | none => false
  | some a =>
    !x.queue.any Cmd.isDeciding &&
      (match a.outcome with
       | .failed (.refused _) => false
       | .failed .missed => false
       | _ => true)

/-- Takes an outlet out of RESERVED or AIR for STOPPING: off air, queue and awaiting list emptied, an outstanding command
orphaned when `spare` does not keep it (R168). -/
def State.toStopping (s : State) (o : OutletNo) (spare : Cmd → Bool) : State :=
  (s.modOutlet o (fun x =>
    { x with state := .stopping, channel := none, air := false, queue := [], awaiting := []
             outstanding := x.outstanding.map (fun u => if spare u.cmd then u else { u with orphaned := true }) })
    ).settleOrder o

/-- A stop now (R168). -/
def State.stopNow (s : State) (o : OutletNo) : State :=
  match (s.outlet o).state with
  | .reserved | .air => (s.toStopping o Cmd.isStop).requestStop o 0
  | _ => s

/-- A STOPPING outlet becomes FREE; the freeing is reported and starts a pass (R154, R162). -/
def State.freeStopped (s : State) (o : OutletNo) : State :=
  (s.modOutlet o (fun x => { x with state := .free, armed := none })).pass

/-- The armed stop's time is reached; a stop at once is reached as soon as it is taken (R162). -/
def ArmedStop.reached (a : ArmedStop) (now : Time) : Bool := a.at_ == 0 || atOrBefore a.at_ now

/-- An end of air, but for the pass that a freeing starts, which the second result tells the caller to run (R168, R178). -/
def State.endOfAir (s : State) (o : OutletNo) : State × Bool :=
  if (s.outlet o).state = .air then
    let s := s.toStopping o Cmd.isDeciding
    match (s.outlet o).armed with
    | none => (s.requestStop o 0, false)
    | some a =>
      match a.outcome with
      | .failed f => (s.faultOutlet o .stop f, false)
      | .pending => (s, false)
      | .taken =>
        if a.reached s.now then (s.modOutlet o (fun x => { x with state := .free, armed := none }), true)
        else (s, false)
  else (s, false)

end Sys2Proof.Machine
end

