-- ==== Sys2Proof/Machine/RunnerOps.lean ====
section
/-! DEFINITION. The runner's shared operations (08_running_a_taken_channel.md): choosing and locking items, late cues, side
cues, item starts and failures, changes of the list, and opening a run. -/

namespace Sys2Proof.Machine

/-! ## Items -/

/-- Main-site time now on a run (R138). -/
def State.runNow (s : State) (r : RunRec) : Time := s.now - r.offset

/-- The first side cue of a record whose offset is at or above the frames skipped (R146). -/
def firstCue (cues : List SideCue) (skipped : Nat) : Nat := cues.findIdx (fun c => decide (skipped ≤ c.offset.toNat))

/-- An EVENT item for a record entered `k` frames past its nominal start, at main start `start` (R131, R140). -/
def eventItem (e : EventRec) (offset start : Time) (k frames : Nat) (serial : Nat) : Item :=
  { source := .event e.slot e.data.id, upTo := none, mainStart := start, localStart := start + offset,
    entry := e.data.entry.toNat + k, skipped := k, play := frames, cuedEnd := e.times.map (·.effEnd), locked := false,
    runStart := none, unconfirmed := false, nextCue := firstCue e.data.cues k, byGo := false, serial := serial }

/-- A FILLER item; frames to play 0 and no cued end for open filler (R133, R140). -/
def fillerItem (offset start : Time) (frames : Nat) (cuedEnd : Option Time) (serial : Nat) : Item :=
  { source := .filler, upTo := none, mainStart := start, localStart := start + offset, entry := 0, skipped := 0, play := frames,
    cuedEnd := cuedEnd, locked := false, runStart := none, unconfirmed := false, nextCue := 0, byGo := false,
    serial := serial }

/-- The item a join result describes, with the record it names (R134, R137, section 7.5). -/
def JoinResult.item (j : JoinResult) (offset : Time) (serial : Nat) : Item :=
  match j with
  | .entry e t k n => eventItem e offset t k n serial
  | .eventStart e t n => eventItem e offset t 0 n serial
  | .fillerThen e t next n => { fillerItem offset t n (some next) serial with upTo := some e.slot }
  | .fillerOpen t _ => fillerItem offset t 0 none serial

/-- The run switch time that limits what the runner locks, present in HANDING_BACK (R173). -/
def Chan.limit (ch : Chan) : Option Time := ch.tk.handback.map (·.runSwitch)

/-- A start is at or after the run switch time, so its item is not made (R173). -/
def Chan.pastLimit (ch : Chan) (start : Time) : Bool := ch.limit.any (fun l => atOrBefore l start)

/-! ## Run mode and pins -/

/-- The run mode and manual hold that a choice or join result gives (R147). Each one that is made gives both: one without a manual
hold gives RUNNING and drops a hold that stood, also where the hold point still waits for GO and an edit has put an event before it
(DESIGN CHOICE, log 64). -/
def State.setHold (s : State) (c : Channel) (hold : Option EventId) : State :=
  s.modRun c (fun r => { r with mode := if hold.isSome then .awaitingGo else .running, manualHold := hold })

/-- Unpins the record held for an item that has left the run, unless it is held for another item of the run (R37; for the record of
filler up to an event, DESIGN CHOICE, log 60). -/
def State.releaseItem (s : State) (c : Channel) (it : Item) : State :=
  match it.pins? with
  | none => s
  | some n =>
    let named := (s.chan? c).any (fun ch => ch.run.any (fun r => r.items.any (fun i => i.pins? == some n)))
    if named then s else s.unpin c n

/-- Pins the record that an item holds: an EVENT item's (R35), and the next event's for filler of a join result up to it (R134). -/
def State.pinItem (s : State) (c : Channel) (it : Item) : State :=
  match it.pins? with
  | none => s
  | some n => s.pin c n

/-- Makes an item the cued item, its cue moment not armed, and pins the record it holds (R126, R134, R140). -/
def State.setCued (s : State) (c : Channel) (it : Item) : State :=
  (({ s with itemSerial := s.itemSerial + 1 }).modRun c (fun r => { r with cued := some it, cueMoment := none })).pinItem c
    it

/-- Abandons the cued item (R143, R150). -/
def State.dropCued (s : State) (c : Channel) : State :=
  match (s.chan? c).bind (fun ch => ch.run.bind (·.cued)) with
  | none => s
  | some it => (s.modRun c (fun r => { r with cued := none, cueMoment := none })).releaseItem c it

/-- Abandons the go item, with any start report that waited for it. -/
def State.dropGo (s : State) (c : Channel) : State :=
  match (s.chan? c).bind (fun ch => ch.run.bind (·.goItem)) with
  | none => s
  | some it => (s.modRun c (fun r => { r with goItem := none, goReport := none })).releaseItem c it

/-! ## The on-air end (R139) -/

/-- The effective end that the event of an EVENT item stands at: the list's event of its id, else its unlinked record. -/
def Chan.eventEnd (ch : Chan) (slot : Nat) (id : EventId) (cuedEnd : Option Time) : Option Time :=
  match ch.list.find? (fun e => e.data.id == id) with
  | some e =>
    match e.times with
    | some t => some t.effEnd
    | none => cuedEnd
  | none =>
    match (ch.unlinked.find? (fun e => e.slot == slot)).bind (·.times) with
    | some t => some t.effEnd
    | none => cuedEnd

/-- The on-air end of a run; open filler has none (R139). -/
def Chan.onAirEnd (ch : Chan) (r : RunRec) (it : Item) : Option Time :=
  match r.cued.filter (·.locked) with
  | some cued => some cued.mainStart
  | none =>
    match it.source with
    | .event slot id => ch.eventEnd slot id it.cuedEnd
    | .filler => it.cuedEnd

/-- The on-air end side cues are checked against: the switch time for an item that runs past it (R146, R173). -/
def Chan.sideEnd (ch : Chan) (r : RunRec) (it : Item) : Option Time :=
  match ch.onAirEnd r it, ch.limit with
  | some e, some l => some (if before l e then l else e)
  | some e, none => some e
  | none, l => l

/-! ## Side cues (R146) -/

/-- The main-site time of a side cue of an item: the item's nominal start plus the offset in grains. -/
def Item.cueTime (it : Item) (period : Nat) (c : SideCue) : Time :=
  plus (minus it.mainStart (it.skipped * period)) (c.offset.toNat * period)

/-- Which item of a run record. -/
inductive ItemPlace where
  | onAir
  | cued
  | goItem
deriving DecidableEq, Repr

/-- The item in a place. -/
def RunRec.item (r : RunRec) : ItemPlace → Option Item
  | .onAir => r.onAir
  | .cued => r.cued
  | .goItem => r.goItem

/-- Changes the item in a place. -/
def RunRec.modItem (r : RunRec) (p : ItemPlace) (f : Item → Item) : RunRec :=
  match p with
  | .onAir => { r with onAir := r.onAir.map f }
  | .cued => { r with cued := r.cued.map f }
  | .goItem => { r with goItem := r.goItem.map f }

/-- The next side cue not yet issued of the item in a place, when the item is locked or on air (R146). -/
def Chan.nextSide (ch : Chan) (r : RunRec) (p : ItemPlace) : Option (Item × SideCue × EventRec) := do
  let it ← r.item p
  if !it.locked then none
  else do
    let e ← it.slot?.bind ch.record?
    let c ← e.data.cues[it.nextCue]?
    some (it, c, e)

/-- The station time at which the SIDE of a cue is issued: one cue lead before its local time (R146). -/
def State.sideMoment (s : State) (ch : Chan) (r : RunRec) (it : Item) (c : SideCue) : Time :=
  minus (it.cueTime ch.period c + r.offset) (s.lead ch)

/-- The check at the moment of issue: the cue's time lies after now, before the end that holds for the item, and the cue is
still live (R146). -/
def State.sidePasses (s : State) (ch : Chan) (r : RunRec) (p : ItemPlace) (it : Item) (c : SideCue) (e : EventRec) : Bool :=
  let t := it.cueTime ch.period c
  let stop := if p = .onAir then ch.sideEnd r it else it.cuedEnd
  before s.now (t + r.offset) && stop.any (fun x => before t x) && e.liveCue ch.period c

/-- Settles the next side cue of the item in a place: issued when it passes the check, else passed over (R146). -/
def State.settleSide (s : State) (c : Channel) (p : ItemPlace) : State :=
  match s.chan? c with
  | none => s
  | some ch =>
    match ch.run with
    | none => s
    | some r =>
      match ch.nextSide r p with
      | none => s
      | some (it, cue, e) =>
        let s' := s.modRun c (fun r => r.modItem p (fun i => { i with nextCue := i.nextCue + 1 }))
        if s.sidePasses ch r p it cue e then
          s'.offerCmd r.outlet (.side cue.code (it.cueTime ch.period cue + r.offset))
        else s'

/-- The next side cue of the item in a place has reached its moment of issue. -/
def State.sideDue (s : State) (c : Channel) (p : ItemPlace) : Bool :=
  (s.chan? c).any (fun ch => ch.run.any (fun r =>
    (ch.nextSide r p).any (fun x => atOrBefore (s.sideMoment ch r x.1 x.2.1) s.now)))

/-- At an item's lock, every side cue whose moment of issue has passed is settled at once (R146); a record has at most four. -/
def State.settleDueSides (s : State) (c : Channel) (p : ItemPlace) : Nat → State
  | 0 => s
  | n + 1 => if s.sideDue c p then (s.settleSide c p).settleDueSides c p n else s

/-! ## Locking (R142) -/

/-- The material an item airs: its record's, or the channel's filler (R160). -/
def Chan.material (ch : Chan) (it : Item) : Material :=
  match it.slot?.bind ch.record? with
  | some e => e.data.material
  | none => ch.part.filler

/-- The PREP of an item (R160). -/
def Chan.prepOf (ch : Chan) (it : Item) (joinMark : Bool) : Prep :=
  { serial := it.serial, join := joinMark, material := ch.material it, entry := it.entry, start := it.localStart,
    duration := if it.openFiller ∨ 16777215 < it.play then 0 else it.play }

/-- Locks the item in a place: the walk origin takes an EVENT item's id, its PREP is issued, and side cues already due are
settled (R142, R146). The origin that a lock displaces is kept, a go item's for its failure (R145; log 42) and each for a restore cue
(R177; log 16).
A PREP dropped at a full queue is failed behind those side cues (DESIGN CHOICE, log 52). -/
def State.lockItem (s : State) (c : Channel) (p : ItemPlace) (joinMark : Bool) : State :=
  match s.chan? c with
  | none => s
  | some ch =>
    match ch.run with
    | none => s
    | some r =>
      match r.item p with
      | none => s
      | some it =>
        let s := s.modRun c (fun r =>
          { (r.modItem p (fun i => { i with locked := true })) with
            cueMoment := if p = .cued then none else r.cueMoment
            goOrigin := if p = .goItem then r.walkOrigin else r.goOrigin
            cuedOrigin := if p = .cued then r.walkOrigin else r.cuedOrigin
            walkOrigin := match it.event? with
              | some id => some id
              | none => r.walkOrigin })
        (s.offerCmd r.outlet (.prep (ch.prepOf it joinMark))).settleDueSides c p 4

/-! ## Choosing (R140 to R142) -/

/-- The events a walk begins at: after the walk origin's event, or from the head (R140). -/
def RunRec.walkStart (r : RunRec) (l : List EventRec) : List EventRec :=
  match r.walkOrigin with
  | none => l
  | some id => if hasId id l then (l.dropWhile (fun e => e.data.id != id)).drop 1 else l

/-- What a choice's examination ends at; an event it ends at comes with its nominal start and its effective duration in frames
(R140). -/
inductive Choice where
  | fillerOpen (hold : Option EventId)
  | event (e : EventRec) (start : Time) (frames : Nat)
  | gapTo (e : EventRec) (start : Time) (frames : Nat)
  | late
deriving DecidableEq, Repr

/-- Examines events in list order from an on-air end (R140). -/
def examine (period : Nat) (e : Time) : List EventRec → Choice
  | [] => .fillerOpen none
  | x :: rest =>
    match x.times with
    | none => .fillerOpen (if x.data.start = .manual then some x.data.id else none)
    | some t =>
      if x.eclipsed then examine period e rest
      else if before t.nomStart e then .late
      else if (t.nomStart - e).toNat < period then .event x t.nomStart (x.framesOf period t)
      else .gapTo x t.nomStart (x.framesOf period t)

/-- The walk and examination of a choice (R140). -/
def choiceOf (period : Nat) (e : Time) (events : List EventRec) : Choice :=
  examine period e (dropThroughLast (fun x => x.endsBy e) events)

/-- The inputs of a join for a late cue at station time `t` (R136). -/
def State.joinInput (s : State) (ch : Chan) (r : RunRec) (t : Time) : JoinInput :=
  { time := t, offset := r.offset, period := ch.period, lead := s.lead ch, minTail := ch.part.minTail }

/-- Puts a join result in place as the cued item, its record pinned, and locks it at once, within the limit of HANDING_BACK (R134, R142,
R173). A result without a manual hold ends a wait for GO (DESIGN CHOICE, log 64). -/
def State.cueJoin (s : State) (c : Channel) (ch : Chan) (r : RunRec) (j : JoinResult) : State :=
  if ch.pastLimit j.mainStart then s
  else ((s.setHold c j.hold).setCued c (j.item r.offset s.itemSerial)).lockItem c .cued false

/-- The on-air item is open filler. -/
def RunRec.onOpenFiller (r : RunRec) : Bool := r.onAir.any Item.openFiller

/-- A late cue: the join computation from now replaces the choice; open filler behind open filler leaves the cued item
absent, and its hold, or none, in place (R142; log 64). -/
def State.lateCue (s : State) (c : Channel) (ch : Chan) (r : RunRec) : State :=
  match join (s.joinInput ch r s.now) (r.walkStart ch.list) with
  | .fillerOpen t h => if r.onOpenFiller then s.setHold c h else s.cueJoin c ch r (.fillerOpen t h)
  | j => s.cueJoin c ch r j

/-- Takes a chosen item: not made past the limit, replaced by a late cue when it starts less than one cue lead ahead, locked
at once when its cue moment is now, else its cue moment armed (R140, R142, R173). The spec gives RUNNING again where the hold event is
resolved or gone (R147); here an event or a gap that is chosen before a hold point gives it too, and drops the manual hold, which the
choice that next reaches the hold point sets again (DESIGN CHOICE, log 64). -/
def State.takeChoice (s : State) (c : Channel) (ch : Chan) (r : RunRec) (it : Item) (hold : Option EventId) : State :=
  if ch.pastLimit it.mainStart then s
  else
    let ahead := diff it.mainStart (plus (s.runNow r) (s.lead ch))
    if ahead < 0 then s.lateCue c ch r
    else
      let s' := (s.setHold c hold).setCued c it
      if ahead = 0 then s'.lockItem c .cued false
      else s'.modRun c (fun r => { r with cueMoment := some (minus it.localStart (s.lead ch)) })

/-- The choice behind open filler on air, from `e` (R141). One that cues nothing gives the manual hold of what it met, and without one
ends a wait for GO (DESIGN CHOICE, log 64). -/
def State.chooseBehindFiller (s : State) (c : Channel) (ch : Chan) (r : RunRec) (e : Time) : State :=
  match choiceOf ch.period e (r.walkStart ch.list) with
  | .fillerOpen hold => s.setHold c hold
  | .event x t n | .gapTo x t n => s.takeChoice c ch r (eventItem x r.offset t 0 n s.itemSerial) none
  | .late => s.lateCue c ch r

/-- The choice from an on-air end (R140). -/
def State.chooseFrom (s : State) (c : Channel) (ch : Chan) (r : RunRec) (e : Time) : State :=
  match choiceOf ch.period e (r.walkStart ch.list) with
  | .fillerOpen hold => s.takeChoice c ch r (fillerItem r.offset e 0 none s.itemSerial) hold
  | .event x t n => s.takeChoice c ch r (eventItem x r.offset t 0 n s.itemSerial) none
  | .gapTo _ t _ =>
    s.takeChoice c ch r (fillerItem r.offset e (ceilDiv (t - e).toNat ch.period) (some t) s.itemSerial) none
  | .late => s.lateCue c ch r

/-- The runner's choice for a channel, from `stop` where the caller names the on-air end, else from the on-air end as it
stands (R139 to R141, R145). Behind open filler on air no filler is chosen, and without a named end the walk is from one cue lead
ahead of now; a named end takes its place there (DEDUCED, log 30). Without an on-air item there is nothing to choose for. -/
def State.choose (s : State) (c : Channel) (stop : Option Time) : State :=
  match s.chan? c with
  | none => s
  | some ch =>
    match ch.run with
    | none => s
    | some r =>
      match r.onAir with
      | none => s
      | some it =>
        if it.openFiller then s.chooseBehindFiller c ch r (stop.getD (plus (s.runNow r) (s.lead ch)))
        else
          match stop.or (ch.onAirEnd r it) with
          | none => s
          | some e => s.chooseFrom c ch r e

/-- The runner's choice for a channel where it is a late cue whatever it would end at (R142, R145). -/
def State.chooseLate (s : State) (c : Channel) : State :=
  match s.chan? c with
  | none => s
  | some ch =>
    match ch.run with
    | none => s
    | some r => s.lateCue c ch r

/-- The runner makes its choice where its cued item is absent, once the mirror has served what waits (R18). -/
def State.chooseIfNone (s : State) (c : Channel) : State :=
  if (s.chan? c).any (fun ch => ch.run.any (fun r => r.cued.isNone)) then s.serveAll.choose c none else s

/-! ## Changes of the list (R143, R147) -/

/-- A report whose list no longer holds the manual hold's event ends the wait for GO (R147). -/
def State.dropLostHold (s : State) (c : Channel) : State :=
  match s.chan? c with
  | none => s
  | some ch =>
    match ch.run.bind (·.manualHold) with
    | none => s
    | some id => if hasId id ch.list then s else s.setHold c none

/-- Two items name the same record at the same start (R143). -/
def sameChoice (a b : Item) : Bool := a.slot?.isSome && a.source == b.source && a.mainStart == b.mainStart

/-- The runner acts on a report that a held channel's list has changed (R143). -/
def State.listChanged (s : State) (c : Channel) : State :=
  match s.chan? c with
  | none => s
  | some ch =>
    match ch.run with
    | none => s
    | some r =>
      let s := s.dropLostHold c
      match r.cued with
      | none => s.choose c none
      | some it =>
        if it.locked then s
        else
          let s' := (s.dropCued c).choose c none
          match (s'.chan? c).bind (fun ch => ch.run.bind (·.cued)) with
          | some it' => if sameChoice it it' then s else s'
          | none => s'

/-- The mirror resolves a channel's list after a change, then tells the runner when the channel is held (R34). -/
def State.afterChange (s : State) (c : Channel) : State := (s.resolveChan c).listChanged c

/-! ## Starts and failures of items (R144, R145) -/

/-- The ending of an item that the start of the next one ends (R151): FULL at or after its cued end, CUT before it, and for
open filler CUT when GO ended it, which is when GO itself cued the next item (DESIGN CHOICE, logs 58, 59, 63, 65). `start` is the next item's start on the run's grid. -/
def endingAt (it next : Item) (start : Time) : Ending :=
  match it.cuedEnd with
  | some e => if before start e then .cut else .full
  | none => if next.byGo then .cut else .full

/-- Asks the mirror for a reclaim sweep (R38). -/
def State.askSweep (s : State) (c : Channel) : State := { s with mirrorReqs := s.mirrorReqs ++ [.sweep c] }

/-- The cued item starts at local time `start` (R144): the ending item's as-run record, the items moved up, the sweep asked
for, and the choice made, behind that sweep, when no item is cued. -/
def State.cuedStarts (s : State) (c : Channel) (ch : Chan) (r : RunRec) (it : Item) (start : Time) (unconfirmed : Bool) :
    State :=
  let s := match r.onAir with
    | none => s
    | some old => s.writeAsRun (asRunEnded ch r old start (endingAt old it (start - r.offset)))
  let s := s.modRun c (fun r =>
    { r with onAir := some { it with runStart := some start, unconfirmed := unconfirmed }
             cued := r.goItem, goItem := none, cueMoment := none, cuedOrigin := r.goOrigin })
  let s := match r.onAir with
    | none => s
    | some old => s.releaseItem c old
  (s.askSweep c).chooseIfNone c

/-- A locked cued item with the serial. -/
def RunRec.cuedIs (r : RunRec) (serial : Nat) : Option Item := r.cued.filter (fun i => i.locked && i.serial == serial)

/-- After the cued item was acted on, a start report that waited for the item now cued is acted on (R144), behind a sweep that the
cued item's start has asked for (R18). -/
def State.takeGoReport (s : State) (c : Channel) : State :=
  match s.chan? c with
  | none => s
  | some ch =>
    match ch.run with
    | none => s
    | some r =>
      match r.goReport, r.cued, r.goItem with
      | some (start, unconfirmed), some it, none =>
        let s := (s.mirrorTurn c).modRun c (fun r => { r with goReport := none })
        s.cuedStarts c ch { r with goReport := none } it start unconfirmed
      | _, _, _ => s

/-- The runner takes a STARTED, or a start-lapsed report, of an item by its serial (R144). -/
def State.itemStarted (s : State) (c : Channel) (serial : Nat) (start : Time) (unconfirmed : Bool) : State :=
  match s.chan? c with
  | none => s
  | some ch =>
    match ch.run with
    | none => s
    | some r =>
      match r.cuedIs serial with
      | some it => (s.cuedStarts c ch r it start unconfirmed).takeGoReport c
      | none =>
        if r.goItem.any (fun i => i.serial == serial) then
          s.modRun c (fun r => { r with goReport := some (start, unconfirmed) })
        else s

/-- Replacement filler for a failed EVENT item, within the limit of HANDING_BACK (R145, R173). The choice made in
its place from an end less than one period off is a late cue, whatever it would end at, so the join is asked for at once, and the
limit is held against the join's result (DEDUCED, log 54). -/
def State.replaceItem (s : State) (c : Channel) (ch : Chan) (r : RunRec) (it : Item) : State :=
  let start := laterOf it.mainStart (plus (s.runNow r) (s.lead ch))
  match it.cuedEnd with
  | none =>
    if ch.pastLimit start then s
    else (s.setCued c (fillerItem r.offset start 0 none s.itemSerial)).lockItem c .cued false
  | some e =>
    if diff e start < (ch.period : Int) then s.chooseLate c
    else if ch.pastLimit start then s
    else
      (s.setCued c (fillerItem r.offset start (ceilDiv (e - start).toNat ch.period) (some e) s.itemSerial)).lockItem c
        .cued false

/-- A locked cued item that is not the join item has failed (R145). -/
def State.cuedFails (s : State) (c : Channel) (ch : Chan) (r : RunRec) (it : Item) : State :=
  let s := s.writeAsRun (asRunMissed ch r it)
  let s := s.modRun c (fun r => { r with cued := r.goItem, goItem := none, cueMoment := none, cuedOrigin := r.goOrigin })
  let s := s.releaseItem c it
  if r.goItem.isSome then s.takeGoReport c
  else match it.source with
    | .event .. => s.replaceItem c ch r it
    | .filler => if it.cuedEnd.isSome then s.choose c it.cuedEnd else s

/-- The go item has failed: where the walk origin names it, the origin is what it was before the go item was locked, so that
the choice at the hold filler's STARTED reaches the anchored event (R145; log 42), which then carries no GO mark (DESIGN CHOICE,
log 59). -/
def State.goFails (s : State) (c : Channel) (ch : Chan) (r : RunRec) (it : Item) : State :=
  ((s.writeAsRun (asRunMissed ch r it)).dropGo c).modRun c (fun r =>
    { r with walkOrigin := if r.walkOrigin = it.event? then r.goOrigin else r.walkOrigin })

/-- The runner takes a failed item by its serial (R145). -/
def State.itemFailed (s : State) (c : Channel) (serial : Nat) : State :=
  match s.chan? c with
  | none => s
  | some ch =>
    match ch.run with
    | none => s
    | some r =>
      match r.cuedIs serial with
      | some it => s.cuedFails c ch r it
      | none =>
        match r.goItem.filter (fun i => i.serial == serial) with
        | some it => s.goFails c ch r it
        | none => s

/-- The commanded local start of a run's locked item with the serial: the start a lapsed report stands for (R144). -/
def State.commandedStart (s : State) (c : Channel) (serial : Nat) : Option Time :=
  (s.chan? c).bind (fun ch => ch.run.bind (fun r =>
    ((r.cued.toList ++ r.goItem.toList).find? (fun i => i.locked && i.serial == serial)).map (·.localStart)))

/-! ## The stop request that waits (R174) -/

/-- The run has a locked item, not yet started, whose start is before the run switch time (R174). -/
def Chan.stopBlocked (ch : Chan) (h : Handback) : Bool :=
  ch.run.any (fun r => (r.cued.toList ++ r.goItem.toList).any (fun i => i.locked && before i.mainStart h.runSwitch))

/-- Makes the stop request for the local switch time (R162, R174). -/
def State.makeStop (s : State) (c : Channel) : State :=
  match s.chan? c with
  | none => s
  | some ch =>
    match ch.tk.outlet, ch.tk.handback with
    | some o, some h =>
      (s.requestStop o h.localSwitch).modTk c (fun tk =>
        { tk with handback := tk.handback.map (fun h => { h with stopRequested := true, stopWaiting := false }) })
    | _, _ => s

/-- A waiting stop request is made once no locked item before the run switch time waits to start (R174). -/
def State.retryStop (s : State) (c : Channel) : State :=
  match s.chan? c with
  | none => s
  | some ch =>
    match ch.tk.handback with
    | none => s
    | some h => if h.stopWaiting && !ch.stopBlocked h then s.makeStop c else s

/-! ## The reports of a step -/

/-- The runner acts on one report of a later item's failure or start lapse (R144, R145), and a waiting stop request is looked
at again (R174). The mirror has its turn first (R18). -/
def State.takeReport (s : State) (x : ItemReport) : State :=
  let s := s.mirrorTurn x.channel
  let s' :=
    if x.lapse then
      match s.commandedStart x.channel x.serial with
      | some t => s.itemStarted x.channel x.serial t true
      | none => s
    else s.itemFailed x.channel x.serial
  s'.retryStop x.channel

/-- Acts on the reports of a step one after another, those that acting on them makes included. Each failure moves the walk on
or cues nothing, so the bound is never reached (log 19). -/
def State.settleReports : Nat → State → State
  | 0, s => { s with reports := [] }
  | n + 1, s =>
    match s.reports with
    | [] => s
    | x :: rest => State.settleReports n (({ s with reports := rest }).takeReport x)

/-- Acts on every report a step has made. -/
def State.settle (s : State) : State := State.settleReports 1024 s

/-! ## Opening a run (R137) -/

/-- The run record a join result opens, before its item is cued (R137). -/
def runOf (o : OutletNo) (offset : Time) : RunRec :=
  { outlet := o, offset := offset, mode := .running, manualHold := none, onAir := none, cued := none, goItem := none,
    goReport := none, goOrigin := none, cuedOrigin := none, walkOrigin := none, cueMoment := none, anchor := none }

/-- Opens the run record of a channel entering JOINING at decision time `t` with offset `offset`, and issues the join PREP
(R135, R137). -/
def State.openRun (s : State) (c : Channel) (o : OutletNo) (t offset : Time) : State :=
  match s.chan? c with
  | none => s
  | some ch =>
    let r := runOf o offset
    let j := join (s.joinInput ch r t) ch.list
    let s := s.modChan c (fun ch => { ch with run := some r })
    (((s.setHold c j.hold).setCued c (j.item offset s.itemSerial))).lockItem c .cued true

end Sys2Proof.Machine
end

