-- ==== Sys2Proof/Machine/HandbackOps.lean ====
section
/-! DEFINITION. Handback's shared operations (10_handback.md): entering, replacing, cancelling and judging a handback, the
restore cue, and the watch report to the takeover unit (R75, R117, R118, R176). -/

namespace Sys2Proof.Machine

/-- The stop point for a local switch time: one cue lead before it, or now if that has passed (R172). -/
def stopPointFor (lead : Nat) (localSwitch now : Time) : Time :=
  let p := minus localSwitch lead
  if atOrBefore p now then now else p

/-- The handback fields for an offered or forced local switch time (R172, R179). -/
def handbackFor (switch localSwitch offset : Time) (forced : Bool) (lead : Nat) (now : Time) : Handback :=
  { switch := switch, localSwitch := localSwitch, runSwitch := localSwitch - offset, forced := forced,
    stopPoint := some (stopPointFor lead localSwitch now), stopRequested := false, stopWaiting := false,
    switchDl := some localSwitch }

/-- A chosen item not yet locked whose start is at or after the run switch time is abandoned (R150, R173). -/
def State.limitCued (s : State) (c : Channel) : State :=
  match s.chan? c with
  | none => s
  | some ch =>
    match ch.run.bind (·.cued) with
    | none => s
    | some it => if !it.locked && ch.pastLimit it.mainStart then s.dropCued c else s

/-- Enters HANDING_BACK with the given fields: a HOLD is offered and the runner is told (R172), once the mirror has served what
waits (R18). -/
def State.enterHandback (s : State) (c : Channel) (h : Handback) : State :=
  (((s.mirrorTurn c).modTk c (fun tk => { tk with state := .handingBack, handback := some h })).assertHold c).limitCued c

/-- A locked item whose start is at or after a run switch time (R177). -/
def Item.lockedAtOrAfter (it : Item) (runSwitch : Time) : Bool := it.locked && atOrBefore runSwitch it.mainStart

/-- The walk origin once an item is abandoned whose lock displaced the origin `before`: that one again where the origin names the
item's event (R177; DEDUCED, log 16). -/
def originWithout (gone : Option Item) (before origin : Option EventId) : Option EventId :=
  match gone.bind Item.event? with
  | some id => if origin = some id then before else origin
  | none => origin

/-- The walk origin once a restore cue has abandoned the locked items at or after the old run switch time, the go item first
(R177; DEDUCED, log 16). -/
def RunRec.originAfter (r : RunRec) (runSwitch : Time) : Option EventId :=
  originWithout (r.cued.filter (·.lockedAtOrAfter runSwitch)) r.cuedOrigin
    (originWithout (r.goItem.filter (·.lockedAtOrAfter runSwitch)) r.goOrigin r.walkOrigin)

/-- The events a restore cue searches: those the next choice would walk (R177), with the event on air ahead of them, so that it can
be entered again, as section 10.7 shows (DEDUCED, log 16). An event whose PREP failed and that filler on air replaces is not among
them (R145). -/
def RunRec.restoreStart (r : RunRec) (l : List EventRec) : List EventRec :=
  let next := r.walkStart l
  match r.onAir.bind Item.event? with
  | none => next
  | some id => if hasId id next then next else l.filter (fun e => e.data.id == id) ++ next

/-- A restore cue for an old local switch time and run switch time: abandons the items the stop has cancelled at the server and a
cued item not locked, whose place the result takes, and locks the join result of the old switch time (R177). The limit of R173 does not apply to it,
and a result without a manual hold ends a wait for GO (DESIGN CHOICE, log 64). -/
def State.restoreCue (s : State) (c : Channel) (oldLocal oldRun : Time) : State :=
  match s.chan? c with
  | none => s
  | some ch =>
    match ch.run with
    | none => s
    | some r =>
      let origin := r.originAfter oldRun
      let s := if r.goItem.any (fun i => i.lockedAtOrAfter oldRun) then s.dropGo c else s
      let s := if r.cued.any (fun i => !i.locked || i.lockedAtOrAfter oldRun) then s.dropCued c else s
      let s := s.modRun c (fun r => { r with walkOrigin := origin })
      match s.chan? c with
      | none => s
      | some ch =>
        match ch.run with
        | none => s
        | some r =>
          let j := join (s.joinInput ch r (minus oldLocal (s.lead ch))) (r.restoreStart ch.list)
          ((s.setHold c j.hold).setCued c (j.item r.offset s.itemSerial)).lockItem c .cued false

/-- Withdraws the armed stop of a channel's outlet and, when the server may hold its stop, makes a restore cue for the old
switch times (R175, R176). -/
def State.undoStop (s : State) (c : Channel) (o : OutletNo) (old : Handback) : State :=
  let held := (s.outlet o).stopMayStand
  let s := s.withdrawStop o
  if held then s.restoreCue c old.localSwitch old.runSwitch else s

/-- A new local switch time replaces a handback (R175), once the mirror has served what waits (R18). -/
def State.replaceHandback (s : State) (c : Channel) (switch localSwitch : Time) (forced : Bool) : State :=
  let s := s.mirrorTurn c
  match s.chan? c with
  | none => s
  | some ch =>
    match ch.tk.handback, ch.tk.outlet, ch.run with
    | some old, some o, some r =>
      let fresh := handbackFor switch localSwitch r.offset forced (s.lead ch) s.now
      let later := before old.localSwitch localSwitch
      let undo := old.stopRequested && later
      let s := s.modTk c (fun tk =>
        { tk with handback := some { fresh with stopRequested := old.stopRequested && !later } })
      let s := if undo then s.undoStop c o old else s
      let s := s.limitCued c
      if later then s.chooseIfNone c else s
    | _, _, _ => s

/-- Cancels an unforced handback and returns the channel to ON_AIR (R176), once the mirror has served what waits (R18). An event that the
choice then cues carries no GO mark, also where GO anchored it during the handback (DESIGN CHOICE, log 65). -/
def State.cancelHandback (s : State) (c : Channel) : State :=
  match s.chan? c with
  | none => s
  | some ch =>
    match ch.tk.handback with
    | none => s
    | some h =>
      if h.forced then s
      else
        let s := s.mirrorTurn c
        let s := match ch.tk.outlet with
          | some o => s.undoStop c o h
          | none => s
        let s := s.modTk c (fun tk => { tk with state := .onAir, handback := none })
        (s.assertHold c).chooseIfNone c

/-- What judging an offer gives (R171). -/
inductive OfferVerdict where
  | notLive
  | tooSoon
  | passes (localSwitch : Time)
deriving DecidableEq, Repr

/-- Judges an offered switch time for a channel (R171). -/
def State.judgeOffer (s : State) (ch : Chan) (switch : Time) : OfferVerdict :=
  let l := switch + ch.watch.estimate
  if ch.watch.state ≠ .live then .notLive
  else if diff l s.now < ((s.sp.handbackMin * Config.grainsPerSecond : Nat) : Int) then .tooSoon
  else .passes l

/-- The takeover unit takes a beacon's main state after the watch has handled it (R171, R175, R176). -/
def State.takeOffer (s : State) (c : Channel) (main : MainState) : State :=
  match s.chan? c with
  | none => s
  | some ch =>
    match ch.tk.state, main, ch.tk.handback with
    | .onAir, .resumeOffer t, _ =>
      match s.judgeOffer ch t, ch.run with
      | .notLive, _ => s.raise .handback c .handbackNotLive
      | .tooSoon, _ => s.raise .handback c .handbackTooSoon
      | .passes l, some r => s.enterHandback c (handbackFor t l r.offset false (s.lead ch) s.now)
      | .passes _, none => s
    | .handingBack, .resumeOffer t, some h =>
      if h.forced || h.switch == t then s
      else match s.judgeOffer ch t with
        | .notLive => s.raise .handback c .handbackNotLive
        | .tooSoon => s.raise .handback c .handbackTooSoon
        | .passes l => s.replaceHandback c t l false
    | .handingBack, _, some _ => s.cancelHandback c
    | _, _, _ => s

/-- The takeover unit acts on a report that a channel's watch has gone from one state to another (R75): the await-live mark clears
outside LOST (R118), IDLE and BLOCKED are checked (R108), CONTENDING and YIELDED are left when the watch leaves LOST (R115, R117),
and an entry to LOST cancels a handback (R176). -/
def State.watchReport (s : State) (c : Channel) (old new : WatchState) : State :=
  let s := if new = .lost then s else s.modTk c (fun tk => { tk with awaitLive := false })
  match s.chan? c with
  | none => s
  | some ch =>
    match ch.tk.state with
    | .idle | .blocked _ => s.check c
    | .contending => if old = .lost ∧ new ≠ .lost then ((s.leaveContending c .idle).check c).pass else s
    | .yielded => if old = .lost ∧ new ≠ .lost then s.leaveYielded c else s
    | .handingBack => if new = .lost then s.cancelHandback c else s
    | _ => s

/-- The watch gives a channel a state: on a change, an entry to LOST raises CHANNEL_LOST and the takeover unit is told (R75). -/
def State.setWatch (s : State) (c : Channel) (new : WatchState) (cause : LostCause) : State :=
  match s.chan? c with
  | none => s
  | some ch =>
    if ch.watch.state = new then s
    else
      let s := s.modWatch c (fun w => { w with state := new })
      let s := if new = .lost then s.raise .channelLost c (.channelLost cause) else s
      s.watchReport c ch.watch.state new

end Sys2Proof.Machine
end

