-- ==== Sys2Proof/Machine/CuePort.lean ====
section
/-! DEFINITION. The commands of the cue port and the outlet deadlines (09_outlets_and_the_cue_port.md). -/

namespace Sys2Proof.Machine

/-- Takes the element of least time out of a list, the first among equals; an element without a time is passed over. -/
def takeSoonest {α : Type} (key : α → Option Time) : List α → Option (α × List α)
  | [] => none
  | x :: xs =>
    match key x, takeSoonest key xs with
    | none, r => r.map (fun y => (y.1, x :: y.2))
    | some _, none => some (x, xs)
    | some t, some y => if (key y.1).any (fun u => before u t) then some (y.1, x :: y.2) else some (x, xs)

/-! ## Sending (R156, R158) -/

/-- The link is idle: two character times have passed since the last byte of the last command (R158). While a command goes out
that byte lies ahead of now. -/
def State.linkIdle (s : State) : Bool :=
  match s.cue.lastSent with
  | none => true
  | some t => atOrBefore (plus t (2 * Config.characterTime)) s.now

/-- The station time of the last check byte of a command of some bytes that begins now and goes out without a gap (R158; log 8). -/
def State.sendTime (s : State) (bytes : List Byte) : Time := plus s.now (bytes.length * Config.characterTime)

/-- The head command of an outlet begins: it leaves the queue with its tag and is the outstanding command from here on, sent whole
whatever becomes of the outlet; its send time is that of its last check byte (R156, R158, R159). -/
def State.sendHead (s : State) (o : OutletNo) (cmd : Cmd) (rest : List Cmd) (order : List OutletNo) : State :=
  let tag := o.val * 4 + (s.outlet o).seq
  let bytes := cmdBytes o tag cmd
  let sent := s.sendTime bytes
  let s := s.modOutlet o (fun x =>
    { x with
      queue := rest, seq := (x.seq + 1) % 4
      outstanding := some
        { cmd := cmd, tag := tag, sentAt := sent, deadline := plus sent (msGrains s.sp.replyTimeout), orphaned := false } })
  { s with cue := { s.cue with sendOrder := order, lastSent := some sent, cqo := bytes } }

/-- COMMAND_SEND: with the link idle and server-ready asserted, the head command of the first outlet of the send order begins
(R158; log 8). -/
def execCommandSend (serverReady : Bool) (s : State) : Host.Outcome State Fault Refusal :=
  .next (
    if s.locked && serverReady && s.linkIdle then
      match s.cue.sendOrder with
      | [] => s
      | o :: order =>
        match (s.outlet o).queue with
        | [] => { s with cue := { s.cue with sendOrder := order } }
        | cmd :: rest => s.sendHead o cmd rest order
    else s)

/-! ## The cue receiver (R155) -/

/-- Adds one to the late reply count (R155). -/
def State.countLate (s : State) : State := { s with cue := { s.cue with late := sat16 (s.cue.late + 1) } }

/-- Changes the cue receiver's framing state. -/
def State.setCueFraming (s : State) (f : Framing) : State := { s with cue := { s.cue with framing := f } }

/-- Server messages are framed: START has been taken and the cue receiver is not in HUNT (R155). -/
def State.cueFraming (s : State) : Bool := s.locked && s.cue.framing != .hunt

/-- CUE_IDLE_GAP: HUNT passes to WAIT; a message under way is truncated and counted late (R155). -/
def execCueIdleGap (begun : Bool) (s : State) : Host.Outcome State Fault Refusal :=
  .next (
    if !s.locked then s
    else match s.cue.framing with
      | .hunt => s.setCueFraming .wait
      | .wait => if begun then s.countLate else s
      | .receiving => s.countLate.setCueFraming .wait)

/-- CUE_LENGTH_ABANDON: a body length above 7 abandons the message; counted late, back to HUNT (R155). -/
def execCueLengthAbandon (s : State) : Host.Outcome State Fault Refusal :=
  .next (if s.cueFraming then s.countLate.setCueFraming .hunt else s)

/-! ## Replies -/

/-- The outstanding command of an outlet completes: it is no longer outstanding, its deadline with it, and the outlet's place
in the send order is judged (R163). -/
def State.complete (s : State) (o : OutletNo) : State := (s.modOutlet o (fun x => { x with outstanding := none })).settleOrder o

/-- The outstanding command that a tag matches (R163). -/
def State.matched (s : State) (o : OutletNo) (tag : Byte) : Option Outstanding :=
  (s.outlet o).outstanding.filter (fun u => u.tag == tag.toNat)

/-- The oldest awaiting PREP of a full list is removed and fails with a start lapse (R160, R167). -/
def State.makeRoom (s : State) (o : OutletNo) : State :=
  if Config.awaitingDepth ≤ (s.outlet o).awaiting.length then
    match (s.outlet o).awaiting with
    | [] => s
    | a :: rest => ((s.outletTurn o).modOutlet o (fun x => { x with awaiting := rest })).failCmd o (.prep a.prep) false .startLapse
  else s

/-- A PREP the server has taken joins the awaiting list of an outlet that still serves a channel (R160). -/
def State.awaitStart (s : State) (o : OutletNo) (tag : Nat) (p : Prep) : State :=
  let s := s.makeRoom o
  if (s.outlet o).channel.isNone then s
  else s.modOutlet o (fun x =>
    { x with awaiting := x.awaiting ++
        [{ tag := tag, prep := p, startDl := plus p.start (msGrains s.sp.replyTimeout) }] })

/-- The deciding STOP is taken: a STOPPING outlet whose armed stop's time is reached becomes FREE (R162). -/
def State.stopTaken (s : State) (o : OutletNo) : State :=
  let s := s.modOutlet o (fun x => { x with armed := x.armed.map (fun a => { a with outcome := .taken }) })
  if (s.outlet o).state = .stopping ∧ (s.outlet o).armed.any (fun a => a.reached s.now) then s.freeStopped o else s

/-- A command completes as taken (R160 to R163). -/
def State.takenCmd (s : State) (o : OutletNo) (u : Outstanding) : State :=
  let s := s.complete o
  if u.orphaned then s
  else match u.cmd with
    | .prep p => s.awaitStart o u.tag p
    | .side .. => s
    | .stop _ deciding => if deciding then s.stopTaken o else s

/-- A TAKEN is matched and acts, or is counted late (R163). -/
def State.takeTaken (s : State) (tag : Byte) : State :=
  match tagOutlet tag with
  | none => s.countLate
  | some o =>
    match s.matched o tag with
    | none => s.countLate
    | some u => (s.takenCmd o u).settle

/-- The mirror's turn before a command's failure that may reach the runner: a PREP's, unless orphaned (R18, R164). -/
def State.failTurn (s : State) (o : OutletNo) (cmd : Cmd) (orphaned : Bool) : State :=
  if cmdKind cmd = .prep ∧ orphaned = false then s.outletTurn o else s

/-- An outstanding command fails: it is no longer outstanding, and its failure is routed and acted on (R164). -/
def State.failOutstanding (s : State) (o : OutletNo) (u : Outstanding) (f : Failure) : State :=
  ((((s.failTurn o u.cmd u.orphaned).complete o)).failCmd o u.cmd u.orphaned f).settle

/-- A REFUSED is matched and fails its command, or is counted late (R164). -/
def State.takeRefused (s : State) (tag : Byte) (reason : RefusedReason) : State :=
  match tagOutlet tag with
  | none => s.countLate
  | some o =>
    match s.matched o tag with
    | none => s.countLate
    | some u => s.failOutstanding o u (.refused reason)

/-- The STARTED of a join PREP: the outlet is AIR and its air output asserted, and then the takeover unit takes the channel to ON_AIR
(R122, R153, R166). -/
def State.joinStarted (s : State) (c : Channel) (o : OutletNo) : State :=
  match s.chan? c with
  | none => s
  | some ch =>
    if ch.tk.state = .joining then
      (((s.modOutlet o (fun x => { x with state := .air, air := true })).modTk c (fun tk =>
        { tk with state := .onAir })).assertHold c).raise .taken c (.taken o)
    else s

/-- A STARTED that matched an awaiting PREP acts by the outlet's state, the outlet controller first, then the takeover unit,
then the runner, and then a stop request that waited (R144, R166, R174). -/
def State.startedPrep (s : State) (o : OutletNo) (p : Prep) (actual : Time) : State :=
  match (s.outlet o).channel with
  | none => s
  | some c =>
    let s := if (s.outlet o).state = .reserved ∧ p.join then s.joinStarted c o else s
    (s.itemStarted c p.serial actual false).retryStop c

/-- An outstanding PREP of the STARTED's tag is taken first (R166). -/
def State.takenFirst (s : State) (o : OutletNo) (tag : Byte) : State :=
  match s.matched o tag with
  | none => s
  | some u =>
    match u.cmd with
    | .prep _ => s.takenCmd o u
    | _ => s

/-- The mirror's turn before a STARTED that some PREP of the outlet answers to (R18, R166). -/
def State.startTurn (s : State) (o : OutletNo) (tag : Byte) : State :=
  if (s.matched o tag).any (fun u => cmdKind u.cmd == .prep) || (s.outlet o).awaiting.any (fun a => a.tag == tag.toNat) then
    s.outletTurn o
  else s

/-- A STARTED is matched against the awaiting list and acts, or is counted late (R166). Of two awaiting PREPs with its tag it
starts the one taken first (DESIGN CHOICE, log 49). -/
def State.takeStarted (s : State) (tag : Byte) (actual : Time) : State :=
  match tagOutlet tag with
  | none => s.countLate
  | some o =>
    let s := (s.startTurn o tag).takenFirst o tag
    match takeFirst (fun a => a.tag == tag.toNat) (s.outlet o).awaiting with
    | none => s.countLate.settle
    | some (a, rest) => ((s.modOutlet o (fun x => { x with awaiting := rest })).startedPrep o a.prep actual).settle

/-- TAKEN (R155, R163). -/
def execTaken (tag : Byte) (s : State) : Host.Outcome State Fault Refusal :=
  .next (if s.cueFraming then (s.setCueFraming .wait).takeTaken tag else s)

/-- REFUSED (R155, R164). -/
def execRefused (tag : Byte) (reason : RefusedReason) (s : State) : Host.Outcome State Fault Refusal :=
  .next (if s.cueFraming then (s.setCueFraming .wait).takeRefused tag reason else s)

/-- STARTED; one whose outlet differs from its tag's is discarded and counted late (R155, R166). -/
def execStarted (tag outlet : Byte) (actual : Time) (s : State) : Host.Outcome State Fault Refusal :=
  .next (
    if s.cueFraming then
      let s := s.setCueFraming .wait
      if outlet.toNat = tag.toNat / 4 then s.takeStarted tag actual else s.countLate
    else s)

/-- The judgement of a closed server message from its bytes (R155). -/
def State.judgeServer (s : State) (kind tag : Byte) (body : List Byte) (check : BitVec 16) : State :=
  if 7 < body.length ∨ check ≠ messageCheck kind tag body then s.countLate.setCueFraming .hunt
  else
    let s := s.setCueFraming .wait
    match parseServer kind tag body with
    | none => s.countLate
    | some (.taken t) => s.takeTaken t
    | some (.refused t r) => s.takeRefused t r
    | some (.started t _ actual) => s.takeStarted t actual

/-- CUE_MESSAGE_DISCARD: a closed server message that fails a test of R155. -/
def execCueMessageDiscard (kind tag : Byte) (body : List Byte) (check : BitVec 16) (s : State) :
    Host.Outcome State Fault Refusal :=
  .next (if s.cueFraming then s.judgeServer kind tag body check else s)

/-! ## Deadlines -/

/-- The time at which a queued command goes by: a PREP's local start, a SIDE's local time; a STOP has none (R159). -/
def Cmd.missTime : Cmd → Option Time
  | .prep p => some p.start
  | .side _ t => some t
  | .stop .. => none

/-- QUEUED_COMMAND_MISSED: a queued PREP or SIDE whose time has come is removed and fails MISSED; the one of least time, one
at a step (R159; log 33). -/
def execQueuedCommandMissed (o : OutletNo) (s : State) : Host.Outcome State Fault Refusal :=
  .next (
    match takeSoonest (fun c => c.missTime.filter (fun t => atOrBefore t s.now)) (s.outlet o).queue with
    | none => s
    | some (cmd, rest) =>
      ((((s.failTurn o cmd false).modOutlet o (fun x => { x with queue := rest })).settleOrder o).failCmd o cmd false
        .missed).settle)

/-- REPLY_DEADLINE: the outstanding command lapses (R165). -/
def execReplyDeadline (o : OutletNo) (s : State) : Host.Outcome State Fault Refusal :=
  .next (
    match (s.outlet o).outstanding with
    | none => s
    | some u =>
      if due (some u.deadline) s.now then s.failOutstanding o u .lapsed else s)

/-- START_DEADLINE: an awaiting PREP whose start deadline is reached fails with a start lapse; the one of least deadline, one
at a step (R167; log 33). -/
def execStartDeadline (o : OutletNo) (s : State) : Host.Outcome State Fault Refusal :=
  .next (
    match takeSoonest (fun a => (some a.startDl).filter (fun t => atOrBefore t s.now)) (s.outlet o).awaiting with
    | none => s
    | some (a, rest) =>
      (((s.outletTurn o).modOutlet o (fun x => { x with awaiting := rest })).failCmd o (.prep a.prep) false .startLapse).settle)

/-- ARMED_STOP_TIME: a STOPPING outlet whose deciding STOP was taken becomes FREE at the armed stop's time (R162). -/
def execArmedStopTime (o : OutletNo) (s : State) : Host.Outcome State Fault Refusal :=
  .next (
    if (s.outlet o).state = .stopping ∧ (s.outlet o).armed.any (fun a => a.outcome == .taken && a.reached s.now) then
      s.freeStopped o
    else s)

end Sys2Proof.Machine
end

