-- ==== Sys2Proof/Machine/Watch.lean ====
section
/-! DEFINITION. The channel watch (04_channel_watch.md): the work of a beacon (R56) and its command BEACON, and the commands
of the watch's deadlines and windows. -/

namespace Sys2Proof.Machine

/-! ## Beacons -/

/-- A beacon's sample: its arrival less its stamp less the feed delay (R57). -/
def sampleOf (arrival stamp : Time) (feedDelay : Nat) : Time := minus (arrival - stamp) feedDelay

/-- The arrival error: the sample less the estimate, as a signed 48-bit value (R57). -/
def arrivalError (sample estimate : Time) : Time := sample - estimate

/-- The step of a slew: the error clamped to the slew limit, divided by 8 toward zero (R59). -/
def slewStep (slewLimit : Nat) (error : Time) : Int :=
  (max (-(slewLimit : Int)) (min (slewLimit : Int) error.toInt)).tdiv 8

/-- The peak after a beacon with an arrival error: the larger, as signed values (R60). -/
def newPeak (old : Option Time) (error : Time) : Option Time :=
  match old with
  | none => some error
  | some p => some (if p.toInt < error.toInt then error else p)

/-- The valley after a beacon with an arrival error: the smaller, as signed values (R60). -/
def newValley (old : Option Time) (error : Time) : Option Time :=
  match old with
  | none => some error
  | some v => some (if error.toInt < v.toInt then error else v)

/-- A beacon's state effect: the new state, the return count and the cause of an entry to LOST. -/
structure BeaconEffect where
  state : WatchState
  returns : Nat
  cause : LostCause
deriving DecidableEq, Repr

/-- A main state is STANDING_DOWN. -/
def isStandingDown : MainState → Bool
  | .standingDown => true
  | _ => false

/-- The state effect of a beacon's main state in the present watch state, with the mark clear (R62 to R66) or set (R73).
With the mark set the state is UNSEEN or LOST. -/
def beaconEffect (w : WatchRec) (returnCount : Nat) (standingDown : Bool) : BeaconEffect :=
  if w.forced then { state := .lost, returns := 0, cause := .forced }
  else if standingDown then { state := .lost, returns := 0, cause := .standingDown }
  else match w.state with
    | .unseen => { state := .live, returns := 0, cause := .silence }
    | .live => { state := .live, returns := 0, cause := .silence }
    | .doubtful => { state := if w.met then .live else .doubtful, returns := 0, cause := .silence }
    | .lost =>
      if returnCount ≤ 1 then { state := .live, returns := 0, cause := .silence }
      else { state := .returning, returns := 1, cause := .silence }
    | .returning =>
      if returnCount ≤ w.returns + 1 then { state := .live, returns := 0, cause := .silence }
      else { state := .returning, returns := w.returns + 1, cause := .silence }

/-- The main state as the watch keeps it. -/
def keepMain : MainState → MainKind
  | .running => .running
  | .standingDown => .standingDown
  | .resumeOffer _ => .resumeOffer

/-- The switch time of a RESUME_OFFER. -/
def switchOf : MainState → Option Time
  | .resumeOffer t => some t
  | _ => none

/-- The beacon seeds the estimate: the first one after START, or the one that takes the channel out of LOST (R58). -/
def beaconSeeds (w : WatchRec) (new : WatchState) : Bool := !w.seeded || (w.state == .lost && new != .lost)

/-- The watch record after a beacon, all but its state, which R75 reports (R56 to R60, R67, R71). -/
def beaconRecord (w : WatchRec) (ch : Chan) (sp : StationPart) (arrival : Time) (b : BeaconMsg) (eff : BeaconEffect) :
    WatchRec :=
  let sample := sampleOf arrival b.stamp sp.feedDelay
  let error := arrivalError sample w.estimate
  let seeds := beaconSeeds w eff.state
  { w with
    returns := eff.returns
    estimate := if seeds then sample else w.estimate + BitVec.ofInt 48 (slewStep sp.slewLimit error)
    seeded := true
    peak := if seeds then w.peak else newPeak w.peak error
    valley := if seeds then w.valley else newValley w.valley error
    lastArrival := some arrival
    quiet := false
    doubtfulDl := some (plus arrival (ch.part.k1 * ch.beaconGrains))
    lostDl := some (plus arrival (ch.part.k2 * ch.beaconGrains))
    returnDl := some (plus arrival (2 * ch.beaconGrains))
    windowEnd := some (w.windowEnd.getD (plus arrival (8 * ch.beaconGrains)))
    windowCount := sat8 (w.windowCount + 1)
    lastMain := some (keepMain b.main)
    lastOnAir := some b.onAir
    lastSwitch := switchOf b.main }

/-- The watch takes a beacon whole, reports its state, and hands the beacon on: its drift check and the reclaim sweep are
asked of the mirror (R26, R38, R56; log 5), and the takeover unit takes its main state (R171). -/
def State.takeBeacon (s : State) (b : BeaconMsg) : State :=
  match s.chan? b.channel with
  | none => s
  | some ch =>
    let eff := beaconEffect ch.watch ch.part.returnCount (isStandingDown b.main)
    let s := s.modWatch b.channel (fun w => beaconRecord w ch s.sp s.now b eff)
    let s := s.setWatch b.channel eff.state eff.cause
    let s : State := { s with mirrorReqs := s.mirrorReqs ++ [.drift b.channel b.version b.onAir, .sweep b.channel] }
    (s.takeOffer b.channel b.main).settle

/-- Messages are framed: START has been taken and the feed receiver is not in HUNT (R15, R16). -/
def State.feedFraming (s : State) : Bool := s.locked && s.feed.framing != .hunt

/-- Changes the feed receiver's framing state. -/
def State.setFraming (s : State) (f : Framing) : State := { s with feed := { s.feed with framing := f } }

/-- BEACON: a judged beacon is routed to its channel's watch record; one for a channel not profiled is discarded uncounted
(R16, R17, R56). -/
def execBeacon (b : BeaconMsg) (s : State) : Host.Outcome State Fault Refusal :=
  .next (if s.feedFraming then (s.setFraming .wait).takeBeacon b else s)

/-! ## Deadlines and windows -/

/-- DOUBTFUL_DEADLINE: sets the quiet mark, and takes LIVE to DOUBTFUL (R68). -/
def execDoubtfulDeadline (c : Channel) (s : State) : Host.Outcome State Fault Refusal :=
  .next (
    match s.chan? c with
    | none => s
    | some ch =>
      if due ch.watch.doubtfulDl s.now then
        let s := s.modWatch c (fun w => { w with doubtfulDl := none, quiet := true })
        if ch.watch.state = .live then (s.setWatch c .doubtful .silence).settle else s
      else s)

/-- LOST_DEADLINE: takes LIVE or DOUBTFUL to LOST, cause SILENCE (R69). -/
def execLostDeadline (c : Channel) (s : State) : Host.Outcome State Fault Refusal :=
  .next (
    match s.chan? c with
    | none => s
    | some ch =>
      if due ch.watch.lostDl s.now then
        let s := s.modWatch c (fun w => { w with lostDl := none })
        if ch.watch.state = .live ∨ ch.watch.state = .doubtful then (s.setWatch c .lost .silence).settle else s
      else s)

/-- RETURN_DEADLINE: takes RETURNING back to LOST, cause RETURN_BROKEN (R70). -/
def execReturnDeadline (c : Channel) (s : State) : Host.Outcome State Fault Refusal :=
  .next (
    match s.chan? c with
    | none => s
    | some ch =>
      if due ch.watch.returnDl s.now then
        let s := s.modWatch c (fun w => { w with returnDl := none })
        if ch.watch.state = .returning then
          ((s.modWatch c (fun w => { w with returns := 0 })).setWatch c .lost .returnBroken).settle
        else s
      else s)

/-- What a window end does to the watch state (R72). -/
def windowVerdict (w : WatchRec) (met : Bool) : WatchState :=
  match w.state with
  | .live => if met then .live else .doubtful
  | .doubtful => if met && !w.quiet then .live else .doubtful
  | other => other

/-- WINDOW_END: judges the window that closes, clears the count and arms the next end 8 periods later (R71, R72). -/
def execWindowEnd (c : Channel) (s : State) : Host.Outcome State Fault Refusal :=
  .next (
    match s.chan? c with
    | none => s
    | some ch =>
      match ch.watch.windowEnd with
      | none => s
      | some d =>
        if due (some d) s.now then
          let met := decide (ch.part.windowMin ≤ ch.watch.windowCount)
          let s := s.modWatch c (fun w =>
            { w with met := met, windowCount := 0, windowEnd := some (plus d (8 * ch.beaconGrains)) })
          (s.setWatch c (windowVerdict ch.watch met) .silence).settle
        else s)

end Sys2Proof.Machine
end

