-- ==== Sys2Proof/Machine/Feed.lean ====
section
/-! DEFINITION. The feed receiver's commands (02_the_schedule_mirror.md, sections 2.1 to 2.3): framing, the judgement of a
discarded message, and the offer of a schedule message to the ingest queue. -/

namespace Sys2Proof.Machine

/-- Adds one to the feed fault count (R15). -/
def State.feedFault (s : State) : State := { s with feed := { s.feed with faults := sat16 (s.feed.faults + 1) } }

/-- The version a schedule message carries, or the one it makes: the latest-queued version once it is accepted (R17). -/
def schedVersion : SchedBody → Version
  | .snapOpen v _ => v
  | .snapEvent v _ _ => v
  | .snapClose v _ => v
  | .editPut _ new _ _ => new
  | .editDrop _ new _ => new

/-- Offers a schedule message of a profiled channel to the ingest queue: accepted below 24 messages, else dropped, with its
channel marked stale and its filling abandoned (R17, R18, R19). -/
def State.offerSched (s : State) (m : SchedMsg) : State :=
  if s.feed.ingest.length < Config.ingestDepth then
    ({ s with feed := { s.feed with ingest := s.feed.ingest ++ [m] } }).modChan m.channel (fun ch =>
      { ch with latestQueued := some (schedVersion m.body) })
  else
    (({ s with feed := { s.feed with drops := sat16 (s.feed.drops + 1) } }).markStale m.channel).abandonFilling m.channel

/-- FEED_IDLE_GAP: HUNT passes to WAIT; a message under way is truncated and counted (R15). -/
def execFeedIdleGap (begun : Bool) (s : State) : Host.Outcome State Fault Refusal :=
  .next (
    if !s.locked then s
    else match s.feed.framing with
      | .hunt => s.setFraming .wait
      | .wait => if begun then s.feedFault else s
      | .receiving => s.feedFault.setFraming .wait)

/-- FEED_LENGTH_ABANDON: a body length above 63 abandons the message; counted, back to HUNT (R15). -/
def execFeedLengthAbandon (s : State) : Host.Outcome State Fault Refusal :=
  .next (if s.feedFraming then s.feedFault.setFraming .hunt else s)

/-- The judgement of a closed message from its bytes, in the order of R16; one that passes is routed (R17). -/
def State.judgeFeed (s : State) (kind channel : Byte) (body : List Byte) (check : BitVec 16) : State :=
  if 63 < body.length ∨ check ≠ messageCheck kind channel body then s.feedFault.setFraming .hunt
  else if (s.chan? channel).isNone then s.setFraming .wait
  else match parseFeed kind.toNat channel body with
    | none => s.feedFault.setFraming .wait
    | some (.beacon b) => (s.setFraming .wait).takeBeacon b
    | some (.sched m) => (s.setFraming .wait).offerSched m

/-- FEED_MESSAGE_DISCARD: a closed message that fails its check, channel or structure test (R15, R16). -/
def execFeedMessageDiscard (kind channel : Byte) (body : List Byte) (check : BitVec 16) (s : State) :
    Host.Outcome State Fault Refusal :=
  .next (if s.feedFraming then s.judgeFeed kind channel body check else s)

/-- SCHEDULE_MESSAGE: a judged schedule message is offered to the ingest queue (R16, R17). -/
def execScheduleMessage (m : SchedMsg) (s : State) : Host.Outcome State Fault Refusal :=
  .next (
    if !s.feedFraming then s
    else if (s.chan? m.channel).isNone then s.setFraming .wait
    else if schedStructure m.body then (s.setFraming .wait).offerSched m
    else s.feedFault.setFraming .wait)

end Sys2Proof.Machine
end

