-- ==== Sys2Proof/Machine/Handback.lean ====
section
/-! DEFINITION. The commands of a handback's stop point and switch deadline, and the forced handback (10_handback.md). -/

namespace Sys2Proof.Machine

/-- STOP_POINT: the stop request is made, or waits for the last locked item before the run switch time (R174). -/
def execStopPoint (c : Channel) (s : State) : Host.Outcome State Fault Refusal :=
  .next (
    match s.chan? c with
    | none => s
    | some ch =>
      match ch.tk.handback with
      | none => s
      | some h =>
        if due h.stopPoint s.now then
          let s := s.modTk c (fun tk =>
            { tk with handback := some { h with stopPoint := none, stopWaiting := ch.stopBlocked h } })
          if ch.stopBlocked h then s else (s.makeStop c).settle
        else s)

/-- The reason of the RELEASE that ends a handback (R178). -/
def handbackReason (forced : Bool) : ReleaseReason := if forced then .forced else .handedBack

/-- The as-run ending of a handback (R178). -/
def handbackEnding (forced : Bool) : Ending := if forced then .forced else .handedBack

/-- A handback completes, in the order of R178. -/
def State.completeHandback (s : State) (c : Channel) (tk : TakeoverRec) (h : Handback) (o : OutletNo) : State :=
  let r := s.endOfAir o
  let s := r.1.modTk c (fun tk => { tk with outlet := none })
  let s := match tk.ownHold with
    | some k => s.offerRelease c k (handbackReason h.forced)
    | none => s
  let s := s.closeRun c (some (handbackEnding h.forced, h.localSwitch))
  let s := s.raise .handback c (.handedBack o h.forced)
  let s := s.modTk c (fun tk => { tk with state := .idle, ownHold := none, holdDl := none, handback := none })
  let s := (s.setAwaitLive c).check c
  if r.2 then s.pass else s

/-- SWITCH_DEADLINE: the handback completes (R178). -/
def execSwitchDeadline (c : Channel) (s : State) : Host.Outcome State Fault Refusal :=
  .next (
    match s.chan? c with
    | none => s
    | some ch =>
      match ch.tk.handback, ch.tk.outlet with
      | some h, some o =>
        if due h.switchDl s.now then ((s.mirrorTurn c).completeHandback c ch.tk h o).settle else s
      | _, _ => s)

/-- The host's RELEASE of a channel in JOINING aborts the join (R118, R125). -/
def State.abortJoin (s : State) (c : Channel) (tk : TakeoverRec) : State :=
  let s := match tk.outlet with
    | some o => s.stopNow o
    | none => s
  let s := match tk.ownHold with
    | some k => s.offerRelease c k .forced
    | none => s
  let s := s.closeRun c none
  let s := s.modTk c (fun tk => { tk with state := .idle, ownHold := none, outlet := none, holdDl := none })
  (s.setAwaitLive c).check c

/-- The host's RELEASE of a channel in ON_AIR or HANDING_BACK starts or converts a forced handback (R179). Where the
local switch time is kept, so is the switch time offered (DESIGN CHOICE, log 55). -/
def State.forceHandback (s : State) (c : Channel) (ch : Chan) : State :=
  let l := plus s.now (s.lead ch)
  match ch.run with
  | none => s
  | some r =>
    match ch.tk.handback with
    | none => s.enterHandback c (handbackFor (l - r.offset) l r.offset true (s.lead ch) s.now)
    | some h =>
      if h.forced then s
      else if atOrBefore h.localSwitch l then
        s.modTk c (fun tk => { tk with handback := some { h with forced := true } })
      else s.replaceHandback c (l - r.offset) l true

end Sys2Proof.Machine
end

