-- ==== Sys2Proof/Machine/Runner.lean ====
section
/-! DEFINITION. The commands of the runner's own moments (08_running_a_taken_channel.md), and the work of GO (R148). -/

namespace Sys2Proof.Machine

/-- CUE_MOMENT: the chosen item's PREP is issued and the item is locked (R142). -/
def execCueMoment (c : Channel) (s : State) : Host.Outcome State Fault Refusal :=
  .next (
    match s.chan? c with
    | none => s
    | some ch =>
      match ch.run with
      | none => s
      | some r =>
        if due r.cueMoment s.now && r.cued.any (fun it => !it.locked) then ((s.mirrorTurn c).lockItem c .cued false).settle
        else s)

/-- The station time at which the next side cue of the item in a place is issued, when that time has come (R146). -/
def State.dueSide (s : State) (ch : Chan) (r : RunRec) (p : ItemPlace) : Option Time :=
  ((ch.nextSide r p).map (fun x => s.sideMoment ch r x.1 x.2.1)).filter (fun t => atOrBefore t s.now)

/-- The place whose due side cue comes first; the on-air item before the cued one before the go item among equals (log 33). -/
def State.firstDueSide (s : State) (ch : Chan) (r : RunRec) : Option ItemPlace :=
  [ItemPlace.onAir, .cued, .goItem].foldl (fun best p =>
    match s.dueSide ch r p with
    | none => best
    | some t =>
      match best.bind (s.dueSide ch r) with
      | none => some p
      | some u => if before t u then some p else best) none

/-- SIDE_CUE_TIME: the first due side cue of the run is issued when it passes its check, else passed over (R146). -/
def execSideCueTime (c : Channel) (s : State) : Host.Outcome State Fault Refusal :=
  .next (
    match s.chan? c with
    | none => s
    | some ch =>
      match ch.run with
      | none => s
      | some r =>
        match s.firstDueSide ch r with
        | none => s
        | some p => (s.settleSide c p).settle)

/-! ## GO (R148) -/

/-- Makes an item the go item and pins its record (R148). -/
def State.setGo (s : State) (c : Channel) (it : Item) : State :=
  (({ s with itemSerial := s.itemSerial + 1 }).modRun c (fun r => { r with goItem := some it })).pinItem c it

/-- The anchored event of a list, when it airs. -/
def anchoredEvent (a : Anchor) (l : List EventRec) : Option EventRec :=
  l.find? (fun e => e.data.id == a.id && e.airs)

/-- The anchored event becomes the go item behind a locked hold filler, at its nominal start, and its PREP is issued at once,
within the limit of HANDING_BACK (R148, R173). Where an edit has made the event FIXED or FOLLOW, so that the anchor does not act
(R47), that is its own nominal start, with no late cue however near it lies (DESIGN CHOICE, log 44). It carries the GO mark, so that the hold
filler that it follows ends CUT (DESIGN CHOICE, log 63); where the limit keeps it from being made, what follows that filler later
carries none (DESIGN CHOICE, log 65). -/
def State.cueGo (s : State) (c : Channel) (a : Anchor) : State :=
  match s.chan? c with
  | none => s
  | some ch =>
    match ch.run, anchoredEvent a ch.list with
    | some r, some e =>
      match e.times with
      | none => s
      | some t =>
        if ch.pastLimit t.nomStart then s
        else
          (s.setGo c { eventItem e r.offset t.nomStart 0 (e.framesOf ch.period t) s.itemSerial with byGo := true }).lockItem c
            .goItem false
    | _, _ => s

/-- The item that a choice made for GO has cued is marked as GO's, whichever it is (R148, R151; DESIGN CHOICE, log 58). -/
def State.markGo (s : State) (c : Channel) : State :=
  s.modRun c (fun r => { r with cued := r.cued.map (fun it => { it with byGo := true }) })

/-- Sets the run anchor, resolves the list with it, and ends the wait (R47, R148). -/
def State.setAnchor (s : State) (c : Channel) (a : Anchor) : State :=
  ((s.modRun c (fun r => { r with anchor := some a })).resolveChan c).setHold c none

/-- GO acts by the state of the hold filler (R148), once the mirror has served what waits (R18). In HANDING_BACK a choice past the run
switch time cues nothing (R173), and so marks nothing as GO's: the anchored event that is cued later, when the handback is cancelled or
moved, carries no GO mark, and the hold filler that it ends gets the ending FULL (DESIGN CHOICE, log 65). -/
def State.giveGo (s : State) (c : Channel) (ch : Chan) (r : RunRec) (id : EventId) : State :=
  let s := s.mirrorTurn c
  let a : Anchor := { id := id, main := plus (s.runNow r) (s.lead ch) }
  let s := s.setAnchor c a
  match r.cued with
  | some it =>
    if it.locked then s.cueGo c a else (s.dropCued c).choose c none
  | none => if r.onOpenFiller then (s.choose c none).markGo c else s.choose c none

end Sys2Proof.Machine
end

