-- ==== Sys2Proof/Machine/FrameOps.lean ====
section
/-! DEFINITION. What a received frame does: the receiver's close of a frame and its judgement (R80 to R82), the peer table
(R83, R97, R98), and a CLAIM, HOLD or RELEASE at the takeover unit (R104 to R106, R114, R120, R121). -/

namespace Sys2Proof.Machine

/-! ## Receiver and peer table -/

/-- Sets the receive framing state with its count of recessive bits (R80). -/
def State.setRx (s : State) (rx : BusRx) (count : Nat) : State := { s with bus := { s.bus with rx := rx, huntCount := count } }

/-- The receiver can have taken a whole frame: it was in FREE or RECEIVING (R80). -/
def State.takesFrames (s : State) : Bool := s.bus.rx == .free || s.bus.rx == .receiving

/-- Adds one to the malformed count (R81). -/
def State.countMalformed (s : State) : State := { s with bus := { s.bus with malformed := sat16 (s.bus.malformed + 1) } }

/-- The peer table entry of a station. -/
def State.peer (s : State) (st : Station) : Peer := s.bus.peers[st.toNat]'(by have := st.isLt; omega)

/-- Replaces the peer table entry of a station. -/
def State.setPeer (s : State) (st : Station) (p : Peer) : State :=
  { s with bus := { s.bus with peers := s.bus.peers.set st.toNat p (by have := st.isLt; omega) } }

/-- The stored STATUS body after a frame: a STATUS replaces it (R83). -/
def statusOf (old : Option StatusBody) : FrameBody → Option StatusBody
  | .status b => some b
  | _ => old

/-- A good frame from another station acts on its peer entry and the heard-set (R83, R97, R98). -/
def State.hearPeer (s : State) (f : Frame) : State :=
  let s := s.setPeer f.station
    { presence := .present, lastFrame := some s.now
      silenceDl := some (plus s.now (3 * msGrains s.sp.statusPeriod))
      status := statusOf (s.peer f.station).status f.body }
  { s with bus := { s.bus with heard := s.bus.heard ||| BitVec.ofNat 16 (2 ^ f.station.toNat) } }

/-! ## CLAIM (R104, R114) -/

/-- The foreign claim a CLAIM heard now makes (R104). -/
def State.freshClaim (s : State) (k : Key) : ForeignClaim :=
  { key := k, heard := s.now, expiry := plus s.now s.memorySpan }

/-- A heard key takes the place of the recorded foreign claim: none recorded, a better key, the same station, or the recorded
one's expiry reached. At the moment of expiry itself the recorded claim is still compared (R104; log 10). -/
def replacesClaim (best : Option ForeignClaim) (k : Key) (now : Time) : Bool :=
  match best with
  | none => true
  | some f => k.better f.key || k.station == f.key.station || before f.expiry now

/-- The takeover unit takes a CLAIM (R104, R114). -/
def State.takeClaim (s : State) (c : Channel) (k : Key) : State :=
  match s.chan? c with
  | none => s
  | some ch =>
    let s := if replacesClaim ch.tk.best k s.now then s.modTk c (fun tk => { tk with best := some (s.freshClaim k) }) else s
    if ch.contending && ch.tk.ownClaim.any (fun own => k.better own) then
      ((s.leaveContending c .yielded).armYield c).pass
    else s

/-! ## HOLD (R105, R114, R120, R121) -/

/-- The holder a HOLD heard now records (R105). -/
def State.freshHolder (s : State) (k : Key) (st : HoldState) (v : Version) (e : EventId) : Holder :=
  { key := k, state := st, version := v, event := e, lastHold := s.now
    deadline := plus s.now (3 * msGrains s.sp.holdPeriod) }

/-- A HOLD's sender becomes the known holder: none recorded, the same station, or a better key (R105). -/
def replacesHolder (holder : Option Holder) (k : Key) : Bool :=
  match holder with
  | none => true
  | some h => h.key.station == k.station || k.better h.key

/-- Stands a held channel down before a better holding key (R121, R180). -/
def State.standDown (s : State) (c : Channel) (ch : Chan) (own : Key) (h : Holder) : State :=
  let left := holdStateOf ch.tk.state
  let s := match ch.tk.outlet with
    | some o => s.stopNow o
    | none => s
  let s := s.offerRelease c own .stoodDown
  let s := s.closeRun c (some (.stoodDown, s.now))
  let s := s.raise .dualHolder c (.dualHolder h.key.station left)
  s.modTk c (fun tk =>
    { tk with
      state := if tk.inhibit then .blocked .inhibited else .yielded
      handback := none, ownHold := none, outlet := none, holdDl := none, yieldDl := none, holder := some h })

/-- A HOLD for a channel this station does not hold (R105, R114, R117). -/
def State.recordHold (s : State) (c : Channel) (ch : Chan) (h : Holder) : State :=
  let s := if replacesHolder ch.tk.holder h.key then s.modTk c (fun tk => { tk with holder := some h }) else s
  match ch.tk.state with
  | .contending => (s.leaveContending c .yielded).pass
  | .yielded => if ch.tk.holder.isNone then s.modTk c (fun tk => { tk with yieldDl := none }) else s
  | _ => if ch.tk.holder.isNone then s.check c else s

/-- A HOLD for a channel this station holds: compared with the own holding key (R120). -/
def State.compareHold (s : State) (c : Channel) (ch : Chan) (h : Holder) : State :=
  match ch.tk.ownHold with
  | none => s
  | some own => if h.key.better own then s.standDown c ch own h else s.assertHold c

/-- The takeover unit takes a HOLD (R105, R120). -/
def State.takeHold (s : State) (c : Channel) (k : Key) (st : HoldState) (v : Version) (e : EventId) : State :=
  match s.chan? c with
  | none => s
  | some ch =>
    let h := s.freshHolder k st v e
    if ch.tk.state.holding then (s.compareHold c ch h).settle
    else if ch.tk.state = .detached then s
    else s.recordHold c ch h

/-! ## RELEASE (R106, R118) -/

/-- The takeover unit takes a RELEASE: it acts from the known holder with the recorded merit alone (R106). -/
def State.takeRelease (s : State) (c : Channel) (k : Key) (r : ReleaseReason) : State :=
  match s.chan? c with
  | none => s
  | some ch =>
    match ch.tk.holder with
    | none => s
    | some h =>
      if h.key = k then
        let s := s.modTk c (fun tk => { tk with holder := none })
        let s := if r = .handedBack then s.setAwaitLive c else s
        s.holderGone c
      else s

/-! ## Judgement (R80 to R83) -/

/-- The takeover unit takes a good frame from another station; a STATUS goes no further than the peer table (R83). -/
def State.handOn (s : State) (f : Frame) : State :=
  let k : Key := { merit := f.merit, station := f.station }
  match f.body with
  | .claim c => s.takeClaim c k
  | .hold c st v e => s.takeHold c k st v e
  | .release c r => s.takeRelease c k r
  | .status _ => s

/-- A good frame: a clash when it carries the own station number (R82), else heard and handed on (R83). -/
def State.goodFrame (s : State) (f : Frame) : State :=
  if f.station = s.bus.own then
    s.raise .stationClash (BitVec.ofNat 8 f.station.toNat) (.stationClash (BitVec.ofNat 3 (frameClass f.body)))
  else (s.hearPeer f).handOn f

/-- The mirror's turn before a HOLD of another station, which may stand a held channel down (R18, R121). -/
def State.frameTurn (s : State) (f : Frame) : State :=
  match f.body with
  | .hold c _ _ _ => if f.station = s.bus.own then s else s.mirrorTurn c
  | _ => s

/-- A frame closes whose check and class are good: the field tests of R81, then R82 and R83. The end bit counts as the first
recessive bit in HUNT (R80). -/
def State.closeFrame (s : State) (f : Frame) : State :=
  if !s.takesFrames then s
  else if frameFieldsOk f then ((s.frameTurn f).setRx .hunt 1).goodFrame f
  else (s.setRx .hunt 1).countMalformed

end Sys2Proof.Machine
end

