-- ==== Sys2Proof/Machine/SiteBus.lean ====
section
/-! DEFINITION. The commands of the site bus (05_the_site_bus.md): received frames, the sender's attempts and their ends, and
the bus controller's deadlines. The bus is stepped by frames and attempts, whose ends the commands report (log 25). -/

namespace Sys2Proof.Machine

/-! ## Receiving -/

/-- BUS_FREE: the eleventh recessive bit in a row takes the receiver from HUNT to FREE (R78, R80). -/
def execBusFree (s : State) : Host.Outcome State Fault Refusal :=
  .next (if s.bus.rx = .hunt then s.setRx .free 0 else s)

/-- BUS_HEADER_MALFORMED: a body length above 12 makes the frame malformed at once (R80). -/
def execBusHeaderMalformed (s : State) : Host.Outcome State Fault Refusal :=
  .next (if s.takesFrames then s.countMalformed.setRx .hunt 0 else s)

/-- MALFORMED_FRAME: judges a frame from its bits; a malformed one is counted and goes no further (R80, R81). -/
def execMalformedFrame (raw : RawFrame) (s : State) : Host.Outcome State Fault Refusal :=
  .next (
    if !s.takesFrames then s
    else match parseFrame raw with
      | some f => s.closeFrame f
      | none => s.countMalformed.setRx .hunt (if raw.endRecessive && decide (raw.body.length ≤ 12) then 1 else 0))

/-- CLASH_FRAME: a good frame with the own station number is ignored and raises STATION_CLASH (R82). -/
def execClashFrame (f : Frame) (s : State) : Host.Outcome State Fault Refusal := .next (s.closeFrame f)

/-- CLAIM_FRAME: a CLAIM of another station (R83, R94, R104, R114). -/
def execClaimFrame (merit : Byte) (station : Station) (c : Channel) (s : State) : Host.Outcome State Fault Refusal :=
  .next (s.closeFrame { merit := merit, station := station, body := .claim c })

/-- HOLD_FRAME: a HOLD of another station (R83, R95, R105, R114, R120). -/
def execHoldFrame (merit : Byte) (station : Station) (c : Channel) (st : HoldState) (v : Version) (e : EventId)
    (s : State) : Host.Outcome State Fault Refusal :=
  .next (s.closeFrame { merit := merit, station := station, body := .hold c st v e })

/-- RELEASE_FRAME: a RELEASE of another station (R83, R96, R106). -/
def execReleaseFrame (merit : Byte) (station : Station) (c : Channel) (r : ReleaseReason) (s : State) :
    Host.Outcome State Fault Refusal :=
  .next (s.closeFrame { merit := merit, station := station, body := .release c r })

/-- STATUS_FRAME: a STATUS of another station, whose merit field is 0 (R83, R97). -/
def execStatusFrame (station : Station) (b : StatusBody) (s : State) : Host.Outcome State Fault Refusal :=
  .next (s.closeFrame { merit := 0, station := station, body := .status b })

/-! ## Sending -/

/-- A frame body is a CLAIM. -/
def isClaim : FrameBody → Bool
  | .claim _ => true
  | _ => false

/-- The frame an attempt takes in the present bus state, with the rest of the queue (R87). -/
def takeForAttempt (st : BusState) (queue : List Frame) : Option (Frame × List Frame) :=
  match st with
  | .active => takeFirst (fun _ => true) queue
  | .listeningIn => takeFirst (fun f => !isClaim f.body) queue
  | .quiet => none
  | .detached => none

/-- ATTEMPT: on a free bus, the frame taken leaves the queue and its start bit is driven (R78, R87). -/
def execAttempt (s : State) : Host.Outcome State Fault Refusal :=
  .next (
    if s.bus.rx = .free ∧ s.bus.attempt.isNone then
      match takeForAttempt s.bus.state s.bus.queue with
      | some (f, rest) =>
        { s with bus := { s.bus with
            queue := rest, attempt := some { frame := f, withdrawn := false }, driving := frameBits f, rx := .receiving
            huntCount := 0 } }
      | none => s
    else s)

/-- The attempt has ended and the station stops driving. -/
def State.endAttempt (s : State) : State := { s with bus := { s.bus with attempt := none, driving := [] } }

/-- ARBITRATION_LOSS: counted, the frame returns, and the station goes on receiving (R87, R88). -/
def execArbitrationLoss (s : State) : Host.Outcome State Fault Refusal :=
  .next (
    match s.bus.attempt with
    | none => s
    | some a =>
      let s := s.endAttempt
      ({ s with bus := { s.bus with losses := sat16 (s.bus.losses + 1) } }).returnFrame a)

/-- The bus controller enters QUIET (R91); leaving ACTIVE is reported (R92). -/
def State.enterQuiet (s : State) : State :=
  let fromListening := s.bus.state == .listeningIn
  let wasActive := s.bus.state == .active
  let s := { s with bus := { s.bus with
      state := .quiet, quietFromListening := fromListening, quietDl := some (plus s.now (msGrains Config.quietMs)) } }
  let s := s.raise .busQuiet 0 (.busQuiet fromListening)
  if wasActive then s.busLeftActive else s

/-- BIT_FAULT: counted, the frame returns, and the sixteenth in a row enters QUIET (R87, R89, R91). The receiver stays in the
frame under way until a command of that frame comes, for a fault in the start bit too, where R80 and R89 leave two readings
(DESIGN CHOICE, log 48). -/
def execBitFault (s : State) : Host.Outcome State Fault Refusal :=
  .next (
    match s.bus.attempt with
    | none => s
    | some a =>
      let s := s.endAttempt
      let s := ({ s with bus := { s.bus with faults := s.bus.faults + 1 } }).returnFrame a
      if Config.quietFaults ≤ s.bus.faults then s.enterQuiet else s)

/-- The length of a claim window that opens now: the short window, a quarter, when no PRESENT peer lists the channel
(R98, R112). -/
def State.windowGrains (s : State) (c : Channel) : Nat :=
  if s.peerLists c then msGrains s.sp.claimWindow else msGrains s.sp.claimWindow / 4

/-- The report of the own CLAIM sent whole opens a claim window (R112). -/
def State.claimSentReport (s : State) (c : Channel) (merit : Byte) : State :=
  match s.chan? c with
  | none => s
  | some ch =>
    if ch.contending && ch.tk.ownClaim.any (fun k => k.merit == merit) then
      s.modTk c (fun tk => { tk with claimSent := true, windowEnd := some (plus s.now (s.windowGrains c)) })
    else s

/-- SENT_WHOLE: the fault count returns to 0, the frame is gone, and a CLAIM sent is reported (R80, R90, R112). -/
def execSentWhole (s : State) : Host.Outcome State Fault Refusal :=
  .next (
    match s.bus.attempt with
    | none => s
    | some a =>
      let s := s.endAttempt
      let s := ({ s with bus := { s.bus with faults := 0 } }).setRx .hunt 1
      match a.frame.body with
      | .claim c => s.claimSentReport c a.frame.merit
      | _ => s)

/-! ## Deadlines -/

/-- Offers a STATUS and arms the status deadline one status period ahead (R91, R92, R93). -/
def State.freshStatus (s : State) : State :=
  let s := s.offerStatus
  { s with bus := { s.bus with statusDl := some (plus s.now (msGrains s.sp.statusPeriod)) } }

/-- QUIET_DEADLINE: back to LISTENING_IN or on to ACTIVE, with a STATUS at once (R91, R92; log 12). -/
def execQuietDeadline (s : State) : Host.Outcome State Fault Refusal :=
  .next (
    if s.bus.state = .quiet ∧ due s.bus.quietDl s.now then
      let listening := s.bus.quietFromListening && s.bus.listeningDl.isSome
      let s := ({ s with bus := { s.bus with
          state := if listening then .listeningIn else .active, faults := 0, quietDl := none } }).freshStatus
      if listening then s else s.pass
    else s)

/-- LISTENING_IN_DEADLINE: LISTENING_IN passes to ACTIVE; in QUIET it is noted (R92). -/
def execListeningInDeadline (s : State) : Host.Outcome State Fault Refusal :=
  .next (
    if due s.bus.listeningDl s.now then
      let s := { s with bus := { s.bus with listeningDl := none } }
      if s.bus.state = .listeningIn then ({ s with bus := { s.bus with state := .active } }).pass else s
    else s)

/-- STATUS_DEADLINE: armed again one status period after station time; a STATUS is built outside QUIET (R3, R93). -/
def execStatusDeadline (s : State) : Host.Outcome State Fault Refusal :=
  .next (
    if due s.bus.statusDl s.now then
      let s := { s with bus := { s.bus with statusDl := some (plus s.now (msGrains s.sp.statusPeriod)) } }
      if s.bus.state = .listeningIn ∨ s.bus.state = .active then s.offerStatus else s
    else s)

/-- PEER_SILENCE_DEADLINE: the entry becomes SILENT and PEER_SILENT is raised (R97). -/
def execPeerSilenceDeadline (st : Station) (s : State) : Host.Outcome State Fault Refusal :=
  .next (
    if due (s.peer st).silenceDl s.now then
      (s.setPeer st { s.peer st with presence := .silent, silenceDl := none }).raise .peerSilent
        (BitVec.ofNat 8 st.toNat) .plain
    else s)

end Sys2Proof.Machine
end

