-- ==== Sys2Proof/Machine/PortOps.lean ====
section
/-! DEFINITION. The local port's work (11_local_port_profile_and_notices.md): forming replies, judging a command frame (R181,
R182), the profile and START (R183 to R185), the notice commands (R187 to R189), the reads (R190 to R196) and the control
commands (R197 to R204), each as a change of State with its reply. -/

namespace Sys2Proof.Machine

/-! ## Replies (section 11.1, R181) -/

/-- The reason of a REFUSED reply, with its byte (section 11.1). -/
inductive RefuseReason where
  | phase
  | noChannel
  | badFrame
  | badValue
  | notAwaiting
  | notHolding
  | notFaulted
deriving DecidableEq, Repr

/-- The byte of a refusal reason (section 11.1). -/
def refuseByte : RefuseReason → Byte
  | .phase => 1
  | .noChannel => 2
  | .badFrame => 3
  | .badValue => 4
  | .notAwaiting => 5
  | .notHolding => 6
  | .notFaulted => 7

/-- The reply REFUSED with its reason. -/
def refusal (r : RefuseReason) : Reply := { status := .refused, data := [refuseByte r] }

/-- A command's reply replaces the pending reply and goes out on LSDO (R181). -/
def State.reply (s : State) (r : Reply) : State := { s with port := { reply := some r, lsdo := replyBytes r } }

/-- The command is refused and changes nothing else (R182). -/
def State.refuse (s : State) (r : RefuseReason) : State := s.reply (refusal r)

/-- The reply DONE with data. -/
def State.done (s : State) (data : List Byte) : State := s.reply { status := .done, data := data }

/-- The reply CLAMPED with data. -/
def State.clamped (s : State) (data : List Byte) : State := s.reply { status := .clamped, data := data }

/-! ## Judging (R182) -/

/-- A command without parameters. -/
def State.bare (s : State) (params : List Byte) (f : State) : State := if params.isEmpty then f else s.refuse .badFrame

/-- A command allowed after START alone. -/
def State.running (s : State) (f : State) : State := if s.locked then f else s.refuse .phase

/-- A command allowed after START that names a profiled channel: phase before channel (R182). -/
def State.onChannel (s : State) (c : Byte) (f : Chan → State) : State :=
  s.running (match s.chan? c with
    | none => s.refuse .noChannel
    | some ch => f ch)

/-- A command whose one parameter is a feed channel. -/
def State.byChannel (s : State) (params : List Byte) (f : Chan → State) : State :=
  match params with
  | [c] => s.onChannel c f
  | _ => s.refuse .badFrame

/-! ## The profile (R183, R184) -/

/-- LOAD_STATION (R183). -/
def State.loadStation (s : State) (params : List Byte) : State :=
  match splitFields stationWidths params with
  | none => s.refuse .badFrame
  | some fs =>
    if fs.length < 2 then s.refuse .badFrame
    else if s.locked then s.refuse .phase
    else if !rateValid (rawStation fs).rate then s.refuse .badValue
    else
      let p := clampStation (rawStation fs)
      let s := { s with station := some p }
      if p = rawStation fs then s.done [] else s.clamped (stationBytes p)

/-- A mirror record after START (R23). -/
def MirrorRec.start (rate : Nat) : MirrorRec :=
  { condition := .empty, version := none, filling := none, rate := rate, reclaimed := 0 }

/-- A watch record after START (R77). -/
def WatchRec.start : WatchRec :=
  { state := .unseen, forced := false, lastArrival := none, doubtfulDl := none, lostDl := none, returnDl := none,
    quiet := false, windowEnd := none, windowCount := 0, met := true, returns := 0, estimate := 0, seeded := false,
    peak := none, valley := none, lastMain := none, lastOnAir := none, lastSwitch := none }

/-- A takeover record with every optional field absent, every mark clear and no deadline armed, in a state (R101). -/
def TakeoverRec.blank (st : TakeoverState) : TakeoverRec :=
  { state := st, ownClaim := none, claimSent := false, windowEnd := none, best := none, holder := none, yieldDl := none,
    ownHold := none, holdDl := none, outlet := none, inhibit := false, awaitLive := false, handback := none }

/-- A channel as ADD_CHANNEL creates it: its takeover record in DETACHED (R101, R184; log 28). -/
def Chan.added (p : ChannelPart) : Chan :=
  { part := p, latestQueued := none, mirror := MirrorRec.start p.rate, list := [], incoming := [], unlinked := [],
    watch := WatchRec.start, tk := TakeoverRec.blank .detached, run := none }

/-- ADD_CHANNEL (R184). -/
def State.addChannel (s : State) (params : List Byte) : State :=
  match splitFields channelWidths params with
  | none => s.refuse .badFrame
  | some fs =>
    if fs.length < 3 then s.refuse .badFrame
    else if s.locked then s.refuse .phase
    else
      let p := clampChannel (rawChannel fs)
      if !rateValid p.rate || (s.chan? p.channel).isSome || decide (Config.maxChannels ≤ s.chans.length) then
        s.refuse .badValue
      else
        let s := { s with chans := s.chans ++ [Chan.added p] }
        if p = rawChannel fs then s.done [] else s.clamped (channelBytes p)

/-! ## START (R185) -/

/-- The largest cue reply timeout the profile allows: half the cue lead in the shortest period profiled (R185). -/
def maxTimeout (cueLead : Nat) (periods : List Nat) : Nat :=
  match periods with
  | [] => 0
  | p :: rest => cueLead * rest.foldl min p / 480

/-- K2 raised above K1 (R185). -/
def raiseK2 (p : ChannelPart) : ChannelPart := if p.k2 ≤ p.k1 then { p with k2 := p.k1 + 1 } else p

/-- A channel's records after START (R40, R77, R101). -/
def Chan.started (ch : Chan) : Chan :=
  { part := raiseK2 ch.part, latestQueued := none, mirror := MirrorRec.start ch.part.rate, list := [], incoming := [],
    unlinked := [], watch := WatchRec.start, tk := TakeoverRec.blank .idle, run := none }

/-- The bus controller enters LISTENING_IN from START or BUS_RESTART (R92). -/
def State.enterListening (s : State) : State :=
  ({ s with bus := { s.bus with
      state := .listeningIn, listeningDl := some (plus s.now (2 * msGrains s.sp.statusPeriod)) } }).freshStatus

/-- Every block leaves its pin-reset state with the locked profile (R14, R40, R77, R100, R101, R170, R185). -/
def State.begin (s : State) (p : StationPart) : State :=
  ({ s with
      station := some p
      locked := true
      chans := s.chans.map Chan.started
      poolFree := List.range Config.poolSize
      tb := { s.tb with state := .seeking, lastPulse := none, measuring := false, suspectRun := 0 }
      bus := { s.bus with own := BitVec.ofNat 4 p.number, rx := .hunt, huntCount := 0 } }).enterListening

/-- The pairs of feed channel and new K2 of the channels whose K2 START raises (R185). -/
def raisedPairs (chans : List Chan) : List Byte :=
  ((chans.filter (fun ch => decide (ch.part.k2 ≤ ch.part.k1))).map (fun ch =>
    ch.part.channel :: beBytes 1 (ch.part.k1 + 1))).flatten

/-- START (R185). -/
def State.startCmd (s : State) (params : List Byte) : State :=
  s.bare params (
    match s.station with
    | none => s.refuse .phase
    | some p =>
      if s.locked || s.chans.isEmpty then s.refuse .phase
      else
        let timeout := min p.replyTimeout (maxTimeout p.cueLead (s.chans.map (fun ch => Config.ratePeriod ch.part.rate)))
        let pairs := raisedPairs s.chans
        let s := s.begin { p with replyTimeout := timeout }
        if timeout = p.replyTimeout && pairs.isEmpty then s.done [] else s.clamped (beBytes 2 timeout ++ pairs))

/-! ## Notices (R187 to R189) -/

/-- The lowest-numbered pending class with its count and detail; 12, 0, 0, 0 when none is pending (R187). -/
def noticeData (notices : Vector Notice 12) : List Byte :=
  match (List.finRange 12).find? (fun i => notices[i].pending) with
  | none => [12, 0, 0, 0]
  | some i =>
    beBytes 1 i.val ++ beBytes 1 notices[i].count ++
      (match notices[i].detail with
       | some d => [d.subject, noticeCodeByte d.code]
       | none => [0, 0])

/-- READ_NOTICE (R187). -/
def State.readNotice (s : State) (params : List Byte) : State := s.bare params (s.done (noticeData s.notices))

/-- CLEAR_NOTICE (R188). -/
def State.clearNotice (s : State) (params : List Byte) : State :=
  match params with
  | [c] =>
    if h : c.toNat < 12 then (s.modNotice ⟨c.toNat, h⟩ (fun _ => Notice.blank)).done [] else s.refuse .badFrame
  | _ => s.refuse .badFrame

/-- Sets the floor and judges the attention output (R186, R189). -/
def State.putFloor (s : State) (n : Nat) : State := ({ s with floor := n }).judgeAttention

/-- SET_FLOOR (R189). -/
def State.setFloor (s : State) (params : List Byte) : State :=
  match params with
  | [n] => if 12 < n.toNat then (s.putFloor 12).clamped [12] else (s.putFloor n.toNat).done []
  | _ => s.refuse .badFrame

/-! ## Reads (R190 to R196) -/

/-- The watch fields of R76, in its order. -/
def watchBytes (w : WatchRec) : List Byte :=
  beBytes 1 (watchPlace w.state) ++ markByte w.forced ++ beBytes 1 w.returns ++ beBytes 1 w.windowCount
    ++ optField timeBytes w.lastArrival ++ timeBytes w.estimate ++ markByte w.seeded
    ++ optField timeBytes w.peak ++ optField timeBytes w.valley
    ++ optField (fun m => beBytes 1 (mainKindCode m)) w.lastMain
    ++ optField (fun (e : EventId) => beBytes 4 e.toNat) w.lastOnAir ++ optField timeBytes w.lastSwitch

/-- A version. -/
def versionBytes (v : Version) : List Byte := beBytes 2 v.toNat

/-- An event id. -/
def idBytes (e : EventId) : List Byte := beBytes 4 e.toNat

/-- The mirror summary of R190. -/
def mirrorBytes (ch : Chan) : List Byte :=
  beBytes 1 (conditionPlace ch.mirror.condition) ++ optField versionBytes ch.mirror.version
    ++ markByte ch.mirror.filling.isSome ++ beBytes 1 ch.list.length ++ beBytes 2 ch.mirror.reclaimed

/-- A best foreign claim: station, key, time heard and expiry (section 6.1). -/
def foreignBytes (f : ForeignClaim) : List Byte :=
  beBytes 1 f.key.station.toNat ++ keyBytes f.key ++ timeBytes f.heard ++ timeBytes f.expiry

/-- A known holder, in the order of section 6.1. -/
def holderBytes (h : Holder) : List Byte :=
  beBytes 1 h.key.station.toNat ++ keyBytes h.key ++ beBytes 1 (holdStateCode h.state) ++ versionBytes h.version
    ++ idBytes h.event ++ timeBytes h.lastHold ++ timeBytes h.deadline

/-- The takeover fields of R101. -/
def takeoverBytes (tk : TakeoverRec) : List Byte :=
  beBytes 1 (takeoverPlace tk.state) ++ optField (fun r => beBytes 1 (blockedPlace r)) (blockedOf tk.state)
    ++ optField keyBytes tk.ownClaim ++ optField foreignBytes tk.best ++ optField holderBytes tk.holder
    ++ optField keyBytes tk.ownHold ++ optField (fun (o : OutletNo) => beBytes 1 o.val) tk.outlet
    ++ markByte tk.claimSent ++ markByte tk.inhibit ++ markByte tk.awaitLive

/-- The handback fields of section 10.1 that the host reads. -/
def handbackBytes (h : Option Handback) : List Byte :=
  optField timeBytes (h.map (·.switch)) ++ optField timeBytes (h.map (·.localSwitch)) ++ markByte (h.any (·.forced))

/-- An item of the run summary: kind, event id, main and local start, and lock (R149; DESIGN CHOICE, log 56). -/
def itemBytes (it : Item) : List Byte :=
  beBytes 1 (if it.event?.isSome then 1 else 2) ++ optField idBytes it.event? ++ timeBytes it.mainStart
    ++ timeBytes it.localStart ++ markByte it.locked

/-- The run summary of R149. -/
def runBytes (r : RunRec) : List Byte :=
  beBytes 1 (modePlace r.mode) ++ optField idBytes r.manualHold ++ optField itemBytes r.onAir
    ++ optField itemBytes r.cued ++ optField (fun (a : Anchor) => idBytes a.id ++ timeBytes a.main) r.anchor

/-- The data of READ_CHANNEL (R190; log 17), the run summary behind one presence byte (DESIGN CHOICE, log 56). -/
def channelData (ch : Chan) : List Byte :=
  watchBytes ch.watch ++ mirrorBytes ch ++ takeoverBytes ch.tk ++ handbackBytes ch.tk.handback ++ optField runBytes ch.run

/-- READ_CHANNEL; the clear flag makes peak and valley absent once they are in the reply (R76, R190). -/
def State.readChannel (s : State) (params : List Byte) : State :=
  match params with
  | [c, flag] =>
    s.onChannel c (fun ch =>
      let s := if flag = 1 then s.modWatch c (fun w => { w with peak := none, valley := none }) else s
      s.done (channelData ch))
  | _ => s.refuse .badFrame

/-- An event with its derived fields (R42, R191). -/
def eventData (e : EventRec) : List Byte :=
  eventBytes e.data ++ optField timeBytes (e.times.map (·.nomStart)) ++ optField timeBytes (e.times.map (·.nomEnd))
    ++ optField timeBytes (e.times.map (·.effEnd)) ++ markByte e.eclipsed ++ markByte e.pinned

/-- READ_EVENT (R191; log 18). -/
def State.readEvent (s : State) (params : List Byte) : State :=
  match params with
  | [c, pos] =>
    if Config.listLimit ≤ pos.toNat then s.refuse .badFrame
    else s.onChannel c (fun ch => s.done (match ch.list[pos.toNat]? with
      | some e => eventData e
      | none => []))
  | _ => s.refuse .badFrame

/-- A peer entry: presence, last frame time and stored STATUS body (R192). -/
def peerBytes (p : Peer) : List Byte :=
  beBytes 1 (presencePlace p.presence) ++ optField timeBytes p.lastFrame ++ optField statusBytes p.status

/-- The station numbers of a half, without the own number (R192). -/
def halfStations (own : Station) (half : Nat) : List (Fin 16) :=
  (List.finRange 16).filter (fun i => decide (i.val / 8 = half) && decide (i.val ≠ own.toNat))

/-- READ_PEERS (R192; log 18). -/
def State.readPeers (s : State) (params : List Byte) : State :=
  match params with
  | [half] =>
    if 1 < half.toNat then s.refuse .badFrame
    else s.done (beBytes 1 s.bus.own.toNat ++ beBytes 1 (busPlace s.bus.state) ++ beBytes 2 s.bus.heard.toNat
      ++ ((halfStations s.bus.own half.toNat).map (fun i => peerBytes s.bus.peers[i])).flatten)
  | _ => s.refuse .badFrame

/-- READ_TIME (R193). STEP goes out in four bytes, for which no table gives a width (DESIGN CHOICE, log 62). -/
def State.readTime (s : State) (params : List Byte) : State :=
  s.bare params (s.done (timeBytes s.now ++ beBytes 4 s.tb.step ++ beBytes 1 (timeBasePlace s.tb.state)
    ++ beBytes 1 (timeClassCode s.tb.state.timeClass)))

/-- The fields of an outlet record, in the order of R153, the awaiting list behind a byte with its length, which the manual does
not name, and the armed stop with its outcome behind one presence byte, without the deciding STOP (R194; DESIGN CHOICE, logs 17,
57). -/
def outletBytes (x : Outlet) : List Byte :=
  beBytes 1 (outletPlace x.state) ++ optField (fun (c : Channel) => [c]) x.channel ++ markByte x.air
    ++ beBytes 1 x.queue.length
    ++ optField (fun (u : Outstanding) => beBytes 1 (cmdKindCode (cmdKind u.cmd)) ++ beBytes 1 u.tag) x.outstanding
    ++ beBytes 1 x.awaiting.length
    ++ (x.awaiting.map (fun a => beBytes 1 a.tag ++ timeBytes a.prep.start)).flatten
    ++ optField (fun (a : ArmedStop) => timeBytes a.at_ ++ beBytes 1 (stopPlace a.outcome)) x.armed
    ++ optField (fun (f : CmdKind × Failure) => beBytes 1 (cmdKindCode f.1) ++ beBytes 1 (failurePlace f.2)) x.fault

/-- READ_OUTLETS (R194). -/
def State.readOutlets (s : State) (params : List Byte) : State :=
  s.bare params (s.done ((s.outlets.toList.map outletBytes).flatten))

/-- READ_COUNTS (R195). -/
def State.readCounts (s : State) (params : List Byte) : State :=
  s.bare params (s.done (beBytes 2 s.feed.faults ++ beBytes 2 s.feed.drops ++ beBytes 2 s.cue.late ++ beBytes 2 s.bus.drops
    ++ beBytes 2 s.bus.losses ++ beBytes 2 s.bus.malformed ++ beBytes 2 s.asrunDrops))

/-- The 28 bytes of an as-run record (R196; log 29). -/
def asRunBytes (a : AsRun) : List Byte :=
  [a.channel] ++ beBytes 1 a.outlet.val ++ beBytes 1 (if a.event.isSome then 1 else 2) ++ idBytes (a.event.getD 0)
    ++ timeBytes a.runStart ++ timeBytes a.mainStart ++ beBytes 3 a.skipped
    ++ beBytes 4 (if a.played < 2 ^ 32 then a.played else Config.framesPlayedWide a.played)
    ++ beBytes 1 (endingCode a.ending) ++ markByte a.unconfirmed

/-- TAKE_ASRUN: up to 8 records leave the head of the as-run queue (R196). -/
def State.takeAsRun (s : State) (params : List Byte) : State :=
  s.bare params (
    let taken := s.asrun.take 8
    ({ s with asrun := s.asrun.drop 8 }).done (beBytes 1 taken.length ++ (taken.map asRunBytes).flatten))

/-! ## Control (R197 to R204) -/

/-- FORCE_LOST: the forced mark is set, and LIVE, DOUBTFUL and RETURNING go to LOST (R73, R197). -/
def State.forceLost (s : State) (c : Channel) (ch : Chan) : State :=
  let s := s.modWatch c (fun w => { w with forced := true })
  match ch.watch.state with
  | .unseen => s
  | .lost => s
  | _ => ((s.modWatch c (fun w => { w with returns := 0 })).setWatch c .lost .forced).settle

/-- UNFORCE: the forced mark is cleared and nothing else (R74, R198). -/
def State.unforce (s : State) (c : Channel) : State := s.modWatch c (fun w => { w with forced := false })

/-- INHIBIT: the mark, and what it does in each takeover state (R125, R199). -/
def State.inhibit (s : State) (c : Channel) (ch : Chan) : State :=
  let s := s.modTk c (fun tk => { tk with inhibit := true })
  match ch.tk.state with
  | .idle => s.check c
  | .blocked _ => s.check c
  | .contending => (s.leaveContending c (.blocked .inhibited)).pass
  | .yielded => s.modTk c (fun tk => { tk with state := .blocked .inhibited, yieldDl := none })
  | _ => s

/-- ALLOW: the mark is cleared, and in IDLE and BLOCKED the check runs (R125, R200). -/
def State.allow (s : State) (c : Channel) : State := (s.modTk c (fun tk => { tk with inhibit := false })).check c

/-- RELEASE (R125, R179, R201), the mirror having served what waits before the runner asks it (R18). -/
def State.release (s : State) (c : Channel) (ch : Chan) : State :=
  match ch.tk.state with
  | .joining => ((s.mirrorTurn c).abortJoin c ch.tk).settle.done []
  | .onAir => (s.forceHandback c ch).settle.done []
  | .handingBack => (s.forceHandback c ch).settle.done []
  | _ => s.refuse .notHolding

/-- GO (R148, R202). -/
def State.goCmd (s : State) (c : Channel) (ch : Chan) : State :=
  match ch.run with
  | none => s.refuse .notAwaiting
  | some r =>
    match r.mode, r.manualHold with
    | .awaitingGo, some id => (s.giveGo c ch r id).settle.done []
    | _, _ => s.refuse .notAwaiting

/-- CLEAR_OUTLET: a FAULTED outlet becomes FREE, its outstanding command abandoned, and a pass runs (R154, R169, R203). -/
def State.clearOutlet (s : State) (params : List Byte) : State :=
  match params with
  | [o] =>
    if h : o.toNat < 4 then
      let o : OutletNo := ⟨o.toNat, h⟩
      s.running (
        if (s.outlet o).state = .faulted then
          (((s.modOutlet o (fun x =>
              { x with state := .free, fault := none, queue := [], awaiting := [], outstanding := none })).settleOrder
            o).pass).done []
        else s.refuse .notFaulted)
    else s.refuse .badFrame
  | _ => s.refuse .badFrame

/-- The bus controller's restart (R92, R99). -/
def State.restartBus (s : State) : State :=
  let wasActive := s.bus.state == .active
  let s := ({ s with bus := { s.bus with
      attempt := none, driving := [], queue := [], faults := 0, losses := 0, quietDl := none
      peers := Vector.replicate 16 Peer.blank, heard := 0, rx := .hunt, huntCount := 0 } }).enterListening
  if wasActive then s.busLeftActive else s

/-- BUS_RESTART (R99, R204). -/
def State.busRestart (s : State) (params : List Byte) : State := s.bare params (s.running (s.restartBus.done []))

/-! ## Transfers (R181) -/

/-- A reply fetch: LSDO carries the pending reply, or nothing (R181). -/
def State.fetchReply (s : State) : State :=
  { s with port := { s.port with lsdo := (s.port.reply.map replyBytes).getD [] } }

/-- A length byte above 250: REFUSED/BAD_FRAME, formed when select is released, so that nothing goes out (R181). -/
def State.overlong (s : State) : State := { s with port := { reply := some (refusal .badFrame), lsdo := [] } }

/-- A taken command by its code (section 11.1). -/
def State.byCode (s : State) (code : Nat) (params : List Byte) : State :=
  match code with
  | 1 => s.loadStation params
  | 2 => s.addChannel params
  | 3 => s.startCmd params
  | 4 => s.readNotice params
  | 5 => s.clearNotice params
  | 6 => s.setFloor params
  | 7 => s.readChannel params
  | 8 => s.readEvent params
  | 9 => s.readPeers params
  | 10 => s.readTime params
  | 11 => s.readOutlets params
  | 12 => s.readCounts params
  | 13 => s.takeAsRun params
  | 14 => s.clearOutlet params
  | 15 => s.byChannel params (fun ch => (s.forceLost ch.part.channel ch).done [])
  | 16 => s.byChannel params (fun ch => (s.unforce ch.part.channel).done [])
  | 17 => s.byChannel params (fun ch => (s.inhibit ch.part.channel ch).done [])
  | 18 => s.byChannel params (fun ch => (s.allow ch.part.channel).done [])
  | 19 => s.byChannel params (fun ch => s.release ch.part.channel ch)
  | 20 => s.byChannel params (fun ch => s.goCmd ch.part.channel ch)
  | 21 => s.busRestart params
  | _ => s.refuse .badFrame

end Sys2Proof.Machine
end

