-- ==== Sys2Proof/Machine/LocalPort.lean ====
section
/-! DEFINITION. The commands of the local port (11_local_port_profile_and_notices.md): one transfer each. -/

namespace Sys2Proof.Machine

/-- REPLY_FETCH (R181). -/
def execReplyFetch (s : State) : Host.Outcome State Fault Refusal := .next s.fetchReply

/-- TRUNCATED_COMMAND: discarded; the pending reply stays, and LSDO has carried 00h alone (R181). -/
def execTruncatedCommand (s : State) : Host.Outcome State Fault Refusal :=
  .next { s with port := { s.port with lsdo := [] } }

/-- OVERLONG_COMMAND (R181). -/
def execOverlongCommand (s : State) : Host.Outcome State Fault Refusal := .next s.overlong

/-- UNKNOWN_COMMAND: a whole command frame judged by its check and code; code 0 is a reply fetch and a length above 250 is
overlong (R181, R182). -/
def execUnknownCommand (code : Byte) (params : List Byte) (check : BitVec 16) (s : State) :
    Host.Outcome State Fault Refusal :=
  .next (
    if code = 0 then s.fetchReply
    else if 250 < params.length then s.overlong
    else if check ≠ commandCheck code params then s.refuse .badFrame
    else s.byCode code.toNat params)

/-- LOAD_STATION (R183). -/
def execLoadStation (params : List Byte) (s : State) : Host.Outcome State Fault Refusal := .next (s.loadStation params)

/-- ADD_CHANNEL (R184). -/
def execAddChannel (params : List Byte) (s : State) : Host.Outcome State Fault Refusal := .next (s.addChannel params)

/-- START (R185). -/
def execStart (params : List Byte) (s : State) : Host.Outcome State Fault Refusal := .next (s.startCmd params)

/-- READ_NOTICE (R187). -/
def execReadNotice (params : List Byte) (s : State) : Host.Outcome State Fault Refusal := .next (s.readNotice params)

/-- CLEAR_NOTICE (R188). -/
def execClearNotice (params : List Byte) (s : State) : Host.Outcome State Fault Refusal := .next (s.clearNotice params)

/-- SET_FLOOR (R189). -/
def execSetFloor (params : List Byte) (s : State) : Host.Outcome State Fault Refusal := .next (s.setFloor params)

/-- READ_CHANNEL (R76, R190). -/
def execReadChannel (params : List Byte) (s : State) : Host.Outcome State Fault Refusal := .next (s.readChannel params)

/-- READ_EVENT (R191). -/
def execReadEvent (params : List Byte) (s : State) : Host.Outcome State Fault Refusal := .next (s.readEvent params)

/-- READ_PEERS (R192). -/
def execReadPeers (params : List Byte) (s : State) : Host.Outcome State Fault Refusal := .next (s.readPeers params)

/-- READ_TIME (R193). -/
def execReadTime (params : List Byte) (s : State) : Host.Outcome State Fault Refusal := .next (s.readTime params)

/-- READ_OUTLETS (R194). -/
def execReadOutlets (params : List Byte) (s : State) : Host.Outcome State Fault Refusal := .next (s.readOutlets params)

/-- READ_COUNTS (R195). -/
def execReadCounts (params : List Byte) (s : State) : Host.Outcome State Fault Refusal := .next (s.readCounts params)

/-- TAKE_ASRUN (R152, R196). -/
def execTakeAsrun (params : List Byte) (s : State) : Host.Outcome State Fault Refusal := .next (s.takeAsRun params)

/-- FORCE_LOST (R73, R197). -/
def execForceLost (params : List Byte) (s : State) : Host.Outcome State Fault Refusal :=
  .next (s.byChannel params (fun ch => (s.forceLost ch.part.channel ch).done []))

/-- UNFORCE (R74, R198). -/
def execUnforce (params : List Byte) (s : State) : Host.Outcome State Fault Refusal :=
  .next (s.byChannel params (fun ch => (s.unforce ch.part.channel).done []))

/-- INHIBIT (R125, R199). -/
def execInhibit (params : List Byte) (s : State) : Host.Outcome State Fault Refusal :=
  .next (s.byChannel params (fun ch => (s.inhibit ch.part.channel ch).done []))

/-- ALLOW (R125, R200). -/
def execAllow (params : List Byte) (s : State) : Host.Outcome State Fault Refusal :=
  .next (s.byChannel params (fun ch => (s.allow ch.part.channel).done []))

/-- RELEASE (R125, R179, R201). -/
def execRelease (params : List Byte) (s : State) : Host.Outcome State Fault Refusal :=
  .next (s.byChannel params (fun ch => s.release ch.part.channel ch))

/-- GO (R148, R202). -/
def execGo (params : List Byte) (s : State) : Host.Outcome State Fault Refusal :=
  .next (s.byChannel params (fun ch => s.goCmd ch.part.channel ch))

/-- CLEAR_OUTLET (R169, R203). -/
def execClearOutlet (params : List Byte) (s : State) : Host.Outcome State Fault Refusal := .next (s.clearOutlet params)

/-- BUS_RESTART (R99, R204). -/
def execBusRestart (params : List Byte) (s : State) : Host.Outcome State Fault Refusal := .next (s.busRestart params)

end Sys2Proof.Machine
end

