-- ==== Sys2Proof/Machine/Mirror.lean ====
section
/-! DEFINITION. The mirror's commands (02_the_schedule_mirror.md, sections 2.6 to 2.9): DRIFT_CHECK and RECLAIM_SWEEP serve the
requests that wait, and the five ingest commands apply the oldest message of the queue once every request is served (R18); where the oldest message is of
another kind they do nothing (DESIGN CHOICE, log 50). -/

namespace Sys2Proof.Machine

/-! ## Requests -/

/-- A request is a drift check. -/
def MirrorReq.isDrift : MirrorReq → Bool
  | .drift .. => true
  | .sweep _ => false

/-- A request is a reclaim sweep. -/
def MirrorReq.isSweep : MirrorReq → Bool
  | .drift .. => false
  | .sweep _ => true

/-- DRIFT_CHECK: the oldest drift check that waits, with the requests made before it (R18, R26). -/
def execDriftCheck (s : State) : Host.Outcome State Fault Refusal :=
  .next (
    if s.mirrorReqs.any MirrorReq.isDrift then State.serveThrough MirrorReq.isDrift s.mirrorReqs s
    else s)

/-- RECLAIM_SWEEP: the oldest reclaim sweep that waits, with the requests made before it (R18, R38, R39). -/
def execReclaimSweep (s : State) : Host.Outcome State Fault Refusal :=
  .next (
    if s.mirrorReqs.any MirrorReq.isSweep then State.serveThrough MirrorReq.isSweep s.mirrorReqs s
    else s)

/-! ## Applying a message -/

/-- Applies a SNAP_OPEN (R27). -/
def State.applySnapOpen (s : State) (c : Channel) (v : Version) (count : Nat) : State :=
  let s := s.abandonFilling c
  if count ≤ Config.listLimit then
    s.modMirror c (fun m => { m with filling := some { version := v, expected := count, next := 0 } })
  else s.markStale c

/-- A SNAP_EVENT passes the tests of R28 but for the pool. -/
def snapEventFits (f : Filling) (incoming : List EventRec) (v : Version) (index : Nat) (e : EventData) : Bool :=
  (v == f.version) && (index == f.next) && decide (index < f.expected) && validEvent e && !hasId e.id incoming

/-- Applies a SNAP_EVENT (R28). -/
def State.applySnapEvent (s : State) (c : Channel) (v : Version) (index : Nat) (e : EventData) : State :=
  match s.chan? c with
  | none => s
  | some ch =>
    match ch.mirror.filling with
    | none => s.markStale c
    | some f =>
      if snapEventFits f ch.incoming v index e then
        match s.allocSlot with
        | none => ((s.abandonFilling c).markStale c).raise .poolShort c .poolShortSnapshot
        | some (slot, s) =>
          s.modChan c (fun ch =>
            { ch with
              incoming := ch.incoming ++ [newRecord slot e]
              mirror := { ch.mirror with filling := some { f with next := f.next + 1 } } })
      else (s.abandonFilling c).markStale c

/-- A SNAP_CLOSE completes the filling (R29). -/
def snapCloseFits (f : Filling) (v : Version) (count : Nat) : Bool :=
  (v == f.version) && (count == f.expected) && (count == f.next)

/-- The incoming list takes the place of the channel list, whose records are unlinked (R29, R36). -/
def State.replaceList (s : State) (c : Channel) (gone : List EventRec) (v : Version) : State :=
  (s.unlink c gone).modChan c (fun ch =>
    { ch with list := ch.incoming, incoming := [], mirror := { ch.mirror with version := some v, filling := none } })

/-- Applies a SNAP_CLOSE (R29, R34). -/
def State.applySnapClose (s : State) (c : Channel) (v : Version) (count : Nat) : State :=
  match s.chan? c with
  | none => s
  | some ch =>
    if ch.mirror.filling.any (fun f => snapCloseFits f v count) then
      ((s.replaceList c ch.list v).makeCurrent c).afterChange c
    else (s.abandonFilling c).markStale c

/-- Places a record directly after the anchor's event, or at the head for anchor 0 (R31). -/
def insertAfter (anchor : EventId) (r : EventRec) : List EventRec → List EventRec
  | [] => [r]
  | e :: rest => if anchor = 0 then r :: e :: rest else if e.data.id = anchor then e :: r :: rest
      else e :: insertAfter anchor r rest

/-- Sets the mirror version and gives the channel a new list, which is resolved and reported (R31, R33, R34). -/
def State.newList (s : State) (c : Channel) (v : Version) (l : List EventRec) : State :=
  (s.modChan c (fun ch => { ch with list := l, mirror := { ch.mirror with version := some v } })).afterChange c

/-- An edit that cannot be stored: the version advances, the channel is marked short (R32). -/
def State.editShort (s : State) (c : Channel) (v : Version) : State :=
  ((s.modMirror c (fun m => { m with version := some v })).markShort c).raise .poolShort c .poolShortEdit

/-- Places an EDIT_PUT that has passed R30 (R31, R32). -/
def State.placeEdit (s : State) (c : Channel) (ch : Chan) (new : Version) (anchor : EventId) (e : EventData) : State :=
  let without := ch.list.filter (fun x => x.data.id != e.id)
  if anchor ≠ 0 ∧ hasId anchor without = false then s.markStale c
  else match ch.list.find? (fun x => x.data.id == e.id) with
    | none =>
      if Config.listLimit ≤ ch.list.length then s.editShort c new
      else match s.allocSlot with
        | none => s.editShort c new
        | some (slot, s) => s.newList c new (insertAfter anchor (newRecord slot e) ch.list)
    | some old =>
      if old.pinned then
        match s.allocSlot with
        | none => s.editShort c new
        | some (slot, s) => (s.unlink c [old]).newList c new (insertAfter anchor (newRecord slot e) without)
      else s.newList c new (insertAfter anchor (newRecord old.slot e) without)

/-- Applies an EDIT_PUT (R30). -/
def State.applyEditPut (s : State) (c : Channel) (base new : Version) (anchor : EventId) (e : EventData) : State :=
  match s.chan? c with
  | none => s
  | some ch =>
    if ch.mirror.condition = .empty then s
    else if ch.mirror.version ≠ some base ∨ validEvent e = false then s.markStale c
    else s.placeEdit c ch new anchor e

/-- Applies an EDIT_DROP (R33). -/
def State.applyEditDrop (s : State) (c : Channel) (base new : Version) (id : EventId) : State :=
  match s.chan? c with
  | none => s
  | some ch =>
    if ch.mirror.condition = .empty then s
    else if ch.mirror.version ≠ some base then s.markStale c
    else
      (s.unlink c (ch.list.filter (fun x => x.data.id == id))).newList c new (ch.list.filter (fun x => x.data.id != id))

/-- The mirror takes the oldest message, once it has served every request that waits (R18). -/
def State.takeIngest (s : State) (rest : List SchedMsg) : State :=
  let s := s.serveAll
  { s with feed := { s.feed with ingest := rest } }

/-- SNAP_OPEN: the oldest ingest message, when it is one, is applied (R18, R27). -/
def execSnapOpen (s : State) : Host.Outcome State Fault Refusal :=
  match s.feed.ingest with
  | { channel := c, body := .snapOpen v n } :: rest => .next ((s.takeIngest rest).applySnapOpen c v n.toNat)
  | _ => .next s

/-- SNAP_EVENT: the oldest ingest message, when it is one, is applied (R18, R28). -/
def execSnapEvent (s : State) : Host.Outcome State Fault Refusal :=
  match s.feed.ingest with
  | { channel := c, body := .snapEvent v i e } :: rest => .next ((s.takeIngest rest).applySnapEvent c v i.toNat e)
  | _ => .next s

/-- SNAP_CLOSE: the oldest ingest message, when it is one, is applied (R18, R29). -/
def execSnapClose (s : State) : Host.Outcome State Fault Refusal :=
  match s.feed.ingest with
  | { channel := c, body := .snapClose v n } :: rest => .next ((s.takeIngest rest).applySnapClose c v n.toNat).settle
  | _ => .next s

/-- EDIT_PUT: the oldest ingest message, when it is one, is applied (R18, R30). -/
def execEditPut (s : State) : Host.Outcome State Fault Refusal :=
  match s.feed.ingest with
  | { channel := c, body := .editPut b n a e } :: rest => .next ((s.takeIngest rest).applyEditPut c b n a e).settle
  | _ => .next s

/-- EDIT_DROP: the oldest ingest message, when it is one, is applied (R18, R33). -/
def execEditDrop (s : State) : Host.Outcome State Fault Refusal :=
  match s.feed.ingest with
  | { channel := c, body := .editDrop b n i } :: rest => .next ((s.takeIngest rest).applyEditDrop c b n i).settle
  | _ => .next s

end Sys2Proof.Machine
end

