-- ==== Sys2Proof/Machine/Takeover.lean ====
section
/-! DEFINITION. The commands of the takeover unit's own deadlines (06_claims_and_takeover.md). -/

namespace Sys2Proof.Machine

/-- FOREIGN_CLAIM_EXPIRY: the best foreign claim becomes absent (R104). -/
def execForeignClaimExpiry (c : Channel) (s : State) : Host.Outcome State Fault Refusal :=
  .next (
    match s.chan? c with
    | none => s
    | some ch =>
      if due (ch.tk.best.map (·.expiry)) s.now then s.modTk c (fun tk => { tk with best := none }) else s)

/-- HOLDER_DEADLINE: the known holder is taken to be gone (R107). -/
def execHolderDeadline (c : Channel) (s : State) : Host.Outcome State Fault Refusal :=
  .next (
    match s.chan? c with
    | none => s
    | some ch =>
      if due (ch.tk.holder.map (·.deadline)) s.now then (s.modTk c (fun tk => { tk with holder := none })).holderGone c
      else s)

/-- YIELD_DEADLINE: a YIELDED channel with no known holder goes to IDLE and is checked (R117). -/
def execYieldDeadline (c : Channel) (s : State) : Host.Outcome State Fault Refusal :=
  .next (
    match s.chan? c with
    | none => s
    | some ch =>
      if ch.tk.state = .yielded ∧ ch.tk.holder.isNone ∧ due ch.tk.yieldDl s.now then s.leaveYielded c else s)

/-- The record of a channel entering JOINING: the holding key is the claim key (R103, R116). -/
def TakeoverRec.joins (tk : TakeoverRec) : TakeoverRec :=
  { tk with state := .joining, ownHold := tk.ownClaim, ownClaim := none, claimSent := false, windowEnd := none }

/-- A channel in CONTENDING has reached its claim-window end (R116). -/
def State.windowReached (s : State) (c : Channel) : Bool :=
  (s.chan? c).any (fun ch => ch.contending && due ch.tk.windowEnd s.now)

/-- CONTENDING enters JOINING at its claim-window end, offers its HOLD, and hands the join to the runner with the watch's estimate
(R116, R119, R135, R137). -/
def State.enterJoining (s : State) (c : Channel) : State :=
  match s.chan? c with
  | none => s
  | some ch =>
    match ch.tk.windowEnd, ch.tk.outlet with
    | some d, some o => ((s.modTk c TakeoverRec.joins).assertHold c).openRun c o d ch.watch.estimate
    | _, _ => s

/-- CLAIM_WINDOW_END: the channel enters JOINING. The join asks the mirror for a pin, so the requests that wait are served first;
where one of them re-keys the channel, its window is gone (R18, R113). -/
def execClaimWindowEnd (c : Channel) (s : State) : Host.Outcome State Fault Refusal :=
  .next (
    if s.windowReached c then
      let s := s.serveAll
      if s.windowReached c then (s.enterJoining c).settle else s
    else s)

/-- HOLD_DEADLINE: a HOLD is offered and the deadline armed again one hold period after station time (R3, R119). -/
def execHoldDeadline (c : Channel) (s : State) : Host.Outcome State Fault Refusal :=
  .next (
    match s.chan? c with
    | none => s
    | some ch =>
      if ch.tk.state.holding && due ch.tk.holdDl s.now then s.assertHold c else s)

end Sys2Proof.Machine
end

