-- ==== Sys2Proof/Machine/TimeBase.lean ====
section
/-! DEFINITION. The commands of the time base and of the reset and clock inputs (01_station_time.md): PIN_RESET,
REFERENCE_PULSE, MISSING_PULSE, REFERENCE_SILENCE and CLOCK_CYCLE. -/

namespace Sys2Proof.Machine

/-- P_ref, the period in grains of the profile's reference rate (section 1.2). -/
def State.refPeriod (s : State) : Nat := Config.ratePeriod s.sp.rate

/-- C_nom = 51,200 × P_ref (section 1.2). -/
def nominalCount (period : Nat) : Nat := 51200 * period

/-- The acceptance test of a closed measurement, on whole numbers (R6). -/
def acceptable (period count : Nat) : Bool :=
  decide (5000 * ((count : Int) - (nominalCount period : Int)).natAbs ≤ nominalCount period)

/-- 2^32 × 256 × P_ref / C rounded to the nearest whole number, one half upward (R7). -/
def roundedQuotient (period count : Nat) : Nat := (2 * (2 ^ 32 * 256 * period) + count) / (2 * count)

/-- The STEP of an accepted measurement, clamped (R7). -/
def stepFor (period count : Nat) : Nat := max Config.stepMin (min Config.stepMax (roundedQuotient period count))

/-- Entry to HOLDOVER: STEP held, the suspect run cleared, TIME_HOLDOVER raised, the class change reported (R11, R12). -/
def State.enterHoldover (s : State) : State :=
  (({ s with tb := { s.tb with state := .holdover, suspectRun := 0 } }).raise .timeOrAsrun 0 .timeHoldover).timeClassChanged

/-- A suspect or abandoned measurement acts on the state (R9). -/
def State.suspect (s : State) : State :=
  if s.tb.state = .locked then
    if s.tb.suspectRun + 1 < 3 then { s with tb := { s.tb with suspectRun := s.tb.suspectRun + 1 } } else s.enterHoldover
  else s

/-- An accepted measurement sets STEP and acts on the state; only an entry to LOCKED changes the class (R8, R12). -/
def State.accept (s : State) (count : Nat) : State :=
  let entered := s.tb.state ≠ .locked
  let s := { s with tb := { s.tb with step := stepFor s.refPeriod count, state := .locked, suspectRun := 0 } }
  if entered then s.timeClassChanged else s

/-- Opens a measurement: both counts 0 (R4). -/
def State.openMeasurement (s : State) : State := { s with tb := { s.tb with measuring := true, cycles := 0, periods := 0 } }

/-- A pulse as a period boundary of the measurement in progress, or the opening of one (R4, R6). -/
def State.countPulse (s : State) : State :=
  if !s.tb.measuring then s.openMeasurement
  else if s.tb.periods + 1 < Config.measurementPeriods then
    { s with tb := { s.tb with periods := s.tb.periods + 1 } }
  else
    let count := s.tb.cycles
    if acceptable s.refPeriod count then s.openMeasurement.accept count else s.openMeasurement.suspect

/-- The last-pulse time and the two deadlines that every pulse arms afresh (R4, R5, R10). -/
def State.stampPulse (s : State) : State :=
  { s with tb := { s.tb with
      lastPulse := some s.now
      missingDl := some (plus s.now (3 * s.refPeriod / 2))
      silenceDl := some (plus s.now (4 * s.refPeriod)) } }

/-- PIN_RESET: every block at its pin-reset values; the commands that wait are the model's own and stay (R13, R205). -/
def execPinReset (s : State) : Host.Outcome State Fault Refusal := .next { State.reset with pending := s.pending }

/-- REFERENCE_PULSE: not taken in FREE_RUN; stamps the pulse and counts it (R4, R13). -/
def execReferencePulse (s : State) : Host.Outcome State Fault Refusal :=
  .next (if s.tb.state = .freeRun then s else s.stampPulse.countPulse)

/-- MISSING_PULSE: abandons the measurement in progress, which counts as a suspect one (R5, R9). -/
def execMissingPulse (s : State) : Host.Outcome State Fault Refusal :=
  .next (
    if due s.tb.missingDl s.now then
      let s := { s with tb := { s.tb with missingDl := none } }
      if s.tb.measuring then
        ({ s with tb := { s.tb with measuring := false, cycles := 0, periods := 0 } }).suspect
      else s
    else s)

/-- REFERENCE_SILENCE: takes LOCKED to HOLDOVER (R10). -/
def execReferenceSilence (s : State) : Host.Outcome State Fault Refusal :=
  .next (
    if due s.tb.silenceDl s.now then
      let s := { s with tb := { s.tb with silenceDl := none } }
      if s.tb.state = .locked then s.enterHoldover else s
    else s)

/-- CLOCK_CYCLE: adds STEP to the accumulator, carrying one grain into station time, and counts the cycle of a measurement
in progress (R1, R2, R4). -/
def execClockCycle (s : State) : Host.Outcome State Fault Refusal :=
  let sum := s.tb.acc + s.tb.step
  let tb := { s.tb with cycles := if s.tb.measuring then s.tb.cycles + 1 else s.tb.cycles }
  .next { s with tb :=
    if 2 ^ 32 ≤ sum then { tb with acc := sum - 2 ^ 32, now := s.tb.now + 1 } else { tb with acc := sum } }

end Sys2Proof.Machine
end

