-- ==== Sys2Proof/Machine/Dispatch.lean ====
section
/-! DEFINITION. One arm per command: each is one direct call of its meaning. -/

namespace Sys2Proof.Machine

/-- The effect of a command on everything but the queue of commands that wait. -/
def exec (i : Instr) (s : State) : Host.Outcome State Fault Refusal :=
  match i with
  | .pinReset => Sys2Proof.Machine.execPinReset s
  | .referencePulse => Sys2Proof.Machine.execReferencePulse s
  | .missingPulse => Sys2Proof.Machine.execMissingPulse s
  | .referenceSilence => Sys2Proof.Machine.execReferenceSilence s
  | .feedIdleGap begun => Sys2Proof.Machine.execFeedIdleGap begun s
  | .feedLengthAbandon => Sys2Proof.Machine.execFeedLengthAbandon s
  | .feedMessageDiscard kind channel body check => Sys2Proof.Machine.execFeedMessageDiscard kind channel body check s
  | .beacon b => Sys2Proof.Machine.execBeacon b s
  | .driftCheck => Sys2Proof.Machine.execDriftCheck s
  | .reclaimSweep => Sys2Proof.Machine.execReclaimSweep s
  | .scheduleMessage m => Sys2Proof.Machine.execScheduleMessage m s
  | .snapOpen => Sys2Proof.Machine.execSnapOpen s
  | .snapEvent => Sys2Proof.Machine.execSnapEvent s
  | .snapClose => Sys2Proof.Machine.execSnapClose s
  | .editPut => Sys2Proof.Machine.execEditPut s
  | .editDrop => Sys2Proof.Machine.execEditDrop s
  | .doubtfulDeadline channel => Sys2Proof.Machine.execDoubtfulDeadline channel s
  | .lostDeadline channel => Sys2Proof.Machine.execLostDeadline channel s
  | .returnDeadline channel => Sys2Proof.Machine.execReturnDeadline channel s
  | .windowEnd channel => Sys2Proof.Machine.execWindowEnd channel s
  | .busHeaderMalformed => Sys2Proof.Machine.execBusHeaderMalformed s
  | .malformedFrame raw => Sys2Proof.Machine.execMalformedFrame raw s
  | .clashFrame frame => Sys2Proof.Machine.execClashFrame frame s
  | .claimFrame merit station channel => Sys2Proof.Machine.execClaimFrame merit station channel s
  | .holdFrame merit station channel state version event => Sys2Proof.Machine.execHoldFrame merit station channel state version event s
  | .releaseFrame merit station channel reason => Sys2Proof.Machine.execReleaseFrame merit station channel reason s
  | .statusFrame station body => Sys2Proof.Machine.execStatusFrame station body s
  | .attempt => Sys2Proof.Machine.execAttempt s
  | .arbitrationLoss => Sys2Proof.Machine.execArbitrationLoss s
  | .bitFault => Sys2Proof.Machine.execBitFault s
  | .sentWhole => Sys2Proof.Machine.execSentWhole s
  | .quietDeadline => Sys2Proof.Machine.execQuietDeadline s
  | .listeningInDeadline => Sys2Proof.Machine.execListeningInDeadline s
  | .statusDeadline => Sys2Proof.Machine.execStatusDeadline s
  | .peerSilenceDeadline station => Sys2Proof.Machine.execPeerSilenceDeadline station s
  | .foreignClaimExpiry channel => Sys2Proof.Machine.execForeignClaimExpiry channel s
  | .holderDeadline channel => Sys2Proof.Machine.execHolderDeadline channel s
  | .yieldDeadline channel => Sys2Proof.Machine.execYieldDeadline channel s
  | .claimWindowEnd channel => Sys2Proof.Machine.execClaimWindowEnd channel s
  | .holdDeadline channel => Sys2Proof.Machine.execHoldDeadline channel s
  | .cueMoment channel => Sys2Proof.Machine.execCueMoment channel s
  | .sideCueTime channel => Sys2Proof.Machine.execSideCueTime channel s
  | .commandSend serverReady => Sys2Proof.Machine.execCommandSend serverReady s
  | .queuedCommandMissed outlet => Sys2Proof.Machine.execQueuedCommandMissed outlet s
  | .replyDeadline outlet => Sys2Proof.Machine.execReplyDeadline outlet s
  | .startDeadline outlet => Sys2Proof.Machine.execStartDeadline outlet s
  | .armedStopTime outlet => Sys2Proof.Machine.execArmedStopTime outlet s
  | .cueIdleGap begun => Sys2Proof.Machine.execCueIdleGap begun s
  | .cueLengthAbandon => Sys2Proof.Machine.execCueLengthAbandon s
  | .cueMessageDiscard kind tag body check => Sys2Proof.Machine.execCueMessageDiscard kind tag body check s
  | .taken tag => Sys2Proof.Machine.execTaken tag s
  | .refused tag reason => Sys2Proof.Machine.execRefused tag reason s
  | .started tag outlet actual => Sys2Proof.Machine.execStarted tag outlet actual s
  | .stopPoint channel => Sys2Proof.Machine.execStopPoint channel s
  | .switchDeadline channel => Sys2Proof.Machine.execSwitchDeadline channel s
  | .replyFetch => Sys2Proof.Machine.execReplyFetch s
  | .truncatedCommand => Sys2Proof.Machine.execTruncatedCommand s
  | .overlongCommand => Sys2Proof.Machine.execOverlongCommand s
  | .unknownCommand code params check => Sys2Proof.Machine.execUnknownCommand code params check s
  | .loadStation params => Sys2Proof.Machine.execLoadStation params s
  | .addChannel params => Sys2Proof.Machine.execAddChannel params s
  | .start params => Sys2Proof.Machine.execStart params s
  | .readNotice params => Sys2Proof.Machine.execReadNotice params s
  | .clearNotice params => Sys2Proof.Machine.execClearNotice params s
  | .setFloor params => Sys2Proof.Machine.execSetFloor params s
  | .readChannel params => Sys2Proof.Machine.execReadChannel params s
  | .readEvent params => Sys2Proof.Machine.execReadEvent params s
  | .readPeers params => Sys2Proof.Machine.execReadPeers params s
  | .readTime params => Sys2Proof.Machine.execReadTime params s
  | .readOutlets params => Sys2Proof.Machine.execReadOutlets params s
  | .readCounts params => Sys2Proof.Machine.execReadCounts params s
  | .takeAsrun params => Sys2Proof.Machine.execTakeAsrun params s
  | .forceLost params => Sys2Proof.Machine.execForceLost params s
  | .unforce params => Sys2Proof.Machine.execUnforce params s
  | .inhibit params => Sys2Proof.Machine.execInhibit params s
  | .allow params => Sys2Proof.Machine.execAllow params s
  | .release params => Sys2Proof.Machine.execRelease params s
  | .go params => Sys2Proof.Machine.execGo params s
  | .clearOutlet params => Sys2Proof.Machine.execClearOutlet params s
  | .busRestart params => Sys2Proof.Machine.execBusRestart params s
  | .clockCycle => Sys2Proof.Machine.execClockCycle s
  | .busFree => Sys2Proof.Machine.execBusFree s

end Sys2Proof.Machine
end

