-- ==== Sys2Proof/Safety.lean ====
section
/-! DEFINITION. What counts as a safe state of the part, in the terms the claims use: the limits and agreements that the manual
says hold at all times. `State.Inv` gathers them. -/

namespace Sys2Proof.Machine

/-- STEP lies within the clamp range at all times (R7). -/
def State.StepInRange (s : State) : Prop := 21470541 ≤ s.tb.step ∧ s.tb.step ≤ 21479131

/-- The attention output is asserted exactly while a pending class is numbered below the floor (R186). -/
def State.AttentionRight (s : State) : Prop := s.attn = true ↔ ∃ i : Fin 12, s.notices[i].pending = true ∧ i.val < s.floor

/-- An outlet's air output is asserted exactly while the outlet is AIR (R153). -/
def State.AirRight (s : State) : Prop := ∀ o : OutletNo, (s.outlet o).air = true ↔ (s.outlet o).state = .air

/-- The transmit queue: at most 8 frames, in ascending order of arbitration field, no two of which would coalesce (R84). -/
def State.TransmitRight (s : State) : Prop :=
  s.bus.queue.length ≤ 8 ∧ s.bus.queue.Pairwise (fun f g => frameField f ≤ frameField g) ∧
    s.bus.queue.Pairwise (fun f g => coalesces f.body g.body = false)

/-- The send order lists each outlet whose head command is sendable once, and no other (R158). -/
def State.SendOrderRight (s : State) : Prop :=
  s.cue.sendOrder.Nodup ∧ ∀ o : OutletNo, o ∈ s.cue.sendOrder ↔ (s.outlet o).sendable = true

/-- An outlet holds at most 4 waiting commands and 4 awaiting PREPs, and its sequence is 0 to 3 (R156, R157, R160). -/
def State.OutletsBounded (s : State) : Prop :=
  ∀ o : OutletNo, (s.outlet o).queue.length ≤ 4 ∧ (s.outlet o).awaiting.length ≤ 4 ∧ (s.outlet o).seq < 4

/-- The ingest queue and the as-run queue keep to their depths (R18, R152). -/
def State.QueuesBounded (s : State) : Prop := s.feed.ingest.length ≤ 24 ∧ s.asrun.length ≤ 64

/-- The seven counts of R195 and the notice counts of R186 saturate. -/
def State.CountsSaturate (s : State) : Prop :=
  s.feed.faults ≤ 65535 ∧ s.feed.drops ≤ 65535 ∧ s.cue.late ≤ 65535 ∧ s.bus.drops ≤ 65535 ∧ s.bus.losses ≤ 65535 ∧
    s.bus.malformed ≤ 65535 ∧ s.asrunDrops ≤ 65535 ∧ ∀ i : Fin 12, s.notices[i].count ≤ 255

/-- The pool slots of a channel's records: its list, its incoming list and its unlinked records (R20). -/
def Chan.slots (ch : Chan) : List Nat := (ch.list ++ ch.incoming ++ ch.unlinked).map (·.slot)

/-- The slots of every record of the pool: the free ones, then those of every channel (R20). -/
def State.poolSlots (s : State) : List Nat := s.poolFree ++ s.chans.flatMap Chan.slots

/-- The pool always accounts for exactly 1536 records, each in one place (R20). -/
def State.PoolWhole (s : State) : Prop := s.poolSlots.Perm (List.range 1536)

/-- No two channel parts of the profile name one channel (R184). -/
def State.ChannelsDistinct (s : State) : Prop := (s.chans.map (fun ch => ch.part.channel)).Nodup

/-- A filling has received as many records as its next expected index, and expects at most 240; without one there is no
incoming list (R21, R23, R25). -/
def Chan.FillingRight (ch : Chan) : Prop :=
  match ch.mirror.filling with
  | none => ch.incoming = []
  | some f => ch.incoming.length = f.next ∧ f.expected ≤ 240

/-- A channel's lists hold at most 240 events each, no two of one list with the same id (R21). -/
structure Chan.ListsRight (ch : Chan) : Prop where
  listLength : ch.list.length ≤ 240
  incomingLength : ch.incoming.length ≤ 240
  listIds : (ch.list.map (·.data.id)).Nodup
  incomingIds : (ch.incoming.map (·.data.id)).Nodup
  filling : ch.FillingRight

/-- Every channel's lists are as R21 says. -/
def State.ListsRight (s : State) : Prop := ∀ ch ∈ s.chans, ch.ListsRight

/-- The takeover states in which a channel has an outlet (R110). -/
def TakeoverState.hasOutlet (st : TakeoverState) : Prop := st = .contending ∨ st = .joining ∨ st = .onAir ∨ st = .handingBack

/-- Outlets and channels agree (R110, R153): an outlet names a channel exactly in RESERVED and AIR, a channel names an outlet exactly
in CONTENDING and the holding states, each names the other, and the outlet is AIR exactly for a channel in ON_AIR or HANDING_BACK. -/
structure State.PlacesAgree (s : State) : Prop where
  serving : ∀ o : OutletNo, (s.outlet o).channel ≠ none ↔ (s.outlet o).state = .reserved ∨ (s.outlet o).state = .air
  served : ∀ (o : OutletNo) (c : Channel), (s.outlet o).channel = some c → ∃ ch, s.chan? c = some ch ∧ ch.tk.outlet = some o
  placed : ∀ ch ∈ s.chans, ch.tk.outlet ≠ none ↔ ch.tk.state.hasOutlet
  named : ∀ ch ∈ s.chans, ∀ o, ch.tk.outlet = some o → (s.outlet o).channel = some ch.part.channel ∧
    ((s.outlet o).state = .air ↔ ch.tk.state = .onAir ∨ ch.tk.state = .handingBack)

/-- A channel has a run record exactly while it holds, on the outlet its takeover record names (R137), and the handback fields exactly
in HANDING_BACK (R172, R176). -/
def Chan.RunRight (ch : Chan) : Prop :=
  (ch.run ≠ none ↔ ch.tk.state = .joining ∨ ch.tk.state = .onAir ∨ ch.tk.state = .handingBack) ∧
    (∀ r, ch.run = some r → ch.tk.outlet = some r.outlet) ∧ (ch.tk.handback ≠ none ↔ ch.tk.state = .handingBack)

/-- Every channel's run record is as R137 says. -/
def State.RunsRight (s : State) : Prop := ∀ ch ∈ s.chans, ch.RunRight

/-- Before START every channel is DETACHED (R101). -/
def State.DetachedBeforeStart (s : State) : Prop := s.locked = false → ∀ ch ∈ s.chans, ch.tk.state = .detached

/-- No report of an item's failure waits between two commands: reports are the model's own, made and acted on within one
command (log 14). -/
def State.ReportsSettled (s : State) : Prop := s.reports = []

/-- What the manual says holds at all times, and that no report of the model's own waits. -/
structure State.Inv (s : State) : Prop where
  stepInRange : s.StepInRange
  attention : s.AttentionRight
  air : s.AirRight
  transmit : s.TransmitRight
  sendOrder : s.SendOrderRight
  outlets : s.OutletsBounded
  queues : s.QueuesBounded
  counts : s.CountsSaturate
  channels : s.ChannelsDistinct
  lists : s.ListsRight
  pool : s.PoolWhole
  settled : s.ReportsSettled
  places : s.PlacesAgree
  runs : s.RunsRight
  beforeStart : s.DetachedBeforeStart

/-- A state from which the part never stops: every number of steps answers a next state. -/
def State.NeverStops (s : State) : Prop := ∀ n : Nat, ∃ t : State, Host.Core.run Sys2Proof.core n s = .next t

/-! ## What commands leave as it is -/

/-- A channel's records but for the fields that claiming changes: the takeover state, the own claim, its window, the yield
deadline and the outlet. -/
def Chan.besideClaim (ch : Chan) : Chan :=
  { ch with tk := { ch.tk with
      state := .idle, ownClaim := none, claimSent := false, windowEnd := none, yieldDl := none, outlet := none } }

/-- An outlet's record but for its reservation. -/
def Outlet.besideReservation (x : Outlet) : Outlet := { x with state := .free, channel := none }

/-- `t` differs from `s` in claims alone, as a takeover check, a pass, a re-keying or a yield leaves it: in the transmit queue,
the frame under attempt and the drop count, in the claim fields of channels that are not held, and in which outlets are FREE and
which RESERVED (R108 to R115). -/
structure State.ClaimsOnly (s t : State) : Prop where
  rest : t = { s with
    bus := { s.bus with queue := t.bus.queue, attempt := t.bus.attempt, drops := t.bus.drops }
    chans := t.chans, outlets := t.outlets }
  chans : t.chans.map Chan.besideClaim = s.chans.map Chan.besideClaim
  held : ∀ c ch, s.chan? c = some ch → ch.tk.state.holding = true ∨ ch.tk.state = .detached → t.chan? c = some ch
  outlets : ∀ o, (t.outlet o).besideReservation = (s.outlet o).besideReservation
  busy : ∀ o, (s.outlet o).state ≠ .free → (s.outlet o).state ≠ .reserved → t.outlet o = s.outlet o
  spare : ∀ o, (s.outlet o).state = .free ∨ (s.outlet o).state = .reserved →
    (t.outlet o).state = .free ∨ (t.outlet o).state = .reserved

/-- `t` agrees with `s` in everything that the takeover unit, the mirror, the runner and the outlet controller never change: the
time base, the profile, the feed receiver, the port, the floor, the commands that wait, and the bus controller and the cue link
but for their queues. -/
structure State.SameOutside (s t : State) : Prop where
  tb : t.tb = s.tb
  station : t.station = s.station
  locked : t.locked = s.locked
  floor : t.floor = s.floor
  port : t.port = s.port
  pending : t.pending = s.pending
  feed : t.feed = s.feed
  bus : { t.bus with queue := [], attempt := none, drops := 0 } = { s.bus with queue := [], attempt := none, drops := 0 }
  cue : { t.cue with sendOrder := [] } = { s.cue with sendOrder := [] }
  parts : t.chans.map (fun ch => (ch.part, ch.latestQueued)) = s.chans.map (fun ch => (ch.part, ch.latestQueued))

/-! ## Shapes that several statements share -/

/-- Every channel's watch record is as it was. -/
def State.SameWatches (s t : State) : Prop := t.chans.map (·.watch) = s.chans.map (·.watch)

/-- Every other channel's watch record is as it was. -/
def State.SameWatchesBut (c : Channel) (s t : State) : Prop :=
  ∀ d, d ≠ c → (t.chan? d).map (·.watch) = (s.chan? d).map (·.watch)

/-- The time base after a pulse that closes a measurement: stamped, both deadlines armed afresh, the next measurement open
(R4, R5, R10). -/
def State.pulsed (s : State) : TimeBase :=
  { s.tb with
    lastPulse := some s.tb.now
    missingDl := some (s.tb.now + BitVec.ofNat 48 (3 * Config.ratePeriod s.sp.rate / 2))
    silenceDl := some (s.tb.now + BitVec.ofNat 48 (4 * Config.ratePeriod s.sp.rate))
    measuring := true, cycles := 0, periods := 0 }

/-- The measurement that a pulse closes in `s` passes the acceptance test (R6). -/
def State.Accepted (s : State) : Prop :=
  5000 * ((s.tb.cycles : Int) - (51200 * Config.ratePeriod s.sp.rate : Nat)).natAbs ≤ 51200 * Config.ratePeriod s.sp.rate

/-- Every channel that was in CONTENDING has yielded, or contends with the merit that a time class gives it (R12, R113). -/
def State.RekeyedTo (s t : State) (timeClass : Nat) : Prop :=
  ∀ c ch m, s.chan? c = some ch → ch.tk.state = .contending → ch.mirror.condition.mirrorClass = some m →
    ∃ x, t.chan? c = some x ∧ (x.tk.state = .yielded ∨ (x.tk.state = .contending ∧
      x.tk.ownClaim = some ⟨BitVec.ofNat 8 (64 * m + 4 * ch.part.rank + timeClass), s.bus.own⟩))

/-- The oldest message has left the ingest queue. -/
def State.popped (s : State) (rest : List SchedMsg) : State := { s with feed := { s.feed with ingest := rest } }

/-- The filling of a channel is abandoned: its records freed, its fields absent (R25). -/
def State.abandoned (s : State) (c : Channel) (ch : Chan) : State :=
  State.modChan { s with poolFree := ch.incoming.map (·.slot) ++ s.poolFree } c (fun x =>
    { x with incoming := [], mirror := { x.mirror with filling := none } })

/-- The copy of a channel has a new condition, with MIRROR_STALE raised when it changed (R24). -/
def State.marked (s : State) (c : Channel) (ch : Chan) (new : Condition) : State :=
  if new = ch.mirror.condition then s
  else (s.modMirror c (fun m => { m with condition := new })).raise .mirrorStale c (.mirror new)

/-- What the feed stored in a list: the pool slots with their content, whatever resolution and pins made of them. -/
def storedIn (l : List EventRec) : List (Nat × EventData) := l.map (fun e => (e.slot, e.data))

/-- What the mirror holds for every channel is as it was, whatever pins and resolution make of it. -/
def State.SameMirror (s t : State) : Prop :=
  t.chans.map (fun ch => (ch.mirror, storedIn ch.list, ch.incoming)) =
    s.chans.map (fun ch => (ch.mirror, storedIn ch.list, ch.incoming))

/-- What serving drift checks and sweeps may do to what the mirror holds for a channel: a CURRENT copy may have become STALE, and
events may have left the list, each counted; the other events, the version and a filling stay (R24, R26, R38, R39). -/
structure Chan.Tended (a b : Chan) : Prop where
  same : b.mirror.version = a.mirror.version ∧ b.mirror.filling = a.mirror.filling ∧ b.mirror.rate = a.mirror.rate ∧
    b.incoming = a.incoming
  condition : b.mirror.condition = a.mirror.condition ∨ (a.mirror.condition = .current ∧ b.mirror.condition = .stale)
  list : (storedIn b.list).Sublist (storedIn a.list)
  reclaimed : (b.list.length = a.list.length ∧ b.mirror.reclaimed = a.mirror.reclaimed) ∨
    b.mirror.reclaimed = min 65535 (a.mirror.reclaimed + (a.list.length - b.list.length))

/-- Between `s` and `t` the mirror has at most served requests (R18), whatever pins and resolution make of its records. -/
def State.MirrorTended (s t : State) : Prop := ∀ c a, s.chan? c = some a → ∃ b, t.chan? c = some b ∧ a.Tended b

/-- CHANNEL_LOST has been raised for a channel with a cause, and its class alone is so known (R75, R186). -/
def State.LostNoticed (s t : State) (c : Channel) (cause : LostCause) : Prop :=
  t.notices[3] = { pending := true, count := min 255 (s.notices[3].count + 1), detail := some ⟨c, .channelLost cause⟩ }

/-- A command of the watch has left channel `c` the watch record `w`. Beside it only what a report to the takeover unit can reach
may have changed: every other watch record and everything outside those blocks is as it was, and so is every copy the mirror
holds, but for requests that it served before the runner of a handback asked it (R18). -/
def State.Watches (s t : State) (c : Channel) (w : WatchRec) : Prop :=
  (t.chan? c).map (·.watch) = some w ∧ State.SameWatchesBut c s t ∧ s.MirrorTended t ∧ s.SameOutside t

/-- A list in which an EDIT_PUT has put a record: at the head for anchor 0, else directly behind the anchor's event (R31). -/
def PlacedAfter (anchor : EventId) (before : List EventRec) : Prop :=
  (anchor = 0 ∧ before = []) ∨ ∃ e, before.getLast? = some e ∧ e.data.id = anchor

/-- The state in which a frame of another station has been heard: the receiver in HUNT with the end bit counted, the peer PRESENT
with its last frame time, its silence deadline three status periods ahead and a STATUS body stored, and the station in the
heard-set. -/
def State.heard (s : State) (f : Frame) : State :=
  let p : Peer :=
    { presence := .present, lastFrame := some s.tb.now
      silenceDl := some (s.tb.now + BitVec.ofNat 48 (3 * (s.sp.statusPeriod * 240)))
      status := match f.body with
        | .status b => some b
        | _ => (s.peer f.station).status }
  { s with bus := { s.bus with
      rx := .hunt, huntCount := 1, peers := s.bus.peers.set f.station.toNat p (by have := f.station.isLt; omega)
      heard := s.bus.heard ||| BitVec.ofNat 16 (2 ^ f.station.toNat) } }

/-- A recorded foreign claim counts against an own key: it is not past its expiry and its key is better (R111). -/
def State.Outbid (s : State) (best : Option ForeignClaim) (k : Key) : Prop :=
  ∃ f, best = some f ∧ 0 ≤ diff f.expiry s.tb.now ∧ Key.better f.key k = true

/-- The claim key of this station for a channel whose copy has mirror class `m` (R102, R103). -/
def State.keyFor (s : State) (ch : Chan) (m : Nat) : Key :=
  ⟨BitVec.ofNat 8 (64 * m + 4 * ch.part.rank + timeClassCode s.tb.state.timeClass), s.bus.own⟩

/-- A channel has left CONTENDING for `next`: its CLAIM is gone from the queue and withdrawn where it is under attempt, its reserved
outlet is FREE, and its claim fields are absent (R86, R110, R114, R115). -/
def State.leftContending (s : State) (c : Channel) (outlet : Option OutletNo) (next : TakeoverState) : State :=
  let w : State := { s with bus := { s.bus with
    queue := s.bus.queue.filter (fun f => f.body != .claim c)
    attempt := s.bus.attempt.map (fun a => { a with withdrawn := a.withdrawn || a.frame.body == .claim c }) } }
  let u := match outlet with
    | some o =>
      if (s.outlet o).state = OutletState.reserved then w.modOutlet o (fun x => { x with state := .free, channel := none }) else w
    | none => w
  u.modTk c (fun tk => { tk with state := next, outlet := none, ownClaim := none, claimSent := false, windowEnd := none })

/-- A channel has yielded to a better claim, with its yield deadline two claim windows ahead (R104, R114). -/
def State.yieldedToClaim (s : State) (c : Channel) (outlet : Option OutletNo) : State :=
  (s.leftContending c outlet .yielded).modTk c (fun tk =>
    { tk with yieldDl := some (s.tb.now + BitVec.ofNat 48 (2 * (s.sp.claimWindow * 240))) })

/-- One takeover check of channel `c` with the record `ch`, outside IDLE and BLOCKED without effect: the first outcome of R109
whose test holds, with the entry to CONTENDING (R108 to R111). `freed` says that the channel yielded at once and its outlet is
FREE again. -/
def State.CheckStep (s t : State) (c : Channel) (ch : Chan) (freed : Bool) : Prop :=
  let goes (next : TakeoverState) : Prop := t = s.modTk c (fun tk => { tk with state := next }) ∧ freed = false
  if ch.tk.state.checked = false then t = s ∧ freed = false
  else if ch.part.rank = 15 ∨ ch.watch.state ≠ .lost then goes .idle
  else if ch.tk.awaitLive = true then goes (.blocked .awaitLive)
  else if s.bus.state ≠ .active then goes .idle
  else if ch.tk.inhibit = true then goes (.blocked .inhibited)
  else if ch.tk.holder ≠ none then t = s.modTk c (fun tk => { tk with state := .yielded, yieldDl := none }) ∧ freed = false
  else (ch.mirror.condition = .empty → goes (.blocked .noMirror)) ∧
    ∀ m, ch.mirror.condition.mirrorClass = some m →
      ((∀ o, (s.outlet o).state ≠ .free) → goes (.blocked .noOutlet)) ∧
      ∀ o, (s.outlet o).state = .free → (∀ p, (s.outlet p).state = .free → o ≤ p) →
        let w := (s.modOutlet o (fun x => { x with state := .reserved, channel := some c })).modTk c (fun tk =>
          { tk with state := .contending, outlet := some o, ownClaim := some (s.keyFor ch m), claimSent := false
                    windowEnd := none })
        (s.Outbid ch.tk.best (s.keyFor ch m) → t = w.yieldedToClaim c (some o) ∧ freed = true) ∧
        (¬ s.Outbid ch.tk.best (s.keyFor ch m) →
          t = w.offerFrame ⟨(s.keyFor ch m).merit, s.bus.own, .claim c⟩ ∧ freed = false)

/-- One re-keying of channel `c` with the record `ch`, outside CONTENDING and without a change of its key without effect: it yields
to a better unexpired claim, or takes the new key, its claim-sent mark and window cleared, and offers the new CLAIM (R113). -/
def State.RekeyStep (s t : State) (c : Channel) (ch : Chan) (freed : Bool) : Prop :=
  if ch.tk.state ≠ .contending then t = s ∧ freed = false
  else (ch.mirror.condition = .empty → t = s ∧ freed = false) ∧
    ∀ m, ch.mirror.condition.mirrorClass = some m →
      (ch.tk.ownClaim = some (s.keyFor ch m) → t = s ∧ freed = false) ∧
      (ch.tk.ownClaim ≠ some (s.keyFor ch m) →
        (s.Outbid ch.tk.best (s.keyFor ch m) → t = s.yieldedToClaim c ch.tk.outlet ∧ freed = true) ∧
        (¬ s.Outbid ch.tk.best (s.keyFor ch m) →
          t = (s.modTk c (fun tk => { tk with ownClaim := some (s.keyFor ch m), claimSent := false, windowEnd := none })).offerFrame
            ⟨(s.keyFor ch m).merit, s.bus.own, .claim c⟩ ∧ freed = false))

/-- Channels taken one after another, each by a step that finds the outlets as the ones before it left them; `freed` says that one
of the steps freed an outlet. -/
def State.Through (step : State → State → Channel → Chan → Bool → Prop) : List Channel → State → State → Bool → Prop
  | [], s, t, freed => t = s ∧ freed = false
  | c :: rest, s, t, freed => ∃ (ch : Chan) (u : State) (f g : Bool), s.chan? c = some ch ∧ step s u c ch f ∧
      State.Through step rest u t g ∧ freed = (f || g)

/-- Every profiled channel taken once, in order of serving rank and then by channel number (R108). -/
def State.InRankOrder (step : State → State → Channel → Chan → Bool → Prop) (s t : State) (freed : Bool) : Prop :=
  ∃ order : List Chan, order.Perm s.chans ∧
    order.Pairwise (fun a b => a.part.rank < b.part.rank ∨
      (a.part.rank = b.part.rank ∧ a.part.channel.toNat ≤ b.part.channel.toNat)) ∧
    State.Through step (order.map (·.part.channel)) s t freed

/-- The bus has left ACTIVE for channel `c` with the record `ch`: a contending channel goes to IDLE, its CLAIM gone and its outlet
FREE again, as `freed` says, and any other stays (R110, R115). -/
def State.LeaveStep (s t : State) (c : Channel) (ch : Chan) (freed : Bool) : Prop :=
  if ch.tk.state = .contending then t = s.leftContending c ch.tk.outlet .idle ∧ freed = true else t = s ∧ freed = false

/-- At most `n` passes, each but the last having freed an outlet (R108). -/
def State.PassesIn : Nat → State → State → Prop
  | 0, s, t => t = s
  | n + 1, s, t => ∃ (u : State) (freed : Bool), s.InRankOrder State.CheckStep u freed ∧
      if freed = true then State.PassesIn n u t else t = u

/-- A pass has run, and after a pass that freed an outlet another (R108); each freeing leaves one channel fewer to check. -/
def State.Passed (s t : State) : Prop := State.PassesIn (s.chans.length + 1) s t

/-- One takeover check has run for channel `c`, and a pass where it freed an outlet (R108). -/
def State.CheckRun (s t : State) (c : Channel) (ch : Chan) : Prop :=
  ∃ (u : State) (freed : Bool), s.CheckStep u c ch freed ∧ if freed = true then u.Passed t else t = u

/-- The takeover check has run for channel `c`, whose record was `ch`: the first outcome of R109 whose test holds, with the
entry to CONTENDING of R110 and R111, claims alone changed, and the passes that the check starts run (R108). -/
structure State.Checked (s t : State) (c : Channel) (ch : Chan) : Prop where
  run : s.CheckRun t c ch
  claims : s.ClaimsOnly t
  outcome : ∃ x, t.chan? c = some x ∧
    (ch.part.rank = 15 ∨ ch.watch.state ≠ .lost → x.tk = { ch.tk with state := .idle }) ∧
    (ch.part.rank ≠ 15 → ch.watch.state = .lost →
      (ch.tk.awaitLive = true → x.tk = { ch.tk with state := .blocked .awaitLive }) ∧
      (ch.tk.awaitLive = false → s.bus.state ≠ .active → x.tk = { ch.tk with state := .idle }) ∧
      (ch.tk.awaitLive = false → s.bus.state = .active →
        (ch.tk.inhibit = true → x.tk = { ch.tk with state := .blocked .inhibited }) ∧
        (ch.tk.inhibit = false → ch.tk.holder ≠ none → x.tk = { ch.tk with state := .yielded, yieldDl := none }) ∧
        (ch.tk.inhibit = false → ch.tk.holder = none →
          (ch.mirror.condition = .empty → x.tk = { ch.tk with state := .blocked .noMirror }) ∧
          ∀ m, ch.mirror.condition.mirrorClass = some m →
            ((∀ o, (s.outlet o).state ≠ .free) → x.tk = { ch.tk with state := .blocked .noOutlet }) ∧
            ∀ o, (s.outlet o).state = .free → (∀ p, (s.outlet p).state = .free → o ≤ p) →
              (s.Outbid ch.tk.best (s.keyFor ch m) → x.tk = { ch.tk with
                state := .yielded, outlet := none, ownClaim := none, claimSent := false, windowEnd := none
                yieldDl := some (s.tb.now + BitVec.ofNat 48 (2 * (s.sp.claimWindow * 240))) }) ∧
              (¬ s.Outbid ch.tk.best (s.keyFor ch m) →
                x.tk = { ch.tk with
                  state := .contending, outlet := some o, ownClaim := some (s.keyFor ch m), claimSent := false
                  windowEnd := none } ∧
                t.outlet o = { s.outlet o with state := .reserved, channel := some c } ∧
                t.bus = (s.offerFrame ⟨(s.keyFor ch m).merit, s.bus.own, .claim c⟩).bus))))

/-- The known holder of channel `c`, whose record is now `ch`, is gone: YIELDED goes to IDLE and is checked, IDLE and BLOCKED are
checked, and other states stay (R106, R107, R117). -/
def State.HolderGone (s t : State) (c : Channel) (ch : Chan) : Prop :=
  (ch.tk.state = .yielded → (s.modTk c (fun tk => { tk with state := .idle, yieldDl := none })).Checked t c
    { ch with tk := { ch.tk with state := .idle, yieldDl := none } }) ∧
  (ch.tk.state.checked = true → s.Checked t c ch) ∧
  (ch.tk.state ≠ .yielded → ch.tk.state.checked = false → t = s)

/-- A change of time class has reached every CONTENDING channel, one by one in the order of R108, and one pass has run where one of
them yielded (R12, R113; log 47). -/
def State.Rekeyed (s t : State) : Prop :=
  ∃ (u : State) (freed : Bool), s.InRankOrder State.RekeyStep u freed ∧ if freed = true then u.Passed t else t = u

/-- The takeover unit has been told that the condition of channel `c`'s copy changed (R24): CONTENDING re-keys (R113), IDLE and
BLOCKED are checked (R108), and other states stay. -/
def State.ConditionTold (s t : State) (c : Channel) (ch : Chan) : Prop :=
  (ch.tk.state = .contending → ∃ (u : State) (freed : Bool), s.RekeyStep u c ch freed ∧
    if freed = true then u.Passed t else t = u) ∧
  (ch.tk.state ≠ .contending → s.CheckRun t c ch)

/-- The copy of channel `c`, whose record was `ch`, has been given a condition: a change marks it, raises MIRROR_STALE for STALE and
SHORT and is told to the takeover unit (R24). -/
def State.Conditioned (s t : State) (c : Channel) (ch : Chan) (new : Condition) : Prop :=
  if new = ch.mirror.condition then t = s
  else
    let u := s.modMirror c (fun m => { m with condition := new })
    (if new = .stale ∨ new = .short then u.raise .mirrorStale c (.mirror new) else u).ConditionTold t c
      { ch with mirror := { ch.mirror with condition := new } }

/-- The takeover unit has been told that channel `c`'s watch went from one state to another, `ch` being its record with the new
one, outside the cancel of a handback: the await-live mark clears outside LOST (R118); IDLE and BLOCKED are checked (R108);
CONTENDING and YIELDED are left for IDLE when the watch leaves LOST (R115, R117); every other state stays. -/
def State.WatchTold (s t : State) (c : Channel) (ch : Chan) (old new : WatchState) : Prop :=
  let u := if new = .lost then s else s.modTk c (fun tk => { tk with awaitLive := false })
  let now := if new = .lost then ch else { ch with tk := { ch.tk with awaitLive := false } }
  (ch.tk.state.checked = true → u.CheckRun t c now) ∧
  (ch.tk.state = .contending →
    (old = .lost → new ≠ .lost → (u.leftContending c ch.tk.outlet .idle).Passed t) ∧
    ((old ≠ .lost ∨ new = .lost) → t = u)) ∧
  (ch.tk.state = .yielded →
    (old = .lost → new ≠ .lost → t = u.modTk c (fun tk => { tk with state := .idle, yieldDl := none })) ∧
    ((old ≠ .lost ∨ new = .lost) → t = u)) ∧
  (ch.tk.state = .detached ∨ ch.tk.state = .joining ∨ ch.tk.state = .onAir ∨ (ch.tk.state = .handingBack ∧ new ≠ .lost) → t = u)

/-- A command of the watch has left channel `c`, whose record was `ch`, the watch record `w`: where the state is as it was nothing
else changes, and on a change an entry to LOST raises CHANNEL_LOST with `cause` and the takeover unit is told (R75). -/
def State.WatchMoved (s t : State) (c : Channel) (ch : Chan) (w : WatchRec) (cause : LostCause) : Prop :=
  let u := s.modWatch c (fun _ => w)
  if w.state = ch.watch.state then t = u
  else (if w.state = .lost then u.raise .channelLost c (.channelLost cause) else u).WatchTold t c { ch with watch := w }
    ch.watch.state w.state

/-- An outlet that a stop now has taken out of RESERVED or AIR: off air, its run's commands gone, an outstanding command other
than a STOP orphaned, and a STOP at once queued as the deciding STOP (R162, R168). -/
def Outlet.stoppedNow (x : Outlet) : Outlet :=
  { x with
    state := .stopping, channel := none, air := false, queue := [.stop 0 true], awaiting := []
    armed := some { at_ := 0, outcome := .pending }
    outstanding := x.outstanding.map (fun u => { u with cmd := u.cmd.undecide, orphaned := u.orphaned || !u.cmd.isStop }) }

/-- A notice class has been raised once: pending, counted, with its detail (R186). -/
def State.Noticed (s t : State) (i : Fin 12) (subject : Byte) (code : NoticeCode) : Prop :=
  t.notices[i] = { pending := true, count := min 255 (s.notices[i].count + 1), detail := some ⟨subject, code⟩ }

/-- An as-run record has been written, if there is one (R152): it joins the as-run queue, and the one that makes 48 records raises
ASRUN_WATERMARK; at 64 records it is dropped and counted. -/
def State.Records (s t : State) : Option AsRun → Prop
  | none => t.asrun = s.asrun ∧ t.asrunDrops = s.asrunDrops ∧ t.notices[(11 : Fin 12)] = s.notices[(11 : Fin 12)]
  | some a =>
    if 64 ≤ s.asrun.length then
      t.asrun = s.asrun ∧ t.asrunDrops = min 65535 (s.asrunDrops + 1) ∧ t.notices[(11 : Fin 12)] = s.notices[(11 : Fin 12)]
    else
      t.asrun = s.asrun ++ [a] ∧ t.asrunDrops = s.asrunDrops ∧
        (s.asrun.length = 47 → s.Noticed t 11 a.channel .asrunWatermark) ∧
        (s.asrun.length ≠ 47 → t.notices[(11 : Fin 12)] = s.notices[(11 : Fin 12)])

/-- The as-run record of the item on air, if any, has been written (R150 to R152). -/
def State.RecordsOnAir (s t : State) (ch : Chan) (stop : Time) (ending : Ending) : Prop :=
  s.Records t (ch.run.bind (fun r => r.onAir.map (fun it => asRunEnded ch r it stop ending)))

/-- The runner holds the record in the pool slot pinned for the item: it airs from that record (R35), or it is the filler of a join
result up to that event (R134; log 60). -/
def Item.Holds (it : Item) (slot : Nat) : Prop := (∃ id, it.source = .event slot id) ∨ (it.source = .filler ∧ it.upTo = some slot)

/-- The record in the pool slot is held for an item of the run (R37). -/
def RunRec.Names (r : RunRec) (slot : Nat) : Prop :=
  ∃ it, (r.onAir = some it ∨ r.cued = some it ∨ r.goItem = some it) ∧ it.Holds slot

/-- The item `gone`, if any, has left the run of a channel, whose record was `ch` and is now `x`, and `left` is the run without it
(R37): where no item of `left` holds its record, that record is unpinned, which clears its mark in the list, or, where it was
unlinked, puts it on the free list. Every other record stays, with its mark. -/
def State.Unpinned (s t : State) (ch x : Chan) (gone : Option Item) (left : RunRec) : Prop :=
  ((∀ it slot, gone = some it → it.Holds slot → left.Names slot) →
    x.list = ch.list ∧ x.unlinked = ch.unlinked ∧ t.poolFree = s.poolFree) ∧
  ∀ it slot, gone = some it → it.Holds slot → ¬ left.Names slot →
    ((∀ e ∈ ch.unlinked, e.slot ≠ slot) →
      x.list = ch.list.map (fun e => if e.slot = slot then { e with pinned := false } else e) ∧
      x.unlinked = ch.unlinked ∧ t.poolFree = s.poolFree) ∧
    ∀ p q e, ch.unlinked = p ++ e :: q → e.slot = slot → (∀ y ∈ p, y.slot ≠ slot) →
      x.list = ch.list ∧ x.unlinked = p ++ q ∧ t.poolFree = slot :: s.poolFree

/-- The run of a channel, whose record was `ch` and is now `x`, has been closed (R37, R41, R150): every record that an item of it
held is unpinned, the unlinked ones among them are on the free list, and the list is resolved again without the anchor where
the run had one. It speaks of a channel no two records of which share a pool slot. -/
def State.RunEnded (s t : State) (ch x : Chan) : Prop :=
  x.run = none ∧ (ch.run = none → x.list = ch.list ∧ x.unlinked = ch.unlinked ∧ t.poolFree = s.poolFree) ∧
  ∀ r, ch.run = some r → ((ch.list ++ ch.unlinked).map (·.slot)).Nodup →
    let slots := (r.onAir.toList ++ r.cued.toList ++ r.goItem.toList).filterMap (fun it => match it.source with
      | .event slot _ => some slot
      | .filler => it.upTo)
    let l := ch.list.map (fun e => if e.slot ∈ slots then { e with pinned := false } else e)
    (r.anchor = none → x.list = l) ∧ (r.anchor ≠ none → x.list = resolve ch.period none l) ∧
    x.unlinked = ch.unlinked.filter (fun e => decide (e.slot ∉ slots)) ∧
    t.poolFree.Perm ((ch.unlinked.filter (fun e => decide (e.slot ∈ slots))).map (·.slot) ++ s.poolFree)

/-- The join of channel `c`, whose record was `ch`, on outlet `o` has failed with `f`: the outlet FAULTED, the RELEASE offered,
JOIN_FAILED and CUE_FAULT raised, no as-run record, the run closed with its pins and its anchor, and the channel IDLE and then
checked (R123, R150, R164). -/
def State.JoinFailure (s t : State) (c : Channel) (ch : Chan) (o : OutletNo) (k : Key) (f : Failure) : Prop :=
  ∃ (v : State) (y : Chan), v.Checked t c y ∧ v.chan? c = some y ∧ y.run = none ∧
    y.tk = { ch.tk with state := .idle, outlet := none, ownHold := none, holdDl := none } ∧
    (v.outlet o).state = .faulted ∧ (v.outlet o).channel = none ∧ (v.outlet o).air = false ∧ (v.outlet o).queue = [] ∧
    (v.outlet o).awaiting = [] ∧ (v.outlet o).fault = some (.prep, f) ∧ (v.outlet o).seq = (s.outlet o).seq ∧
    (∀ p, p ≠ o → v.outlet p = s.outlet p) ∧ v.bus = (s.offerRelease c k .joinFailed).bus ∧
    s.Noticed v 1 c (.joinFailed o f) ∧ s.Noticed v 5 (BitVec.ofNat 8 o.val) (.cueFault .prep f) ∧ s.Records v none ∧
    s.RunEnded v ch y ∧ s.SameWatches v ∧ s.SameMirror v

/-! ## What the runner does -/

/-- A run with the manual hold, and the run mode that goes with it, of a choice or a join result (R147). One without a hold ends a wait
for GO, whatever stands behind it (log 64). -/
def RunRec.holding (r : RunRec) (hold : Option EventId) : RunRec :=
  { r with manualHold := hold, mode := if hold.isSome then .awaitingGo else .running }

/-- HANDING_BACK keeps an item from being made that would start at or after the run switch time (R173). -/
def Chan.Limited (ch : Chan) (start : Time) : Prop := ∃ h, ch.tk.handback = some h ∧ diff h.runSwitch start ≤ 0

/-- An item that a choice makes, from the start of its event or of filler (R140, R141). It carries no GO mark; GO alone gives it to the
item that it cues (log 65). -/
def chosenItem (source : ItemSource) (offset start : Time) (entry play : Nat) (cuedEnd : Option Time) (serial : Nat) : Item :=
  { source := source, upTo := none, mainStart := start, localStart := start + offset, entry := entry, skipped := 0, play := play
    cuedEnd := cuedEnd, locked := false, runStart := none, unconfirmed := false, nextCue := 0, byGo := false, serial := serial }

/-- The PREP of an item (R160): the record's material or the channel's filler, the entry, the local start, and the frames to play, 0
for open filler and for more than 2^24 - 1 frames. -/
def Chan.prepFor (ch : Chan) (it : Item) (join : Bool) : Prep :=
  { serial := it.serial, join := join, entry := it.entry, start := it.localStart
    material := match it.source with
      | .filler => ch.part.filler
      | .event slot _ => match (ch.list ++ ch.unlinked).find? (fun e => e.slot == slot) with
        | some e => e.data.material
        | none => ch.part.filler
    duration := if (it.source = .filler ∧ it.cuedEnd = none) ∨ 16777215 < it.play then 0 else it.play }

/-- The runner has made `it` the cued item of channel `c`, whose record was `ch` with the run `r`: its record pinned and its cue
moment armed, or, without a moment, locked at once, which makes an event the walk origin and puts its PREP at the tail of the
outlet's queue, before the side cues due by then (R35, R140, R142, R146). The lock keeps the origin it displaces (log 16). -/
def State.Cued (s t : State) (c : Channel) (ch : Chan) (r : RunRec) (it : Item) (moment : Option Time) : Prop :=
  ∃ (x : Chan) (it' : Item), t.chan? c = some x ∧ it' = { it with locked := moment.isNone, nextCue := it'.nextCue } ∧
    x.run = some { r with
      cued := some it', cueMoment := moment
      cuedOrigin := if moment = none then r.walkOrigin else r.cuedOrigin
      walkOrigin := match moment, it.source with
        | none, .event _ id => some id
        | _, _ => r.walkOrigin } ∧
    x.tk = ch.tk ∧ (∀ e ∈ x.list, it.Holds e.slot → e.pinned = true) ∧
    x.list = ch.list.map (fun e => match it.source with
      | .event slot _ => if e.slot = slot then { e with pinned := true } else e
      | .filler => if it.upTo = some e.slot then { e with pinned := true } else e) ∧
    x.unlinked = ch.unlinked ∧ t.poolFree = s.poolFree ∧
    (match moment with
      | none => (s.outlet r.outlet).queue ++ [.prep (ch.prepFor it false)] <+: (t.outlet r.outlet).queue
      | some _ => it'.nextCue = it.nextCue ∧ t.outlet r.outlet = s.outlet r.outlet) ∧
    (∀ p, p ≠ r.outlet → t.outlet p = s.outlet p) ∧ t.bus = s.bus ∧ s.Records t none ∧ t.mirrorReqs = s.mirrorReqs ∧
    s.SameOutside t ∧ s.SameWatches t ∧ s.SameMirror t

/-- A late cue: the join computation from now has replaced the choice. Open filler behind open filler on air leaves the cued item
absent, and the limit of HANDING_BACK holds (R136, R142, R173). -/
def State.LateCued (s t : State) (c : Channel) (ch : Chan) (r : RunRec) : Prop :=
  let j := join { time := s.tb.now, offset := r.offset, period := ch.period, lead := s.sp.cueLead * ch.period
                  minTail := ch.part.minTail } (r.walkStart ch.list)
  let behind := ∃ x h it, j = .fillerOpen x h ∧ r.onAir = some it ∧ it.source = .filler ∧ it.cuedEnd = none
  (behind → t = s.modRun c (fun r => r.holding j.hold)) ∧
  (¬ behind → (ch.Limited j.mainStart → t = s) ∧
    (¬ ch.Limited j.mainStart → s.Cued t c ch (r.holding j.hold) (j.item r.offset s.itemSerial) none))

/-- The runner has chosen for a channel without a cued item, from the end `stop`, `behind` saying that open filler is on air, behind
which no filler is chosen (R140, R141): the item chosen is not made past the limit of HANDING_BACK, is replaced by a late cue when it starts less than one cue lead ahead,
is locked at once when it starts exactly one cue lead ahead, and else waits for its cue moment (R142, R173). -/
def State.Chose (s t : State) (c : Channel) (ch : Chan) (r : RunRec) (stop : Time) (behind : Bool) : Prop :=
  let soon := s.tb.now - r.offset + BitVec.ofNat 48 (s.sp.cueLead * ch.period)
  let takes (it : Item) (hold : Option EventId) : Prop :=
    (ch.Limited it.mainStart → t = s) ∧
    (¬ ch.Limited it.mainStart →
      (diff it.mainStart soon < 0 → s.LateCued t c ch r) ∧
      (diff it.mainStart soon = 0 → s.Cued t c ch (r.holding hold) it none) ∧
      (0 < diff it.mainStart soon → s.Cued t c ch (r.holding hold) it
        (some (it.localStart - BitVec.ofNat 48 (s.sp.cueLead * ch.period)))))
  let event (e : EventRec) (start : Time) (n : Nat) : Item :=
    chosenItem (.event e.slot e.data.id) r.offset start e.data.entry.toNat n (e.times.map (·.effEnd)) s.itemSerial
  match choiceOf ch.period stop (r.walkStart ch.list), behind with
  | .late, _ => s.LateCued t c ch r
  | .event e start n, _ => takes (event e start n) none
  | .gapTo e start n, true => takes (event e start n) none
  | .gapTo _ start _, false =>
    takes (chosenItem .filler r.offset stop 0 (((start - stop).toNat + ch.period - 1) / ch.period) (some start) s.itemSerial) none
  | .fillerOpen hold, true => t = s.modRun c (fun r => r.holding hold)
  | .fillerOpen hold, false => takes (chosenItem .filler r.offset stop 0 0 none s.itemSerial) hold

/-- The runner has made its choice for a channel without a cued item: from `stop` where an end is named, else from the on-air end
as it stands or, behind open filler on air, from one cue lead ahead of now, and none without an item on air (R139 to R141, R145). -/
def State.ChoseNext (s t : State) (c : Channel) (ch : Chan) (r : RunRec) (stop : Option Time) : Prop :=
  (r.onAir = none → t = s) ∧ ∀ it, r.onAir = some it →
    (it.source = .filler → it.cuedEnd = none →
      s.Chose t c ch r (stop.getD (s.tb.now - r.offset + BitVec.ofNat 48 (s.sp.cueLead * ch.period))) true) ∧
    (it.source ≠ .filler ∨ it.cuedEnd ≠ none →
      (stop.or (ch.onAirEnd r it) = none → t = s) ∧ ∀ e, stop.or (ch.onAirEnd r it) = some e → s.Chose t c ch r e false)

/-- The cued item that is not locked, if any, is abandoned: the run's cue is empty, its moment disarmed and its record unpinned where
no other item of the run holds it, and what the mirror holds, the outlets and the bus stay (R37, R143, R150). -/
def State.CueDropped (s t : State) (c : Channel) (ch : Chan) (r : RunRec) : Prop :=
  ∃ x, t.chan? c = some x ∧ x.run = some { r with cued := none, cueMoment := none } ∧ x.tk = ch.tk ∧ x.part = ch.part ∧
    x.watch = ch.watch ∧ x.mirror = ch.mirror ∧
    x.list.map (fun e => (e.slot, e.data, e.times, e.eclipsed)) = ch.list.map (fun e => (e.slot, e.data, e.times, e.eclipsed)) ∧
    s.Unpinned t ch x r.cued { r with cued := none, cueMoment := none } ∧
    t.outlets = s.outlets ∧ t.bus = s.bus ∧ s.Records t none ∧ t.mirrorReqs = s.mirrorReqs ∧ t.itemSerial = s.itemSerial ∧
    s.SameOutside t ∧ s.SameMirror t

/-- The runner of channel `c`, whose record is `ch` with the run `r`, has been told that the channel list changed (R143, R147): a
manual hold whose event is gone ends the wait; a locked cued item stays; one not locked is chosen again, and stays as it was where
the same event is chosen at the same start; an absent one is chosen. -/
def State.ListTold (s t : State) (c : Channel) (ch : Chan) (r : RunRec) : Prop :=
  let lost := ∃ id, r.manualHold = some id ∧ ∀ e ∈ ch.list, e.data.id ≠ id
  ∃ w : State, (lost → w = s.modRun c (fun r => r.holding none)) ∧ (¬ lost → w = s) ∧
    ∃ q : RunRec, (lost → q = r.holding none) ∧ (¬ lost → q = r) ∧
      (r.cued = none → w.ChoseNext t c { ch with run := some q } q none) ∧
      ∀ it, r.cued = some it →
        (it.locked = true → t = w) ∧
        (it.locked = false → ∃ (v u : State) (y z : Chan), w.CueDropped v c { ch with run := some q } q ∧ v.chan? c = some y ∧
          v.ChoseNext u c y { q with cued := none, cueMoment := none } none ∧ u.chan? c = some z ∧
          let again := ∃ x, z.run.bind (·.cued) = some x ∧ it.source ≠ .filler ∧ x.source = it.source ∧ x.mainStart = it.mainStart
          (again → t = w) ∧ (¬ again → t = u))

/-- Channel `c` has the list `l`, resolved, and the version `v`, with `gone` unlinked and `free` the free list (R31, R33, R34). -/
def State.relisted (s : State) (c : Channel) (l : List EventRec) (v : Version) (gone : List EventRec) (free : List Nat) : State :=
  State.modChan { s with poolFree := free } c (fun y =>
    { y with
      list := resolve y.period (y.run.bind (·.anchor)) l
      unlinked := y.unlinked ++ gone
      mirror := { y.mirror with version := some v } })

/-- The outlet of a run takes a further command: it is neither STOPPING nor FAULTED and fewer than 4 commands wait (R157). -/
def State.Takes (s : State) (o : OutletNo) : Prop :=
  (s.outlet o).state ≠ .stopping ∧ (s.outlet o).state ≠ .faulted ∧ (s.outlet o).queue.length < 4

/-- The mirror has resolved a changed list, as `s` has it, and told the runner of channel `c`, if it runs on an outlet that takes a
command (R34, R143). -/
def State.ChangeTold (s t : State) (c : Channel) : Prop :=
  ∃ y, s.chan? c = some y ∧ (y.run = none → t = s) ∧ ∀ r, y.run = some r → s.Takes r.outlet → s.ListTold t c y r

/-- An edit has given channel `c` the list `l` and the version `v`: the whole state up to what the runner of a running channel does
when it is told, which keeps the stored content and the version where its outlet takes a command (R31, R33, R34). -/
def State.Relists (s t : State) (c : Channel) (ch : Chan) (rest : List SchedMsg) (l : List EventRec) (v : Version)
    (gone : List EventRec) (free : List Nat) : Prop :=
  let w := (s.popped rest).relisted c l v gone free
  w.ChangeTold t c ∧ (s.popped rest).SameOutside t ∧ s.SameWatches t ∧ w.MirrorTended t ∧
    ((∀ r, ch.run = some r → s.Takes r.outlet) → ∃ x, t.chan? c = some x ∧ storedIn x.list = storedIn l ∧
      x.mirror = { ch.mirror with version := some v } ∧ x.incoming = ch.incoming)

/-- How the item on air ended when the next one started (R151): FULL at or after its cued end, CUT before it, and for filler without
an end CUT when GO ended it. -/
def endedBy (old next : Item) (mainStop : Time) : Ending :=
  match old.cuedEnd with
  | some e => if diff mainStop e < 0 then .cut else .full
  | none => if next.byGo = true then .cut else .full

/-- The locked cued item `it` of channel `c` has started at local time `start` (R144): the as-run record of the item it ends, whose
record is unpinned, the items moved up, a sweep asked for, and, when no item is cued then, that sweep served and the choice made. A start report that
waited for the item moved up is not acted on here. -/
def State.MovedUp (s t : State) (c : Channel) (ch : Chan) (r : RunRec) (it : Item) (start : Time) (unconfirmed : Bool) : Prop :=
  let moved : RunRec :=
    { r with onAir := some { it with runStart := some start, unconfirmed := unconfirmed }, cued := r.goItem, goItem := none
             cueMoment := none, cuedOrigin := r.goOrigin }
  ∃ (u : State) (y : Chan), u.chan? c = some y ∧ y.run = some moved ∧ y.tk = ch.tk ∧ y.part = ch.part ∧ y.watch = ch.watch ∧
    y.list.map (fun e => (e.slot, e.data, e.times, e.eclipsed)) = ch.list.map (fun e => (e.slot, e.data, e.times, e.eclipsed)) ∧
    u.outlets = s.outlets ∧ u.bus = s.bus ∧ u.mirrorReqs = s.mirrorReqs ∧ s.SameOutside u ∧ s.SameWatches u ∧ s.SameMirror u ∧
    s.Records u (r.onAir.map (fun old => asRunEnded ch r old start (endedBy old it (start - r.offset)))) ∧
    s.Unpinned u ch y r.onAir moved ∧
    (r.goItem ≠ none → t = { u with mirrorReqs := s.mirrorReqs ++ [.sweep c] }) ∧
    (r.goItem = none → ∃ z, (State.serveAll { u with mirrorReqs := s.mirrorReqs ++ [.sweep c] }).chan? c = some z ∧
      z.run = some moved ∧ (State.serveAll { u with mirrorReqs := s.mirrorReqs ++ [.sweep c] }).ChoseNext t c z moved none)

/-- The PREP of the locked cued item `it` of channel `c` has failed (R145): a MISSED as-run record, its record unpinned; a go item moves up; else open
filler leaves the cue empty, other filler gives way to the choice from its end, and an event is replaced by filler, from its start
or one cue lead ahead, to its end, which is locked at once, or by a late cue when less than a period is left. An event without an
end gives way to open filler. -/
def State.ItemFailed (s t : State) (c : Channel) (ch : Chan) (r : RunRec) (it : Item) : Prop :=
  let next : RunRec := { r with cued := r.goItem, goItem := none, cueMoment := none, cuedOrigin := r.goOrigin }
  ∃ (u : State) (y : Chan), u.chan? c = some y ∧ y.run = some next ∧ y.tk = ch.tk ∧ y.part = ch.part ∧
    y.list.map (fun e => (e.slot, e.data, e.times, e.eclipsed)) = ch.list.map (fun e => (e.slot, e.data, e.times, e.eclipsed)) ∧
    u.outlets = s.outlets ∧ u.bus = s.bus ∧ u.mirrorReqs = s.mirrorReqs ∧ s.SameOutside u ∧ s.SameWatches u ∧ s.SameMirror u ∧
    s.Records u (some (asRunMissed ch r it)) ∧ s.Unpinned u ch y (some it) next ∧
    (r.goItem ≠ none → t = u) ∧
    (r.goItem = none →
      let soon := u.tb.now - r.offset + BitVec.ofNat 48 (u.sp.cueLead * ch.period)
      let at_ := if diff it.mainStart soon < 0 then soon else it.mainStart
      (it.source = .filler → it.cuedEnd = none → t = u) ∧
      (it.source ≠ .filler → it.cuedEnd = none → (ch.Limited at_ → t = u) ∧
        (¬ ch.Limited at_ → u.Cued t c y next (chosenItem .filler r.offset at_ 0 0 none u.itemSerial) none)) ∧
      ∀ e, it.cuedEnd = some e →
        (it.source = .filler → u.ChoseNext t c y next (some e)) ∧
        (it.source ≠ .filler → diff e at_ < ch.period → u.LateCued t c y next) ∧
        (it.source ≠ .filler → ch.period ≤ diff e at_ → (ch.Limited at_ → t = u) ∧
          (¬ ch.Limited at_ → u.Cued t c y next (chosenItem .filler r.offset at_ 0
            (((e - at_).toNat + ch.period - 1) / ch.period) (some e) u.itemSerial) none)))

/-! ## What resolution reads and a join walks -/

/-- An event whose own start rule gives it the start `t`: FIXED at `t`, or the anchored MANUAL event with the anchor's main start
(R43, R44, R46, R47). -/
def EventRec.FixedAt (anchor : Option Anchor) (e : EventRec) (t : Time) : Prop :=
  e.data.start = .fixed t ∨ (e.data.start = .manual ∧ ∃ a, anchor = some a ∧ a.id = e.data.id ∧ t = a.main)

/-- The walk of a join over the events `rest` gives `res` (R132, R133): past resolved, eclipsed events, open filler at the join time
at the list's end or at an event without times, whose id it holds for when it is MANUAL; else the next event, at its own start when
that lies less than a period ahead, or behind as many whole frames of filler as fit before it. A next event whose start reads as
before the join time is taken as lying ahead (log 53). -/
def JoinInput.Walked (i : JoinInput) (rest : List EventRec) (res : JoinResult) : Prop :=
  let passed (e : EventRec) : Prop := e.times ≠ none ∧ e.eclipsed = true
  ((∀ e ∈ rest, passed e) → res = .fillerOpen i.joinTime none) ∧
  ∀ (p q : List EventRec) (e : EventRec), rest = p ++ e :: q → (∀ x ∈ p, passed x) →
    (e.times = none → res = .fillerOpen i.joinTime (if e.data.start = .manual then some e.data.id else none)) ∧
    ∀ (x : Times) (n : Nat), e.times = some x → e.eclipsed = false → e.effFrames i.period = some n →
      let ahead := (x.nomStart - i.joinTime).toNat
      (ahead < i.period → res = .eventStart e x.nomStart n) ∧
      ∀ f : Nat, 0 < f → f * i.period ≤ ahead → ahead < (f + 1) * i.period →
        res = .fillerThen e (x.nomStart - BitVec.ofNat 48 (f * i.period)) x.nomStart f

/-! ## What a handback does -/

/-- The run of a channel has a locked item, not yet started, whose start lies before the run switch time, for which a stop request
waits (R174). -/
def Chan.StopHeld (ch : Chan) (h : Handback) : Prop :=
  ∃ r it, ch.run = some r ∧ (r.cued = some it ∨ r.goItem = some it) ∧ it.locked = true ∧ diff it.mainStart h.runSwitch < 0

/-- The stop request of the handback `h` of channel `c` has been made on outlet `o` (R162, R174): the armed stop takes the local
switch time, an outstanding STOP decides no more, and the STOP stands in the place of a queued one or at the queue's tail, or fails
MISSED at once where the queue is full and the outlet AIR. The handback's mark is set and its wait over. -/
def State.StopAsked (s t : State) (c : Channel) (o : OutletNo) (h : Handback) : Prop :=
  let asked (v : State) : State := v.modTk c (fun tk =>
    { tk with handback := tk.handback.map (fun h => { h with stopRequested := true, stopWaiting := false }) })
  let armed (outcome : StopOutcome) (x : Outlet) : Outlet :=
    { x with
      armed := some { at_ := h.localSwitch, outcome := outcome }
      outstanding := x.outstanding.map (fun u => { u with cmd := u.cmd.undecide }) }
  let stop : Cmd := .stop h.localSwitch true
  let q := (s.outlet o).queue
  (q.any Cmd.isStop = true → t = asked (s.modOutlet o (fun x =>
    { armed .pending x with queue := x.queue.map (fun cmd => if cmd.isStop then stop else cmd) }))) ∧
  (q.any Cmd.isStop = false → q.length < 4 → t = asked ((s.modOutlet o (fun x =>
    { armed .pending x with queue := x.queue ++ [stop] })).settleOrder o)) ∧
  (q.any Cmd.isStop = false → 4 ≤ q.length → (s.outlet o).state = .air →
    t = asked ((s.raise .cueFault (BitVec.ofNat 8 o.val) (.cueFault .stop .missed)).modOutlet o (armed (.failed .missed))))

/-- A stop request of channel `c` that waits has been looked at again, once an item has started, its start has lapsed or its PREP
has failed (R174): it is made when no locked item before the run switch time waits to start any more, and nothing else is done. -/
def State.StopRetried (s t : State) (c : Channel) : Prop :=
  ∀ ch, s.chan? c = some ch →
    let may (h : Handback) (o : OutletNo) : Prop :=
      ch.tk.handback = some h ∧ ch.tk.outlet = some o ∧ h.stopWaiting = true ∧ ¬ ch.StopHeld h
    (∀ h o, may h o → s.StopAsked t c o h) ∧ ((∀ h o, ¬ may h o) → t = s)

/-- An outlet whose armed stop has been withdrawn: its deciding STOP leaves the queue, and one that is outstanding decides no more
(R162). -/
def Outlet.stopWithdrawn (x : Outlet) : Outlet :=
  { x with
    armed := none, queue := x.queue.filter (fun cmd => !cmd.isDeciding)
    outstanding := x.outstanding.map (fun u => { u with cmd := u.cmd.undecide }) }

/-- The server may hold the armed stop: its STOP was sent, and did not fail by REFUSED or MISSED (R175, R176). -/
def Outlet.StopStands (x : Outlet) : Prop :=
  ∃ a, x.armed = some a ∧ (∀ cmd ∈ x.queue, cmd.isDeciding = false) ∧ (∀ why, a.outcome ≠ .failed (.refused why)) ∧
    a.outcome ≠ .failed .missed

/-- The walk origin once the item `gone`, if any, is abandoned whose lock displaced the origin `before`: that one where the origin
names its event, else as it was (log 16). -/
def originBack (gone : Option Item) (before origin : Option EventId) : Option EventId :=
  match gone.map Item.source with
  | some (.event _ id) => if origin = some id then before else origin
  | _ => origin

/-- A restore cue has been made on channel `c`, whose record was `ch` with the run `r`, for an old local switch time and run switch
time (R177): the go item and the cued item are abandoned where they are locked and start at or after it, and unpinned, with a walk
origin that named one of them back at the one its lock displaced; a cued item not locked gives way too. The join result of the old
switch time is then cued and locked at once. Its search is the walk of the next choice, with the event on air ahead of it (log 16). -/
def State.Restored (s t : State) (c : Channel) (ch : Chan) (r : RunRec) (oldLocal oldRun : Time) : Prop :=
  let after (it : Item) : Bool := it.locked && decide (diff oldRun it.mainStart ≤ 0)
  let go := r.goItem.filter after
  let cue := r.cued.filter (fun it => !it.locked || after it)
  let r1 : RunRec := if go = none then r else { r with goItem := none, goReport := none }
  let r2 : RunRec := if cue = none then r1 else { r1 with cued := none, cueMoment := none }
  let q : RunRec := { r2 with
    walkOrigin := originBack (r.cued.filter after) r.cuedOrigin (originBack go r.goOrigin r.walkOrigin) }
  ∃ (v w : State) (z y : Chan), s.Unpinned v ch z go r1 ∧ v.Unpinned w z y cue r2 ∧ w.chan? c = some y ∧ y.run = some q ∧
    y.list.map (fun e => (e.slot, e.data, e.times, e.eclipsed)) = ch.list.map (fun e => (e.slot, e.data, e.times, e.eclipsed)) ∧
    y.tk = ch.tk ∧ y.part = ch.part ∧ y.watch = ch.watch ∧ y.mirror = ch.mirror ∧
    w.outlets = s.outlets ∧ w.bus = s.bus ∧ s.Records w none ∧ w.mirrorReqs = s.mirrorReqs ∧ w.itemSerial = s.itemSerial ∧
    s.SameOutside w ∧ s.SameWatches w ∧ s.SameMirror w ∧
    let next := q.walkStart y.list
    let from_ := match r.onAir.map Item.source with
      | some (.event _ id) =>
        if next.any (fun e => e.data.id == id) then next else y.list.filter (fun e => e.data.id == id) ++ next
      | _ => next
    let lead := s.sp.cueLead * ch.period
    let j := join { time := oldLocal - BitVec.ofNat 48 lead, offset := r.offset, period := ch.period, lead := lead
                    minTail := ch.part.minTail } from_
    w.Cued t c y (q.holding j.hold) (j.item r.offset s.itemSerial) none

/-- The stop of a handback on outlet `o` has been withdrawn, with a restore cue where the server may hold it (R175, R176). -/
def State.StopUndone (s t : State) (c : Channel) (ch : Chan) (r : RunRec) (o : OutletNo) (h : Handback) : Prop :=
  let w := (s.modOutlet o Outlet.stopWithdrawn).settleOrder o
  ((s.outlet o).StopStands → w.Restored t c ch r h.localSwitch h.runSwitch) ∧ (¬ (s.outlet o).StopStands → t = w)

/-- A chosen item of channel `c` that is not locked and starts at or after the run switch time has been abandoned (R150, R173). -/
def State.CueLimited (s t : State) (c : Channel) : Prop :=
  ∃ (y : Chan) (q : RunRec), s.chan? c = some y ∧ y.run = some q ∧
    let late := ∃ it, q.cued = some it ∧ it.locked = false ∧ y.Limited it.mainStart
    (late → s.CueDropped t c y q) ∧ (¬ late → t = s)

/-- The runner of channel `c` has chosen where nothing is cued (R139 to R141). -/
def State.ChoseIfNone (s t : State) (c : Channel) : Prop :=
  ∃ (y : Chan) (q : RunRec), s.chan? c = some y ∧ y.run = some q ∧
    (q.cued = none → s.ChoseNext t c y q none) ∧ (q.cued ≠ none → t = s)

/-- A HOLD in a takeover state has been offered for channel `c`, with the hold deadline armed one hold period from now (R119). -/
def State.held (s : State) (c : Channel) (ch : Chan) (k : Key) (hs : HoldState) : State :=
  (s.offerFrame ⟨k.merit, s.bus.own, .hold c hs (ch.mirror.version.getD 0) ch.currentEvent⟩).modTk c (fun tk =>
    { tk with holdDl := some (s.tb.now + BitVec.ofNat 48 (s.sp.holdPeriod * 240)) })

/-- Channel `c` has entered HANDING_BACK with `h`: a HOLD offered, and a choice past the run switch time abandoned (R172). -/
def State.HandbackEntered (s t : State) (c : Channel) (ch : Chan) (k : Key) (h : Handback) : Prop :=
  ((s.modTk c (fun tk => { tk with state := .handingBack, handback := some h })).held c ch k .handingBack).CueLimited t c

/-- The handback fields for a switch time (R172, R179): the stop point lies one cue lead before it, or now if that has passed. -/
def State.handbackTo (s : State) (ch : Chan) (r : RunRec) (switch localSwitch : Time) (forced : Bool) : Handback :=
  let point := localSwitch - BitVec.ofNat 48 (s.sp.cueLead * ch.period)
  { switch := switch, localSwitch := localSwitch, runSwitch := localSwitch - r.offset, forced := forced
    stopPoint := some (if diff point s.tb.now ≤ 0 then s.tb.now else point)
    stopRequested := false, stopWaiting := false, switchDl := some localSwitch }

/-- A new switch time has replaced the handback `h` of channel `c` on outlet `o` (R175): a stop requested for an earlier time is
withdrawn, with a restore cue where the server may hold it, and one requested for a later or equal time stands requested; a choice
past the new run switch time is abandoned, and after a later one the runner chooses where nothing is cued. -/
def State.HandbackReplaced (s t : State) (c : Channel) (ch : Chan) (r : RunRec) (o : OutletNo) (h fresh : Handback) : Prop :=
  let later := diff h.localSwitch fresh.localSwitch < 0
  let a := s.modTk c (fun tk =>
    { tk with handback := some { fresh with stopRequested := h.stopRequested && !decide later } })
  ∃ v w : State,
    (h.stopRequested = true → later →
      a.StopUndone v c { ch with tk := { ch.tk with handback := some { fresh with stopRequested := false } } } r o h) ∧
    (h.stopRequested = false ∨ ¬ later → v = a) ∧ v.CueLimited w c ∧
    (later → w.ChoseIfNone t c) ∧ (¬ later → t = w)

/-- The unforced handback `h` of channel `c` on outlet `o` has been cancelled (R176): its stop withdrawn, with a restore cue where the
server may hold it, the channel ON_AIR with a HOLD offered, and the choice made where nothing is cued. -/
def State.HandbackCancelled (s t : State) (c : Channel) (ch : Chan) (r : RunRec) (o : OutletNo) (h : Handback) (k : Key) : Prop :=
  ∃ v : State, s.StopUndone v c ch r o h ∧
    ((v.modTk c (fun tk => { tk with state := .onAir, handback := none })).held c ch k .onAir).ChoseIfNone t c

/-! ## What the reads send -/

/-- Bytes spelled by fields of a width in bytes and a value, each most significant byte first (section 11.1). -/
def spelled (fields : List (Nat × Nat)) : List Byte :=
  fields.flatMap (fun f => (List.range f.1).map (fun i => BitVec.ofNat 8 (f.2 / 256 ^ (f.1 - 1 - i))))

/-- A field that may be absent: a presence byte, then its value where there is one (section 11.1). -/
def presented : Option (List (Nat × Nat)) → List (Nat × Nat)
  | none => [(1, 0)]
  | some l => (1, 1) :: l

/-- A mark: 0 clear, 1 set (section 11.1). -/
def marked01 (b : Bool) : Nat × Nat := (1, if b = true then 1 else 0)

/-- A named value: its place, counting from 1, in the list of values its table gives (section 11.1). -/
def placed {α : Type} [DecidableEq α] (values : List α) (a : α) : Nat × Nat := (1, 1 + values.findIdx (fun b => decide (b = a)))

/-- A key: merit, then station. -/
def Key.fields (k : Key) : List (Nat × Nat) := [(1, k.merit.toNat), (1, k.station.toNat)]

/-- A time class by its code (section 5.2). -/
def timeClassField : TimeClass → Nat × Nat
  | .locked => (1, 0)
  | .holdover => (1, 1)
  | .seeking => (1, 2)

/-- The event record of the feed: 1 FIXED with its start, 2 FOLLOW, 3 MANUAL (section 3.1). -/
def eventFields (e : EventData) : List (Nat × Nat) :=
  [(4, e.id.toNat)] ++
    (match e.start with
      | .fixed t => [(1, 1), (6, t.toNat)]
      | .follow => [(1, 2)]
      | .manual => [(1, 3)]) ++
    [(3, e.duration.toNat), (16, e.material.toNat), (3, e.entry.toNat), (1, e.flags.toNat), (1, e.cues.length)] ++
    e.cues.flatMap (fun c => [(3, c.offset.toNat), (2, c.code.toNat)])

/-- An event with its derived fields (R42, R191). -/
def EventRec.fields (e : EventRec) : List (Nat × Nat) :=
  eventFields e.data ++ presented (e.times.map (fun t => [(6, t.nomStart.toNat)])) ++
    presented (e.times.map (fun t => [(6, t.nomEnd.toNat)])) ++ presented (e.times.map (fun t => [(6, t.effEnd.toNat)])) ++
    [marked01 e.eclipsed, marked01 e.pinned]

/-- The watch fields (R76). -/
def WatchRec.fields (w : WatchRec) : List (Nat × Nat) :=
  [placed [.unseen, .live, .doubtful, .lost, .returning] w.state, marked01 w.forced, (1, w.returns), (1, w.windowCount)] ++
    presented (w.lastArrival.map (fun t => [(6, t.toNat)])) ++ [(6, w.estimate.toNat), marked01 w.seeded] ++
    presented (w.peak.map (fun t => [(6, t.toNat)])) ++ presented (w.valley.map (fun t => [(6, t.toNat)])) ++
    presented (w.lastMain.map (fun m => [placed [.running, .standingDown, .resumeOffer] m])) ++
    presented (w.lastOnAir.map (fun e => [(4, e.toNat)])) ++ presented (w.lastSwitch.map (fun t => [(6, t.toNat)]))

/-- A takeover state, with the blocked reason present in BLOCKED alone (R101). -/
def TakeoverState.fields : TakeoverState → List (Nat × Nat)
  | .blocked r => [(1, 3), (1, 1), placed [.noOutlet, .inhibited, .noMirror, .awaitLive] r]
  | st => [placed [.detached, .idle, .blocked .noOutlet, .contending, .yielded, .joining, .onAir, .handingBack] st, (1, 0)]

/-- The takeover fields with the handback fields (R101, R190). -/
def TakeoverRec.fields (tk : TakeoverRec) : List (Nat × Nat) :=
  tk.state.fields ++
    presented (tk.ownClaim.map Key.fields) ++
    presented (tk.best.map (fun f => [(1, f.key.station.toNat)] ++ f.key.fields ++ [(6, f.heard.toNat), (6, f.expiry.toNat)])) ++
    presented (tk.holder.map (fun h => [(1, h.key.station.toNat)] ++ h.key.fields ++
      [placed [.joining, .onAir, .handingBack] h.state, (2, h.version.toNat), (4, h.event.toNat), (6, h.lastHold.toNat),
        (6, h.deadline.toNat)])) ++
    presented (tk.ownHold.map Key.fields) ++ presented (tk.outlet.map (fun o => [(1, o.val)])) ++
    [marked01 tk.claimSent, marked01 tk.inhibit, marked01 tk.awaitLive] ++
    presented (tk.handback.map (fun h => [(6, h.switch.toNat)])) ++
    presented (tk.handback.map (fun h => [(6, h.localSwitch.toNat)])) ++ [marked01 (tk.handback.any (·.forced))]

/-- An item of the run summary: 1 an event, with its id, or 2 filler; its starts and its lock (R149). -/
def Item.fields (it : Item) : List (Nat × Nat) :=
  (match it.source with
    | .event _ id => [(1, 1), (1, 1), (4, id.toNat)]
    | .filler => [(1, 2), (1, 0)]) ++ [(6, it.mainStart.toNat), (6, it.localStart.toNat), marked01 it.locked]

/-- The run summary (R149). -/
def RunRec.fields (r : RunRec) : List (Nat × Nat) :=
  [placed [.running, .awaitingGo] r.mode] ++ presented (r.manualHold.map (fun e => [(4, e.toNat)])) ++
    presented (r.onAir.map Item.fields) ++ presented (r.cued.map Item.fields) ++
    presented (r.anchor.map (fun a => [(4, a.id.toNat), (6, a.main.toNat)]))

/-- The data of READ_CHANNEL (R190). -/
def Chan.fields (ch : Chan) : List (Nat × Nat) :=
  ch.watch.fields ++
    ([placed [.empty, .current, .stale, .short] ch.mirror.condition] ++
      presented (ch.mirror.version.map (fun v => [(2, v.toNat)])) ++
      [marked01 ch.mirror.filling.isSome, (1, ch.list.length), (2, ch.mirror.reclaimed)]) ++
    ch.tk.fields ++ presented (ch.run.map RunRec.fields)

/-- A peer entry (R192). -/
def Peer.fields (p : Peer) : List (Nat × Nat) :=
  [placed [.absent, .present, .silent] p.presence] ++ presented (p.lastFrame.map (fun t => [(6, t.toNat)])) ++
    presented (p.status.map (fun b =>
      [(1, if b.active = true then 2 else 1), (1, b.freeOutlets), timeClassField b.timeClass, (1, b.held), (8, b.serve.toNat)]))

/-- A kind of command by its code. -/
def CmdKind.field (k : CmdKind) : Nat × Nat := placed [.prep, .side, .stop] k

/-- An outlet record (R153, R194), the awaiting list behind its length, which is the model's choice (log 17). -/
def Outlet.fields (x : Outlet) : List (Nat × Nat) :=
  [placed [.free, .reserved, .air, .stopping, .faulted] x.state] ++ presented (x.channel.map (fun c => [(1, c.toNat)])) ++
    [marked01 x.air, (1, x.queue.length)] ++
    presented (x.outstanding.map (fun u => [(match u.cmd with
      | .prep _ => CmdKind.prep.field
      | .side .. => CmdKind.side.field
      | .stop .. => CmdKind.stop.field), (1, u.tag)])) ++
    [(1, x.awaiting.length)] ++ x.awaiting.flatMap (fun a => [(1, a.tag), (6, a.prep.start.toNat)]) ++
    presented (x.armed.map (fun a => [(6, a.at_.toNat), (1, match a.outcome with
      | .pending => 1
      | .taken => 2
      | .failed _ => 3)])) ++
    presented (x.fault.map (fun f => [f.1.field, (1, match f.2 with
      | .refused _ => 1
      | .lapsed => 2
      | .missed => 3
      | .startLapse => 4)]))

/-- The 28 bytes of an as-run record (R196); what the frames played carry for a count of 2^32 or more is open (log 29). -/
def AsRun.fields (a : AsRun) : List (Nat × Nat) :=
  [(1, a.channel.toNat), (1, a.outlet.val), (1, if a.event.isSome then 1 else 2), (4, (a.event.getD 0).toNat),
    (6, a.runStart.toNat), (6, a.mainStart.toNat), (3, a.skipped),
    (4, if a.played < 2 ^ 32 then a.played else Config.framesPlayedWide a.played),
    placed [.full, .cut, .missed, .stoodDown, .handedBack, .forced] a.ending, marked01 a.unconfirmed]

end Sys2Proof.Machine
end

