-- ==== Sys2Proof/WellFormed.lean ====
section
/-! DEFINITION. Which operands a command can carry: the ranges and lengths that its layout gives its fields. The meanings judge
the fields again where the manual has the part judge them, so an ill-formed command is discarded, counted or refused there. -/

namespace Sys2Proof

/-- A feed channel number that a profile can hold, 1 to 64. -/
def channelOk (c : Channel) : Bool := decide (1 ≤ c.toNat ∧ c.toNat ≤ 64)

/-- A merit that a CLAIM, HOLD or RELEASE can carry, 4 to 186 (R81). -/
def meritOk (m : Byte) : Bool := decide (4 ≤ m.toNat ∧ m.toNat ≤ 186)

/-- An event record has at most 4 side cues (section 2.2). -/
def eventOk (e : EventData) : Bool := decide (e.cues.length ≤ 4)

/-- A schedule message's fields lie within their layout (section 2.2). -/
def schedOk : SchedBody → Bool
  | .snapOpen _ _ => true
  | .snapEvent _ _ e => eventOk e
  | .snapClose _ _ => true
  | .editPut _ _ _ e => eventOk e
  | .editDrop _ _ _ => true

/-- A STATUS body's counts are at most 4 (section 5.2). -/
def statusOk (b : StatusBody) : Bool := decide (b.freeOutlets ≤ 4 ∧ b.held ≤ 4)

/-- A frame's fields lie within the ranges of R81. -/
def frameOk (f : Frame) : Bool :=
  match f.body with
  | .claim c => meritOk f.merit && channelOk c
  | .hold c _ _ _ => meritOk f.merit && channelOk c
  | .release c _ => meritOk f.merit && channelOk c
  | .status b => (f.merit == 0) && statusOk b

/-- A tag names one of four outlets (section 9.2). -/
def tagOk (tag : Byte) : Bool := decide (tag.toNat ≤ 15)

/-- Local-port parameters fit a command frame (section 11.1). -/
def paramsOk (l : List Byte) : Bool := decide (l.length ≤ 250)

/-- A command is well formed. -/
def Instr.wf : Instr → Bool
  | .pinReset => true
  | .referencePulse => true
  | .missingPulse => true
  | .referenceSilence => true
  | .feedIdleGap _ => true
  | .feedLengthAbandon => true
  | .feedMessageDiscard _ _ body _ => decide (body.length ≤ 63)
  | .beacon b => channelOk b.channel
  | .driftCheck => true
  | .reclaimSweep => true
  | .scheduleMessage m => channelOk m.channel && schedOk m.body
  | .snapOpen => true
  | .snapEvent => true
  | .snapClose => true
  | .editPut => true
  | .editDrop => true
  | .doubtfulDeadline c => channelOk c
  | .lostDeadline c => channelOk c
  | .returnDeadline c => channelOk c
  | .windowEnd c => channelOk c
  | .busHeaderMalformed => true
  | .malformedFrame raw => decide (raw.body.length ≤ 12)
  | .clashFrame f => frameOk f
  | .claimFrame m _ c => meritOk m && channelOk c
  | .holdFrame m _ c _ _ _ => meritOk m && channelOk c
  | .releaseFrame m _ c _ => meritOk m && channelOk c
  | .statusFrame _ b => statusOk b
  | .attempt => true
  | .arbitrationLoss => true
  | .bitFault => true
  | .sentWhole => true
  | .quietDeadline => true
  | .listeningInDeadline => true
  | .statusDeadline => true
  | .peerSilenceDeadline _ => true
  | .foreignClaimExpiry c => channelOk c
  | .holderDeadline c => channelOk c
  | .yieldDeadline c => channelOk c
  | .claimWindowEnd c => channelOk c
  | .holdDeadline c => channelOk c
  | .cueMoment c => channelOk c
  | .sideCueTime c => channelOk c
  | .commandSend _ => true
  | .queuedCommandMissed _ => true
  | .replyDeadline _ => true
  | .startDeadline _ => true
  | .armedStopTime _ => true
  | .cueIdleGap _ => true
  | .cueLengthAbandon => true
  | .cueMessageDiscard _ _ body _ => decide (body.length ≤ 7)
  | .taken tag => tagOk tag
  | .refused tag _ => tagOk tag
  | .started tag outlet _ => tagOk tag && decide (outlet.toNat = tag.toNat / 4)
  | .stopPoint c => channelOk c
  | .switchDeadline c => channelOk c
  | .replyFetch => true
  | .truncatedCommand => true
  | .overlongCommand => true
  | .unknownCommand _ params _ => paramsOk params
  | .loadStation params => paramsOk params
  | .addChannel params => paramsOk params
  | .start params => paramsOk params
  | .readNotice params => paramsOk params
  | .clearNotice params => paramsOk params
  | .setFloor params => paramsOk params
  | .readChannel params => paramsOk params
  | .readEvent params => paramsOk params
  | .readPeers params => paramsOk params
  | .readTime params => paramsOk params
  | .readOutlets params => paramsOk params
  | .readCounts params => paramsOk params
  | .takeAsrun params => paramsOk params
  | .forceLost params => paramsOk params
  | .unforce params => paramsOk params
  | .inhibit params => paramsOk params
  | .allow params => paramsOk params
  | .release params => paramsOk params
  | .go params => paramsOk params
  | .clearOutlet params => paramsOk params
  | .busRestart params => paramsOk params
  | .clockCycle => true
  | .busFree => true

end Sys2Proof
end

