-- ==== Sys2Proof/Certificates/Slice0/Obligations.lean ====
section
/-! DEFINITION. The statements about the T240, in the order of OBLIGATIONS.json. `exec` runs a command on everything but the queue
of commands that wait; a statement about a command gives the next state, or what the next state holds and what it leaves as it
was. -/

open Sys2Proof Sys2Proof.Machine

/-! ## The whole part -/

/-- A step runs the command at the front of the queue, on the state with the queue's rest. -/
def Obligations.StepRunsFrontCommand : Prop :=
  ∀ (c : Instr) (rest : List Instr) (s : State), step { s with pending := c :: rest } = exec c { s with pending := rest }

/-- Pin reset leaves every block as its reset rule says (R13, R40, R77, R100, R101, R152, R170, R205), whatever went before, with no
deadline of the time base, the bus controller or a peer armed, and the bus receiver taking no bits. The own station number, the HUNT bit count, what the outputs carry,
the idle cue link and the commands that wait are the model's choice (logs 1, 9, 24). -/
def Obligations.PinResetLeaves : Prop :=
  ∀ s : State, ∃ t : State, exec .pinReset s = .next t ∧
    (t.tb.now = 0 ∧ t.tb.acc = 0 ∧ t.tb.step = 21474836 ∧ t.tb.state = .freeRun ∧ t.tb.measuring = false ∧ t.tb.cycles = 0 ∧
      t.tb.periods = 0 ∧ t.tb.lastPulse = none ∧ t.tb.suspectRun = 0 ∧ t.tb.missingDl = none ∧ t.tb.silenceDl = none) ∧
    (t.feed.framing = .hunt ∧ t.feed.ingest = [] ∧ t.feed.faults = 0 ∧ t.feed.drops = 0 ∧ t.poolFree = List.range 1536 ∧
      t.mirrorReqs = []) ∧
    (t.station = none ∧ t.locked = false ∧ t.chans = []) ∧
    (t.bus.state = .detached ∧ t.bus.own = 0 ∧ t.bus.rx = .off ∧ t.bus.huntCount = 0 ∧ t.bus.driving = [] ∧ t.bus.queue = [] ∧
      t.bus.attempt = none ∧ t.bus.drops = 0 ∧ t.bus.losses = 0 ∧ t.bus.malformed = 0 ∧ t.bus.faults = 0 ∧ t.bus.heard = 0 ∧
      t.bus.listeningDl = none ∧ t.bus.quietDl = none ∧ t.bus.quietFromListening = false ∧ t.bus.statusDl = none ∧
      ∀ st : Station, t.peer st = { presence := .absent, lastFrame := none, silenceDl := none, status := none }) ∧
    (∀ o : OutletNo, (t.outlet o).state = .free ∧ (t.outlet o).channel = none ∧ (t.outlet o).air = false ∧
      (t.outlet o).queue = [] ∧ (t.outlet o).outstanding = none ∧ (t.outlet o).awaiting = [] ∧ (t.outlet o).seq = 0 ∧
      (t.outlet o).armed = none ∧ (t.outlet o).fault = none) ∧
    (t.cue = { framing := .hunt, sendOrder := [], lastSent := none, late := 0, cqo := [] } ∧ t.asrun = [] ∧ t.asrunDrops = 0) ∧
    (∀ i : Fin 12, t.notices[i] = { pending := false, count := 0, detail := none }) ∧
    (t.floor = 12 ∧ t.attn = false ∧ t.port = { reply := none, lsdo := [] }) ∧ t.pending = s.pending

/-- The state after reset meets the invariant. -/
def Obligations.ResetHoldsInvariant : Prop := State.reset.Inv

/-- Every step from a state that meets the invariant leaves a state that meets it: STEP in its range (R7), attention and air
outputs as R186 and R153 say, the transmit queue ordered, coalesced and within 8 (R84), the send order as R158 says, every queue,
list and count within its bound (R18, R21, R152, R157, R160, R195), the profile's channels distinct (R184), all 1536 pool records each
in one place (R20), outlets and channels naming each other exactly in RESERVED and AIR and in CONTENDING and the holding states, an
outlet being AIR exactly for a channel in ON_AIR or HANDING_BACK (R110, R153), a run record exactly while a channel holds, on its
outlet (R137), the handback fields exactly in HANDING_BACK (R172, R176), and every channel DETACHED before START (R101). That no report
of the model's own waits between two commands is part of it (log 14). -/
def Obligations.EveryStepKeepsInvariant : Prop := ∀ s t : State, s.Inv → step s = .next t → t.Inv

/-- No command ever stops the part with a fault or a refusal: any number of steps, from any state, answers a next state. That the
part always goes on is the model's reading (log 36): the manual names no event that stops it. -/
def Obligations.NoCommandStopsThePart : Prop := ∀ s : State, s.NeverStops

/-- Station time changes only by a carry of the step accumulator at a clock cycle, by exactly one grain, and at pin reset. -/
def Obligations.StationTimeMovesOnlyByClock : Prop :=
  ∀ (c : Instr) (s t : State), exec c s = .next t →
    t.tb.now = s.tb.now ∨ (c = .clockCycle ∧ 2 ^ 32 ≤ s.tb.acc + s.tb.step ∧ t.tb.now = s.tb.now + 1) ∨
      (c = .pinReset ∧ t.tb.now = 0)

/-- STEP changes only when a reference pulse closes a measurement that passes the acceptance test, to the quotient of R7 rounded
and clamped, and at pin reset. -/
def Obligations.StepWrittenOnlyByAcceptedMeasurement : Prop :=
  ∀ (c : Instr) (s t : State), exec c s = .next t →
    t.tb.step = s.tb.step ∨
      (c = .referencePulse ∧ s.tb.state ≠ .freeRun ∧ s.tb.measuring = true ∧ 256 ≤ s.tb.periods + 1 ∧
        s.Accepted ∧
        t.tb.step = max 21470541 (min 21479131
          ((2 * (2 ^ 40 * Config.ratePeriod s.sp.rate) + s.tb.cycles) / (2 * s.tb.cycles)))) ∨
      (c = .pinReset ∧ t.tb.step = 21474836)

/-- Once START has locked the profile, every command but pin reset leaves the station part and every channel part as they are. -/
def Obligations.ProfileFixedAfterStart : Prop :=
  ∀ (c : Instr) (s t : State), s.locked = true → exec c s = .next t → c ≠ .pinReset →
    t.locked = true ∧ t.station = s.station ∧ t.chans.map (·.part) = s.chans.map (·.part)

/-- A watch record changes only by a beacon (as such or as the bytes of a feed message that parse as one), the deadlines and windows
of the watch, FORCE_LOST, UNFORCE and READ_CHANNEL, and when the records are made: pin reset, ADD_CHANNEL and START. A whole command
frame changes one only with a good check and the code of one of these commands. -/
def Obligations.WatchChangesOnlyByItsCommands : Prop :=
  ∀ (c : Instr) (s t : State), exec c s = .next t → s.SameWatches t ∨
    (∃ b, c = .beacon b) ∨
    (∃ k ch body b, c = .feedMessageDiscard k ch body (messageCheck k ch body) ∧
      parseFeed k.toNat ch body = some (.beacon b) ∧ b.channel = ch) ∨
    (∃ ch, c = .doubtfulDeadline ch ∨ c = .lostDeadline ch ∨ c = .returnDeadline ch ∨ c = .windowEnd ch) ∨
    (∃ p, c = .forceLost p ∨ c = .unforce p ∨ c = .readChannel p ∨ c = .addChannel p ∨ c = .start p) ∨
    (∃ code p, c = .unknownCommand code p (commandCheck code p) ∧ code ∈ [(2 : Byte), 3, 7, 15, 16]) ∨ c = .pinReset

/-- Every entry of a channel's watch to LOST raises CHANNEL_LOST: its class becomes pending, counts the occurrence and takes the
channel and the cause as its detail, in the command that makes the entry. The cause is SILENCE at the LOST deadline, RETURN_BROKEN
at the return deadline, FORCED at FORCE_LOST and at a beacon that finds the forced mark set, and STANDING_DOWN at every other
beacon; nothing else makes the entry. -/
def Obligations.EntryToLostIsNotified : Prop :=
  ∀ (c : Instr) (s t : State) (ch : Channel) (a b : Chan), exec c s = .next t → s.chan? ch = some a → t.chan? ch = some b →
    a.watch.state ≠ .lost → b.watch.state = .lost →
    ∃ cause : LostCause, s.LostNoticed t ch cause ∧
      ((c = .lostDeadline ch ∧ cause = .silence) ∨ (c = .returnDeadline ch ∧ cause = .returnBroken) ∨
        ((c = .forceLost [ch] ∨ c = .unknownCommand 15 [ch] (commandCheck 15 [ch])) ∧ cause = .forced) ∨
        (∃ m : BeaconMsg, m.channel = ch ∧
          (c = .beacon m ∨ ∃ k body, c = .feedMessageDiscard k ch body (messageCheck k ch body) ∧
            parseFeed k.toNat ch body = some (.beacon m)) ∧
          (a.watch.forced = true → cause = .forced) ∧
          (a.watch.forced = false → m.main = .standingDown ∧ cause = .standingDown)))

/-! ## The time base -/

/-- A clock cycle adds STEP to the accumulator, carries one grain into station time when the sum reaches 2^32, counts the cycle of
a measurement in progress, and changes nothing else. A reference pulse that closes no measurement does nothing before START; else
it sets the last-pulse time and both deadlines, and opens a measurement or counts as a period of the one in progress, and nothing
else changes. -/
def Obligations.ClockAndPulsesCount : Prop :=
  ∀ s : State,
    exec .clockCycle s = .next { s with tb := { s.tb with
      acc := if s.tb.acc + s.tb.step < 2 ^ 32 then s.tb.acc + s.tb.step else s.tb.acc + s.tb.step - 2 ^ 32
      now := if s.tb.acc + s.tb.step < 2 ^ 32 then s.tb.now else s.tb.now + 1
      cycles := if s.tb.measuring then s.tb.cycles + 1 else s.tb.cycles } } ∧
    (s.tb.state = .freeRun → exec .referencePulse s = .next s) ∧
    (s.tb.state ≠ .freeRun → s.tb.measuring = false → exec .referencePulse s = .next { s with tb := { s.tb with
      lastPulse := some s.tb.now
      missingDl := some (s.tb.now + BitVec.ofNat 48 (3 * Config.ratePeriod s.sp.rate / 2))
      silenceDl := some (s.tb.now + BitVec.ofNat 48 (4 * Config.ratePeriod s.sp.rate))
      measuring := true, cycles := 0, periods := 0 } }) ∧
    (s.tb.state ≠ .freeRun → s.tb.measuring = true → s.tb.periods + 1 < 256 →
      exec .referencePulse s = .next { s with tb := { s.tb with
        lastPulse := some s.tb.now
        missingDl := some (s.tb.now + BitVec.ofNat 48 (3 * Config.ratePeriod s.sp.rate / 2))
        silenceDl := some (s.tb.now + BitVec.ofNat 48 (4 * Config.ratePeriod s.sp.rate))
        periods := s.tb.periods + 1 } })

/-- A pulse that closes a measurement which passes the acceptance test sets STEP and takes the time base to LOCKED with a clear
suspect run. In LOCKED nothing else changes. An entry to LOCKED re-keys the claims that contend with time class 0, each with its new
CLAIM offered and its claim-sent mark and window cleared, or yielding to a better claim, which a pass follows; claims alone change.
That one pass follows after all re-keys is the model's choice (log 47). -/
def Obligations.ClosingPulseSetsStep : Prop :=
  ∀ s : State, s.tb.state ≠ .freeRun → s.tb.measuring = true → 256 ≤ s.tb.periods + 1 → s.Accepted →
    ∃ t : State, exec .referencePulse s = .next t ∧
      t.tb = { s.pulsed with
        step := max 21470541 (min 21479131
          ((2 * (2 ^ 40 * Config.ratePeriod s.sp.rate) + s.tb.cycles) / (2 * s.tb.cycles)))
        state := .locked, suspectRun := 0 } ∧
      (s.tb.state = .locked → t = { s with tb := t.tb }) ∧
      (s.tb.state ≠ .locked → State.Rekeyed { s with tb := t.tb } t ∧ State.ClaimsOnly { s with tb := t.tb } t ∧ s.RekeyedTo t 0)

/-- A suspect or abandoned measurement outside LOCKED changes no state, and in LOCKED adds one to a suspect run that stays below
3; a missing pulse without a measurement and a silence outside LOCKED do nothing. LOCKED passes to HOLDOVER at the third suspect or
abandoned measurement in a row and at a reference silence: STEP held, the suspect run cleared, TIME_HOLDOVER raised, and then every
claim that contends re-keyed with time class 1, its new CLAIM offered, or yielding, with claims alone changed beside. That a deadline
not reached does nothing, and that one pass follows after all re-keys, are the model's choices (logs 2, 47). -/
def Obligations.FailedMeasurementsAndHoldover : Prop :=
  ∀ s : State,
    (s.tb.state ≠ .freeRun → s.tb.measuring = true → 256 ≤ s.tb.periods + 1 → ¬ s.Accepted →
      (s.tb.state ≠ .locked → exec .referencePulse s = .next { s with tb := s.pulsed }) ∧
      (s.tb.state = .locked → s.tb.suspectRun + 1 < 3 →
        exec .referencePulse s = .next { s with tb := { s.pulsed with suspectRun := s.tb.suspectRun + 1 } })) ∧
    (due s.tb.missingDl s.tb.now = true →
      (s.tb.measuring = false → exec .missingPulse s = .next { s with tb := { s.tb with missingDl := none } }) ∧
      (s.tb.measuring = true → s.tb.state ≠ .locked → exec .missingPulse s = .next { s with tb := { s.tb with
        missingDl := none, measuring := false, cycles := 0, periods := 0 } }) ∧
      (s.tb.measuring = true → s.tb.state = .locked → s.tb.suspectRun + 1 < 3 →
        exec .missingPulse s = .next { s with tb := { s.tb with
          missingDl := none, measuring := false, cycles := 0, periods := 0, suspectRun := s.tb.suspectRun + 1 } })) ∧
    (due s.tb.silenceDl s.tb.now = true → s.tb.state ≠ .locked →
      exec .referenceSilence s = .next { s with tb := { s.tb with silenceDl := none } }) ∧
    (due s.tb.missingDl s.tb.now = false → exec .missingPulse s = .next s) ∧
    (due s.tb.silenceDl s.tb.now = false → exec .referenceSilence s = .next s) ∧
    (s.tb.state = .locked →
      let holdover (i : Instr) (tb : TimeBase) : Prop :=
        let u := State.raise { s with tb := { tb with state := .holdover, suspectRun := 0 } } .timeOrAsrun 0 .timeHoldover
        ∃ t : State, exec i s = .next t ∧ u.Rekeyed t ∧ u.ClaimsOnly t ∧ s.RekeyedTo t 1
      (s.tb.measuring = true → 256 ≤ s.tb.periods + 1 → ¬ s.Accepted → 3 ≤ s.tb.suspectRun + 1 →
        holdover .referencePulse s.pulsed) ∧
      (s.tb.measuring = true → due s.tb.missingDl s.tb.now = true → 3 ≤ s.tb.suspectRun + 1 →
        holdover .missingPulse { s.tb with missingDl := none, measuring := false, cycles := 0, periods := 0 }) ∧
      (due s.tb.silenceDl s.tb.now = true → holdover .referenceSilence { s.tb with silenceDl := none }))

/-- For every rate code and every count that passes the acceptance test, STEP is the whole number nearest to 2^32 × 256 × P_ref / C
(one half upward), and the clamp acts at the upper edge alone: the nearest number lies from 21,470,542 to 21,479,132. -/
def Obligations.MeasuredStepIsNearest : Prop :=
  ∀ r count : Nat, 1 ≤ r → r ≤ 8 → acceptable (Config.ratePeriod r) count = true →
    ∃ q : Nat, 2 * count * q ≤ 2 ^ 41 * Config.ratePeriod r + count ∧
      2 ^ 41 * Config.ratePeriod r + count < 2 * count * (q + 1) ∧ 21470542 ≤ q ∧ q ≤ 21479132 ∧
      stepFor (Config.ratePeriod r) count = min 21479131 q

/-! ## The feed receiver -/

/-- The framing of the feed receiver and the judgement of a message that fails it: what an idle gap, an over-long body length, a
wrong check, an unprofiled channel and a wrong structure do, in HUNT and outside it, before START and after it. -/
def Obligations.FeedFramingAndDiscards : Prop :=
  ∀ (s : State) (begun : Bool) (kind chan : Byte) (body : List Byte) (check : BitVec 16),
    (s.locked = false → exec (.feedIdleGap begun) s = .next s ∧ exec .feedLengthAbandon s = .next s ∧
      exec (.feedMessageDiscard kind chan body check) s = .next s) ∧
    (s.locked = true → s.feed.framing = .hunt →
      exec (.feedIdleGap begun) s = .next { s with feed := { s.feed with framing := .wait } } ∧
      exec .feedLengthAbandon s = .next s ∧ exec (.feedMessageDiscard kind chan body check) s = .next s) ∧
    (s.locked = true → s.feed.framing = .wait → exec (.feedIdleGap false) s = .next s) ∧
    (s.locked = true → s.feed.framing ≠ .hunt → (s.feed.framing = .receiving ∨ begun = true) →
      exec (.feedIdleGap begun) s =
        .next { s with feed := { s.feed with framing := .wait, faults := min 65535 (s.feed.faults + 1) } }) ∧
    (s.locked = true → s.feed.framing ≠ .hunt →
      exec .feedLengthAbandon s =
        .next { s with feed := { s.feed with framing := .hunt, faults := min 65535 (s.feed.faults + 1) } }) ∧
    (s.locked = true → s.feed.framing ≠ .hunt → body.length ≤ 63 →
      (check ≠ messageCheck kind chan body → exec (.feedMessageDiscard kind chan body check) s =
        .next { s with feed := { s.feed with framing := .hunt, faults := min 65535 (s.feed.faults + 1) } }) ∧
      (check = messageCheck kind chan body → s.chan? chan = none → exec (.feedMessageDiscard kind chan body check) s =
        .next { s with feed := { s.feed with framing := .wait } }) ∧
      (check = messageCheck kind chan body → s.chan? chan ≠ none → parseFeed kind.toNat chan body = none →
        exec (.feedMessageDiscard kind chan body check) s =
          .next { s with feed := { s.feed with framing := .wait, faults := min 65535 (s.feed.faults + 1) } }))

/-- Every feed message with at most four side cues is read back from the bytes that its layout gives it. That those bytes, given
as a message to be judged, then act as the message is the model's reading of the rows for discarded messages (log 4): the bytes of
a beacon do what BEACON does, and those of a schedule message what SCHEDULE_MESSAGE does. Every bus frame whose fields lie in their
ranges is read back from its raw class, merit, station, body and check; its body has at most 12 bytes, and the bits a station
drives for it have the length of its layout. The bytes
of a cue command are its kind, tag, body length and body, each field in its width, and the check over them: PREP with outlet, material,
entry, local start and duration, SIDE with outlet, code and local time, STOP with outlet and local time. -/
def Obligations.MessagesAndFramesReadBack : Prop :=
  (∀ (o : OutletNo) (tag : Nat),
    let sent (kind n : Nat) (body : List (Nat × Nat)) : List Byte :=
      spelled ([(1, kind), (1, tag), (2, n)] ++ body ++
        [(2, (messageCheck (BitVec.ofNat 8 kind) (BitVec.ofNat 8 tag) (spelled body)).toNat)])
    (∀ p : Prep, cmdBytes o tag (.prep p) =
      sent 1 30 [(1, o.val), (16, p.material.toNat), (4, p.entry), (6, p.start.toNat), (3, p.duration)]) ∧
    (∀ (code : BitVec 16) (t : Time), cmdBytes o tag (.side code t) = sent 2 9 [(1, o.val), (2, code.toNat), (6, t.toNat)]) ∧
    ∀ (t : Time) (deciding : Bool), cmdBytes o tag (.stop t deciding) = sent 3 7 [(1, o.val), (6, t.toNat)]) ∧
  (∀ b : BeaconMsg, parseFeed 1 b.channel (beaconBody b) = some (.beacon b) ∧
    ∀ s : State, exec (.feedMessageDiscard 1 b.channel (beaconBody b) (messageCheck 1 b.channel (beaconBody b))) s =
      exec (.beacon b) s) ∧
  (∀ m : SchedMsg, schedOk m.body = true →
    parseFeed (schedKind m.body) m.channel (schedBytes m.body) = some (.sched m) ∧ (schedBytes m.body).length ≤ 63 ∧
    ∀ s : State, exec (.feedMessageDiscard (BitVec.ofNat 8 (schedKind m.body)) m.channel (schedBytes m.body)
      (messageCheck (BitVec.ofNat 8 (schedKind m.body)) m.channel (schedBytes m.body))) s = exec (.scheduleMessage m) s) ∧
  ∀ f : Frame, frameFieldsOk f = true →
    parseFrame { cls := BitVec.ofNat 3 (frameClass f.body), merit := f.merit, station := f.station, body := frameBytes f.body
                 check := busCheck (frameClass f.body) f.merit f.station (frameBytes f.body), endRecessive := true } = some f ∧
    (frameBytes f.body).length ≤ 12 ∧
    (frameBits f).length = 1 + 15 + 4 + 8 * (frameBytes f.body).length + 16 + 1

/-- A schedule message is taken outside HUNT alone, thrown away when its channel is not profiled, counted as a fault when it has
more than four side cues, and else joins an ingest queue of fewer than 24, setting the channel's latest-queued version. One offered
to a full queue is dropped and counted; its filling is abandoned and its channel marked stale at once, and a change of condition is
raised and reaches the takeover unit, which re-keys a claim or checks the channel, with claims alone changed beside. That the row
takes a message whole, in HUNT none, is the model's choice (log 3). -/
def Obligations.ScheduleMessageOffered : Prop :=
  ∀ (s : State) (m : SchedMsg),
    ((s.locked = false ∨ s.feed.framing = .hunt) → exec (.scheduleMessage m) s = .next s) ∧
    (s.locked = true → s.feed.framing ≠ .hunt → s.chan? m.channel = none →
      exec (.scheduleMessage m) s = .next { s with feed := { s.feed with framing := .wait } }) ∧
    (s.locked = true → s.feed.framing ≠ .hunt → s.chan? m.channel ≠ none → schedStructure m.body = false →
      exec (.scheduleMessage m) s =
        .next { s with feed := { s.feed with framing := .wait, faults := min 65535 (s.feed.faults + 1) } }) ∧
    (s.locked = true → s.feed.framing ≠ .hunt → s.chan? m.channel ≠ none → schedStructure m.body = true →
      s.feed.ingest.length < 24 →
      exec (.scheduleMessage m) s =
        .next (State.modChan { s with feed := { s.feed with framing := .wait, ingest := s.feed.ingest ++ [m] } } m.channel
          (fun x => { x with latestQueued := some (schedVersion m.body) }))) ∧
    ∀ ch : Chan, s.locked = true → s.feed.framing ≠ .hunt → s.chan? m.channel = some ch → schedStructure m.body = true →
      24 ≤ s.feed.ingest.length →
      ∃ u t : State, exec (.scheduleMessage m) s = .next t ∧
        State.Conditioned { s with feed := { s.feed with framing := .wait, drops := min 65535 (s.feed.drops + 1) } } u
          m.channel ch ch.mirror.condition.markStale ∧ t = u.abandoned m.channel ch ∧
        (((State.abandoned { s with feed := { s.feed with framing := .wait, drops := min 65535 (s.feed.drops + 1) } }
          m.channel ch).marked m.channel ch ch.mirror.condition.markStale).ClaimsOnly t)

/-! ## The mirror -/

/-- DRIFT_CHECK that finds a drift check as the oldest request serves it: a beacon's version that differs from the latest-queued one,
or an on-air event missing from a CURRENT copy, marks the copy stale, which changes a CURRENT copy alone, raises MIRROR_STALE and
reaches the takeover unit; else nothing changes. RECLAIM_SWEEP that finds a sweep serves it: an event is kept when it is pinned, when
its effective end is absent or not before the cutoff (main-site time now less the retention), or when the event behind it is a FOLLOW
event that is kept; the others are freed and counted, none without a seeded estimate. That requests wait and that the two rows serve
them, each doing nothing when none of its kind waits, is the model's choice (log 5). -/
def Obligations.MirrorRequestsServed : Prop :=
  ∀ s : State,
    (s.mirrorReqs.any MirrorReq.isDrift = false → exec .driftCheck s = .next s) ∧
    (s.mirrorReqs.any MirrorReq.isSweep = false → exec .reclaimSweep s = .next s) ∧
    (∀ (c : Channel) (v : Version) (e : EventId) (rest : List MirrorReq) (ch : Chan),
      s.mirrorReqs = .drift c v e :: rest → s.chan? c = some ch →
      ((ch.latestQueued ≠ some v ∨
          (ch.mirror.condition = .current ∧ e ≠ 0 ∧ ∀ x ∈ ch.list, x.data.id ≠ e)) → ch.mirror.condition = .current →
        ∃ t : State, exec .driftCheck s = .next t ∧ State.Conditioned { s with mirrorReqs := rest } t c ch .stale ∧
          ((State.marked { s with mirrorReqs := rest } c ch .stale).ClaimsOnly t)) ∧
      (ch.mirror.condition ≠ .current → exec .driftCheck s = .next { s with mirrorReqs := rest }) ∧
      (ch.latestQueued = some v → (e = 0 ∨ ∃ x ∈ ch.list, x.data.id = e) →
        exec .driftCheck s = .next { s with mirrorReqs := rest })) ∧
    ∀ (c : Channel) (rest : List MirrorReq) (ch : Chan), s.mirrorReqs = .sweep c :: rest → s.chan? c = some ch →
      (ch.watch.seeded = false → exec .reclaimSweep s = .next { s with mirrorReqs := rest }) ∧
      (ch.watch.seeded = true → ∃ kept : List Bool, kept.length = ch.list.length ∧
        (∀ (i : Nat) (h : i < ch.list.length), kept[i]? = some
          (ch.list[i].pinned
            || !(ch.list[i].times.any (fun x => before x.effEnd
                  (s.tb.now - ch.watch.estimate - BitVec.ofNat 48 (s.sp.retention * 240000))))
            || (kept.getD (i + 1) false && ch.list[i + 1]?.any (fun e => e.data.start == .follow)))) ∧
        exec .reclaimSweep s = .next (State.modChan
          { s with
            mirrorReqs := rest
            poolFree := (((ch.list.zip kept).filter (fun x => !x.2)).map (·.1.slot)) ++ s.poolFree } c (fun x =>
          { x with
            list := ((ch.list.zip kept).filter (·.2)).map (·.1)
            mirror := { x.mirror with
              reclaimed := min 65535 (x.mirror.reclaimed + ((ch.list.zip kept).filter (fun x => !x.2)).length) } })))

/-- A snapshot fills: SNAP_OPEN for at most 240 events abandons what was filling and opens a filling, and a SNAP_EVENT that fits
takes one record of the pool and appends it. The list, the version and the condition stay as they were, and nothing else
changes. -/
def Obligations.SnapshotFills : Prop :=
  ∀ (s : State) (c : Channel) (v : Version) (rest : List SchedMsg) (ch : Chan), s.mirrorReqs = [] → s.chan? c = some ch →
    (∀ n : BitVec 16, s.feed.ingest = ⟨c, .snapOpen v n⟩ :: rest → n.toNat ≤ 240 →
      exec .snapOpen s = .next (((s.popped rest).abandoned c ch).modMirror c (fun m =>
        { m with filling := some { version := v, expected := n.toNat, next := 0 } }))) ∧
    (∀ (i : Byte) (e : EventData) (f : Filling) (slot : Nat) (free : List Nat),
      s.feed.ingest = ⟨c, .snapEvent v i e⟩ :: rest → ch.mirror.filling = some f → v = f.version → i.toNat = f.next →
      f.next < f.expected → validEvent e = true → hasId e.id ch.incoming = false → s.poolFree = slot :: free →
      exec .snapEvent s = .next (State.modChan { s.popped rest with poolFree := free } c (fun x =>
        { x with
          incoming := x.incoming ++ [{ slot := slot, data := e, times := none, eclipsed := false, pinned := false }]
          mirror := { x.mirror with filling := some { f with next := f.next + 1 } } })))

/-- SNAP_CLOSE completes a filling whose version and counts it matches: the incoming list becomes the channel list, the version is the
snapshot's, the copy CURRENT and the filling gone, the old list's unpinned records free and its pinned ones unlinked. A change of
condition reaches the takeover unit, the list is resolved, and the runner of a running channel is told; on a channel that is not
running nothing else changes but claims. What the runner does where its outlet takes no further command is left open here. That the
same record at the same start changes nothing of the cued item (log 26), that a choice past the run switch time leaves mode and hold
(log 37), and that one made without a manual hold ends a wait for GO (log 64), are the model's choices. -/
def Obligations.SnapshotCloseReplacesList : Prop :=
  ∀ (s : State) (c : Channel) (v : Version) (n : BitVec 16) (rest : List SchedMsg) (ch : Chan) (f : Filling),
    s.mirrorReqs = [] → s.ReportsSettled → s.ChannelsDistinct → s.chan? c = some ch →
    s.feed.ingest = ⟨c, .snapClose v n⟩ :: rest →
    ch.mirror.filling = some f → v = f.version → n.toNat = f.expected → n.toNat = f.next →
    ∃ t : State, exec .snapClose s = .next t ∧ (s.popped rest).SameOutside t ∧ s.SameWatches t ∧
      (∃ u : State, (State.modChan
          { s.popped rest with poolFree := (ch.list.filter (fun e => !e.pinned)).map (·.slot) ++ s.poolFree } c (fun y =>
          { y with
            list := y.incoming, incoming := [], unlinked := y.unlinked ++ ch.list.filter (·.pinned)
            mirror := { y.mirror with version := some v, filling := none } })).Conditioned u c ch .current ∧
        (u.modChan c (fun y => { y with list := resolve y.period (y.run.bind (·.anchor)) y.list })).ChangeTold t c) ∧
      ((∀ r, ch.run = some r → s.Takes r.outlet) → ∃ x : Chan, t.chan? c = some x ∧
        x.mirror = { ch.mirror with condition := .current, version := some v, filling := none } ∧ x.incoming = [] ∧
        storedIn x.list = storedIn ch.incoming) ∧
      (let w := State.modChan
          { s.popped rest with poolFree := (ch.list.filter (fun e => !e.pinned)).map (·.slot) ++ s.poolFree } c (fun y =>
          { y with
            list := resolve y.period (y.run.bind (·.anchor)) y.incoming, incoming := []
            unlinked := y.unlinked ++ ch.list.filter (·.pinned)
            mirror := { y.mirror with condition := .current, version := some v, filling := none } })
      w.MirrorTended t ∧ (ch.run = none → w.ClaimsOnly t))

/-- An edit that passes is applied: EDIT_PUT inserts its event behind the anchor with a record of the pool, or replaces the event of
its id (in the old record, or in a new one when the old one is pinned, which stays unlinked); EDIT_DROP removes the event. The version
becomes the edit's, and the condition stays. The list is then resolved, and the runner of a running channel is told that it changed: it
gives up a manual hold whose event is gone and makes its choice again where its cued item is not locked. What it does where its outlet
takes no further command is left open here. That the same record at the same start changes nothing of the cued item (log 26), that a
choice past the run switch time leaves mode and hold (log 37), and that one made without a manual hold ends a wait for GO (log 64), are
the model's choices. -/
def Obligations.EditsChangeTheList : Prop :=
  ∀ (s : State) (c : Channel) (b n : Version) (rest : List SchedMsg) (ch : Chan),
    s.mirrorReqs = [] → s.ReportsSettled → s.chan? c = some ch → ch.mirror.condition ≠ .empty →
    ch.mirror.version = some b →
    (∀ (a : EventId) (e : EventData), s.feed.ingest = ⟨c, .editPut b n a e⟩ :: rest → validEvent e = true →
      (a = 0 ∨ ∃ x ∈ ch.list, x.data.id = a ∧ a ≠ e.id) →
      (∀ (slot : Nat) (free : List Nat), hasId e.id ch.list = false → ch.list.length < 240 → s.poolFree = slot :: free →
        ∃ (t : State) (before after : List EventRec), exec .editPut s = .next t ∧ ch.list = before ++ after ∧
          PlacedAfter a before ∧ s.Relists t c ch rest (before ++ newRecord slot e :: after) n [] free) ∧
      (∀ old : EventRec, ch.list.find? (fun x => x.data.id == e.id) = some old → old.pinned = false →
        ∃ (t : State) (before after : List EventRec), exec .editPut s = .next t ∧
          ch.list.filter (fun x => x.data.id != e.id) = before ++ after ∧ PlacedAfter a before ∧
          s.Relists t c ch rest (before ++ newRecord old.slot e :: after) n [] s.poolFree) ∧
      (∀ (old : EventRec) (slot : Nat) (free : List Nat), ch.list.find? (fun x => x.data.id == e.id) = some old →
        old.pinned = true → s.poolFree = slot :: free →
        ∃ (t : State) (before after : List EventRec), exec .editPut s = .next t ∧
          ch.list.filter (fun x => x.data.id != e.id) = before ++ after ∧ PlacedAfter a before ∧
          s.Relists t c ch rest (before ++ newRecord slot e :: after) n [old] free)) ∧
    (∀ id : EventId, s.feed.ingest = ⟨c, .editDrop b n id⟩ :: rest →
      ∃ t : State, exec .editDrop s = .next t ∧
        s.Relists t c ch rest (ch.list.filter (fun x => x.data.id != id)) n
          (ch.list.filter (fun x => x.data.id == id && x.pinned))
          ((ch.list.filter (fun x => x.data.id == id && !x.pinned)).map (·.slot) ++ s.poolFree))

/-- A schedule message that does not pass leaves the list and, but for an edit that cannot be stored, the version as they were. It
marks the copy stale and abandons a filling where its rule says so; an edit that cannot be stored advances the version, marks the
copy short and raises POOL_SHORT; a snapshot that finds the pool empty raises POOL_SHORT; an edit of an EMPTY copy does nothing. A
change of condition raises MIRROR_STALE and reaches the takeover unit, which re-keys a claim or checks the channel. Nothing else
changes but claims. -/
def Obligations.RejectedScheduleMessages : Prop :=
  ∀ (s : State) (c : Channel) (v : Version) (rest : List SchedMsg) (ch : Chan),
    s.mirrorReqs = [] → s.ReportsSettled → s.chan? c = some ch →
    let told (base t : State) (n : Condition) : Prop := base.Conditioned t c ch n ∧ (base.marked c ch n).ClaimsOnly t
    (∀ n : BitVec 16, s.feed.ingest = ⟨c, .snapOpen v n⟩ :: rest → 240 < n.toNat →
      ∃ t : State, exec .snapOpen s = .next t ∧ told ((s.popped rest).abandoned c ch) t ch.mirror.condition.markStale) ∧
    (∀ (i : Byte) (e : EventData), s.feed.ingest = ⟨c, .snapEvent v i e⟩ :: rest →
      (ch.mirror.filling = none → ∃ t : State, exec .snapEvent s = .next t ∧
        told (s.popped rest) t ch.mirror.condition.markStale) ∧
      (∀ f : Filling, ch.mirror.filling = some f →
        (v ≠ f.version ∨ i.toNat ≠ f.next ∨ f.expected ≤ i.toNat ∨ validEvent e = false ∨ hasId e.id ch.incoming = true →
          ∃ t : State, exec .snapEvent s = .next t ∧
            told ((s.popped rest).abandoned c ch) t ch.mirror.condition.markStale) ∧
        (v = f.version → i.toNat = f.next → i.toNat < f.expected → validEvent e = true → hasId e.id ch.incoming = false →
          s.poolFree = [] → ∃ u : State,
            exec .snapEvent s = .next (u.raise .poolShort c .poolShortSnapshot) ∧
            told ((s.popped rest).abandoned c ch) u ch.mirror.condition.markStale))) ∧
    (∀ n : BitVec 16, s.feed.ingest = ⟨c, .snapClose v n⟩ :: rest →
      (∀ f : Filling, ch.mirror.filling = some f → v ≠ f.version ∨ n.toNat ≠ f.expected ∨ n.toNat ≠ f.next) →
      ∃ t : State, exec .snapClose s = .next t ∧
        told ((s.popped rest).abandoned c ch) t ch.mirror.condition.markStale) ∧
    (∀ (n : Version) (a : EventId) (e : EventData), s.feed.ingest = ⟨c, .editPut v n a e⟩ :: rest →
      (ch.mirror.condition = .empty → exec .editPut s = .next (s.popped rest)) ∧
      (ch.mirror.condition ≠ .empty → (ch.mirror.version ≠ some v ∨ validEvent e = false ∨
          (a ≠ 0 ∧ hasId a (ch.list.filter (fun x => x.data.id != e.id)) = false)) →
        ∃ t : State, exec .editPut s = .next t ∧ told (s.popped rest) t ch.mirror.condition.markStale) ∧
      (ch.mirror.condition ≠ .empty → ch.mirror.version = some v → validEvent e = true →
        (a = 0 ∨ hasId a (ch.list.filter (fun x => x.data.id != e.id)) = true) →
        ((hasId e.id ch.list = false ∧ (240 ≤ ch.list.length ∨ s.poolFree = [])) ∨
          (s.poolFree = [] ∧ ∃ old, ch.list.find? (fun x => x.data.id == e.id) = some old ∧ old.pinned = true)) →
        ∃ u : State, exec .editPut s = .next (u.raise .poolShort c .poolShortEdit) ∧
          told ((s.popped rest).modMirror c (fun m => { m with version := some n })) u ch.mirror.condition.markShort)) ∧
    (∀ (n : Version) (id : EventId), s.feed.ingest = ⟨c, .editDrop v n id⟩ :: rest →
      (ch.mirror.condition = .empty → exec .editDrop s = .next (s.popped rest)) ∧
      (ch.mirror.condition ≠ .empty → ch.mirror.version ≠ some v →
        ∃ t : State, exec .editDrop s = .next t ∧ told (s.popped rest) t ch.mirror.condition.markStale))

/-- The mirror serves requests in the order they were made, and every request that waits before it takes the oldest ingest
message; a command for an ingest message of another kind than the oldest one does nothing. It serves every request that waits, too,
before what the runner then asks of it: at a cue moment, at GO, at a claim-window end, at a STARTED and at the failures of a PREP, at
a switch deadline, at a RELEASE and at a HOLD for a running channel each command acts as it does once they are served. That requests
wait for a row of their own, and that the ingest rows name a kind, are the model's choices (logs 5, 50). -/
def Obligations.MirrorServesRequestsFirst : Prop :=
  ∀ s : State,
    (∀ (r : MirrorReq) (rest : List MirrorReq), s.mirrorReqs = r :: rest →
      (r.isDrift = false → rest.any MirrorReq.isDrift = true →
        exec .driftCheck s = exec .driftCheck (State.serve { s with mirrorReqs := rest } r)) ∧
      (r.isSweep = false → rest.any MirrorReq.isSweep = true →
        exec .reclaimSweep s = exec .reclaimSweep (State.serve { s with mirrorReqs := rest } r))) ∧
    (∀ p ∈ [(Instr.snapOpen, 2), (Instr.snapEvent, 3), (Instr.snapClose, 4), (Instr.editPut, 5), (Instr.editDrop, 6)],
      (s.feed.ingest.head?.map (fun m => schedKind m.body) = some p.2 →
        exec p.1 s = exec p.1 s.serveAll ∧ s.serveAll.mirrorReqs = [] ∧ s.serveAll.feed = s.feed) ∧
      (s.feed.ingest.head?.map (fun m => schedKind m.body) ≠ some p.2 → exec p.1 s = .next s)) ∧
    ∀ (c : Channel) (ch : Chan), s.chan? c = some ch →
      (∀ d, ch.tk.state = .contending → ch.tk.windowEnd = some d → atOrBefore d s.tb.now = true →
        exec (.claimWindowEnd c) s = exec (.claimWindowEnd c) s.serveAll) ∧
      ∀ r, ch.run = some r →
        (∀ it, due r.cueMoment s.tb.now = true → r.cued = some it → it.locked = false →
          exec (.cueMoment c) s = exec (.cueMoment c) s.serveAll) ∧
        (s.locked = true → r.mode = .awaitingGo → r.manualHold ≠ none → exec (.go [c]) s = exec (.go [c]) s.serveAll) ∧
        (∀ h o, ch.tk.state = .handingBack → ch.tk.handback = some h → ch.tk.outlet = some o → due h.switchDl s.tb.now = true →
          exec (.switchDeadline c) s = exec (.switchDeadline c) s.serveAll) ∧
        (s.locked = true → (ch.tk.state = .joining ∨ (ch.tk.state = .onAir ∧ ch.tk.handback = none) ∨
            (ch.tk.state = .handingBack ∧ ∃ h, ch.tk.handback = some h ∧ h.forced = false ∧
              0 < diff h.localSwitch (s.tb.now + BitVec.ofNat 48 (s.sp.cueLead * ch.period)))) →
          exec (.release [c]) s = exec (.release [c]) s.serveAll) ∧
        (∀ (m : Byte) (st : Station) (hs : HoldState) (v : Version) (e : EventId),
          (s.bus.rx = .free ∨ s.bus.rx = .receiving) → st ≠ s.bus.own → meritOk m = true → channelOk c = true →
          exec (.holdFrame m st c hs v e) s = exec (.holdFrame m st c hs v e) s.serveAll) ∧
        ∀ o : OutletNo, (s.outlet o).channel = some c →
          ((∃ a ∈ (s.outlet o).awaiting, atOrBefore a.startDl s.tb.now = true) →
            exec (.startDeadline o) s = exec (.startDeadline o) s.serveAll) ∧
          ((∃ p, Cmd.prep p ∈ (s.outlet o).queue ∧ atOrBefore p.start s.tb.now = true) →
            (∀ code x, Cmd.side code x ∈ (s.outlet o).queue → atOrBefore x s.tb.now = false) →
            exec (.queuedCommandMissed o) s = exec (.queuedCommandMissed o) s.serveAll) ∧
          (∀ u p, (s.outlet o).outstanding = some u → u.cmd = .prep p → u.orphaned = false →
            (atOrBefore u.deadline s.tb.now = true → exec (.replyDeadline o) s = exec (.replyDeadline o) s.serveAll) ∧
            ∀ tag why, s.locked = true → s.cue.framing ≠ .hunt → tagOutlet tag = some o → u.tag = tag.toNat →
              exec (.refused tag why) s =
                exec (.refused tag why) (State.serveAll { s with cue := { s.cue with framing := .wait } })) ∧
          ∀ (tag outlet : Byte) (x : Time), s.locked = true → s.cue.framing ≠ .hunt → outlet.toNat = tag.toNat / 4 →
            tagOutlet tag = some o →
            ((∃ u p, (s.outlet o).outstanding = some u ∧ u.tag = tag.toNat ∧ u.cmd = .prep p) ∨
              ∃ a ∈ (s.outlet o).awaiting, a.tag = tag.toNat) →
            exec (.started tag outlet x) s =
              exec (.started tag outlet x) (State.serveAll { s with cue := { s.cue with framing := .wait } })

/-! ## Resolution -/

/-- What resolution writes. There is a reference start, that of the first event in list order that is FIXED or anchored, and there
are exact offsets from it: the start of a FIXED or anchored event is its start's signed difference from the reference start, a FOLLOW
event takes the nominal end of the event directly before it, and has none at the head of the list or behind an event without one, and
any other MANUAL event has none. A record with a start gets its nominal start, the nominal end its duration gives, and the effective
end, the earlier of that and of the earliest FIXED or anchored start that stands later in the list, each as reference start plus
offset; it is eclipsed when less than one period lies between start and effective end, and its effective duration is the whole periods
between them. A record without a start has no times, no mark and no effective duration. Nothing else of a record changes. -/
def Obligations.ResolutionWritesTimes : Prop :=
  ∀ (period : Nat) (anchor : Option Anchor) (l : List EventRec), 0 < period → period ≤ 10010 →
    ∃ (ref : Time) (start : Nat → Option Int),
      (∀ (p q : List EventRec) (e : EventRec) (t : Time), l = p ++ e :: q → (∀ x ∈ p, ∀ u, ¬ x.FixedAt anchor u) →
        e.FixedAt anchor t → ref = t) ∧
      (∀ (i : Nat) (e : EventRec), l[i]? = some e →
        (∀ t, e.FixedAt anchor t → start i = some (diff t ref)) ∧
        (e.data.start = .manual → (∀ t, ¬ e.FixedAt anchor t) → start i = none) ∧
        (e.data.start = .follow → i = 0 → start i = none) ∧
        ∀ (k : Nat) (d : EventRec), e.data.start = .follow → i = k + 1 → l[k]? = some d →
          start i = (start k).map (fun x : Int => x + (d.data.duration.toNat * period : Nat))) ∧
      ∀ (i : Nat) (e : EventRec), l[i]? = some e → ∃ x, (resolve period anchor l)[i]? = some x ∧
        (start i = none → x = { e with times := none, eclipsed := false } ∧ x.effFrames period = none) ∧
        ∀ st : Int, start i = some st →
          let nomEnd : Int := st + (e.data.duration.toNat * period : Nat)
          ∃ ee : Int, ee ≤ nomEnd ∧
            (∀ (k : Nat) (f : EventRec) (t : Time), i < k → l[k]? = some f → f.FixedAt anchor t → ee ≤ diff t ref) ∧
            (ee = nomEnd ∨ ∃ (k : Nat) (f : EventRec) (t : Time), i < k ∧ l[k]? = some f ∧ f.FixedAt anchor t ∧ ee = diff t ref) ∧
            x = { e with
              times := some { nomStart := ref + BitVec.ofInt 48 st, nomEnd := ref + BitVec.ofInt 48 nomEnd
                              effEnd := ref + BitVec.ofInt 48 ee }
              eclipsed := decide (ee - st < period) } ∧
            x.effFrames period = some ((ee - st).toNat / period)

/-- The effective intervals of the resolved, non-eclipsed events that resolution leaves lie in list order and do not overlap, and
each holds at least one frame. The list is within the part's range: at most 240 events, and every FIXED or anchored start within
2^45 grains of the reference start, so that every difference of two of its times is read by its sign (R43). -/
def Obligations.ResolvedIntervalsStayApart : Prop :=
  ∀ (period : Nat) (anchor : Option Anchor) (l : List EventRec), 0 < period → period ≤ 10010 → l.length ≤ 240 →
    (∀ e ∈ l, ∀ t, ownStart anchor e = some t → (diff t (referenceStart anchor l)).natAbs ≤ 2 ^ 45) →
    (resolve period anchor l).Pairwise (fun x y => ∀ a b, x.times = some a → y.times = some b → x.eclipsed = false →
      y.eclipsed = false → diff a.effEnd b.nomStart ≤ 0) ∧
    ∀ x ∈ resolve period anchor l, ∀ a, x.times = some a → x.eclipsed = false → (period : Int) ≤ diff a.effEnd a.nomStart

/-- Resolution writes the times and the eclipsed marks alone, and they depend only on the feed-supplied fields, the period and the
anchor, never on the times, marks and places that the records had before. -/
def Obligations.ResolutionReadsFeedFieldsOnly : Prop :=
  ∀ (period : Nat) (anchor : Option Anchor) (l : List EventRec),
    (resolve period anchor l).map (fun e => (e.slot, e.data, e.pinned)) = l.map (fun e => (e.slot, e.data, e.pinned)) ∧
    ∀ m : List EventRec, m.map (·.data) = l.map (·.data) →
      (resolve period anchor m).map (fun e => (e.times, e.eclipsed)) =
        (resolve period anchor l).map (fun e => (e.times, e.eclipsed))

/-! ## The channel watch -/

/-- A beacon for a profiled channel gives the watch record its new state and return count by the main state, the forced mark and the
state before; seeds or slews the estimate; records the error of a beacon that does not seed; arms the three deadlines afresh and
counts the beacon in its window. A change of state is reported: an entry to LOST raises CHANNEL_LOST with FORCED where the mark is
set and STANDING_DOWN otherwise, and the takeover unit is told. The beacon then asks the mirror for its drift check and a sweep, and
where it brings no offer to a channel on air and finds none in HANDING_BACK nothing else changes. In HANDING_BACK and at an offer
only what the report and the offer reach may change beside. -/
def Obligations.BeaconUpdatesWatchRecord : Prop :=
  ∀ (s : State) (b : BeaconMsg) (ch : Chan), s.locked = true → s.feed.framing ≠ .hunt → s.ReportsSettled → s.ChannelsDistinct →
    s.chan? b.channel = some ch →
    ∃ (t : State) (state : WatchState) (returns : Nat) (w : WatchRec), exec (.beacon b) s = .next t ∧
      ((ch.watch.forced = true ∨ b.main = .standingDown) → state = .lost ∧ returns = 0) ∧
      (ch.watch.forced = false → b.main ≠ .standingDown →
        (ch.watch.state = .unseen ∨ ch.watch.state = .live → state = .live ∧ returns = 0) ∧
        (ch.watch.state = .doubtful → state = (if ch.watch.met then .live else .doubtful) ∧ returns = 0) ∧
        (ch.watch.state = .lost → (ch.part.returnCount ≤ 1 → state = .live ∧ returns = 0) ∧
          (1 < ch.part.returnCount → state = .returning ∧ returns = 1)) ∧
        (ch.watch.state = .returning →
          (ch.part.returnCount ≤ ch.watch.returns + 1 → state = .live ∧ returns = 0) ∧
          (ch.watch.returns + 1 < ch.part.returnCount → state = .returning ∧ returns = ch.watch.returns + 1))) ∧
      (let sample := s.tb.now - b.stamp - BitVec.ofNat 48 s.sp.feedDelay
       let error := sample - ch.watch.estimate
       let seeds := !ch.watch.seeded || (ch.watch.state == .lost && state != .lost)
       let limit : Int := s.sp.slewLimit
       let periods := fun n => s.tb.now + BitVec.ofNat 48 (n * (ch.part.beaconPeriod * 240))
       w = { ch.watch with
         state := state, returns := returns, seeded := true, quiet := false
         estimate := if seeds then sample
           else ch.watch.estimate + BitVec.ofInt 48 ((max (-limit) (min limit error.toInt)).tdiv 8)
         peak := if seeds then ch.watch.peak else match ch.watch.peak with
           | none => some error
           | some p => some (if p.toInt < error.toInt then error else p)
         valley := if seeds then ch.watch.valley else match ch.watch.valley with
           | none => some error
           | some v => some (if error.toInt < v.toInt then error else v)
         lastArrival := some s.tb.now
         doubtfulDl := some (periods ch.part.k1), lostDl := some (periods ch.part.k2), returnDl := some (periods 2)
         windowEnd := some (ch.watch.windowEnd.getD (periods 8))
         windowCount := min 255 (ch.watch.windowCount + 1)
         lastMain := some (match b.main with
           | .running => .running
           | .standingDown => .standingDown
           | .resumeOffer _ => .resumeOffer)
         lastOnAir := some b.onAir
         lastSwitch := match b.main with
           | .resumeOffer x => some x
           | _ => none }) ∧
      (let base : State := { s with feed := { s.feed with framing := .wait } }
      base.Watches t b.channel w ∧
        (ch.tk.state ≠ .handingBack → (ch.tk.state = .onAir → ∀ x, b.main ≠ .resumeOffer x) → ∃ v : State,
          base.WatchMoved v b.channel ch w (if ch.watch.forced then .forced else .standingDown) ∧
          t = { v with mirrorReqs := s.mirrorReqs ++ [.drift b.channel b.version b.onAir, .sweep b.channel] }))

/-- The silence deadlines: DOUBTFUL sets the quiet mark in every state and takes LIVE to DOUBTFUL, LOST takes LIVE and DOUBTFUL to
LOST, and the return deadline takes RETURNING back to LOST with a return count of 0, with CHANNEL_LOST and its cause at each entry
to LOST. A window end sets the last-window-met mark by the count and the window minimum, clears the count and arms the next end 8
beacon periods later; a count below the minimum takes LIVE to DOUBTFUL, a count that meets it takes DOUBTFUL to LIVE when the quiet
mark is clear, and no other state changes. Every change of state is reported to the takeover unit, which checks, leaves or keeps the
channel as its state says. In other states a deadline that is reached is spent. That a deadline or window end not reached does
nothing is the model's choice (log 2). -/
def Obligations.WatchDeadlinesAct : Prop :=
  ∀ (s : State) (c : Channel) (ch : Chan), s.ReportsSettled → s.ChannelsDistinct → s.chan? c = some ch →
    let moved (i : Instr) (w : WatchRec) (cause : LostCause) : Prop :=
      ∃ t : State, exec i s = .next t ∧ s.Watches t c w ∧ s.WatchMoved t c ch w cause ∧
        (w.state = .lost → s.LostNoticed t c cause)
    (due ch.watch.doubtfulDl s.tb.now = true →
      (ch.watch.state = .live →
        moved (.doubtfulDeadline c) { ch.watch with doubtfulDl := none, quiet := true, state := .doubtful } .silence) ∧
      (ch.watch.state ≠ .live → exec (.doubtfulDeadline c) s =
        .next (s.modWatch c (fun w => { w with doubtfulDl := none, quiet := true })))) ∧
    (due ch.watch.lostDl s.tb.now = true →
      ((ch.watch.state = .live ∨ ch.watch.state = .doubtful) →
        moved (.lostDeadline c) { ch.watch with lostDl := none, state := .lost } .silence) ∧
      (ch.watch.state ≠ .live → ch.watch.state ≠ .doubtful → exec (.lostDeadline c) s =
        .next (s.modWatch c (fun w => { w with lostDl := none })))) ∧
    (due ch.watch.returnDl s.tb.now = true →
      (ch.watch.state = .returning →
        moved (.returnDeadline c) { ch.watch with returnDl := none, returns := 0, state := .lost } .returnBroken) ∧
      (ch.watch.state ≠ .returning → exec (.returnDeadline c) s =
        .next (s.modWatch c (fun w => { w with returnDl := none })))) ∧
    (due ch.watch.doubtfulDl s.tb.now = false → exec (.doubtfulDeadline c) s = .next s) ∧
    (due ch.watch.lostDl s.tb.now = false → exec (.lostDeadline c) s = .next s) ∧
    (due ch.watch.returnDl s.tb.now = false → exec (.returnDeadline c) s = .next s) ∧
    ∀ d : Time, ch.watch.windowEnd = some d →
      (atOrBefore d s.tb.now = false → exec (.windowEnd c) s = .next s) ∧
      (atOrBefore d s.tb.now = true →
        let w : WatchRec := { ch.watch with
          met := decide (ch.part.windowMin ≤ ch.watch.windowCount)
          windowCount := 0
          windowEnd := some (d + BitVec.ofNat 48 (8 * (ch.part.beaconPeriod * 240)))
          state :=
            if ch.watch.state = .live ∧ ch.watch.windowCount < ch.part.windowMin then .doubtful
            else if ch.watch.state = .doubtful ∧ ch.part.windowMin ≤ ch.watch.windowCount ∧ ch.watch.quiet = false then .live
            else ch.watch.state }
        ∃ t : State, exec (.windowEnd c) s = .next t ∧ s.Watches t c w ∧ s.WatchMoved t c ch w .silence)

/-- FORCE_LOST sets the forced mark. It takes LIVE, DOUBTFUL and RETURNING to LOST with a return count of 0 and CHANNEL_LOST with the
cause FORCED, and the takeover unit is told; in UNSEEN and LOST nothing else changes. It is answered DONE in every watch state. -/
def Obligations.ForceLostActs : Prop :=
  ∀ (s : State) (c : Channel) (ch : Chan), s.locked = true → s.ReportsSettled → s.ChannelsDistinct → s.chan? c = some ch →
    ((ch.watch.state = .live ∨ ch.watch.state = .doubtful ∨ ch.watch.state = .returning) →
      ∃ t : State, exec (.forceLost [c]) s = .next (t.done []) ∧
        s.Watches t c { ch.watch with forced := true, returns := 0, state := .lost } ∧ s.LostNoticed t c .forced ∧
        s.WatchMoved t c ch { ch.watch with forced := true, returns := 0, state := .lost } .forced) ∧
    ((ch.watch.state = .unseen ∨ ch.watch.state = .lost) →
      exec (.forceLost [c]) s = .next ((s.modWatch c (fun w => { w with forced := true })).done []))

/-- UNFORCE of a profiled channel after START clears the forced mark, is answered DONE, and changes nothing else. -/
def Obligations.UnforceClearsMark : Prop :=
  ∀ (s : State) (c : Channel) (ch : Chan), s.locked = true → s.chan? c = some ch →
    exec (.unforce [c]) s = .next ((s.modWatch c (fun w => { w with forced := false })).done [])

/-! ## The site bus -/

/-- The receiver: eleven recessive bits take it from HUNT to FREE and do nothing elsewhere; outside FREE and RECEIVING no frame of
any kind is taken; a header with a length above 12 and a frame that is not good are counted malformed and leave it in HUNT; bits that
make a good frame act as the frame, and the frame as the CLAIM, HOLD, RELEASE or STATUS of its station; and a good frame with the own
station number raises STATION_CLASH and does nothing else. That a row carries a frame's bits and that they act as the frame they make is the model's reading (log 4), as is the HUNT bit count after a
malformed frame (log 41). -/
def Obligations.ReceiverJudgesFrames : Prop :=
  ∀ s : State,
    (s.bus.rx = .hunt → exec .busFree s = .next { s with bus := { s.bus with rx := .free, huntCount := 0 } }) ∧
    (s.bus.rx ≠ .hunt → exec .busFree s = .next s) ∧
    (∀ (m : Byte) (st : Station) (c : Channel),
      exec (.clashFrame ⟨m, st, .claim c⟩) s = exec (.claimFrame m st c) s ∧
      (∀ hs v e, exec (.clashFrame ⟨m, st, .hold c hs v e⟩) s = exec (.holdFrame m st c hs v e) s) ∧
      (∀ r, exec (.clashFrame ⟨m, st, .release c r⟩) s = exec (.releaseFrame m st c r) s) ∧
      ∀ b, exec (.clashFrame ⟨0, st, .status b⟩) s = exec (.statusFrame st b) s) ∧
    (s.bus.rx ≠ .free → s.bus.rx ≠ .receiving → exec .busHeaderMalformed s = .next s ∧
      (∀ raw, exec (.malformedFrame raw) s = .next s) ∧ (∀ f, exec (.clashFrame f) s = .next s) ∧
      ∀ (m : Byte) (st : Station) (c : Channel), exec (.claimFrame m st c) s = .next s ∧
        (∀ hs v e, exec (.holdFrame m st c hs v e) s = .next s) ∧ (∀ r, exec (.releaseFrame m st c r) s = .next s) ∧
        ∀ b, exec (.statusFrame st b) s = .next s) ∧
    ((s.bus.rx = .free ∨ s.bus.rx = .receiving) →
      exec .busHeaderMalformed s = .next { s with bus := { s.bus with
        malformed := min 65535 (s.bus.malformed + 1), rx := .hunt, huntCount := 0 } } ∧
      (∀ raw, parseFrame raw = none → exec (.malformedFrame raw) s = .next { s with bus := { s.bus with
        malformed := min 65535 (s.bus.malformed + 1), rx := .hunt
        huntCount := if raw.endRecessive = true ∧ raw.body.length ≤ 12 then 1 else 0 } }) ∧
      (∀ raw f, parseFrame raw = some f → exec (.malformedFrame raw) s = exec (.clashFrame f) s) ∧
      ∀ f, frameFieldsOk f = true → f.station = s.bus.own → exec (.clashFrame f) s =
        .next (State.raise { s with bus := { s.bus with rx := .hunt, huntCount := 1 } } .stationClash
          (BitVec.ofNat 8 f.station.toNat) (.stationClash (BitVec.ofNat 3 (frameClass f.body)))))

/-- A STATUS of another station updates its peer entry and the heard-set, and nothing else. A CLAIM of another station is heard and
recorded where none stands, where it is better, from the same station or where the recorded one is past its expiry. A channel that
contends with a worse key yields: its claim withdrawn, its outlet freed, the yield deadline two claim windows ahead, and a pass of
the takeover check runs. Otherwise nothing else changes, and a CLAIM of a channel not profiled is only heard. That a recorded claim
still stands at the very moment of its expiry is the model's reading of R104 (log 10). -/
def Obligations.StatusAndClaimFramesAct : Prop :=
  ∀ (s : State) (st : Station), (s.bus.rx = .free ∨ s.bus.rx = .receiving) → st ≠ s.bus.own →
    (∀ b : StatusBody, statusOk b = true → exec (.statusFrame st b) s = .next (s.heard ⟨0, st, .status b⟩)) ∧
    ∀ (m : Byte) (c : Channel), meritOk m = true → channelOk c = true →
      (s.chan? c = none → exec (.claimFrame m st c) s = .next (s.heard ⟨m, st, .claim c⟩)) ∧
      ∀ ch : Chan, s.chan? c = some ch →
        let fresh : ForeignClaim :=
          { key := ⟨m, st⟩, heard := s.tb.now, expiry := s.tb.now + BitVec.ofNat 48 (2 * (s.sp.claimWindow * 240)) }
        let u := if ch.tk.best.all (fun f => Key.better ⟨m, st⟩ f.key || st == f.key.station || before f.expiry s.tb.now) then
            (s.heard ⟨m, st, .claim c⟩).modTk c (fun tk => { tk with best := some fresh })
          else s.heard ⟨m, st, .claim c⟩
        ((ch.tk.state = .contending → ch.tk.ownClaim.all (fun k => !Key.better ⟨m, st⟩ k) = true) →
          exec (.claimFrame m st c) s = .next u) ∧
        (ch.tk.state = .contending → ch.tk.ownClaim.any (fun k => Key.better ⟨m, st⟩ k) = true →
          ∃ (t : State) (x : Chan), exec (.claimFrame m st c) s = .next t ∧ (u.yieldedToClaim c ch.tk.outlet).Passed t ∧
            u.ClaimsOnly t ∧ t.chan? c = some x ∧ x.tk.state = .yielded ∧ x.tk.outlet = none ∧ x.tk.ownClaim = none ∧
            x.tk.claimSent = false ∧ x.tk.windowEnd = none ∧ x.tk.yieldDl = some fresh.expiry)

/-- A HOLD of another station for a channel that this station does not hold is heard and recorded where no holder stands, where it
is the holder's own or better. The first holder makes CONTENDING yield with no yield deadline armed, after which a pass runs,
disarms the yield deadline of YIELDED, and runs the check in IDLE and BLOCKED. For a held channel the keys are compared: a HOLD that
is not better is answered by an own HOLD at once; a better one stands the channel down, its outlet stopped now, its RELEASE offered,
its run closed with its as-run record, its records unpinned and the list resolved without its anchor, and DUAL_HOLDER raised. What a mirror with waiting requests does first is stated apart. The
frames played of an as-run record (logs 7, 46), and that the subject of DUAL_HOLDER is the channel, with the station in its code
(log 43), are the model's choices. -/
def Obligations.HoldFrameActs : Prop :=
  ∀ (s : State) (m : Byte) (st : Station) (c : Channel) (hs : HoldState) (v : Version) (e : EventId),
    (s.bus.rx = .free ∨ s.bus.rx = .receiving) → st ≠ s.bus.own → meritOk m = true → channelOk c = true → s.ReportsSettled →
    s.mirrorReqs = [] →
    let u := s.heard ⟨m, st, .hold c hs v e⟩
    let h : Holder :=
      { key := ⟨m, st⟩, state := hs, version := v, event := e, lastHold := s.tb.now
        deadline := s.tb.now + BitVec.ofNat 48 (3 * (s.sp.holdPeriod * 240)) }
    (s.chan? c = none → exec (.holdFrame m st c hs v e) s = .next u) ∧
    ∀ ch : Chan, s.chan? c = some ch →
      let r := if ch.tk.holder.all (fun g => g.key.station == st || Key.better ⟨m, st⟩ g.key) then
          u.modTk c (fun tk => { tk with holder := some h })
        else u
      (ch.tk.state = .detached → exec (.holdFrame m st c hs v e) s = .next u) ∧
      (ch.tk.state = .contending → ∃ (t : State) (x : Chan), exec (.holdFrame m st c hs v e) s = .next t ∧
        (r.leftContending c ch.tk.outlet .yielded).Passed t ∧ r.ClaimsOnly t ∧ t.chan? c = some x ∧
        x.tk.state = .yielded ∧ x.tk.outlet = none ∧ x.tk.ownClaim = none ∧ x.tk.claimSent = false ∧
        x.tk.windowEnd = none ∧ x.tk.yieldDl = ch.tk.yieldDl) ∧
      (ch.tk.state = .yielded → exec (.holdFrame m st c hs v e) s =
        .next (if ch.tk.holder = none then r.modTk c (fun tk => { tk with yieldDl := none }) else r)) ∧
      (ch.tk.state.checked = true →
        (ch.tk.holder = none → ∃ t : State, exec (.holdFrame m st c hs v e) s = .next t ∧
          r.Checked t c { ch with tk := { ch.tk with holder := some h } }) ∧
        (ch.tk.holder ≠ none → exec (.holdFrame m st c hs v e) s = .next r)) ∧
      ∀ own : Key, ch.tk.state.holding = true → ch.tk.ownHold = some own →
        (Key.better ⟨m, st⟩ own = false → exec (.holdFrame m st c hs v e) s =
          .next ((u.offerFrame ⟨own.merit, s.bus.own,
              .hold c (holdStateOf ch.tk.state) (ch.mirror.version.getD 0) ch.currentEvent⟩).modTk c (fun tk =>
            { tk with holdDl := some (s.tb.now + BitVec.ofNat 48 (s.sp.holdPeriod * 240)) }))) ∧
        (Key.better ⟨m, st⟩ own = true → ∃ (t : State) (x : Chan), exec (.holdFrame m st c hs v e) s = .next t ∧
          t.chan? c = some x ∧ x.run = none ∧
          x.tk = { ch.tk with
            state := if ch.tk.inhibit then .blocked .inhibited else .yielded
            handback := none, ownHold := none, outlet := none, holdDl := none, yieldDl := none, holder := some h } ∧
          t.bus = (u.offerRelease c own .stoodDown).bus ∧
          s.Noticed t 0 c (.dualHolder st (holdStateOf ch.tk.state)) ∧
          (∀ o, ch.tk.outlet = some o → (s.outlet o).state = .reserved ∨ (s.outlet o).state = .air →
            t.outlet o = (s.outlet o).stoppedNow) ∧
          (∀ p, ch.tk.outlet ≠ some p → t.outlet p = s.outlet p) ∧
          s.RecordsOnAir t ch s.tb.now .stoodDown ∧ s.RunEnded t ch x ∧ s.SameWatches t ∧ s.SameMirror t)

/-- The transmit queue takes an offered frame by its field, behind frames of equal field; the frame replaces one of its kind, joins
a queue of fewer than 8, and at 8 drops the last frame or is itself dropped, and is counted either way. The frame of a failed
attempt goes back the same way, and is discarded when withdrawn or replaced meanwhile; that it goes back before frames of equal field
is the model's reading (log 11). A RELEASE is offered with the merit of the holding key it releases, the own station, the channel and
the reason, unless one for the channel is queued or under attempt, and then the new one is not offered. -/
def Obligations.OfferedFrameIsPlaced : Prop :=
  (∀ (s : State) (c : Channel) (k : Key) (why : ReleaseReason),
    let waits := (∃ f ∈ s.bus.queue, ∃ x, f.body = .release c x) ∨ ∃ a x, s.bus.attempt = some a ∧ a.frame.body = .release c x
    (waits → s.offerRelease c k why = s) ∧
    (¬ waits → s.offerRelease c k why = s.offerFrame ⟨k.merit, s.bus.own, .release c why⟩)) ∧
  ∀ (s : State) (f : Frame), s.bus.queue.Pairwise (fun x y => frameField x ≤ frameField y) → s.bus.queue.length ≤ 8 →
    (s.bus.queue.any (fun g => coalesces f.body g.body) = true → ∃ p q : List Frame,
      s.bus.queue.filter (fun g => !coalesces f.body g.body) = p ++ q ∧
      (∀ g ∈ p, frameField g ≤ frameField f) ∧ (∀ g ∈ q, frameField f < frameField g) ∧
      s.offerFrame f = { s with bus := { s.bus with queue := p ++ f :: q } } ∧
      ∀ w, s.returnFrame ⟨f, w⟩ = s) ∧
    (s.bus.queue.any (fun g => coalesces f.body g.body) = false → s.returnFrame ⟨f, true⟩ = s ∧
      (s.bus.queue.length < 8 → ∃ p q p' q' : List Frame, s.bus.queue = p ++ q ∧ s.bus.queue = p' ++ q' ∧
        (∀ g ∈ p, frameField g ≤ frameField f) ∧ (∀ g ∈ q, frameField f < frameField g) ∧
        (∀ g ∈ p', frameField g < frameField f) ∧ (∀ g ∈ q', frameField f ≤ frameField g) ∧
        s.offerFrame f = { s with bus := { s.bus with queue := p ++ f :: q } } ∧
        s.returnFrame ⟨f, false⟩ = { s with bus := { s.bus with queue := p' ++ f :: q' } }) ∧
      ∀ (front : List Frame) (last : Frame), s.bus.queue = front ++ [last] → s.bus.queue.length = 8 →
        (frameField f < frameField last → ∃ p q p' q' : List Frame, front = p ++ q ∧ front = p' ++ q' ∧
          (∀ g ∈ p, frameField g ≤ frameField f) ∧ (∀ g ∈ q, frameField f < frameField g) ∧
          (∀ g ∈ p', frameField g < frameField f) ∧ (∀ g ∈ q', frameField f ≤ frameField g) ∧
          s.offerFrame f =
            { s with bus := { s.bus with queue := p ++ f :: q, drops := min 65535 (s.bus.drops + 1) } } ∧
          s.returnFrame ⟨f, false⟩ =
            { s with bus := { s.bus with queue := p' ++ f :: q', drops := min 65535 (s.bus.drops + 1) } }) ∧
        (frameField last ≤ frameField f →
          s.offerFrame f = { s with bus := { s.bus with drops := min 65535 (s.bus.drops + 1) } } ∧
          s.returnFrame ⟨f, false⟩ = { s with bus := { s.bus with drops := min 65535 (s.bus.drops + 1) } }))

/-- An attempt takes the head of the queue in ACTIVE and the first frame that is not a CLAIM in LISTENING_IN, on a free bus without
an attempt, and none otherwise. It ends by an arbitration loss or a bit fault, each counted and the frame returned, or sent whole,
which clears the fault count and opens the claim window of a contending channel whose CLAIM of its own key it was: the claim window,
or a quarter of it when no present peer lists the channel. That a bit fault
in the start bit, as in any other, leaves the receiver on the frame is the model's choice (log 48). -/
def Obligations.AttemptsAndTheirEnds : Prop :=
  ∀ s : State,
    (∀ (p q : List Frame) (f : Frame), s.bus.rx = .free → s.bus.attempt = none → s.bus.queue = p ++ f :: q →
      (s.bus.state = .active ∧ p = []) ∨
        (s.bus.state = .listeningIn ∧ isClaim f.body = false ∧ ∀ g ∈ p, isClaim g.body = true) →
      exec .attempt s = .next { s with bus := { s.bus with
        queue := p ++ q, attempt := some ⟨f, false⟩, driving := frameBits f, rx := .receiving, huntCount := 0 } }) ∧
    ((s.bus.rx ≠ .free ∨ s.bus.attempt ≠ none ∨ s.bus.state = .quiet ∨ s.bus.state = .detached ∨ s.bus.queue = [] ∨
      (s.bus.state = .listeningIn ∧ ∀ g ∈ s.bus.queue, isClaim g.body = true)) → exec .attempt s = .next s) ∧
    (s.bus.attempt = none → exec .arbitrationLoss s = .next s ∧ exec .bitFault s = .next s ∧ exec .sentWhole s = .next s) ∧
    ∀ a : Attempt, s.bus.attempt = some a →
      exec .arbitrationLoss s = .next (State.returnFrame { s with bus := { s.bus with
        attempt := none, driving := [], losses := min 65535 (s.bus.losses + 1) } } a) ∧
      (s.bus.faults + 1 < 16 → exec .bitFault s = .next (State.returnFrame { s with bus := { s.bus with
        attempt := none, driving := [], faults := s.bus.faults + 1 } } a)) ∧
      (let w : State := { s with bus := { s.bus with attempt := none, driving := [], faults := 0, rx := .hunt, huntCount := 1 } }
      (isClaim a.frame.body = false → exec .sentWhole s = .next w) ∧
      ∀ c : Channel, a.frame.body = .claim c →
        (s.chan? c = none → exec .sentWhole s = .next w) ∧
        ∀ ch : Chan, s.chan? c = some ch →
          (ch.tk.state = .contending → ch.tk.ownClaim.map (·.merit) = some a.frame.merit →
            exec .sentWhole s = .next (w.modTk c (fun tk =>
              { tk with
                claimSent := true
                windowEnd := some (s.tb.now + BitVec.ofNat 48
                  (if s.peerLists c then s.sp.claimWindow * 240 else s.sp.claimWindow * 240 / 4)) }))) ∧
          ((ch.tk.state ≠ .contending ∨ ch.tk.ownClaim.map (·.merit) ≠ some a.frame.merit) →
            exec .sentWhole s = .next w))

/-- A STATUS carries whether the bus is ACTIVE, the number of FREE outlets, the time class, the number of channels in JOINING, ON_AIR
or HANDING_BACK, and the serve set: channel c at bit c - 1 when its serving rank is 14 or better, it is not inhibited, its copy is
not EMPTY, and an outlet is FREE, or RESERVED or AIR for it. The end of QUIET clears the fault count, offers a STATUS and arms the
status deadline: back to LISTENING_IN where it came from with its deadline still to come, else on to ACTIVE. LISTENING_IN passes to
ACTIVE at its deadline, which QUIET only notes. Each entry to ACTIVE runs a pass of the takeover check, every channel in IDLE or BLOCKED
in order of rank, and changes claims alone beside. The status deadline recurs, one status period after station time, and offers a
STATUS outside QUIET, and a silent peer is reported. BUS_RESTART, after START,
is answered DONE with the controller in LISTENING_IN, its deadlines armed, the counts of consecutive faults and lost arbitrations 0,
the peers ABSENT and the heard-set empty. That a deadline not reached does nothing (log 2), and that the LISTENING_IN
deadline is noted in QUIET and the STATUS offered before the pass (log 12), are the model's choices. -/
def Obligations.BusDeadlinesAct : Prop :=
  ∀ s : State,
    (∃ b : StatusBody, s.offerStatus = s.offerFrame ⟨0, s.bus.own, .status b⟩ ∧ (b.active = true ↔ s.bus.state = .active) ∧
      b.freeOutlets = ((List.finRange 4).filter (fun o => decide ((s.outlet o).state = .free))).length ∧
      b.timeClass = s.tb.state.timeClass ∧
      b.held = (s.chans.filter (fun ch => decide (ch.tk.state = .joining ∨ ch.tk.state = .onAir ∨ ch.tk.state = .handingBack))).length ∧
      ∀ i < 64, b.serve.getLsbD i = true ↔ ∃ ch ∈ s.chans, ch.part.channel.toNat = i + 1 ∧ ch.part.rank ≤ 14 ∧
        ch.tk.inhibit = false ∧ ch.mirror.condition ≠ .empty ∧ ∃ o : OutletNo, (s.outlet o).state = .free ∨
          (((s.outlet o).state = .reserved ∨ (s.outlet o).state = .air) ∧ (s.outlet o).channel = some ch.part.channel)) ∧
    (let quiet (st : BusState) : State :=
      let w := State.offerStatus { s with bus := { s.bus with state := st, faults := 0, quietDl := none } }
      { w with bus := { w.bus with statusDl := some (s.tb.now + BitVec.ofNat 48 (s.sp.statusPeriod * 240)) } }
    (s.bus.state = .quiet → due s.bus.quietDl s.tb.now = true →
      (s.bus.quietFromListening = true → s.bus.listeningDl ≠ none → exec .quietDeadline s = .next (quiet .listeningIn)) ∧
      ((s.bus.quietFromListening = false ∨ s.bus.listeningDl = none) → ∃ t : State, exec .quietDeadline s = .next t ∧
        (quiet .active).Passed t ∧ (quiet .active).ClaimsOnly t)) ∧
    ((s.bus.state ≠ .quiet ∨ due s.bus.quietDl s.tb.now = false) → exec .quietDeadline s = .next s)) ∧
    (due s.bus.listeningDl s.tb.now = true →
      (s.bus.state = .listeningIn → ∃ t : State, exec .listeningInDeadline s = .next t ∧
        State.Passed { s with bus := { s.bus with listeningDl := none, state := .active } } t ∧
        State.ClaimsOnly { s with bus := { s.bus with listeningDl := none, state := .active } } t) ∧
      (s.bus.state ≠ .listeningIn → exec .listeningInDeadline s =
        .next { s with bus := { s.bus with listeningDl := none } })) ∧
    (due s.bus.listeningDl s.tb.now = false → exec .listeningInDeadline s = .next s) ∧
    (∀ d : Time, s.bus.statusDl = some d →
      (let w : State := { s with bus := { s.bus with statusDl := some (s.tb.now + BitVec.ofNat 48 (s.sp.statusPeriod * 240)) } }
      (atOrBefore d s.tb.now = true →
        (s.bus.state = .listeningIn ∨ s.bus.state = .active → exec .statusDeadline s = .next w.offerStatus) ∧
        (s.bus.state ≠ .listeningIn → s.bus.state ≠ .active → exec .statusDeadline s = .next w))) ∧
      (atOrBefore d s.tb.now = false → exec .statusDeadline s = .next s)) ∧
    (∀ st : Station,
      (due (s.peer st).silenceDl s.tb.now = true → exec (.peerSilenceDeadline st) s =
        .next ((s.setPeer st { s.peer st with presence := .silent, silenceDl := none }).raise .peerSilent
          (BitVec.ofNat 8 st.toNat) .plain)) ∧
      (due (s.peer st).silenceDl s.tb.now = false → exec (.peerSilenceDeadline st) s = .next s)) ∧
    (s.locked = true → ∃ t : State, exec (.busRestart []) s = .next (t.done []) ∧ t.bus.state = .listeningIn ∧
      t.bus.listeningDl = some (s.tb.now + BitVec.ofNat 48 (2 * (s.sp.statusPeriod * 240))) ∧
      t.bus.statusDl = some (s.tb.now + BitVec.ofNat 48 (s.sp.statusPeriod * 240)) ∧
      t.bus.quietDl = none ∧ t.bus.driving = [] ∧ t.bus.faults = 0 ∧ t.bus.losses = 0 ∧ t.bus.rx = .hunt ∧ t.bus.heard = 0 ∧
      t.bus.malformed = s.bus.malformed ∧
      t.bus.peers = Vector.replicate 16 { presence := .absent, lastFrame := none, silenceDl := none, status := none })

/-- The sixteenth bit fault in a row enters QUIET with its deadline and BUS_QUIET, and BUS_RESTART clears the bus controller and
enters LISTENING_IN. From ACTIVE each takes every contending channel, one after another, to IDLE: its CLAIM leaves the transmit queue
and is withdrawn where it is under attempt, its reserved outlet is FREE, and its claim fields are absent. Then a pass of the takeover
check runs, in which, the bus not being ACTIVE, no channel contends again, and claims alone change beside. -/
def Obligations.LeavingActiveEndsEveryClaim : Prop :=
  ∀ s : State,
    let ended (t : State) : Prop :=
      (∀ c x, t.chan? c = some x → x.tk.state ≠ .contending) ∧
      ∀ c ch, s.chan? c = some ch → ch.tk.state = .contending → ∃ x, t.chan? c = some x ∧
        (x.tk.state = .idle ∨ x.tk.state = .blocked .awaitLive) ∧ x.tk.ownClaim = none ∧ x.tk.claimSent = false ∧
        x.tk.windowEnd = none ∧ x.tk.outlet = none
    (∀ a : Attempt, s.bus.attempt = some a → 16 ≤ s.bus.faults + 1 →
      let w := State.returnFrame { s with bus := { s.bus with attempt := none, driving := [], faults := s.bus.faults + 1 } } a
      let q := State.raise { w with bus := { w.bus with
        state := .quiet, quietFromListening := s.bus.state == .listeningIn, quietDl := some (s.tb.now + 240000) } } .busQuiet 0
        (.busQuiet (s.bus.state == .listeningIn))
      (s.bus.state ≠ .active → exec .bitFault s = .next q) ∧
      (s.bus.state = .active → ∃ t : State, exec .bitFault s = .next t ∧ q.ClaimsOnly t ∧ ended t ∧
        ∃ (u : State) (freed : Bool), q.InRankOrder State.LeaveStep u freed ∧ q.ClaimsOnly u ∧ ended u ∧ u.Passed t)) ∧
    (s.locked = true →
      let w := State.offerStatus { s with bus := { s.bus with
        state := .listeningIn, listeningDl := some (s.tb.now + BitVec.ofNat 48 (2 * (s.sp.statusPeriod * 240)))
        attempt := none, driving := [], queue := [], faults := 0, losses := 0, quietDl := none, rx := .hunt, huntCount := 0
        peers := Vector.replicate 16 { presence := .absent, lastFrame := none, silenceDl := none, status := none }
        heard := 0 } }
      let r : State := { w with bus := { w.bus with
        statusDl := some (s.tb.now + BitVec.ofNat 48 (s.sp.statusPeriod * 240)) } }
      (s.bus.state ≠ .active → exec (.busRestart []) s = .next (r.done [])) ∧
      (s.bus.state = .active → ∃ t : State, exec (.busRestart []) s = .next (t.done []) ∧ r.ClaimsOnly t ∧
        ended t ∧ ∃ (u : State) (freed : Bool), r.InRankOrder State.LeaveStep u freed ∧ r.ClaimsOnly u ∧ ended u ∧
          u.Passed t))

/-! ## Claims and takeover -/

/-- ALLOW clears the inhibit mark and INHIBIT sets it. In IDLE and BLOCKED the takeover check then gives the channel the first
outcome of its table: IDLE, BLOCKED with its reason, YIELDED, or CONTENDING with the lowest-numbered free outlet, its own key and
its CLAIM offered, unless a better unexpired claim makes it yield at once, which starts a pass. INHIBIT takes CONTENDING and YIELDED
to BLOCKED, the former with its claim withdrawn, its outlet freed and a pass; every other state keeps all but the mark. That a claim
still counts at the very moment of its expiry is the model's reading (log 10). -/
def Obligations.TakeoverCheckFollowsTable : Prop :=
  ∀ (s : State) (c : Channel) (ch : Chan), s.locked = true → s.chan? c = some ch →
    (let u := s.modTk c (fun tk => { tk with inhibit := false })
    (ch.tk.state.checked = true → ∃ t : State, exec (.allow [c]) s = .next (t.done []) ∧
      u.Checked t c { ch with tk := { ch.tk with inhibit := false } }) ∧
    (ch.tk.state.checked = false → exec (.allow [c]) s = .next (u.done []))) ∧
    (let u := s.modTk c (fun tk => { tk with inhibit := true })
    (ch.tk.state.checked = true → ∃ t : State, exec (.inhibit [c]) s = .next (t.done []) ∧
      u.Checked t c { ch with tk := { ch.tk with inhibit := true } }) ∧
    (ch.tk.state = .contending → ∃ (t : State) (x : Chan), exec (.inhibit [c]) s = .next (t.done []) ∧
      (u.leftContending c ch.tk.outlet (.blocked .inhibited)).Passed t ∧ u.ClaimsOnly t ∧
      t.chan? c = some x ∧ x.tk.outlet = none ∧ x.tk.ownClaim = none ∧ x.tk.claimSent = false ∧ x.tk.windowEnd = none ∧
      x.tk.state ≠ .contending ∧
      (ch.part.rank ≠ 15 → ch.watch.state = .lost → ch.tk.awaitLive = false → s.bus.state = .active →
        x.tk.state = .blocked .inhibited)) ∧
    (ch.tk.state = .yielded → exec (.inhibit [c]) s =
      .next ((u.modTk c (fun tk => { tk with state := .blocked .inhibited, yieldDl := none })).done [])) ∧
    (ch.tk.state.holding = true ∨ ch.tk.state = .detached → exec (.inhibit [c]) s = .next (u.done [])))

/-- The known holder becomes absent at its deadline and at a RELEASE of its recorded key, which sets the await-live mark when it
hands back and the watch is LOST; a channel that yielded is then IDLE and checked, as at a yield deadline without a holder, and
one in IDLE or BLOCKED is checked. Other RELEASE frames, and every RELEASE for a channel not profiled, are only heard. A foreign
claim that expires is forgotten, and a held channel offers its HOLD at each hold deadline, which recurs. Its next one
is one hold period after station time. That a deadline not reached does nothing (log 2), and that a claim still counts at the very
moment of its expiry (log 10), are the model's choices. -/
def Obligations.TakeoverDeadlinesAct : Prop :=
  ∀ (s : State) (c : Channel),
    (s.chan? c = none → ∀ (m : Byte) (st : Station) (r : ReleaseReason), (s.bus.rx = .free ∨ s.bus.rx = .receiving) →
      st ≠ s.bus.own → meritOk m = true → channelOk c = true →
      exec (.releaseFrame m st c r) s = .next (s.heard ⟨m, st, .release c r⟩)) ∧
    ∀ ch : Chan, s.chan? c = some ch →
    (∀ f : ForeignClaim, ch.tk.best = some f →
      (atOrBefore f.expiry s.tb.now = true →
        exec (.foreignClaimExpiry c) s = .next (s.modTk c (fun tk => { tk with best := none }))) ∧
      (atOrBefore f.expiry s.tb.now = false → exec (.foreignClaimExpiry c) s = .next s)) ∧
    (∀ h : Holder, ch.tk.holder = some h →
      (atOrBefore h.deadline s.tb.now = true → ∃ t : State, exec (.holderDeadline c) s = .next t ∧
        (s.modTk c (fun tk => { tk with holder := none })).HolderGone t c { ch with tk := { ch.tk with holder := none } }) ∧
      (atOrBefore h.deadline s.tb.now = false → exec (.holderDeadline c) s = .next s)) ∧
    (ch.tk.state = .yielded → ch.tk.holder = none → due ch.tk.yieldDl s.tb.now = true →
      ∃ t : State, exec (.yieldDeadline c) s = .next t ∧
        (s.modTk c (fun tk => { tk with state := .idle, yieldDl := none })).Checked t c
          { ch with tk := { ch.tk with state := .idle, yieldDl := none } }) ∧
    ((ch.tk.state ≠ .yielded ∨ ch.tk.holder ≠ none ∨ due ch.tk.yieldDl s.tb.now = false) →
      exec (.yieldDeadline c) s = .next s) ∧
    (∀ (d : Time) (k : Key), ch.tk.holdDl = some d → ch.tk.ownHold = some k → ch.tk.state.holding = true →
      (atOrBefore d s.tb.now = true → exec (.holdDeadline c) s =
        .next ((s.offerFrame ⟨k.merit, s.bus.own,
            .hold c (holdStateOf ch.tk.state) (ch.mirror.version.getD 0) ch.currentEvent⟩).modTk c (fun tk =>
          { tk with holdDl := some (s.tb.now + BitVec.ofNat 48 (s.sp.holdPeriod * 240)) }))) ∧
      (atOrBefore d s.tb.now = false → exec (.holdDeadline c) s = .next s)) ∧
    ∀ (m : Byte) (st : Station) (r : ReleaseReason), (s.bus.rx = .free ∨ s.bus.rx = .receiving) → st ≠ s.bus.own →
      meritOk m = true → channelOk c = true →
      let u := s.heard ⟨m, st, .release c r⟩
      (ch.tk.holder.map (·.key) = some ⟨m, st⟩ → ∃ t : State, exec (.releaseFrame m st c r) s = .next t ∧
        (u.modChan c (fun x => { x with tk := { x.tk with
          holder := none, awaitLive := if r = .handedBack then x.watch.state == .lost else x.tk.awaitLive } })).HolderGone t c
          { ch with tk := { ch.tk with
            holder := none, awaitLive := if r = .handedBack then ch.watch.state == .lost else ch.tk.awaitLive } }) ∧
      (ch.tk.holder.map (·.key) ≠ some ⟨m, st⟩ → exec (.releaseFrame m st c r) s = .next u)

/-- At its claim-window end a contending channel is JOINING: its holding key is its claim key, a HOLD in JOINING is offered and the
hold deadline armed, and the run record opens with the watch's estimate as its offset, the join result at the window's end as its
locked cued item, the record it names pinned, for filler up to an event that event's, and the join PREP at the head of the reserved
outlet's queue. What a mirror with waiting requests does first is stated apart. That nothing happens before the end, and that a copy
without a version is held at version 0, are the model's choices (logs 2, 21), and so is that the filler's item keeps that record's pin
(log 60). -/
def Obligations.ClaimWindowEndJoins : Prop :=
  ∀ (s : State) (c : Channel) (ch : Chan) (d : Time) (o : OutletNo) (k : Key), s.ReportsSettled → s.mirrorReqs = [] →
    s.chan? c = some ch →
    ch.tk.state = .contending → ch.tk.windowEnd = some d → ch.tk.outlet = some o → ch.tk.ownClaim = some k →
    (s.outlet o).state = .reserved → (s.outlet o).queue = [] →
    (atOrBefore d s.tb.now = false → exec (.claimWindowEnd c) s = .next s) ∧
    (atOrBefore d s.tb.now = true →
      let j := join { time := d, offset := ch.watch.estimate, period := ch.period, lead := s.sp.cueLead * ch.period
                      minTail := ch.part.minTail } ch.list
      let item := j.item ch.watch.estimate s.itemSerial
      ∃ (t : State) (x : Chan) (r : RunRec) (it : Item), exec (.claimWindowEnd c) s = .next t ∧ t.chan? c = some x ∧
        x.tk = { ch.tk with
          state := .joining, ownHold := some k, ownClaim := none, claimSent := false, windowEnd := none
          holdDl := some (s.tb.now + BitVec.ofNat 48 (s.sp.holdPeriod * 240)) } ∧
        t.bus = (s.offerFrame ⟨k.merit, s.bus.own, .hold c .joining (ch.mirror.version.getD 0) ch.currentEvent⟩).bus ∧
        x.run = some r ∧ r.outlet = o ∧ r.offset = ch.watch.estimate ∧ r.onAir = none ∧ r.goItem = none ∧ r.anchor = none ∧
        r.cueMoment = none ∧ r.manualHold = j.hold ∧ r.mode = (if j.hold.isSome then .awaitingGo else .running) ∧
        r.walkOrigin = item.event? ∧ r.cued = some it ∧ it = { item with locked := true, nextCue := it.nextCue } ∧
        (t.outlet o).state = .reserved ∧ (t.outlet o).queue.head? = some (.prep (ch.prepFor item true)) ∧
        x.list = ch.list.map (fun e => match item.source with
          | .event slot _ => if e.slot = slot then { e with pinned := true } else e
          | .filler => if item.upTo = some e.slot then { e with pinned := true } else e) ∧
        x.unlinked = ch.unlinked ∧ t.poolFree = s.poolFree ∧ s.Records t none ∧ s.SameWatches t ∧ s.SameMirror t)

/-! ## The join point -/

/-- A join enters an event that contains the join time at its first frame boundary at or after the join time, less than one period
later, with the min tail left to play and at its very start when it must be joined whole; or starts an event at its own start; or plays
whole frames of filler that end exactly at the next event's start. It enters the event that contains the join time exactly when that
event passes the tail test, and else walks on from behind it; without such an event it walks on from behind the last event that airs
and has ended by then, or from the head. The walk gives the next event at its own start, filler up to it, or open filler with its
manual hold, and whatever it gives starts at or after the join time and less than one period after it. The item that the runner cues
for it takes the main start, the local start by the offset, the entry, the frames skipped and the frames to play from the result, with
the record it names and the event's effective end, the next event's start or no end as its cued end. That a next event whose start
reads as before the join time is taken as lying ahead is the model's choice (log 53), and so is that the item of filler up to an event
keeps that event's record (log 60). -/
def Obligations.JoinEntersOnTheGrid : Prop :=
  ∀ (i : JoinInput) (l : List EventRec), 0 < i.period → i.period ≤ 10010 →
    (∀ (e : EventRec) (start : Time) (k n : Nat), join i l = .entry e start k n →
      e ∈ l ∧ e.eclipsed = false ∧ ∃ x, e.times = some x ∧ start = x.nomStart + BitVec.ofNat 48 (k * i.period) ∧
        diff x.nomStart i.joinTime ≤ 0 ∧ diff i.joinTime x.effEnd < 0 ∧
        0 ≤ diff start i.joinTime ∧ diff start i.joinTime < i.period ∧ i.minTail ≤ n ∧ e.effFrames i.period = some (k + n) ∧
        (e.joinWhole = true → k = 0)) ∧
    (∀ (e : EventRec) (start : Time) (n : Nat), join i l = .eventStart e start n →
      e ∈ l ∧ e.eclipsed = false ∧ e.effFrames i.period = some n ∧ (∃ x, e.times = some x ∧ start = x.nomStart) ∧
        0 ≤ diff start i.joinTime ∧ diff start i.joinTime < i.period) ∧
    (∀ (e : EventRec) (start next : Time) (f : Nat), join i l = .fillerThen e start next f →
      0 < f ∧ start + BitVec.ofNat 48 (f * i.period) = next ∧
        e ∈ l ∧ e.eclipsed = false ∧ (∃ x, e.times = some x ∧ x.nomStart = next) ∧
        0 ≤ diff start i.joinTime ∧ diff start i.joinTime < i.period) ∧
    (∀ (start : Time) (hold : Option EventId), join i l = .fillerOpen start hold → start = i.joinTime ∧
      ∀ id, hold = some id → ∃ e ∈ l, e.times = none ∧ e.data.start = .manual ∧ e.data.id = id) ∧
    (∀ (offset : Time) (serial : Nat),
      let event (e : EventRec) (start : Time) (k n : Nat) : Item :=
        { chosenItem (.event e.slot e.data.id) offset start (e.data.entry.toNat + k) n (e.times.map (·.effEnd)) serial with
          skipped := k, nextCue := e.data.cues.findIdx (fun cue => decide (k ≤ cue.offset.toNat)) }
      (join i l).item offset serial = match join i l with
        | .entry e start k n => event e start k n
        | .eventStart e start n => event e start 0 n
        | .fillerThen e start next f => { chosenItem .filler offset start 0 f (some next) serial with upTo := some e.slot }
        | .fillerOpen start _ => chosenItem .filler offset start 0 0 none serial) ∧
    let contains (e : EventRec) : Prop := e.eclipsed = false ∧ ∃ x, e.times = some x ∧
      diff x.nomStart i.joinTime ≤ 0 ∧ diff i.joinTime x.effEnd < 0
    let ended (e : EventRec) : Prop := e.eclipsed = false ∧ ∃ x, e.times = some x ∧ diff x.effEnd i.joinTime ≤ 0
    (∀ (p q : List EventRec) (e : EventRec) (x : Times) (n k : Nat), l = p ++ e :: q → (∀ y ∈ p, ¬ contains y) → contains e →
      e.times = some x → e.effFrames i.period = some n →
      (i.joinTime - x.nomStart).toNat ≤ k * i.period → k * i.period < (i.joinTime - x.nomStart).toNat + i.period →
      let passes := k + i.minTail ≤ n ∧ (e.joinWhole = true → k = 0)
      (passes → join i l = .entry e (x.nomStart + BitVec.ofNat 48 (k * i.period)) k (n - k)) ∧
      (¬ passes → i.Walked q (join i l))) ∧
    ∀ p q : List EventRec, l = p ++ q → (∀ e ∈ l, ¬ contains e) → (p = [] ∨ ∃ e, p.getLast? = some e ∧ ended e) →
      (∀ e ∈ q, ¬ ended e) → i.Walked q (join i l)

/-! ## The runner -/

/-- At its cue moment a chosen item is locked: it becomes the walk origin when it is an event, the origin that the lock displaces is
kept, its cue moment is disarmed and its PREP joins the outlet's queue; at a full queue the PREP fails MISSED at once, with CUE_FAULT
and a MISSED as-run record of the item. The first due side cue is offered to the outlet when its time lies after now and before the
end that holds for its item and the cue is live, and is passed over otherwise; offered, it joins the queue, fails MISSED with CUE_FAULT
at a full queue, and is dropped by an outlet in STOPPING or FAULTED. That nothing happens where nothing is due, which of several due
side cues goes first, and that the displaced origin is kept, are the model's choices (logs 2, 33, 16). -/
def Obligations.RunnerMomentsIssueCommands : Prop :=
  ∀ (s : State) (c : Channel) (ch : Chan) (r : RunRec), s.ReportsSettled → s.chan? c = some ch → ch.run = some r →
    (due r.cueMoment s.tb.now = false → exec (.cueMoment c) s = .next s) ∧
    (∀ it : Item, due r.cueMoment s.tb.now = true → r.cued = some it → it.locked = false → s.mirrorReqs = [] →
      (s.outlet r.outlet).state ≠ .stopping → (s.outlet r.outlet).state ≠ .faulted →
      ((s.outlet r.outlet).queue.length < 4 →
        ∃ (t : State) (x : Chan) (it' : Item), exec (.cueMoment c) s = .next t ∧ t.chan? c = some x ∧
          it' = { it with locked := true, nextCue := it'.nextCue } ∧
          x = { ch with run := some { r with
            cued := some it', cueMoment := none, cuedOrigin := r.walkOrigin
            walkOrigin := match it.source with
              | .event _ id => some id
              | .filler => r.walkOrigin } } ∧
          (s.outlet r.outlet).queue ++ [.prep (ch.prepFor it false)] <+: (t.outlet r.outlet).queue ∧
          (∀ p, p ≠ r.outlet → t.outlet p = s.outlet p) ∧ t.bus = s.bus ∧ s.SameOutside t) ∧
      (4 ≤ (s.outlet r.outlet).queue.length → (s.outlet r.outlet).channel = some c → s.asrun.length < 64 →
        ∃ t : State, exec (.cueMoment c) s = .next t ∧ s.asrun ++ [asRunMissed ch r it] <+: t.asrun ∧
          t.notices[5].pending = true ∧ min 255 (s.notices[5].count + 1) ≤ t.notices[5].count ∧ s.SameOutside t)) ∧
    (s.firstDueSide ch r = none → exec (.sideCueTime c) s = .next s) ∧
    ∀ (p : ItemPlace) (it : Item) (cue : SideCue) (e : EventRec), s.firstDueSide ch r = some p →
      ch.nextSide r p = some (it, cue, e) →
      let main := it.mainStart - BitVec.ofNat 48 (it.skipped * ch.period) + BitVec.ofNat 48 (cue.offset.toNat * ch.period)
      let stop := if p = .onAir then ch.sideEnd r it else it.cuedEnd
      let w := s.modRun c (fun r => r.modItem p (fun i => { i with nextCue := i.nextCue + 1 }))
      ((diff s.tb.now (main + r.offset) < 0 ∧ (∃ x, stop = some x ∧ diff main x < 0) ∧ e.liveCue ch.period cue = true) →
        ((s.outlet r.outlet).state = .stopping ∨ (s.outlet r.outlet).state = .faulted → exec (.sideCueTime c) s = .next w) ∧
        ((s.outlet r.outlet).state ≠ .stopping → (s.outlet r.outlet).state ≠ .faulted →
          ((s.outlet r.outlet).queue.length < 4 → exec (.sideCueTime c) s = .next ((w.modOutlet r.outlet (fun x =>
            { x with queue := x.queue ++ [.side cue.code (main + r.offset)] })).settleOrder r.outlet)) ∧
          (4 ≤ (s.outlet r.outlet).queue.length → exec (.sideCueTime c) s = .next
            (w.raise .cueFault (BitVec.ofNat 8 r.outlet.val) (.cueFault .side .missed))))) ∧
      (¬ (diff s.tb.now (main + r.offset) < 0 ∧ (∃ x, stop = some x ∧ diff main x < 0) ∧ e.liveCue ch.period cue = true) →
        exec (.sideCueTime c) s = .next w)

/-- The STARTED of the join PREP makes the reserved outlet AIR with its air output on, takes the channel to ON_AIR with a HOLD at once
and TAKEN raised, and then starts the join item with its actual start: it is on air, a sweep is asked for and served, and the runner
chooses the next item. What a mirror with waiting requests does first is stated apart. That of two awaiting PREPs with one tag the one
taken first starts (log 49), and that the subject of TAKEN is the channel, with the outlet in its code (log 43), and that a choice made
without a manual hold ends a wait for GO (log 64), are the model's choices. What the items' moving up does is stated where fewer than 4
commands wait on the outlet. -/
def Obligations.JoinStartedGoesOnAir : Prop :=
  ∀ (s : State) (tag outlet : Byte) (actual : Time) (o : OutletNo) (c : Channel) (ch : Chan) (a : Awaiting)
    (rest : List Awaiting) (k : Key) (r : RunRec) (it : Item),
    s.locked = true → s.cue.framing ≠ .hunt → s.ReportsSettled → s.mirrorReqs = [] → outlet.toNat = tag.toNat / 4 →
    tagOutlet tag = some o → (s.outlet o).state = .reserved → (s.outlet o).channel = some c → (s.outlet o).outstanding = none →
    (s.outlet o).awaiting = a :: rest → a.tag = tag.toNat → a.prep.join = true → s.chan? c = some ch →
    ch.tk.state = .joining → ch.tk.ownHold = some k → ch.tk.handback = none → ch.run = some r → r.outlet = o →
    r.onAir = none → r.goItem = none → r.goReport = none → r.cued = some it → it.locked = true → it.serial = a.prep.serial →
    ∃ (t v : State) (x y : Chan) (r' : RunRec), exec (.started tag outlet actual) s = .next t ∧
      (v.chan? c = some y ∧
        y = { ch with tk := { ch.tk with
          state := .onAir, holdDl := some (s.tb.now + BitVec.ofNat 48 (s.sp.holdPeriod * 240)) } } ∧
        v.outlet o = { s.outlet o with state := .air, air := true, awaiting := rest } ∧ (∀ p, p ≠ o → v.outlet p = s.outlet p) ∧
        v.bus = (s.offerFrame ⟨k.merit, s.bus.own, .hold c .onAir (ch.mirror.version.getD 0) 0⟩).bus ∧
        s.Noticed v 4 c (.taken o) ∧ s.Records v none ∧ v.poolFree = s.poolFree ∧ v.mirrorReqs = [] ∧ s.SameWatches v ∧ s.SameMirror v) ∧
      t.chan? c = some x ∧ x.tk = y.tk ∧ x.run = some r' ∧
      r'.onAir = some { it with runStart := some actual, unconfirmed := false } ∧
      (t.outlet o).state = .air ∧ (t.outlet o).air = true ∧ (t.outlet o).channel = some c ∧ (t.outlet o).awaiting = rest ∧
      t.bus = v.bus ∧ t.notices[4] = v.notices[4] ∧ s.SameWatches t ∧ s.MirrorTended t ∧
      ((s.outlet o).queue.length < 4 → v.MovedUp t c y r it actual false)

/-- GO for a channel that waits for it is answered DONE: the run anchor is the manual hold's event at main-site time now plus the cue
lead, the list is resolved with it, and the wait ends. Behind a locked hold filler, the join item of a RESERVED outlet as well, the
anchored event, when it airs, becomes the locked go item at its nominal start, pinned, with its PREP at once; in HANDING_BACK one that
starts at or after the run switch time is not made. A hold filler not yet locked is given up and the choice made again; with hold
filler on air and nothing cued the choice is made at once, and what it cues is cued by GO. A channel without a run record or in RUNNING
refuses GO with NOT_AWAITING. What a mirror with waiting requests does first is stated apart. That a go item is made at its own nominal
start even when an edit has since given its event another start rule, and that none is made when the event does not air, are the
model's choices (logs 44, 20), as are that a choice past the run switch time leaves mode and hold (log 37), that one made without a
manual hold ends a wait for GO (log 64), and that whatever the choice behind hold filler on air cues is cued by GO (log 58), and that
the go item behind a locked filler counts as cued by GO, so that it cuts it (log 63). -/
def Obligations.GoSetsAnchor : Prop :=
  ∀ (s : State) (c : Channel) (ch : Chan), s.locked = true → s.ReportsSettled → s.chan? c = some ch →
    ((ch.run = none ∨ ∃ r, ch.run = some r ∧ r.mode = .running) → exec (.go [c]) s = .next (s.refuse .notAwaiting)) ∧
    ∀ (r : RunRec) (id : EventId), ch.run = some r → r.mode = .awaitingGo → r.manualHold = some id →
      r.goReport = none → s.mirrorReqs = [] →
      let a : Anchor := { id := id, main := s.tb.now - r.offset + BitVec.ofNat 48 (s.sp.cueLead * ch.period) }
      let l := resolve ch.period (some a) ch.list
      let q : RunRec := { r with anchor := some a, mode := .running, manualHold := none }
      let y : Chan := { ch with list := l, run := some q }
      let u := s.modChan c (fun z => { z with
        list := resolve z.period (z.run.map (fun _ => a)) z.list
        run := z.run.map (fun r => { r with anchor := some a, mode := .running, manualHold := none }) })
      ∃ (t : State) (x : Chan) (r' : RunRec), exec (.go [c]) s = .next (t.done []) ∧ t.chan? c = some x ∧
        x.run = some r' ∧ r'.anchor = some a ∧ r'.onAir = r.onAir ∧ r'.offset = r.offset ∧
        (ch.tk.handback = none ∨ s.Takes r.outlet → x.tk = ch.tk) ∧
        x.list.map (fun e => (e.slot, e.data, e.times, e.eclipsed)) = l.map (fun e => (e.slot, e.data, e.times, e.eclipsed)) ∧
        t.bus = s.bus ∧ s.SameWatches t ∧ s.SameMirror t ∧ u.chan? c = some y ∧
        (s.Takes r.outlet →
          (∀ it : Item, r.cued = some it → it.locked = true →
            (∀ (e : EventRec) (z : Times), l.find? (fun e => e.data.id == id && e.airs) = some e → e.times = some z →
              (ch.Limited z.nomStart → t = u) ∧ (¬ ch.Limited z.nomStart → r'.mode = .running ∧ r'.manualHold = none ∧ r'.cued = some it ∧ ∃ g, r'.goItem = some g ∧
                g.source = .event e.slot e.data.id ∧ g.mainStart = z.nomStart ∧ g.localStart = z.nomStart + r.offset ∧
                g.entry = e.data.entry.toNat ∧ g.locked = true ∧ g.byGo = true ∧ g.skipped = 0 ∧
                (∀ y ∈ x.list, y.slot = e.slot → y.pinned = true) ∧ e.effFrames ch.period = some g.play ∧ g.cuedEnd = some z.effEnd ∧
                (s.outlet r.outlet).queue ++ [.prep (y.prepFor g false)] <+: (t.outlet r.outlet).queue)) ∧
            (l.find? (fun e => e.data.id == id && e.airs) = none → t = u)) ∧
          (∀ it : Item, r.cued = some it → it.locked = false → ∃ (v : State) (z : Chan), u.CueDropped v c y q ∧ v.chan? c = some z ∧
            v.ChoseNext t c z { q with cued := none, cueMoment := none } none) ∧
          (r.cued = none →
            ((∃ it, r.onAir = some it ∧ it.source = .filler ∧ it.cuedEnd = none) → ∃ w : State, u.ChoseNext w c y q none ∧
              t = w.modRun c (fun r => { r with cued := r.cued.map (fun it => { it with byGo := true }) })) ∧
            ((∀ it, r.onAir = some it → it.source ≠ .filler ∨ it.cuedEnd ≠ none) → u.ChoseNext t c y q none)))

/-- The walk, the examination and the on-air end that every choice of the runner rests on. A walk begins behind the walk origin's
event, or at the list's head without one or when it is gone. From an on-air end a choice passes every event through the last one that
airs and has ended by then, and examines the others in order, past eclipsed ones, until an event without times (open filler, and a
manual hold where its start is MANUAL), one that starts before the end (a late cue), one less than a period behind it (the event
itself), one further on (filler up to its start), or the end of the list (open filler). The on-air end is a locked cued item's
start, else the effective end of the event on air as the list or its unlinked record now gives it, else the cued end. That an
unlinked record without times ends at its cued end is the model's choice (log 22). -/
def Obligations.ChoiceExaminesInOrder : Prop :=
  (∀ (r : RunRec) (l : List EventRec),
    ((r.walkOrigin = none ∨ ∃ id, r.walkOrigin = some id ∧ ∀ e ∈ l, e.data.id ≠ id) → r.walkStart l = l) ∧
    ∀ (id : EventId) (p q : List EventRec) (e : EventRec), r.walkOrigin = some id → l = p ++ e :: q → e.data.id = id →
      (∀ x ∈ p, x.data.id ≠ id) → r.walkStart l = q) ∧
  (∀ (period : Nat) (stop : Time) (passed eclipsed tail : List EventRec),
    let ended (e : EventRec) : Prop := e.eclipsed = false ∧ ∃ t, e.times = some t ∧ diff t.effEnd stop ≤ 0
    (passed = [] ∨ ∃ e, passed.getLast? = some e ∧ ended e) → (∀ e ∈ eclipsed, e.times ≠ none ∧ e.eclipsed = true) →
    (∀ e ∈ tail, ¬ ended e) →
    (tail = [] → choiceOf period stop (passed ++ eclipsed ++ tail) = .fillerOpen none) ∧
    ∀ (x : EventRec) (rest : List EventRec), tail = x :: rest →
      (x.times = none → choiceOf period stop (passed ++ eclipsed ++ tail) =
        .fillerOpen (if x.data.start = .manual then some x.data.id else none)) ∧
      ∀ (t : Times) (n : Nat), x.times = some t → x.eclipsed = false → x.effFrames period = some n →
        (diff t.nomStart stop < 0 → choiceOf period stop (passed ++ eclipsed ++ tail) = .late) ∧
        (0 ≤ diff t.nomStart stop → diff t.nomStart stop < period →
          choiceOf period stop (passed ++ eclipsed ++ tail) = .event x t.nomStart n) ∧
        (0 ≤ diff t.nomStart stop → period ≤ diff t.nomStart stop →
          choiceOf period stop (passed ++ eclipsed ++ tail) = .gapTo x t.nomStart n)) ∧
  ∀ (ch : Chan) (r : RunRec) (it : Item),
    (∀ next, r.cued = some next → next.locked = true → ch.onAirEnd r it = some next.mainStart) ∧
    ((∀ next, r.cued = some next → next.locked = false) →
      (it.source = .filler → ch.onAirEnd r it = it.cuedEnd) ∧
      ∀ (slot : Nat) (id : EventId), it.source = .event slot id →
        (∀ (p q : List EventRec) (e : EventRec), ch.list = p ++ e :: q → (∀ x ∈ p, x.data.id ≠ id) → e.data.id = id →
          (e.times = none → ch.onAirEnd r it = it.cuedEnd) ∧ ∀ t, e.times = some t → ch.onAirEnd r it = some t.effEnd) ∧
        ((∀ x ∈ ch.list, x.data.id ≠ id) →
          ((∀ x ∈ ch.unlinked, x.slot ≠ slot) → ch.onAirEnd r it = it.cuedEnd) ∧
          ∀ (p q : List EventRec) (e : EventRec), ch.unlinked = p ++ e :: q → (∀ x ∈ p, x.slot ≠ slot) → e.slot = slot →
            (e.times = none → ch.onAirEnd r it = it.cuedEnd) ∧ ∀ t, e.times = some t → ch.onAirEnd r it = some t.effEnd))

/-- An as-run record names the channel and outlet of the run, the event, none for filler, the run start, an item that was missed its
commanded start, the main start by the run offset, the frames skipped, none for filler, the frames played, whole periods from run start
to end and none for an item that was missed, the ending and the UNCONFIRMED mark. The STARTED of a later item on an outlet in AIR, the
runner's locked cued item, starts it at its actual time: the item it ends gets its as-run record, which at 64 records is dropped and
counted and at 48 raises ASRUN_WATERMARK, and its record is unpinned, an unlinked one freed, the items move up, a sweep is asked for,
and the runner chooses the next item once none is cued. A start report that waited for the go item then starts that one too, behind the
sweep. A STARTED of the go item while the hold filler has not started waits, and one of an item that is neither changes nothing but the
awaiting list. In HANDING_BACK a stop request that waits is then made, unless a locked item before the run switch time still waits to
start. What a mirror with waiting requests does first is stated apart. The frames played that its as-run record counts (logs 7, 46),
that of two awaiting PREPs with one tag the one taken first starts (log 49), that an item chosen at a STARTED carries no GO mark (log
59), that the go item ends a filler CUT that GO found locked and not yet on air (log 63), that a choice past the run switch time leaves
mode and hold (log 37), that one made without a manual hold ends a wait for GO (log 64), and when the record that filler up to an event
holds is unpinned (log 60), are the model's choices. -/
def Obligations.ItemStartedChoosesNext : Prop :=
  (∀ (ch : Chan) (r : RunRec) (it : Item),
    let tells (a : AsRun) (start : Time) : Prop :=
      a.channel = ch.part.channel ∧ a.outlet = r.outlet ∧ a.runStart = start ∧ a.mainStart = start - r.offset ∧
        a.unconfirmed = it.unconfirmed ∧ (it.source = .filler → a.event = none ∧ a.skipped = 0) ∧
        ∀ (slot : Nat) (id : EventId), it.source = .event slot id → a.event = some id ∧ a.skipped = it.skipped
    (let a := asRunMissed ch r it
     tells a it.localStart ∧ a.played = 0 ∧ a.ending = .missed) ∧
    ∀ (start stop : Time) (ending : Ending), it.runStart = some start →
      let a := asRunEnded ch r it stop ending
      tells a start ∧ a.ending = ending ∧ (0 ≤ diff stop start → a.played = (stop - start).toNat / ch.period) ∧
        (diff stop start < 0 → a.played = Config.framesPlayedBackward start stop)) ∧
  ∀ (s : State) (tag outlet : Byte) (actual : Time) (o : OutletNo) (c : Channel) (ch : Chan) (a : Awaiting)
    (rest : List Awaiting) (r : RunRec),
    s.locked = true → s.cue.framing ≠ .hunt → s.ReportsSettled → s.mirrorReqs = [] → outlet.toNat = tag.toNat / 4 →
    tagOutlet tag = some o → (s.outlet o).state = .air → (s.outlet o).channel = some c → (s.outlet o).outstanding = none →
    (s.outlet o).awaiting = a :: rest → a.tag = tag.toNat → s.chan? c = some ch →
    ch.run = some r → r.outlet = o → (s.outlet o).queue.length < 4 →
    let v := State.modOutlet { s with cue := { s.cue with framing := .wait } } o (fun x => { x with awaiting := rest })
    ∃ t w : State, exec (.started tag outlet actual) s = .next t ∧ w.StopRetried t c ∧
      (∀ it : Item, r.cued = some it → it.locked = true → it.serial = a.prep.serial →
        (r.goReport = none → v.MovedUp w c ch r it actual false) ∧
        ∀ (g : Item) (x : Time) (unc : Bool), r.goReport = some (x, unc) → r.goItem = some g →
          ∃ (u : State) (z : Chan), v.MovedUp u c ch r it actual false ∧
            (u.serveAll.modRun c (fun r => { r with goReport := none })).chan? c = some z ∧
            z.run = some { r with
              onAir := some { it with runStart := some actual, unconfirmed := false }, cued := some g, goItem := none
              cueMoment := none, goReport := none, cuedOrigin := r.goOrigin } ∧
            (u.serveAll.modRun c (fun r => { r with goReport := none })).MovedUp w c z
              { r with
                onAir := some { it with runStart := some actual, unconfirmed := false }, cued := some g, goItem := none
                cueMoment := none, goReport := none, cuedOrigin := r.goOrigin } g x unc) ∧
      ((∀ it, r.cued = some it → it.locked = true → it.serial ≠ a.prep.serial) →
        (∀ g : Item, r.goItem = some g → g.serial = a.prep.serial →
          w = v.modRun c (fun r => { r with goReport := some (actual, false) })) ∧
        ((∀ g, r.goItem = some g → g.serial ≠ a.prep.serial) → w = v))

/-- A later item's PREP that is refused, lapses without reply or goes by unsent raises CUE_FAULT and is taken out of the run, its
record unpinned and an unlinked one freed. The locked cued item gets a MISSED as-run record and gives way to the go item. Without one,
an event gives way to replacement filler from its start, or one cue lead ahead, to its end, locked at once within the limit of
HANDING_BACK, or, with less than a period of it left, to a late cue; other filler gives way to the choice from its end, and open filler
to nothing. A failed go item gets a MISSED record and is gone, and the walk origin that its lock displaced stands again where it still
names the event. In HANDING_BACK a stop request that waits is then made, unless a locked item before the run switch time still waits to
start. What a mirror with waiting requests does first is stated apart. That the displaced origin stands again (log 42), that behind
open filler on air the choice walks from the failed item's end and puts no filler there (log 30), that the late cue is asked for
whatever that choice would examine (log 54), that replacement filler carries no GO mark (log 20), that the anchored event reached after
a failed go item carries none (log 59), that a choice past the run switch time leaves mode and hold (log 37), that one made without a
manual hold ends a wait for GO (log 64), and when the record that filler up to an event holds is unpinned (log 60), are the model's
choices. A start report that waits and a full queue are left open here. -/
def Obligations.FailedItemReplaced : Prop :=
  ∀ (s v : State) (i : Instr) (o : OutletNo) (p : Prep) (c : Channel) (ch : Chan) (r : RunRec) (f : Failure),
    s.ReportsSettled → s.mirrorReqs = [] → (s.outlet o).state = .air → (s.outlet o).channel = some c → s.chan? c = some ch →
    ch.run = some r → r.outlet = o → r.goReport = none →
    ((∃ (u : Outstanding) (tag : Byte) (why : RefusedReason), s.locked = true ∧ s.cue.framing ≠ .hunt ∧ tagOutlet tag = some o ∧
        (s.outlet o).outstanding = some u ∧ u.tag = tag.toNat ∧ u.cmd = .prep p ∧ u.orphaned = false ∧
        i = .refused tag why ∧ f = .refused why ∧ v = State.complete { s with cue := { s.cue with framing := .wait } } o) ∨
      (∃ u : Outstanding, (s.outlet o).outstanding = some u ∧ atOrBefore u.deadline s.tb.now = true ∧ u.cmd = .prep p ∧
        u.orphaned = false ∧ i = .replyDeadline o ∧ f = .lapsed ∧ v = s.complete o) ∨
      (∃ pre post : List Cmd, (s.outlet o).queue = pre ++ .prep p :: post ∧ atOrBefore p.start s.tb.now = true ∧
        (∀ x ∈ pre ++ post, ∀ y, x.missTime = some y → atOrBefore y s.tb.now = false) ∧
        i = .queuedCommandMissed o ∧ f = .missed ∧
        v = (s.modOutlet o (fun x => { x with queue := pre ++ post })).settleOrder o)) →
    (v.outlet o).queue.length < 4 →
    let w := v.raise .cueFault (BitVec.ofNat 8 o.val) (.cueFault .prep f)
    ∃ t z : State, exec i s = .next t ∧ z.StopRetried t c ∧
      (∀ it : Item, r.cued = some it → it.locked = true → it.serial = p.serial → w.ItemFailed z c ch r it) ∧
      ((∀ it, r.cued = some it → it.locked = true → it.serial ≠ p.serial) →
        ((∀ g, r.goItem = some g → g.serial ≠ p.serial) → z = w) ∧
        ∀ g : Item, r.goItem = some g → g.serial = p.serial → ∃ x : Chan, z.chan? c = some x ∧
          x.run = some { r with
            goItem := none, goReport := none
            walkOrigin := match g.source with
              | .event _ id => if r.walkOrigin = some id then r.goOrigin else r.walkOrigin
              | .filler => if r.walkOrigin = none then r.goOrigin else r.walkOrigin } ∧
          x.tk = ch.tk ∧ x.watch = ch.watch ∧
          x.list.map (fun e => (e.slot, e.data, e.times, e.eclipsed)) =
            ch.list.map (fun e => (e.slot, e.data, e.times, e.eclipsed)) ∧
          w.Records z (some (asRunMissed ch r g)) ∧ w.Unpinned z ch x (some g) { r with goItem := none } ∧
          z.outlets = w.outlets ∧ z.bus = w.bus ∧ z.mirrorReqs = [] ∧ w.SameOutside z ∧ s.SameWatches z ∧ s.SameMirror z)

/-! ## Outlets and the cue port -/

/-- The cue receiver frames as the feed receiver does and counts as late every message that it cannot use: one with a reserved tag, a
TAKEN, REFUSED or STARTED that matches nothing, and a STARTED that names another outlet than its tag. A STARTED that comes while its
PREP is outstanding acts as it does once the PREP is taken. COMMAND_SEND with the link idle and the server ready begins the head
command of the first outlet in the send order, which leaves the queue with its tag and is outstanding from here on, sent whole, with
its send time at its last check byte and its reply deadline from there; otherwise it does nothing. That messages are framed whole
(log 3), that the bytes of a good message act as it (log 4), and that a command begins at one step (log 8), are the model's
choices. -/
def Obligations.CueReceiverAndSending : Prop :=
  ∀ s : State,
    let late : State := { s with cue := { s.cue with framing := .wait, late := min 65535 (s.cue.late + 1) } }
    (s.locked = false → (∀ b, exec (.cueIdleGap b) s = .next s) ∧ exec .cueLengthAbandon s = .next s ∧
      (∀ b, exec (.commandSend b) s = .next s) ∧ (∀ k g b w, exec (.cueMessageDiscard k g b w) s = .next s) ∧
      (∀ g, exec (.taken g) s = .next s) ∧ (∀ g r, exec (.refused g r) s = .next s) ∧
      ∀ g o x, exec (.started g o x) s = .next s) ∧
    (s.locked = true → s.cue.framing = .hunt →
      (∀ b, exec (.cueIdleGap b) s = .next { s with cue := { s.cue with framing := .wait } }) ∧
      exec .cueLengthAbandon s = .next s ∧ (∀ k g b w, exec (.cueMessageDiscard k g b w) s = .next s) ∧
      (∀ g, exec (.taken g) s = .next s) ∧ (∀ g r, exec (.refused g r) s = .next s) ∧
      ∀ g o x, exec (.started g o x) s = .next s) ∧
    (s.locked = true → s.cue.framing ≠ .hunt →
      (s.cue.framing = .wait → exec (.cueIdleGap false) s = .next s) ∧
      (∀ b, s.cue.framing = .receiving ∨ b = true → exec (.cueIdleGap b) s = .next late) ∧
      exec .cueLengthAbandon s = .next { s with cue := { s.cue with framing := .hunt, late := min 65535 (s.cue.late + 1) } } ∧
      (∀ (kind tag : Byte) (body : List Byte) (check : BitVec 16), body.length ≤ 7 →
        (check ≠ messageCheck kind tag body → exec (.cueMessageDiscard kind tag body check) s =
          .next { s with cue := { s.cue with framing := .hunt, late := min 65535 (s.cue.late + 1) } }) ∧
        (check = messageCheck kind tag body → parseServer kind tag body = none →
          exec (.cueMessageDiscard kind tag body check) s = .next late)) ∧
      (∀ g : Byte, exec (.cueMessageDiscard 9 g [] (messageCheck 9 g [])) s = exec (.taken g) s ∧
        (∀ p ∈ [((1 : Byte), RefusedReason.noMaterial), (2, .tooLate), (3, .badEntry), (4, .outletBusy), (5, .other)],
          exec (.cueMessageDiscard 10 g [p.1] (messageCheck 10 g [p.1])) s = exec (.refused g p.2) s) ∧
        ∀ (o : Byte) (x : Time), o.toNat = g.toNat / 4 →
          exec (.cueMessageDiscard 11 g (o :: beBytes 6 x.toNat) (messageCheck 11 g (o :: beBytes 6 x.toNat))) s =
            exec (.started g o x) s) ∧
      (∀ (g o : Byte) (x : Time), o.toNat ≠ g.toNat / 4 → exec (.started g o x) s = .next late) ∧
      (∀ (g : Byte), 16 ≤ g.toNat → exec (.taken g) s = .next late ∧ (∀ r, exec (.refused g r) s = .next late) ∧
        ∀ o x, exec (.started g o x) s = .next late) ∧
      ∀ (g out : Byte) (o : OutletNo) (x : Time), s.ReportsSettled → out.toNat = g.toNat / 4 → tagOutlet g = some o →
        ((∀ a ∈ (s.outlet o).awaiting, a.tag ≠ g.toNat) →
          (∀ u, (s.outlet o).outstanding = some u → u.tag = g.toNat → cmdKind u.cmd ≠ .prep) →
          exec (.started g out x) s = .next late) ∧
        ∀ (u : Outstanding) (t : State), s.mirrorReqs = [] → (s.outlet o).outstanding = some u → u.tag = g.toNat →
          cmdKind u.cmd = .prep → (s.outlet o).awaiting.length < 4 → exec (.taken g) s = .next t →
          exec (.started g out x) s = exec (.started g out x) t) ∧
    (s.locked = true →
      (∀ (o : OutletNo) (order : List OutletNo) (cmd : Cmd) (rest : List Cmd),
        (∀ x, s.cue.lastSent = some x → diff (x + 4) s.tb.now ≤ 0) → s.cue.sendOrder = o :: order →
        (s.outlet o).queue = cmd :: rest →
        let bytes := cmdBytes o (o.val * 4 + (s.outlet o).seq) cmd
        let sent := s.tb.now + BitVec.ofNat 48 (2 * bytes.length)
        exec (.commandSend true) s = .next (State.modOutlet
          { s with cue := { s.cue with sendOrder := order, lastSent := some sent, cqo := bytes } } o (fun x =>
          { x with
            queue := rest, seq := (x.seq + 1) % 4
            outstanding := some
              { cmd := cmd, tag := o.val * 4 + x.seq, sentAt := sent
                deadline := sent + BitVec.ofNat 48 (s.sp.replyTimeout * 240), orphaned := false } }))) ∧
      (∀ b, b = false ∨ s.cue.sendOrder = [] ∨ (∃ x, s.cue.lastSent = some x ∧ 0 < diff (x + 4) s.tb.now) →
        exec (.commandSend b) s = .next s))

/-- A TAKEN or REFUSED that matches no outstanding command is counted late. A match completes the command: a PREP taken awaits its
start, and where four already wait the oldest fails with a start lapse first; a STOP that decides sets the stop outcome, and frees a
STOPPING outlet whose stop time is reached, which starts a pass. A REFUSED and a reply deadline fail the command with CUE_FAULT: an
orphaned command, a SIDE and a STOP that decides nothing go no further, a deciding STOP fails the stop and a STOPPING outlet with it,
and a later PREP gives its locked cued item a MISSED as-run record; what then takes its place is stated apart. That a STOP
withdrawn after it was sent still raises CUE_FAULT when it fails is the model's choice (log 51). -/
def Obligations.RepliesCompleteCommands : Prop :=
  ∀ (s : State) (tag : Byte) (o : OutletNo), s.locked = true → s.cue.framing ≠ .hunt → s.ReportsSettled →
    tagOutlet tag = some o →
    let w : State := { s with cue := { s.cue with framing := .wait } }
    ((∀ u, (s.outlet o).outstanding = some u → u.tag ≠ tag.toNat) →
      exec (.taken tag) s = .next { w with cue := { w.cue with late := min 65535 (s.cue.late + 1) } } ∧
      ∀ why, exec (.refused tag why) s = .next { w with cue := { w.cue with late := min 65535 (s.cue.late + 1) } }) ∧
    ∀ u : Outstanding, (s.outlet o).outstanding = some u →
      (let d := w.complete o
      u.tag = tag.toNat →
      (u.orphaned = true ∨ cmdKind u.cmd = .side ∨ (∃ x, u.cmd = .stop x false) → exec (.taken tag) s = .next d) ∧
      (∀ p : Prep, u.orphaned = false → u.cmd = .prep p → (s.outlet o).awaiting.length < 4 → (s.outlet o).channel ≠ none →
        exec (.taken tag) s = .next (d.modOutlet o (fun x => { x with awaiting := x.awaiting ++
          [{ tag := u.tag, prep := p, startDl := p.start + BitVec.ofNat 48 (s.sp.replyTimeout * 240) }] }))) ∧
      (∀ (p : Prep) (c : Channel) (old : Awaiting) (rest : List Awaiting), u.orphaned = false → u.cmd = .prep p →
        (s.outlet o).awaiting = old :: rest → rest.length = 3 → (s.outlet o).state = .air → (s.outlet o).channel = some c →
        ∃ t : State, exec (.taken tag) s = .next t ∧ t.notices[5].pending = true ∧ (t.outlet o).awaiting = rest ++
          [{ tag := u.tag, prep := p, startDl := p.start + BitVec.ofNat 48 (s.sp.replyTimeout * 240) }]) ∧
      ∀ x a, u.orphaned = false → u.cmd = .stop x true → (s.outlet o).armed = some a →
        (((s.outlet o).state ≠ .stopping ∨ (a.at_ ≠ 0 ∧ atOrBefore a.at_ s.tb.now = false)) →
          exec (.taken tag) s = .next (d.modOutlet o (fun x => { x with armed := some { a with outcome := .taken } }))) ∧
        ((s.outlet o).state = .stopping → (a.at_ = 0 ∨ atOrBefore a.at_ s.tb.now = true) →
          ∃ t : State, exec (.taken tag) s = .next t ∧
            (d.modOutlet o (fun x => { x with state := .free, armed := none })).Passed t ∧
            (d.modOutlet o (fun x => { x with state := .free, armed := none })).ClaimsOnly t)) ∧
      ∀ (i : Instr) (v : State) (f : Failure),
        (u.tag = tag.toNat ∧ ∃ why, i = .refused tag why ∧ f = .refused why ∧ v = w) ∨
          (i = .replyDeadline o ∧ f = .lapsed ∧ v = s ∧ atOrBefore u.deadline s.tb.now = true) →
        let e := (v.complete o).raise .cueFault (BitVec.ofNat 8 o.val) (.cueFault (cmdKind u.cmd) f)
        (u.orphaned = true ∨ cmdKind u.cmd = .side ∨ (∃ x, u.cmd = .stop x false) → exec i s = .next e) ∧
        (∀ x a, u.orphaned = false → u.cmd = .stop x true → (s.outlet o).armed = some a →
          ((s.outlet o).state ≠ .stopping →
            exec i s = .next (e.modOutlet o (fun x => { x with armed := some { a with outcome := .failed f } }))) ∧
          ((s.outlet o).state = .stopping → ∃ t : State, exec i s = .next t ∧ (t.outlet o).state = .faulted ∧
            (t.outlet o).fault = some (.stop, f) ∧ (t.outlet o).armed = none ∧ (t.outlet o).queue = [] ∧
            (t.outlet o).awaiting = [] ∧ (t.outlet o).air = false ∧ (∀ p, p ≠ o → t.outlet p = s.outlet p) ∧
            t.chans = s.chans ∧ t.bus = s.bus ∧ s.Noticed t 5 (BitVec.ofNat 8 o.val) (.cueFault .stop f))) ∧
        ∀ (p : Prep) (c : Channel) (ch : Chan) (r : RunRec) (it : Item), s.mirrorReqs = [] → u.orphaned = false → u.cmd = .prep p →
          ((s.outlet o).state ≠ .reserved ∨ p.join = false) → (s.outlet o).channel = some c → s.chan? c = some ch →
          ch.run = some r → r.cued = some it → it.locked = true → it.serial = p.serial → s.asrun.length < 64 →
          ∃ t : State, exec i s = .next t ∧ s.asrun ++ [asRunMissed ch r it] <+: t.asrun ∧ s.SameWatches t ∧ s.MirrorTended t

/-- A queued SIDE whose time has come is removed and fails MISSED. A PREP that waits for its start past its deadline raises CUE_FAULT
and starts its item at its commanded time, unconfirmed: the items move up, a sweep is asked for and the runner chooses, and in
HANDING_BACK a stop request that waits is then made, unless a locked item before the run switch time still waits to start. An armed
stop that was taken frees a STOPPING outlet at its time, which starts a pass. That nothing happens where nothing is due or a deadline
is not reached, and which of several due commands goes first, are the model's choices (logs 2, 33), as are the frames played of an
as-run record (logs 7, 46), that a choice past the run switch time leaves mode and hold (log 37), that one made without a manual hold
ends a wait for GO (log 64), and when the record that filler up to an event holds is unpinned (log 60). -/
def Obligations.OutletDeadlinesAct : Prop :=
  ∀ (s : State) (o : OutletNo), s.ReportsSettled →
    ((∀ x ∈ (s.outlet o).queue, ∀ d, x.missTime = some d → atOrBefore d s.tb.now = false) →
      exec (.queuedCommandMissed o) s = .next s) ∧
    (∀ (p q : List Cmd) (code : BitVec 16) (d : Time), (s.outlet o).queue = p ++ .side code d :: q →
      atOrBefore d s.tb.now = true → (∀ x ∈ p ++ q, ∀ y, x.missTime = some y → atOrBefore y s.tb.now = false) →
      exec (.queuedCommandMissed o) s =
        .next (((s.modOutlet o (fun x => { x with queue := p ++ q })).settleOrder o).raise .cueFault (BitVec.ofNat 8 o.val)
          (.cueFault .side .missed))) ∧
    ((∀ u, (s.outlet o).outstanding = some u → atOrBefore u.deadline s.tb.now = false) →
      exec (.replyDeadline o) s = .next s) ∧
    ((∀ a ∈ (s.outlet o).awaiting, atOrBefore a.startDl s.tb.now = false) → exec (.startDeadline o) s = .next s) ∧
    (∀ (a : Awaiting) (c : Channel) (ch : Chan) (r : RunRec) (it : Item), s.mirrorReqs = [] → (s.outlet o).awaiting = [a] →
      atOrBefore a.startDl s.tb.now = true → (s.outlet o).state = .air → (s.outlet o).channel = some c →
      s.chan? c = some ch → ch.run = some r → r.outlet = o → (s.outlet o).queue.length < 4 →
      r.goReport = none → r.cued = some it → it.locked = true → it.serial = a.prep.serial →
      ∃ t w : State, exec (.startDeadline o) s = .next t ∧ w.StopRetried t c ∧
        ((s.modOutlet o (fun x => { x with awaiting := [] })).raise .cueFault (BitVec.ofNat 8 o.val)
          (.cueFault .prep .startLapse)).MovedUp w c ch r it it.localStart true) ∧
    (∀ a : ArmedStop, (s.outlet o).state = .stopping → (s.outlet o).armed = some a → a.outcome = .taken →
      (a.at_ = 0 ∨ atOrBefore a.at_ s.tb.now = true) → ∃ t : State, exec (.armedStopTime o) s = .next t ∧
        (s.modOutlet o (fun x => { x with state := .free, armed := none })).Passed t ∧
        (s.modOutlet o (fun x => { x with state := .free, armed := none })).ClaimsOnly t) ∧
    (((s.outlet o).state ≠ .stopping ∨ (s.outlet o).armed = none ∨ ∃ a, (s.outlet o).armed = some a ∧
      (a.outcome ≠ .taken ∨ (a.at_ ≠ 0 ∧ atOrBefore a.at_ s.tb.now = false))) → exec (.armedStopTime o) s = .next s)

/-- A join PREP that is refused, lapses without reply, goes by unsent or is not reported started fails the join: the reserved outlet
is FAULTED, a RELEASE with JOIN_FAILED is offered, JOIN_FAILED and CUE_FAULT are raised, the run closes without an as-run record, its
records unpinned and the list resolved without its anchor,
and the channel is IDLE and checked. What a mirror with waiting requests does first is stated apart. That the subject of JOIN_FAILED is
the channel, with the outlet in its code, is the model's choice (log 43). -/
def Obligations.JoinCueFailureReleases : Prop :=
  ∀ (s : State) (o : OutletNo) (c : Channel) (ch : Chan) (k : Key) (r : RunRec) (p : Prep), s.ReportsSettled →
    s.mirrorReqs = [] →
    (s.outlet o).state = .reserved → (s.outlet o).channel = some c → s.chan? c = some ch → ch.tk.state = .joining →
    ch.tk.ownHold = some k → ch.run = some r → r.onAir = none → p.join = true →
    (∀ u : Outstanding, (s.outlet o).outstanding = some u → u.cmd = .prep p → u.orphaned = false →
      (∀ (tag : Byte) (why : RefusedReason), s.locked = true → s.cue.framing ≠ .hunt → tagOutlet tag = some o →
        u.tag = tag.toNat → ∃ t : State, exec (.refused tag why) s = .next t ∧ s.JoinFailure t c ch o k (.refused why)) ∧
      (atOrBefore u.deadline s.tb.now = true →
        ∃ t : State, exec (.replyDeadline o) s = .next t ∧ s.JoinFailure t c ch o k .lapsed)) ∧
    (∀ rest : List Cmd, (s.outlet o).queue = .prep p :: rest → atOrBefore p.start s.tb.now = true →
      (∀ x ∈ rest, ∀ y, x.missTime = some y → atOrBefore y s.tb.now = false) →
      ∃ t : State, exec (.queuedCommandMissed o) s = .next t ∧ s.JoinFailure t c ch o k .missed) ∧
    (∀ a : Awaiting, (s.outlet o).awaiting = [a] → a.prep = p → atOrBefore a.startDl s.tb.now = true →
      ∃ t : State, exec (.startDeadline o) s = .next t ∧ s.JoinFailure t c ch o k .startLapse)

/-! ## Handback -/

/-- At the stop point the stop request is made, its STOP at the queue's tail or in the place of a queued one, and at a full queue
without one it fails MISSED at once with CUE_FAULT; while a locked item before the run switch time waits to start, the request waits.
At the switch deadline the handback completes: the outlet leaves AIR by its stop outcome, the RELEASE is offered, the on-air item's
as-run record ends at the local switch time, the run's records are unpinned and the list is resolved without its anchor, HANDBACK is raised, and the channel is IDLE and checked, which gives BLOCKED while its
watch is LOST, with a pass where the outlet is free. What a mirror with waiting requests does first is stated apart. That a moment not
reached does nothing is the model's choice (log 2), as is that an end of air empties the whole command queue (log 13). The
frames played of an as-run record (logs 7, 46), and that the subject of HANDED_BACK is the channel, with the outlet in its code
(log 43), are the model's choices. -/
def Obligations.HandbackStopAndSwitch : Prop :=
  ∀ (s : State) (c : Channel) (ch : Chan) (o : OutletNo) (h : Handback), s.ReportsSettled → s.chan? c = some ch →
    ch.tk.outlet = some o → ch.tk.handback = some h →
    (due h.stopPoint s.tb.now = false → exec (.stopPoint c) s = .next s) ∧
    (due h.switchDl s.tb.now = false → exec (.switchDeadline c) s = .next s) ∧
    (due h.stopPoint s.tb.now = true →
      let blocked := ∃ r it, ch.run = some r ∧ (r.cued = some it ∨ r.goItem = some it) ∧ it.locked = true ∧
        diff it.mainStart h.runSwitch < 0
      (blocked → exec (.stopPoint c) s = .next (s.modTk c (fun tk =>
        { tk with handback := some { h with stopPoint := none, stopWaiting := true } }))) ∧
      (¬ blocked → ((s.outlet o).queue.any Cmd.isStop = true ∨ (s.outlet o).queue.length < 4) →
        ∃ (t : State) (x : Chan), exec (.stopPoint c) s = .next t ∧ t.chan? c = some x ∧
          x = { ch with tk := { ch.tk with
            handback := some { h with stopPoint := none, stopRequested := true, stopWaiting := false } } } ∧
          t.outlet o = { s.outlet o with
            armed := some { at_ := h.localSwitch, outcome := .pending }
            outstanding := (s.outlet o).outstanding.map (fun u => { u with cmd := u.cmd.undecide })
            queue := if (s.outlet o).queue.any Cmd.isStop then
                (s.outlet o).queue.map (fun cmd => if cmd.isStop then .stop h.localSwitch true else cmd)
              else (s.outlet o).queue ++ [.stop h.localSwitch true] } ∧
          (∀ p, p ≠ o → t.outlet p = s.outlet p) ∧ t.bus = s.bus ∧ s.SameWatches t ∧ s.SameMirror t) ∧
      (¬ blocked → (s.outlet o).queue.any Cmd.isStop = false → 4 ≤ (s.outlet o).queue.length → (s.outlet o).state = .air →
        ∃ t : State, exec (.stopPoint c) s = .next t ∧ t.chan? c = some { ch with tk := { ch.tk with
            handback := some { h with stopPoint := none, stopRequested := true, stopWaiting := false } } } ∧
          t.outlet o = { s.outlet o with
            armed := some { at_ := h.localSwitch, outcome := .failed .missed }
            outstanding := (s.outlet o).outstanding.map (fun u => { u with cmd := u.cmd.undecide }) } ∧
          s.Noticed t 5 (BitVec.ofNat 8 o.val) (.cueFault .stop .missed) ∧
          (∀ p, p ≠ o → t.outlet p = s.outlet p) ∧ t.bus = s.bus ∧ s.SameWatches t ∧ s.SameMirror t)) ∧
    ∀ k : Key, s.mirrorReqs = [] → due h.switchDl s.tb.now = true → ch.tk.state = .handingBack → ch.tk.ownHold = some k →
      (s.outlet o).state = .air →
      ∃ (t v w : State) (x y : Chan), exec (.switchDeadline c) s = .next t ∧ v.chan? c = some y ∧ v.Checked w c y ∧
        ((v.outlet o).state = .free → w.Passed t) ∧ ((v.outlet o).state ≠ .free → t = w) ∧
        v.ClaimsOnly t ∧ t.chan? c = some x ∧ x.run = none ∧
        x.tk = { ch.tk with
          state := if ch.watch.state = .lost ∧ ch.part.rank ≠ 15 then .blocked .awaitLive else .idle
          awaitLive := ch.watch.state == .lost
          ownHold := none, outlet := none, holdDl := none, handback := none } ∧
        (v.outlet o).air = false ∧ (v.outlet o).channel = none ∧ (v.outlet o).awaiting = [] ∧
        (∀ p, p ≠ o → v.outlet p = s.outlet p) ∧
        (match (s.outlet o).armed with
          | none => (v.outlet o).state = .stopping ∧ (v.outlet o).queue = [.stop 0 true] ∧
              (v.outlet o).armed = some { at_ := 0, outcome := .pending }
          | some a => (v.outlet o).queue = [] ∧ match a.outcome with
            | .pending => (v.outlet o).state = .stopping ∧ (v.outlet o).armed = some a
            | .failed f => (v.outlet o).state = .faulted ∧ (v.outlet o).fault = some (.stop, f)
            | .taken => if a.at_ = 0 ∨ atOrBefore a.at_ s.tb.now = true then
                (v.outlet o).state = .free ∧ (v.outlet o).armed = none
              else (v.outlet o).state = .stopping ∧ (v.outlet o).armed = some a) ∧
        v.bus = (s.offerRelease c k (if h.forced then .forced else .handedBack)).bus ∧
        s.Noticed t 6 c (.handedBack o h.forced) ∧
        s.RecordsOnAir t ch h.localSwitch (if h.forced then .forced else .handedBack) ∧ s.RunEnded v ch y ∧ s.SameWatches t ∧
        s.SameMirror t

/-- A RESUME_OFFER for a channel on air is taken after the watch has judged its beacon and the beacon has asked the mirror for its
drift check and a sweep. It starts a handback when the watch is then LIVE and the local switch time, by the slewed estimate, is the
handback minimum or more ahead: HANDING_BACK with its times, its stop point one cue lead before the switch or now, its switch
deadline, a HOLD at once, and a choice past the run switch time abandoned. An offer too soon, or one that finds the watch in another
state, is refused with its notice and leaves the channel on air. That the mirror serves what waits before the handback is entered is
the model's choice (log 5). -/
def Obligations.OfferStartsHandback : Prop :=
  ∀ (s : State) (b : BeaconMsg) (ch : Chan) (r : RunRec) (k : Key) (x : Time), s.locked = true → s.feed.framing ≠ .hunt →
    s.ReportsSettled → s.ChannelsDistinct → s.chan? b.channel = some ch → ch.run = some r → ch.tk.ownHold = some k →
    ch.tk.state = .onAir → b.main = .resumeOffer x →
    let base : State := { s with feed := { s.feed with framing := .wait } }
    ∃ (t v : State) (w : WatchRec), exec (.beacon b) s = .next t ∧ (t.chan? b.channel).map (·.watch) = some w ∧
      base.WatchMoved v b.channel ch w (if ch.watch.forced then .forced else .standingDown) ∧
      (let u : State :=
        { v with mirrorReqs := s.mirrorReqs ++ [.drift b.channel b.version b.onAir, .sweep b.channel] }
      (w.state ≠ .live → t = u.raise .handback b.channel .handbackNotLive) ∧
      (w.state = .live → diff (x + w.estimate) s.tb.now < s.sp.handbackMin * 240000 →
        t = u.raise .handback b.channel .handbackTooSoon) ∧
      (w.state = .live → s.sp.handbackMin * 240000 ≤ diff (x + w.estimate) s.tb.now →
        ∃ y, u.serveAll.chan? b.channel = some y ∧ y.run = some r ∧
          u.serveAll.HandbackEntered t b.channel y k (s.handbackTo ch r x (x + w.estimate) false)))

/-- In HANDING_BACK a RESUME_OFFER of another switch time is judged as on air, and one that passes replaces the handback: a stop
requested for an earlier time is withdrawn, with a restore cue of the old switch time where the server may hold it, and after a later
time the runner chooses where nothing is cued. A RESUME_OFFER of the same switch time changes nothing. A beacon of any other main
state, and every entry of the watch to LOST, by its deadlines, by FORCE_LOST or by the beacon itself, cancels the handback: its stop
withdrawn, with a restore cue where the server may hold it, the channel ON_AIR with a HOLD at once, and a choice made where nothing is
cued. A forced handback heeds none of these. That the mirror serves what waits first (log 5), where a restore cue begins its walk (log
16), that a new switch time equal to the old one as local time keeps the stop request and brings no choice (log 34), that an outlet
whose STOP is withdrawn keeps its place in the send order (log 61), that a choice not made for its lying past the run switch time
leaves the run mode and the manual hold (log 37), that one made without a manual hold ends a wait for GO (log 64), that an event which
GO anchored during the handback and a later choice cues does not count as cued by GO (log 65), and when the record that filler up to an
event holds is unpinned (log 60), are the model's choices. What a STOPPING or FAULTED outlet, or a full queue,
makes of it is left open here. -/
def Obligations.HandbackReplacedAndCancelled : Prop :=
  ∀ (s : State) (c : Channel) (ch : Chan) (o : OutletNo) (h : Handback) (k : Key) (r : RunRec), s.ReportsSettled →
    s.ChannelsDistinct → s.chan? c = some ch → ch.tk.state = .handingBack → ch.tk.handback = some h → ch.tk.outlet = some o →
    ch.tk.ownHold = some k → ch.run = some r → r.outlet = o → s.Takes o →
    let cancelled (u t : State) : Prop :=
      (h.forced = true → t = u) ∧ (h.forced = false → ∃ y, u.serveAll.chan? c = some y ∧ y.run = some r ∧
        u.serveAll.HandbackCancelled t c y r o h k)
    let lost (u : State) (w : WatchRec) (cause : LostCause) : State :=
      (u.modWatch c (fun _ => w)).raise .channelLost c (.channelLost cause)
    (ch.watch.state = .live ∨ ch.watch.state = .doubtful → due ch.watch.lostDl s.tb.now = true →
      ∃ t, exec (.lostDeadline c) s = .next t ∧ cancelled (lost s { ch.watch with lostDl := none, state := .lost } .silence) t) ∧
    (ch.watch.state = .returning → due ch.watch.returnDl s.tb.now = true →
      ∃ t, exec (.returnDeadline c) s = .next t ∧
        cancelled (lost s { ch.watch with returnDl := none, returns := 0, state := .lost } .returnBroken) t) ∧
    (s.locked = true → ch.watch.state ≠ .lost → ch.watch.state ≠ .unseen →
      ∃ t, exec (.forceLost [c]) s = .next (t.done []) ∧
        cancelled (lost s { ch.watch with forced := true, returns := 0, state := .lost } .forced) t) ∧
    ∀ b : BeaconMsg, s.locked = true → s.feed.framing ≠ .hunt → b.channel = c →
      let base : State := { s with feed := { s.feed with framing := .wait } }
      let reqs := [MirrorReq.drift c b.version b.onAir, .sweep c]
      let cause : LostCause := if ch.watch.forced then .forced else .standingDown
      ∃ (t : State) (w : WatchRec), exec (.beacon b) s = .next t ∧ (t.chan? c).map (·.watch) = some w ∧
        ((w.state ≠ .lost ∨ ch.watch.state = .lost) → ∃ v : State, base.WatchMoved v c ch w cause ∧
          let u : State := { v with mirrorReqs := s.mirrorReqs ++ reqs }
          ((∀ x, b.main ≠ .resumeOffer x) → cancelled u t) ∧
          ∀ x, b.main = .resumeOffer x →
            (h.forced = true ∨ x = h.switch → t = u) ∧
            (h.forced = false → x ≠ h.switch →
              (w.state ≠ .live → t = u.raise .handback c .handbackNotLive) ∧
              (w.state = .live → diff (x + w.estimate) s.tb.now < s.sp.handbackMin * 240000 →
                t = u.raise .handback c .handbackTooSoon) ∧
              (w.state = .live → s.sp.handbackMin * 240000 ≤ diff (x + w.estimate) s.tb.now →
                ∃ y, u.serveAll.chan? c = some y ∧ y.run = some r ∧
                  u.serveAll.HandbackReplaced t c y r o h (s.handbackTo ch r x (x + w.estimate) false)))) ∧
        (w.state = .lost → ch.watch.state ≠ .lost → ∃ v : State, cancelled (lost base w cause) v ∧
          let u : State := { v with mirrorReqs := v.mirrorReqs ++ reqs }
          ((h.forced = true ∨ ∀ x, b.main ≠ .resumeOffer x) → t = u) ∧
          (h.forced = false → ∀ x, b.main = .resumeOffer x → t = u.raise .handback c .handbackNotLive))

/-- The host's RELEASE aborts a join: its outlet stopped now, a RELEASE with FORCED offered, the run closed with its pins and its
anchor, the await-live mark set while the watch is LOST, the channel IDLE and checked. On air it starts a forced handback one cue lead
ahead; in HANDING_BACK it forces the handback, which keeps its switch time where that lies no later and is replaced by the forced one
otherwise. Elsewhere it is refused. CLEAR_OUTLET frees a FAULTED outlet, runs a pass of the takeover check, and is refused for any
other. That the mirror serves what waits before a handback is entered or replaced (log 5), where a restore cue begins its walk (log
16), that an equal local switch time keeps the stop request (log 34), that a choice past the run switch time leaves mode and hold (log
37), that one made without a manual hold ends a wait for GO (log 64), when the record that filler up to an event holds is unpinned (log
60), and that a handback which keeps its local switch time keeps the switch time offered (log 55), are the model's choices. -/
def Obligations.HostReleaseActs : Prop :=
  ∀ s : State, s.locked = true → s.ReportsSettled →
    (∀ (c : Channel) (ch : Chan), s.chan? c = some ch →
      (ch.tk.state.holding = false → exec (.release [c]) s = .next (s.refuse .notHolding)) ∧
      ∀ (r : RunRec) (k : Key) (o : OutletNo), ch.run = some r → ch.tk.ownHold = some k → ch.tk.outlet = some o →
        let l := s.tb.now + BitVec.ofNat 48 (s.sp.cueLead * ch.period)
        (ch.tk.state = .joining → s.mirrorReqs = [] → (s.outlet o).state = .reserved ∨ (s.outlet o).state = .air →
          ∃ (t v : State) (y : Chan), exec (.release [c]) s = .next (t.done []) ∧ v.Checked t c y ∧ v.chan? c = some y ∧
            y.run = none ∧
            y.tk = { ch.tk with
              state := .idle, ownHold := none, outlet := none, holdDl := none, awaitLive := ch.watch.state == .lost } ∧
            v.outlet o = (s.outlet o).stoppedNow ∧ (∀ p, p ≠ o → v.outlet p = s.outlet p) ∧
            v.bus = (s.offerRelease c k .forced).bus ∧ s.Records v none ∧ v.notices = s.notices ∧ s.RunEnded v ch y ∧
            s.SameWatches v ∧ s.SameMirror v) ∧
        (ch.tk.state = .onAir → ch.tk.handback = none → ∃ (t : State) (y : Chan), exec (.release [c]) s = .next (t.done []) ∧
          s.serveAll.chan? c = some y ∧ y.run = some r ∧
          s.serveAll.HandbackEntered t c y k (s.handbackTo ch r (l - r.offset) l true)) ∧
        ∀ h : Handback, ch.tk.state = .handingBack → ch.tk.handback = some h →
          (h.forced = true → exec (.release [c]) s = .next (s.done [])) ∧
          (h.forced = false → diff h.localSwitch l ≤ 0 → exec (.release [c]) s =
            .next ((s.modTk c (fun tk => { tk with handback := some { h with forced := true } })).done [])) ∧
          (h.forced = false → 0 < diff h.localSwitch l → r.outlet = o → s.Takes o →
            ∃ (t : State) (y : Chan), exec (.release [c]) s = .next (t.done []) ∧ s.serveAll.chan? c = some y ∧ y.run = some r ∧
              s.serveAll.HandbackReplaced t c y r o h (s.handbackTo ch r (l - r.offset) l true))) ∧
    ∀ o : OutletNo,
      ((s.outlet o).state = .faulted → ∃ t : State, exec (.clearOutlet [BitVec.ofNat 8 o.val]) s = .next (t.done []) ∧
        (let u := (s.modOutlet o (fun x =>
          { x with state := .free, fault := none, queue := [], awaiting := [], outstanding := none })).settleOrder o
        u.Passed t ∧ u.ClaimsOnly t)) ∧
      ((s.outlet o).state ≠ .faulted → exec (.clearOutlet [BitVec.ofNat 8 o.val]) s = .next (s.refuse .notFaulted))

/-! ## The local port -/

/-- LOAD_STATION and ADD_CHANNEL take the lengths that end on a field boundary of their tables and refuse every other with BAD_FRAME.
Fields left off the tail take their defaults, and every numeric field out of its range is clamped to the nearer limit, the feed
channel included. A bad rate, a channel twice and a 17th channel are refused with BAD_VALUE; else the part is stored and answered DONE,
or CLAMPED with the whole part as stored when something was clamped. START lowers
the reply timeout and raises each K2 where its rule says, answers DONE where neither acted and CLAMPED with the stored timeout and
the pairs of channel and new K2 otherwise, locks the profile, and starts every block: the time base SEEKING, the records of every
channel new, the bus controller in LISTENING_IN with its own number, a STATUS offered and both deadlines armed. The clock, the cue
port, the outlets, the as-run queue and the notices stay. That ADD_CHANNEL makes a channel's records, which START makes anew, and that
START writes the free list of the pool again, are the model's choices (logs 28, 39). -/
def Obligations.ProfileCommandsAndStart : Prop :=
  ∀ s : State, s.locked = false →
    (∀ params : List Byte,
      (params.length ∉ [2, 5, 7, 9, 11, 12, 14, 15, 17, 19] → exec (.loadStation params) s = .next (s.refuse .badFrame)) ∧
      (params.length ∈ [2, 5, 7, 9, 11, 12, 14, 15, 17, 19] →
        let given (at_ bytes default : Nat) : Nat :=
          if at_ + bytes ≤ params.length then ((params.drop at_).take bytes).foldl (fun n b => 256 * n + b.toNat) 0 else default
        let raw : StationPart :=
          { number := given 0 1 0, rate := given 1 1 0, feedDelay := given 2 3 0, claimWindow := given 5 2 300
            holdPeriod := given 7 2 200, statusPeriod := given 9 2 1000, cueLead := given 11 1 12, replyTimeout := given 12 2 100
            handbackMin := given 14 1 5, retention := given 15 2 60, slewLimit := given 17 2 2400 }
        let p : StationPart :=
          { number := min 15 raw.number, rate := raw.rate, feedDelay := min 2400000 raw.feedDelay
            claimWindow := max 50 (min 2000 raw.claimWindow), holdPeriod := max 100 (min 1000 raw.holdPeriod)
            statusPeriod := max 250 (min 5000 raw.statusPeriod), cueLead := max 4 (min 100 raw.cueLead)
            replyTimeout := max 20 (min 500 raw.replyTimeout), handbackMin := max 1 (min 60 raw.handbackMin)
            retention := min 600 raw.retention, slewLimit := max 24 (min 24000 raw.slewLimit) }
        (raw.rate = 0 ∨ 8 < raw.rate → exec (.loadStation params) s = .next (s.refuse .badValue)) ∧
        (1 ≤ raw.rate → raw.rate ≤ 8 →
          (p = raw → exec (.loadStation params) s = .next (State.done { s with station := some p } [])) ∧
          (p ≠ raw → exec (.loadStation params) s = .next (State.clamped { s with station := some p } (spelled
            [(1, p.number), (1, p.rate), (3, p.feedDelay), (2, p.claimWindow), (2, p.holdPeriod), (2, p.statusPeriod),
              (1, p.cueLead), (2, p.replyTimeout), (1, p.handbackMin), (2, p.retention), (2, p.slewLimit)])))))) ∧
    (∀ params : List Byte,
      (params.length ∉ [18, 19, 21, 22, 23, 24, 25, 26] → exec (.addChannel params) s = .next (s.refuse .badFrame)) ∧
      (params.length ∈ [18, 19, 21, 22, 23, 24, 25, 26] →
        let given (at_ bytes default : Nat) : Nat :=
          if at_ + bytes ≤ params.length then ((params.drop at_).take bytes).foldl (fun n b => 256 * n + b.toNat) 0 else default
        let raw : ChannelPart :=
          { channel := BitVec.ofNat 8 (given 0 1 0), rate := given 1 1 0, filler := BitVec.ofNat 128 (given 2 16 0)
            rank := given 18 1 15, beaconPeriod := given 19 2 500, k1 := given 21 1 3, k2 := given 22 1 8
            windowMin := given 23 1 6, returnCount := given 24 1 5, minTail := given 25 1 25 }
        let p : ChannelPart :=
          { channel := BitVec.ofNat 8 (max 1 (min 64 raw.channel.toNat)), rate := raw.rate, filler := raw.filler
            rank := max 1 (min 15 raw.rank), beaconPeriod := max 100 (min 2000 raw.beaconPeriod), k1 := max 2 (min 20 raw.k1)
            k2 := max 3 (min 60 raw.k2), windowMin := max 1 (min 8 raw.windowMin), returnCount := max 1 (min 15 raw.returnCount)
            minTail := max 1 (min 250 raw.minTail) }
        (raw.rate = 0 ∨ 8 < raw.rate ∨ s.chan? p.channel ≠ none ∨ 16 ≤ s.chans.length →
          exec (.addChannel params) s = .next (s.refuse .badValue)) ∧
        (1 ≤ raw.rate → raw.rate ≤ 8 → s.chan? p.channel = none → s.chans.length < 16 →
          (p = raw → exec (.addChannel params) s = .next (State.done { s with chans := s.chans ++ [Chan.added p] } [])) ∧
          (p ≠ raw → exec (.addChannel params) s = .next (State.clamped { s with chans := s.chans ++ [Chan.added p] } (spelled
            [(1, p.channel.toNat), (1, p.rate), (16, p.filler.toNat), (1, p.rank), (2, p.beaconPeriod), (1, p.k1), (1, p.k2),
              (1, p.windowMin), (1, p.returnCount), (1, p.minTail)])))))) ∧
    ∀ p : StationPart, s.station = some p → s.chans ≠ [] →
      ∃ (t : State) (status : Reply) (shortest : Nat), exec (.start []) s = .next (t.reply status) ∧
        (∃ ch ∈ s.chans, Config.ratePeriod ch.part.rate = shortest) ∧
        (∀ ch ∈ s.chans, shortest ≤ Config.ratePeriod ch.part.rate) ∧
        t.station = some { p with replyTimeout := min p.replyTimeout (p.cueLead * shortest / 480) } ∧ t.locked = true ∧
        t.tb = { s.tb with state := .seeking, lastPulse := none, measuring := false, suspectRun := 0 } ∧
        t.chans = s.chans.map (fun ch =>
          { part := if ch.part.k2 ≤ ch.part.k1 then { ch.part with k2 := ch.part.k1 + 1 } else ch.part
            latestQueued := none, mirror := MirrorRec.start ch.part.rate, list := [], incoming := [], unlinked := []
            watch := WatchRec.start, tk := TakeoverRec.blank .idle, run := none }) ∧
        t.poolFree = List.range 1536 ∧
        t.bus.state = .listeningIn ∧ t.bus.own = BitVec.ofNat 4 p.number ∧ t.bus.rx = .hunt ∧
        t.bus.listeningDl = some (s.tb.now + BitVec.ofNat 48 (2 * (p.statusPeriod * 240))) ∧
        t.bus.statusDl = some (s.tb.now + BitVec.ofNat 48 (p.statusPeriod * 240)) ∧
        (s.bus.queue = [] → ∃ f, t.bus.queue = [f] ∧ frameClass f.body = 4 ∧ f.merit = 0 ∧ f.station = BitVec.ofNat 4 p.number) ∧
        t.feed = s.feed ∧ t.outlets = s.outlets ∧ t.cue = s.cue ∧ t.asrun = s.asrun ∧ t.notices = s.notices ∧
        t.floor = s.floor ∧
        status = (if min p.replyTimeout (p.cueLead * shortest / 480) = p.replyTimeout ∧ (∀ ch ∈ s.chans, ch.part.k1 < ch.part.k2) then
            { status := .done, data := [] }
          else
            { status := .clamped
              data := spelled ((2, min p.replyTimeout (p.cueLead * shortest / 480)) ::
                (s.chans.filter (fun ch => ch.part.k2 ≤ ch.part.k1)).flatMap (fun ch =>
                  [(1, ch.part.channel.toNat), (1, ch.part.k1 + 1)])) })

/-- Every read forms a DONE reply of what it reads, spelled by the fields its rule lists, and changes nothing else, but READ_CHANNEL
with a clear flag of 1, which makes peak and valley absent behind the reply, and TAKE_ASRUN, which takes up to 8 records from the head
of the queue. A reply fetch clocks the pending reply out, a truncated command and an over-long one do as their rules say, and a whole
command frame with a good check acts as the command of its code. The code bytes of two details of one class that tell different
things differ, so the byte of classes 6 and 11 also says which of the two notices occurred. The order of fields that the manual leaves
to the lists of its records, the count byte of the awaiting list and what a command given as whole bytes is are the model's choices
(logs 4, 17), as are the four bytes of STEP (log 62), the starts of an item and the one presence byte of the run summary (log 56), the one presence byte of the armed
stop with its outcome (log 57), and what the code byte of a notice and a count of frames played past 4 bytes are (logs 6, 29). -/
def Obligations.ReadsAndTransfers : Prop :=
  (∀ a b : NoticeCode, a ≠ b → a.cls = b.cls → noticeCodeByte a ≠ noticeCodeByte b) ∧ ∀ s : State,
    ((∀ i : Fin 12, s.notices[i].pending = true → (∀ j : Fin 12, j < i → s.notices[j].pending = false) →
        ∀ d, s.notices[i].detail = some d → exec (.readNotice []) s = .next (s.done (spelled
          [(1, i.val), (1, s.notices[i].count), (1, d.subject.toNat), (1, (noticeCodeByte d.code).toNat)]))) ∧
      ((∀ i : Fin 12, s.notices[i].pending = false) → exec (.readNotice []) s = .next (s.done [12, 0, 0, 0])) ∧
      exec (.readTime []) s = .next (s.done (spelled [(6, s.tb.now.toNat), (4, s.tb.step),
        placed [.freeRun, .seeking, .locked, .holdover] s.tb.state, timeClassField s.tb.state.timeClass])) ∧
      exec (.readOutlets []) s = .next (s.done (spelled
        ((s.outlet 0).fields ++ (s.outlet 1).fields ++ (s.outlet 2).fields ++ (s.outlet 3).fields))) ∧
      exec (.readCounts []) s = .next (s.done (spelled [(2, s.feed.faults), (2, s.feed.drops), (2, s.cue.late), (2, s.bus.drops),
        (2, s.bus.losses), (2, s.bus.malformed), (2, s.asrunDrops)])) ∧
      exec (.takeAsrun []) s = .next (State.done { s with asrun := s.asrun.drop 8 }
        (spelled ((1, min 8 s.asrun.length) :: (s.asrun.take 8).flatMap AsRun.fields)))) ∧
    (∀ half : Byte, half.toNat ≤ 1 → exec (.readPeers [half]) s = .next (s.done (spelled
      ([(1, s.bus.own.toNat), placed [.detached, .listeningIn, .active, .quiet] s.bus.state, (2, s.bus.heard.toNat)] ++
        ((List.finRange 16).filter (fun i => i.val / 8 == half.toNat && i.val != s.bus.own.toNat)).flatMap (fun i =>
          s.bus.peers[i].fields))))) ∧
    (∀ (c : Channel) (ch : Chan), s.locked = true → s.chan? c = some ch →
      (∀ flag : Byte, flag ≠ 1 → exec (.readChannel [c, flag]) s = .next (s.done (spelled ch.fields))) ∧
      exec (.readChannel [c, 1]) s =
        .next ((s.modWatch c (fun w => { w with peak := none, valley := none })).done (spelled ch.fields)) ∧
      ∀ pos : Byte, pos.toNat < 240 →
        (∀ e, ch.list[pos.toNat]? = some e → exec (.readEvent [c, pos]) s = .next (s.done (spelled e.fields))) ∧
        (ch.list.length ≤ pos.toNat → exec (.readEvent [c, pos]) s = .next (s.done []))) ∧
    (∀ r, s.port.reply = some r →
      let head := spelled [placed [.done, .clamped, .refused] r.status, (1, r.data.length)] ++ r.data
      exec .replyFetch s = .next { s with port := { s.port with lsdo := head ++ spelled [(2, (checkWord head).toNat)] } }) ∧
    (s.port.reply = none → exec .replyFetch s = .next { s with port := { s.port with lsdo := [] } }) ∧
    exec .truncatedCommand s = .next { s with port := { s.port with lsdo := [] } } ∧
    exec .overlongCommand s = .next { s with port := { reply := some ⟨.refused, [3]⟩, lsdo := [] } } ∧
    ∀ params : List Byte, params.length ≤ 250 →
      (∀ (code : Byte) (check : BitVec 16), code ≠ 0 → (check ≠ commandCheck code params ∨ 21 < code.toNat) →
        exec (.unknownCommand code params check) s = .next (s.refuse .badFrame)) ∧
      ∀ q ∈ [((1 : Byte), Instr.loadStation), (2, .addChannel), (3, .start), (4, .readNotice), (5, .clearNotice),
          (6, .setFloor), (7, .readChannel), (8, .readEvent), (9, .readPeers), (10, .readTime), (11, .readOutlets),
          (12, .readCounts), (13, .takeAsrun), (14, .clearOutlet), (15, .forceLost), (16, .unforce), (17, .inhibit),
          (18, .allow), (19, .release), (20, .go), (21, .busRestart)],
        exec (.unknownCommand q.1 params (commandCheck q.1 params)) s = exec (q.2 params) s

/-- CLEAR_NOTICE makes its class blank, and SET_FLOOR stores its parameter, clamped to 12; both judge the attention output again and
change nothing else. Clearing a class that is blank changes nothing, and other parameter lengths and classes are refused. -/
def Obligations.NoticeCommands : Prop :=
  ∀ s : State,
    (∀ n : Byte, ∃ t : State, t = { s with floor := min 12 n.toNat, attn := t.attn } ∧ t.AttentionRight ∧
      (n.toNat ≤ 12 → exec (.setFloor [n]) s = .next (t.done [])) ∧
      (12 < n.toNat → exec (.setFloor [n]) s = .next (t.clamped [12]))) ∧
    (∀ i : Fin 12, ∃ t : State, exec (.clearNotice [BitVec.ofNat 8 i.val]) s = .next (t.done []) ∧
      t = { s with notices := t.notices, attn := t.attn } ∧ t.AttentionRight ∧
      t.notices[i] = { pending := false, count := 0, detail := none } ∧
      (∀ j : Fin 12, j ≠ i → t.notices[j] = s.notices[j]) ∧
      (s.notices[i] = { pending := false, count := 0, detail := none } → s.AttentionRight → t = s)) ∧
    (∀ n : Byte, 12 ≤ n.toNat → exec (.clearNotice [n]) s = .next (s.refuse .badFrame)) ∧
    ∀ params : List Byte, params.length ≠ 1 →
      exec (.setFloor params) s = .next (s.refuse .badFrame) ∧ exec (.clearNotice params) s = .next (s.refuse .badFrame)

/-- SET_FLOOR clamps a value above 12 to 12 and answers CLAMPED with the stored floor, stores any other value and answers DONE, and
judges the attention output again at once with the new floor; it changes nothing else. -/
def Obligations.SetFloorStores : Prop :=
  ∀ (s : State) (n : Byte),
    let floor := if 12 < n.toNat then 12 else n.toNat
    ∃ t : State, t = { s with floor := floor, attn := t.attn } ∧
      (t.attn = true ↔ ∃ i : Fin 12, s.notices[i].pending = true ∧ i.val < floor) ∧
      exec (.setFloor [n]) s = .next (t.reply (if 12 < n.toNat then { status := .clamped, data := [12] }
        else { status := .done, data := [] }))

/-- A local-port command that leaves a REFUSED reply pending has changed nothing but the port, and the judgement of a command comes
in its order: its length, its phase, then its channel. That a channel byte of 0 or above 64 counts as a channel not in the profile is
the model's choice (log 18). -/
def Obligations.RefusedCommandsChangeNothing : Prop :=
  (∀ (c : Instr) (p : List Byte) (s t : State) (r : Reply),
    (c ∈ [.loadStation p, .addChannel p, .start p, .readNotice p, .clearNotice p, .setFloor p, .readChannel p, .readEvent p,
      .readPeers p, .readTime p, .readOutlets p, .readCounts p, .takeAsrun p, .clearOutlet p, .forceLost p, .unforce p,
      .inhibit p, .allow p, .release p, .go p, .busRestart p, .replyFetch, .truncatedCommand, .overlongCommand] ∨
      ∃ code check, c = .unknownCommand code p check) →
    exec c s = .next t → t.port.reply = some r → r.status = .refused → { t with port := s.port } = s) ∧
  ∀ (s : State) (p : List Byte),
    (∀ f ∈ [Instr.forceLost, .unforce, .inhibit, .allow, .release, .go],
      (p.length ≠ 1 → exec (f p) s = .next (s.refuse .badFrame)) ∧
      ∀ c : Channel, (s.locked = false → exec (f [c]) s = .next (s.refuse .phase)) ∧
        (s.locked = true → s.chan? c = none → exec (f [c]) s = .next (s.refuse .noChannel))) ∧
    (s.locked = true → exec (.start []) s = .next (s.refuse .phase) ∧
      (∀ q : StationPart, clampStation q = q → exec (.loadStation (stationBytes q)) s = .next (s.refuse .phase)) ∧
      ∀ q : ChannelPart, clampChannel q = q → exec (.addChannel (channelBytes q)) s = .next (s.refuse .phase)) ∧
    (s.locked = false → exec (.busRestart []) s = .next (s.refuse .phase) ∧
      (s.station = none ∨ s.chans = [] → exec (.start []) s = .next (s.refuse .phase)))
end

