-- ==== Sys2Proof/Laws/State.lean ====
section
/-! SUPPORT. The fields that each plain update of State leaves as they are, one lemma per field per update. -/

namespace Sys2Proof.Machine

variable (s : State)

@[simp] theorem State.modChan_tb (c : Channel) (f : Chan → Chan) : (s.modChan c f).tb = s.tb := rfl
@[simp] theorem State.modChan_now (c : Channel) (f : Chan → Chan) : (s.modChan c f).now = s.now := rfl
@[simp] theorem State.modChan_station (c : Channel) (f : Chan → Chan) : (s.modChan c f).station = s.station := rfl
@[simp] theorem State.modChan_sp (c : Channel) (f : Chan → Chan) : (s.modChan c f).sp = s.sp := rfl
@[simp] theorem State.modChan_locked (c : Channel) (f : Chan → Chan) : (s.modChan c f).locked = s.locked := rfl
@[simp] theorem State.modChan_feed (c : Channel) (f : Chan → Chan) : (s.modChan c f).feed = s.feed := rfl
@[simp] theorem State.modChan_mirrorReqs (c : Channel) (f : Chan → Chan) : (s.modChan c f).mirrorReqs = s.mirrorReqs := rfl
@[simp] theorem State.modChan_poolFree (c : Channel) (f : Chan → Chan) : (s.modChan c f).poolFree = s.poolFree := rfl
@[simp] theorem State.modChan_bus (c : Channel) (f : Chan → Chan) : (s.modChan c f).bus = s.bus := rfl
@[simp] theorem State.modChan_outlets (c : Channel) (f : Chan → Chan) : (s.modChan c f).outlets = s.outlets := rfl
@[simp] theorem State.modChan_cue (c : Channel) (f : Chan → Chan) : (s.modChan c f).cue = s.cue := rfl
@[simp] theorem State.modChan_asrun (c : Channel) (f : Chan → Chan) : (s.modChan c f).asrun = s.asrun := rfl
@[simp] theorem State.modChan_asrunDrops (c : Channel) (f : Chan → Chan) : (s.modChan c f).asrunDrops = s.asrunDrops := rfl
@[simp] theorem State.modChan_notices (c : Channel) (f : Chan → Chan) : (s.modChan c f).notices = s.notices := rfl
@[simp] theorem State.modChan_floor (c : Channel) (f : Chan → Chan) : (s.modChan c f).floor = s.floor := rfl
@[simp] theorem State.modChan_attn (c : Channel) (f : Chan → Chan) : (s.modChan c f).attn = s.attn := rfl
@[simp] theorem State.modChan_port (c : Channel) (f : Chan → Chan) : (s.modChan c f).port = s.port := rfl
@[simp] theorem State.modChan_itemSerial (c : Channel) (f : Chan → Chan) : (s.modChan c f).itemSerial = s.itemSerial := rfl
@[simp] theorem State.modChan_reports (c : Channel) (f : Chan → Chan) : (s.modChan c f).reports = s.reports := rfl
@[simp] theorem State.modChan_pending (c : Channel) (f : Chan → Chan) : (s.modChan c f).pending = s.pending := rfl

@[simp] theorem State.modTk_tb (c : Channel) (f : TakeoverRec → TakeoverRec) : (s.modTk c f).tb = s.tb := rfl
@[simp] theorem State.modTk_now (c : Channel) (f : TakeoverRec → TakeoverRec) : (s.modTk c f).now = s.now := rfl
@[simp] theorem State.modTk_station (c : Channel) (f : TakeoverRec → TakeoverRec) : (s.modTk c f).station = s.station := rfl
@[simp] theorem State.modTk_sp (c : Channel) (f : TakeoverRec → TakeoverRec) : (s.modTk c f).sp = s.sp := rfl
@[simp] theorem State.modTk_locked (c : Channel) (f : TakeoverRec → TakeoverRec) : (s.modTk c f).locked = s.locked := rfl
@[simp] theorem State.modTk_feed (c : Channel) (f : TakeoverRec → TakeoverRec) : (s.modTk c f).feed = s.feed := rfl
@[simp] theorem State.modTk_mirrorReqs (c : Channel) (f : TakeoverRec → TakeoverRec) : (s.modTk c f).mirrorReqs = s.mirrorReqs := rfl
@[simp] theorem State.modTk_poolFree (c : Channel) (f : TakeoverRec → TakeoverRec) : (s.modTk c f).poolFree = s.poolFree := rfl
@[simp] theorem State.modTk_bus (c : Channel) (f : TakeoverRec → TakeoverRec) : (s.modTk c f).bus = s.bus := rfl
@[simp] theorem State.modTk_outlets (c : Channel) (f : TakeoverRec → TakeoverRec) : (s.modTk c f).outlets = s.outlets := rfl
@[simp] theorem State.modTk_cue (c : Channel) (f : TakeoverRec → TakeoverRec) : (s.modTk c f).cue = s.cue := rfl
@[simp] theorem State.modTk_asrun (c : Channel) (f : TakeoverRec → TakeoverRec) : (s.modTk c f).asrun = s.asrun := rfl
@[simp] theorem State.modTk_asrunDrops (c : Channel) (f : TakeoverRec → TakeoverRec) : (s.modTk c f).asrunDrops = s.asrunDrops := rfl
@[simp] theorem State.modTk_notices (c : Channel) (f : TakeoverRec → TakeoverRec) : (s.modTk c f).notices = s.notices := rfl
@[simp] theorem State.modTk_floor (c : Channel) (f : TakeoverRec → TakeoverRec) : (s.modTk c f).floor = s.floor := rfl
@[simp] theorem State.modTk_attn (c : Channel) (f : TakeoverRec → TakeoverRec) : (s.modTk c f).attn = s.attn := rfl
@[simp] theorem State.modTk_port (c : Channel) (f : TakeoverRec → TakeoverRec) : (s.modTk c f).port = s.port := rfl
@[simp] theorem State.modTk_itemSerial (c : Channel) (f : TakeoverRec → TakeoverRec) : (s.modTk c f).itemSerial = s.itemSerial := rfl
@[simp] theorem State.modTk_reports (c : Channel) (f : TakeoverRec → TakeoverRec) : (s.modTk c f).reports = s.reports := rfl
@[simp] theorem State.modTk_pending (c : Channel) (f : TakeoverRec → TakeoverRec) : (s.modTk c f).pending = s.pending := rfl

@[simp] theorem State.modWatch_tb (c : Channel) (f : WatchRec → WatchRec) : (s.modWatch c f).tb = s.tb := rfl
@[simp] theorem State.modWatch_now (c : Channel) (f : WatchRec → WatchRec) : (s.modWatch c f).now = s.now := rfl
@[simp] theorem State.modWatch_station (c : Channel) (f : WatchRec → WatchRec) : (s.modWatch c f).station = s.station := rfl
@[simp] theorem State.modWatch_sp (c : Channel) (f : WatchRec → WatchRec) : (s.modWatch c f).sp = s.sp := rfl
@[simp] theorem State.modWatch_locked (c : Channel) (f : WatchRec → WatchRec) : (s.modWatch c f).locked = s.locked := rfl
@[simp] theorem State.modWatch_feed (c : Channel) (f : WatchRec → WatchRec) : (s.modWatch c f).feed = s.feed := rfl
@[simp] theorem State.modWatch_mirrorReqs (c : Channel) (f : WatchRec → WatchRec) : (s.modWatch c f).mirrorReqs = s.mirrorReqs := rfl
@[simp] theorem State.modWatch_poolFree (c : Channel) (f : WatchRec → WatchRec) : (s.modWatch c f).poolFree = s.poolFree := rfl
@[simp] theorem State.modWatch_bus (c : Channel) (f : WatchRec → WatchRec) : (s.modWatch c f).bus = s.bus := rfl
@[simp] theorem State.modWatch_outlets (c : Channel) (f : WatchRec → WatchRec) : (s.modWatch c f).outlets = s.outlets := rfl
@[simp] theorem State.modWatch_cue (c : Channel) (f : WatchRec → WatchRec) : (s.modWatch c f).cue = s.cue := rfl
@[simp] theorem State.modWatch_asrun (c : Channel) (f : WatchRec → WatchRec) : (s.modWatch c f).asrun = s.asrun := rfl
@[simp] theorem State.modWatch_asrunDrops (c : Channel) (f : WatchRec → WatchRec) : (s.modWatch c f).asrunDrops = s.asrunDrops := rfl
@[simp] theorem State.modWatch_notices (c : Channel) (f : WatchRec → WatchRec) : (s.modWatch c f).notices = s.notices := rfl
@[simp] theorem State.modWatch_floor (c : Channel) (f : WatchRec → WatchRec) : (s.modWatch c f).floor = s.floor := rfl
@[simp] theorem State.modWatch_attn (c : Channel) (f : WatchRec → WatchRec) : (s.modWatch c f).attn = s.attn := rfl
@[simp] theorem State.modWatch_port (c : Channel) (f : WatchRec → WatchRec) : (s.modWatch c f).port = s.port := rfl
@[simp] theorem State.modWatch_itemSerial (c : Channel) (f : WatchRec → WatchRec) : (s.modWatch c f).itemSerial = s.itemSerial := rfl
@[simp] theorem State.modWatch_reports (c : Channel) (f : WatchRec → WatchRec) : (s.modWatch c f).reports = s.reports := rfl
@[simp] theorem State.modWatch_pending (c : Channel) (f : WatchRec → WatchRec) : (s.modWatch c f).pending = s.pending := rfl

@[simp] theorem State.modMirror_tb (c : Channel) (f : MirrorRec → MirrorRec) : (s.modMirror c f).tb = s.tb := rfl
@[simp] theorem State.modMirror_now (c : Channel) (f : MirrorRec → MirrorRec) : (s.modMirror c f).now = s.now := rfl
@[simp] theorem State.modMirror_station (c : Channel) (f : MirrorRec → MirrorRec) : (s.modMirror c f).station = s.station := rfl
@[simp] theorem State.modMirror_sp (c : Channel) (f : MirrorRec → MirrorRec) : (s.modMirror c f).sp = s.sp := rfl
@[simp] theorem State.modMirror_locked (c : Channel) (f : MirrorRec → MirrorRec) : (s.modMirror c f).locked = s.locked := rfl
@[simp] theorem State.modMirror_feed (c : Channel) (f : MirrorRec → MirrorRec) : (s.modMirror c f).feed = s.feed := rfl
@[simp] theorem State.modMirror_mirrorReqs (c : Channel) (f : MirrorRec → MirrorRec) : (s.modMirror c f).mirrorReqs = s.mirrorReqs := rfl
@[simp] theorem State.modMirror_poolFree (c : Channel) (f : MirrorRec → MirrorRec) : (s.modMirror c f).poolFree = s.poolFree := rfl
@[simp] theorem State.modMirror_bus (c : Channel) (f : MirrorRec → MirrorRec) : (s.modMirror c f).bus = s.bus := rfl
@[simp] theorem State.modMirror_outlets (c : Channel) (f : MirrorRec → MirrorRec) : (s.modMirror c f).outlets = s.outlets := rfl
@[simp] theorem State.modMirror_cue (c : Channel) (f : MirrorRec → MirrorRec) : (s.modMirror c f).cue = s.cue := rfl
@[simp] theorem State.modMirror_asrun (c : Channel) (f : MirrorRec → MirrorRec) : (s.modMirror c f).asrun = s.asrun := rfl
@[simp] theorem State.modMirror_asrunDrops (c : Channel) (f : MirrorRec → MirrorRec) : (s.modMirror c f).asrunDrops = s.asrunDrops := rfl
@[simp] theorem State.modMirror_notices (c : Channel) (f : MirrorRec → MirrorRec) : (s.modMirror c f).notices = s.notices := rfl
@[simp] theorem State.modMirror_floor (c : Channel) (f : MirrorRec → MirrorRec) : (s.modMirror c f).floor = s.floor := rfl
@[simp] theorem State.modMirror_attn (c : Channel) (f : MirrorRec → MirrorRec) : (s.modMirror c f).attn = s.attn := rfl
@[simp] theorem State.modMirror_port (c : Channel) (f : MirrorRec → MirrorRec) : (s.modMirror c f).port = s.port := rfl
@[simp] theorem State.modMirror_itemSerial (c : Channel) (f : MirrorRec → MirrorRec) : (s.modMirror c f).itemSerial = s.itemSerial := rfl
@[simp] theorem State.modMirror_reports (c : Channel) (f : MirrorRec → MirrorRec) : (s.modMirror c f).reports = s.reports := rfl
@[simp] theorem State.modMirror_pending (c : Channel) (f : MirrorRec → MirrorRec) : (s.modMirror c f).pending = s.pending := rfl

@[simp] theorem State.modRun_tb (c : Channel) (f : RunRec → RunRec) : (s.modRun c f).tb = s.tb := rfl
@[simp] theorem State.modRun_now (c : Channel) (f : RunRec → RunRec) : (s.modRun c f).now = s.now := rfl
@[simp] theorem State.modRun_station (c : Channel) (f : RunRec → RunRec) : (s.modRun c f).station = s.station := rfl
@[simp] theorem State.modRun_sp (c : Channel) (f : RunRec → RunRec) : (s.modRun c f).sp = s.sp := rfl
@[simp] theorem State.modRun_locked (c : Channel) (f : RunRec → RunRec) : (s.modRun c f).locked = s.locked := rfl
@[simp] theorem State.modRun_feed (c : Channel) (f : RunRec → RunRec) : (s.modRun c f).feed = s.feed := rfl
@[simp] theorem State.modRun_mirrorReqs (c : Channel) (f : RunRec → RunRec) : (s.modRun c f).mirrorReqs = s.mirrorReqs := rfl
@[simp] theorem State.modRun_poolFree (c : Channel) (f : RunRec → RunRec) : (s.modRun c f).poolFree = s.poolFree := rfl
@[simp] theorem State.modRun_bus (c : Channel) (f : RunRec → RunRec) : (s.modRun c f).bus = s.bus := rfl
@[simp] theorem State.modRun_outlets (c : Channel) (f : RunRec → RunRec) : (s.modRun c f).outlets = s.outlets := rfl
@[simp] theorem State.modRun_cue (c : Channel) (f : RunRec → RunRec) : (s.modRun c f).cue = s.cue := rfl
@[simp] theorem State.modRun_asrun (c : Channel) (f : RunRec → RunRec) : (s.modRun c f).asrun = s.asrun := rfl
@[simp] theorem State.modRun_asrunDrops (c : Channel) (f : RunRec → RunRec) : (s.modRun c f).asrunDrops = s.asrunDrops := rfl
@[simp] theorem State.modRun_notices (c : Channel) (f : RunRec → RunRec) : (s.modRun c f).notices = s.notices := rfl
@[simp] theorem State.modRun_floor (c : Channel) (f : RunRec → RunRec) : (s.modRun c f).floor = s.floor := rfl
@[simp] theorem State.modRun_attn (c : Channel) (f : RunRec → RunRec) : (s.modRun c f).attn = s.attn := rfl
@[simp] theorem State.modRun_port (c : Channel) (f : RunRec → RunRec) : (s.modRun c f).port = s.port := rfl
@[simp] theorem State.modRun_itemSerial (c : Channel) (f : RunRec → RunRec) : (s.modRun c f).itemSerial = s.itemSerial := rfl
@[simp] theorem State.modRun_reports (c : Channel) (f : RunRec → RunRec) : (s.modRun c f).reports = s.reports := rfl
@[simp] theorem State.modRun_pending (c : Channel) (f : RunRec → RunRec) : (s.modRun c f).pending = s.pending := rfl

@[simp] theorem State.modOutlet_tb (o : OutletNo) (f : Outlet → Outlet) : (s.modOutlet o f).tb = s.tb := rfl
@[simp] theorem State.modOutlet_now (o : OutletNo) (f : Outlet → Outlet) : (s.modOutlet o f).now = s.now := rfl
@[simp] theorem State.modOutlet_station (o : OutletNo) (f : Outlet → Outlet) : (s.modOutlet o f).station = s.station := rfl
@[simp] theorem State.modOutlet_sp (o : OutletNo) (f : Outlet → Outlet) : (s.modOutlet o f).sp = s.sp := rfl
@[simp] theorem State.modOutlet_locked (o : OutletNo) (f : Outlet → Outlet) : (s.modOutlet o f).locked = s.locked := rfl
@[simp] theorem State.modOutlet_chans (o : OutletNo) (f : Outlet → Outlet) : (s.modOutlet o f).chans = s.chans := rfl
@[simp] theorem State.modOutlet_feed (o : OutletNo) (f : Outlet → Outlet) : (s.modOutlet o f).feed = s.feed := rfl
@[simp] theorem State.modOutlet_mirrorReqs (o : OutletNo) (f : Outlet → Outlet) : (s.modOutlet o f).mirrorReqs = s.mirrorReqs := rfl
@[simp] theorem State.modOutlet_poolFree (o : OutletNo) (f : Outlet → Outlet) : (s.modOutlet o f).poolFree = s.poolFree := rfl
@[simp] theorem State.modOutlet_bus (o : OutletNo) (f : Outlet → Outlet) : (s.modOutlet o f).bus = s.bus := rfl
@[simp] theorem State.modOutlet_cue (o : OutletNo) (f : Outlet → Outlet) : (s.modOutlet o f).cue = s.cue := rfl
@[simp] theorem State.modOutlet_asrun (o : OutletNo) (f : Outlet → Outlet) : (s.modOutlet o f).asrun = s.asrun := rfl
@[simp] theorem State.modOutlet_asrunDrops (o : OutletNo) (f : Outlet → Outlet) : (s.modOutlet o f).asrunDrops = s.asrunDrops := rfl
@[simp] theorem State.modOutlet_notices (o : OutletNo) (f : Outlet → Outlet) : (s.modOutlet o f).notices = s.notices := rfl
@[simp] theorem State.modOutlet_floor (o : OutletNo) (f : Outlet → Outlet) : (s.modOutlet o f).floor = s.floor := rfl
@[simp] theorem State.modOutlet_attn (o : OutletNo) (f : Outlet → Outlet) : (s.modOutlet o f).attn = s.attn := rfl
@[simp] theorem State.modOutlet_port (o : OutletNo) (f : Outlet → Outlet) : (s.modOutlet o f).port = s.port := rfl
@[simp] theorem State.modOutlet_itemSerial (o : OutletNo) (f : Outlet → Outlet) : (s.modOutlet o f).itemSerial = s.itemSerial := rfl
@[simp] theorem State.modOutlet_reports (o : OutletNo) (f : Outlet → Outlet) : (s.modOutlet o f).reports = s.reports := rfl
@[simp] theorem State.modOutlet_pending (o : OutletNo) (f : Outlet → Outlet) : (s.modOutlet o f).pending = s.pending := rfl

@[simp] theorem State.freeRecords_tb (rs : List EventRec) : (s.freeRecords rs).tb = s.tb := rfl
@[simp] theorem State.freeRecords_now (rs : List EventRec) : (s.freeRecords rs).now = s.now := rfl
@[simp] theorem State.freeRecords_station (rs : List EventRec) : (s.freeRecords rs).station = s.station := rfl
@[simp] theorem State.freeRecords_sp (rs : List EventRec) : (s.freeRecords rs).sp = s.sp := rfl
@[simp] theorem State.freeRecords_locked (rs : List EventRec) : (s.freeRecords rs).locked = s.locked := rfl
@[simp] theorem State.freeRecords_chans (rs : List EventRec) : (s.freeRecords rs).chans = s.chans := rfl
@[simp] theorem State.freeRecords_feed (rs : List EventRec) : (s.freeRecords rs).feed = s.feed := rfl
@[simp] theorem State.freeRecords_mirrorReqs (rs : List EventRec) : (s.freeRecords rs).mirrorReqs = s.mirrorReqs := rfl
@[simp] theorem State.freeRecords_bus (rs : List EventRec) : (s.freeRecords rs).bus = s.bus := rfl
@[simp] theorem State.freeRecords_outlets (rs : List EventRec) : (s.freeRecords rs).outlets = s.outlets := rfl
@[simp] theorem State.freeRecords_cue (rs : List EventRec) : (s.freeRecords rs).cue = s.cue := rfl
@[simp] theorem State.freeRecords_asrun (rs : List EventRec) : (s.freeRecords rs).asrun = s.asrun := rfl
@[simp] theorem State.freeRecords_asrunDrops (rs : List EventRec) : (s.freeRecords rs).asrunDrops = s.asrunDrops := rfl
@[simp] theorem State.freeRecords_notices (rs : List EventRec) : (s.freeRecords rs).notices = s.notices := rfl
@[simp] theorem State.freeRecords_floor (rs : List EventRec) : (s.freeRecords rs).floor = s.floor := rfl
@[simp] theorem State.freeRecords_attn (rs : List EventRec) : (s.freeRecords rs).attn = s.attn := rfl
@[simp] theorem State.freeRecords_port (rs : List EventRec) : (s.freeRecords rs).port = s.port := rfl
@[simp] theorem State.freeRecords_itemSerial (rs : List EventRec) : (s.freeRecords rs).itemSerial = s.itemSerial := rfl
@[simp] theorem State.freeRecords_reports (rs : List EventRec) : (s.freeRecords rs).reports = s.reports := rfl
@[simp] theorem State.freeRecords_pending (rs : List EventRec) : (s.freeRecords rs).pending = s.pending := rfl

@[simp] theorem State.judgeAttention_tb : (s.judgeAttention).tb = s.tb := rfl
@[simp] theorem State.judgeAttention_now : (s.judgeAttention).now = s.now := rfl
@[simp] theorem State.judgeAttention_station : (s.judgeAttention).station = s.station := rfl
@[simp] theorem State.judgeAttention_sp : (s.judgeAttention).sp = s.sp := rfl
@[simp] theorem State.judgeAttention_locked : (s.judgeAttention).locked = s.locked := rfl
@[simp] theorem State.judgeAttention_chans : (s.judgeAttention).chans = s.chans := rfl
@[simp] theorem State.judgeAttention_feed : (s.judgeAttention).feed = s.feed := rfl
@[simp] theorem State.judgeAttention_mirrorReqs : (s.judgeAttention).mirrorReqs = s.mirrorReqs := rfl
@[simp] theorem State.judgeAttention_poolFree : (s.judgeAttention).poolFree = s.poolFree := rfl
@[simp] theorem State.judgeAttention_bus : (s.judgeAttention).bus = s.bus := rfl
@[simp] theorem State.judgeAttention_outlets : (s.judgeAttention).outlets = s.outlets := rfl
@[simp] theorem State.judgeAttention_cue : (s.judgeAttention).cue = s.cue := rfl
@[simp] theorem State.judgeAttention_asrun : (s.judgeAttention).asrun = s.asrun := rfl
@[simp] theorem State.judgeAttention_asrunDrops : (s.judgeAttention).asrunDrops = s.asrunDrops := rfl
@[simp] theorem State.judgeAttention_notices : (s.judgeAttention).notices = s.notices := rfl
@[simp] theorem State.judgeAttention_floor : (s.judgeAttention).floor = s.floor := rfl
@[simp] theorem State.judgeAttention_port : (s.judgeAttention).port = s.port := rfl
@[simp] theorem State.judgeAttention_itemSerial : (s.judgeAttention).itemSerial = s.itemSerial := rfl
@[simp] theorem State.judgeAttention_reports : (s.judgeAttention).reports = s.reports := rfl
@[simp] theorem State.judgeAttention_pending : (s.judgeAttention).pending = s.pending := rfl

@[simp] theorem State.modNotice_tb (i : Fin 12) (f : Notice → Notice) : (s.modNotice i f).tb = s.tb := rfl
@[simp] theorem State.modNotice_now (i : Fin 12) (f : Notice → Notice) : (s.modNotice i f).now = s.now := rfl
@[simp] theorem State.modNotice_station (i : Fin 12) (f : Notice → Notice) : (s.modNotice i f).station = s.station := rfl
@[simp] theorem State.modNotice_sp (i : Fin 12) (f : Notice → Notice) : (s.modNotice i f).sp = s.sp := rfl
@[simp] theorem State.modNotice_locked (i : Fin 12) (f : Notice → Notice) : (s.modNotice i f).locked = s.locked := rfl
@[simp] theorem State.modNotice_chans (i : Fin 12) (f : Notice → Notice) : (s.modNotice i f).chans = s.chans := rfl
@[simp] theorem State.modNotice_feed (i : Fin 12) (f : Notice → Notice) : (s.modNotice i f).feed = s.feed := rfl
@[simp] theorem State.modNotice_mirrorReqs (i : Fin 12) (f : Notice → Notice) : (s.modNotice i f).mirrorReqs = s.mirrorReqs := rfl
@[simp] theorem State.modNotice_poolFree (i : Fin 12) (f : Notice → Notice) : (s.modNotice i f).poolFree = s.poolFree := rfl
@[simp] theorem State.modNotice_bus (i : Fin 12) (f : Notice → Notice) : (s.modNotice i f).bus = s.bus := rfl
@[simp] theorem State.modNotice_outlets (i : Fin 12) (f : Notice → Notice) : (s.modNotice i f).outlets = s.outlets := rfl
@[simp] theorem State.modNotice_cue (i : Fin 12) (f : Notice → Notice) : (s.modNotice i f).cue = s.cue := rfl
@[simp] theorem State.modNotice_asrun (i : Fin 12) (f : Notice → Notice) : (s.modNotice i f).asrun = s.asrun := rfl
@[simp] theorem State.modNotice_asrunDrops (i : Fin 12) (f : Notice → Notice) : (s.modNotice i f).asrunDrops = s.asrunDrops := rfl
@[simp] theorem State.modNotice_floor (i : Fin 12) (f : Notice → Notice) : (s.modNotice i f).floor = s.floor := rfl
@[simp] theorem State.modNotice_port (i : Fin 12) (f : Notice → Notice) : (s.modNotice i f).port = s.port := rfl
@[simp] theorem State.modNotice_itemSerial (i : Fin 12) (f : Notice → Notice) : (s.modNotice i f).itemSerial = s.itemSerial := rfl
@[simp] theorem State.modNotice_reports (i : Fin 12) (f : Notice → Notice) : (s.modNotice i f).reports = s.reports := rfl
@[simp] theorem State.modNotice_pending (i : Fin 12) (f : Notice → Notice) : (s.modNotice i f).pending = s.pending := rfl

@[simp] theorem State.raise_tb (cls : NoticeClass) (b : Byte) (d : NoticeCode) : (s.raise cls b d).tb = s.tb := rfl
@[simp] theorem State.raise_now (cls : NoticeClass) (b : Byte) (d : NoticeCode) : (s.raise cls b d).now = s.now := rfl
@[simp] theorem State.raise_station (cls : NoticeClass) (b : Byte) (d : NoticeCode) : (s.raise cls b d).station = s.station := rfl
@[simp] theorem State.raise_sp (cls : NoticeClass) (b : Byte) (d : NoticeCode) : (s.raise cls b d).sp = s.sp := rfl
@[simp] theorem State.raise_locked (cls : NoticeClass) (b : Byte) (d : NoticeCode) : (s.raise cls b d).locked = s.locked := rfl
@[simp] theorem State.raise_chans (cls : NoticeClass) (b : Byte) (d : NoticeCode) : (s.raise cls b d).chans = s.chans := rfl
@[simp] theorem State.raise_feed (cls : NoticeClass) (b : Byte) (d : NoticeCode) : (s.raise cls b d).feed = s.feed := rfl
@[simp] theorem State.raise_mirrorReqs (cls : NoticeClass) (b : Byte) (d : NoticeCode) : (s.raise cls b d).mirrorReqs = s.mirrorReqs := rfl
@[simp] theorem State.raise_poolFree (cls : NoticeClass) (b : Byte) (d : NoticeCode) : (s.raise cls b d).poolFree = s.poolFree := rfl
@[simp] theorem State.raise_bus (cls : NoticeClass) (b : Byte) (d : NoticeCode) : (s.raise cls b d).bus = s.bus := rfl
@[simp] theorem State.raise_outlets (cls : NoticeClass) (b : Byte) (d : NoticeCode) : (s.raise cls b d).outlets = s.outlets := rfl
@[simp] theorem State.raise_cue (cls : NoticeClass) (b : Byte) (d : NoticeCode) : (s.raise cls b d).cue = s.cue := rfl
@[simp] theorem State.raise_asrun (cls : NoticeClass) (b : Byte) (d : NoticeCode) : (s.raise cls b d).asrun = s.asrun := rfl
@[simp] theorem State.raise_asrunDrops (cls : NoticeClass) (b : Byte) (d : NoticeCode) : (s.raise cls b d).asrunDrops = s.asrunDrops := rfl
@[simp] theorem State.raise_floor (cls : NoticeClass) (b : Byte) (d : NoticeCode) : (s.raise cls b d).floor = s.floor := rfl
@[simp] theorem State.raise_port (cls : NoticeClass) (b : Byte) (d : NoticeCode) : (s.raise cls b d).port = s.port := rfl
@[simp] theorem State.raise_itemSerial (cls : NoticeClass) (b : Byte) (d : NoticeCode) : (s.raise cls b d).itemSerial = s.itemSerial := rfl
@[simp] theorem State.raise_reports (cls : NoticeClass) (b : Byte) (d : NoticeCode) : (s.raise cls b d).reports = s.reports := rfl
@[simp] theorem State.raise_pending (cls : NoticeClass) (b : Byte) (d : NoticeCode) : (s.raise cls b d).pending = s.pending := rfl

@[simp] theorem State.setQueue_tb (q : List Frame) : (s.setQueue q).tb = s.tb := rfl
@[simp] theorem State.setQueue_now (q : List Frame) : (s.setQueue q).now = s.now := rfl
@[simp] theorem State.setQueue_station (q : List Frame) : (s.setQueue q).station = s.station := rfl
@[simp] theorem State.setQueue_sp (q : List Frame) : (s.setQueue q).sp = s.sp := rfl
@[simp] theorem State.setQueue_locked (q : List Frame) : (s.setQueue q).locked = s.locked := rfl
@[simp] theorem State.setQueue_chans (q : List Frame) : (s.setQueue q).chans = s.chans := rfl
@[simp] theorem State.setQueue_feed (q : List Frame) : (s.setQueue q).feed = s.feed := rfl
@[simp] theorem State.setQueue_mirrorReqs (q : List Frame) : (s.setQueue q).mirrorReqs = s.mirrorReqs := rfl
@[simp] theorem State.setQueue_poolFree (q : List Frame) : (s.setQueue q).poolFree = s.poolFree := rfl
@[simp] theorem State.setQueue_outlets (q : List Frame) : (s.setQueue q).outlets = s.outlets := rfl
@[simp] theorem State.setQueue_cue (q : List Frame) : (s.setQueue q).cue = s.cue := rfl
@[simp] theorem State.setQueue_asrun (q : List Frame) : (s.setQueue q).asrun = s.asrun := rfl
@[simp] theorem State.setQueue_asrunDrops (q : List Frame) : (s.setQueue q).asrunDrops = s.asrunDrops := rfl
@[simp] theorem State.setQueue_notices (q : List Frame) : (s.setQueue q).notices = s.notices := rfl
@[simp] theorem State.setQueue_floor (q : List Frame) : (s.setQueue q).floor = s.floor := rfl
@[simp] theorem State.setQueue_attn (q : List Frame) : (s.setQueue q).attn = s.attn := rfl
@[simp] theorem State.setQueue_port (q : List Frame) : (s.setQueue q).port = s.port := rfl
@[simp] theorem State.setQueue_itemSerial (q : List Frame) : (s.setQueue q).itemSerial = s.itemSerial := rfl
@[simp] theorem State.setQueue_reports (q : List Frame) : (s.setQueue q).reports = s.reports := rfl
@[simp] theorem State.setQueue_pending (q : List Frame) : (s.setQueue q).pending = s.pending := rfl

@[simp] theorem State.countDrop_tb : (s.countDrop).tb = s.tb := rfl
@[simp] theorem State.countDrop_now : (s.countDrop).now = s.now := rfl
@[simp] theorem State.countDrop_station : (s.countDrop).station = s.station := rfl
@[simp] theorem State.countDrop_sp : (s.countDrop).sp = s.sp := rfl
@[simp] theorem State.countDrop_locked : (s.countDrop).locked = s.locked := rfl
@[simp] theorem State.countDrop_chans : (s.countDrop).chans = s.chans := rfl
@[simp] theorem State.countDrop_feed : (s.countDrop).feed = s.feed := rfl
@[simp] theorem State.countDrop_mirrorReqs : (s.countDrop).mirrorReqs = s.mirrorReqs := rfl
@[simp] theorem State.countDrop_poolFree : (s.countDrop).poolFree = s.poolFree := rfl
@[simp] theorem State.countDrop_outlets : (s.countDrop).outlets = s.outlets := rfl
@[simp] theorem State.countDrop_cue : (s.countDrop).cue = s.cue := rfl
@[simp] theorem State.countDrop_asrun : (s.countDrop).asrun = s.asrun := rfl
@[simp] theorem State.countDrop_asrunDrops : (s.countDrop).asrunDrops = s.asrunDrops := rfl
@[simp] theorem State.countDrop_notices : (s.countDrop).notices = s.notices := rfl
@[simp] theorem State.countDrop_floor : (s.countDrop).floor = s.floor := rfl
@[simp] theorem State.countDrop_attn : (s.countDrop).attn = s.attn := rfl
@[simp] theorem State.countDrop_port : (s.countDrop).port = s.port := rfl
@[simp] theorem State.countDrop_itemSerial : (s.countDrop).itemSerial = s.itemSerial := rfl
@[simp] theorem State.countDrop_reports : (s.countDrop).reports = s.reports := rfl
@[simp] theorem State.countDrop_pending : (s.countDrop).pending = s.pending := rfl

@[simp] theorem State.withdrawClaim_tb (c : Channel) : (s.withdrawClaim c).tb = s.tb := rfl
@[simp] theorem State.withdrawClaim_now (c : Channel) : (s.withdrawClaim c).now = s.now := rfl
@[simp] theorem State.withdrawClaim_station (c : Channel) : (s.withdrawClaim c).station = s.station := rfl
@[simp] theorem State.withdrawClaim_sp (c : Channel) : (s.withdrawClaim c).sp = s.sp := rfl
@[simp] theorem State.withdrawClaim_locked (c : Channel) : (s.withdrawClaim c).locked = s.locked := rfl
@[simp] theorem State.withdrawClaim_chans (c : Channel) : (s.withdrawClaim c).chans = s.chans := rfl
@[simp] theorem State.withdrawClaim_feed (c : Channel) : (s.withdrawClaim c).feed = s.feed := rfl
@[simp] theorem State.withdrawClaim_mirrorReqs (c : Channel) : (s.withdrawClaim c).mirrorReqs = s.mirrorReqs := rfl
@[simp] theorem State.withdrawClaim_poolFree (c : Channel) : (s.withdrawClaim c).poolFree = s.poolFree := rfl
@[simp] theorem State.withdrawClaim_outlets (c : Channel) : (s.withdrawClaim c).outlets = s.outlets := rfl
@[simp] theorem State.withdrawClaim_cue (c : Channel) : (s.withdrawClaim c).cue = s.cue := rfl
@[simp] theorem State.withdrawClaim_asrun (c : Channel) : (s.withdrawClaim c).asrun = s.asrun := rfl
@[simp] theorem State.withdrawClaim_asrunDrops (c : Channel) : (s.withdrawClaim c).asrunDrops = s.asrunDrops := rfl
@[simp] theorem State.withdrawClaim_notices (c : Channel) : (s.withdrawClaim c).notices = s.notices := rfl
@[simp] theorem State.withdrawClaim_floor (c : Channel) : (s.withdrawClaim c).floor = s.floor := rfl
@[simp] theorem State.withdrawClaim_attn (c : Channel) : (s.withdrawClaim c).attn = s.attn := rfl
@[simp] theorem State.withdrawClaim_port (c : Channel) : (s.withdrawClaim c).port = s.port := rfl
@[simp] theorem State.withdrawClaim_itemSerial (c : Channel) : (s.withdrawClaim c).itemSerial = s.itemSerial := rfl
@[simp] theorem State.withdrawClaim_reports (c : Channel) : (s.withdrawClaim c).reports = s.reports := rfl
@[simp] theorem State.withdrawClaim_pending (c : Channel) : (s.withdrawClaim c).pending = s.pending := rfl

@[simp] theorem State.resolveChan_tb (c : Channel) : (s.resolveChan c).tb = s.tb := rfl
@[simp] theorem State.resolveChan_now (c : Channel) : (s.resolveChan c).now = s.now := rfl
@[simp] theorem State.resolveChan_station (c : Channel) : (s.resolveChan c).station = s.station := rfl
@[simp] theorem State.resolveChan_sp (c : Channel) : (s.resolveChan c).sp = s.sp := rfl
@[simp] theorem State.resolveChan_locked (c : Channel) : (s.resolveChan c).locked = s.locked := rfl
@[simp] theorem State.resolveChan_feed (c : Channel) : (s.resolveChan c).feed = s.feed := rfl
@[simp] theorem State.resolveChan_mirrorReqs (c : Channel) : (s.resolveChan c).mirrorReqs = s.mirrorReqs := rfl
@[simp] theorem State.resolveChan_poolFree (c : Channel) : (s.resolveChan c).poolFree = s.poolFree := rfl
@[simp] theorem State.resolveChan_bus (c : Channel) : (s.resolveChan c).bus = s.bus := rfl
@[simp] theorem State.resolveChan_outlets (c : Channel) : (s.resolveChan c).outlets = s.outlets := rfl
@[simp] theorem State.resolveChan_cue (c : Channel) : (s.resolveChan c).cue = s.cue := rfl
@[simp] theorem State.resolveChan_asrun (c : Channel) : (s.resolveChan c).asrun = s.asrun := rfl
@[simp] theorem State.resolveChan_asrunDrops (c : Channel) : (s.resolveChan c).asrunDrops = s.asrunDrops := rfl
@[simp] theorem State.resolveChan_notices (c : Channel) : (s.resolveChan c).notices = s.notices := rfl
@[simp] theorem State.resolveChan_floor (c : Channel) : (s.resolveChan c).floor = s.floor := rfl
@[simp] theorem State.resolveChan_attn (c : Channel) : (s.resolveChan c).attn = s.attn := rfl
@[simp] theorem State.resolveChan_port (c : Channel) : (s.resolveChan c).port = s.port := rfl
@[simp] theorem State.resolveChan_itemSerial (c : Channel) : (s.resolveChan c).itemSerial = s.itemSerial := rfl
@[simp] theorem State.resolveChan_reports (c : Channel) : (s.resolveChan c).reports = s.reports := rfl
@[simp] theorem State.resolveChan_pending (c : Channel) : (s.resolveChan c).pending = s.pending := rfl

@[simp] theorem State.pin_tb (c : Channel) (n : Nat) : (s.pin c n).tb = s.tb := rfl
@[simp] theorem State.pin_now (c : Channel) (n : Nat) : (s.pin c n).now = s.now := rfl
@[simp] theorem State.pin_station (c : Channel) (n : Nat) : (s.pin c n).station = s.station := rfl
@[simp] theorem State.pin_sp (c : Channel) (n : Nat) : (s.pin c n).sp = s.sp := rfl
@[simp] theorem State.pin_locked (c : Channel) (n : Nat) : (s.pin c n).locked = s.locked := rfl
@[simp] theorem State.pin_feed (c : Channel) (n : Nat) : (s.pin c n).feed = s.feed := rfl
@[simp] theorem State.pin_mirrorReqs (c : Channel) (n : Nat) : (s.pin c n).mirrorReqs = s.mirrorReqs := rfl
@[simp] theorem State.pin_poolFree (c : Channel) (n : Nat) : (s.pin c n).poolFree = s.poolFree := rfl
@[simp] theorem State.pin_bus (c : Channel) (n : Nat) : (s.pin c n).bus = s.bus := rfl
@[simp] theorem State.pin_outlets (c : Channel) (n : Nat) : (s.pin c n).outlets = s.outlets := rfl
@[simp] theorem State.pin_cue (c : Channel) (n : Nat) : (s.pin c n).cue = s.cue := rfl
@[simp] theorem State.pin_asrun (c : Channel) (n : Nat) : (s.pin c n).asrun = s.asrun := rfl
@[simp] theorem State.pin_asrunDrops (c : Channel) (n : Nat) : (s.pin c n).asrunDrops = s.asrunDrops := rfl
@[simp] theorem State.pin_notices (c : Channel) (n : Nat) : (s.pin c n).notices = s.notices := rfl
@[simp] theorem State.pin_floor (c : Channel) (n : Nat) : (s.pin c n).floor = s.floor := rfl
@[simp] theorem State.pin_attn (c : Channel) (n : Nat) : (s.pin c n).attn = s.attn := rfl
@[simp] theorem State.pin_port (c : Channel) (n : Nat) : (s.pin c n).port = s.port := rfl
@[simp] theorem State.pin_itemSerial (c : Channel) (n : Nat) : (s.pin c n).itemSerial = s.itemSerial := rfl
@[simp] theorem State.pin_reports (c : Channel) (n : Nat) : (s.pin c n).reports = s.reports := rfl
@[simp] theorem State.pin_pending (c : Channel) (n : Nat) : (s.pin c n).pending = s.pending := rfl

@[simp] theorem State.askSweep_tb (c : Channel) : (s.askSweep c).tb = s.tb := rfl
@[simp] theorem State.askSweep_now (c : Channel) : (s.askSweep c).now = s.now := rfl
@[simp] theorem State.askSweep_station (c : Channel) : (s.askSweep c).station = s.station := rfl
@[simp] theorem State.askSweep_sp (c : Channel) : (s.askSweep c).sp = s.sp := rfl
@[simp] theorem State.askSweep_locked (c : Channel) : (s.askSweep c).locked = s.locked := rfl
@[simp] theorem State.askSweep_chans (c : Channel) : (s.askSweep c).chans = s.chans := rfl
@[simp] theorem State.askSweep_feed (c : Channel) : (s.askSweep c).feed = s.feed := rfl
@[simp] theorem State.askSweep_poolFree (c : Channel) : (s.askSweep c).poolFree = s.poolFree := rfl
@[simp] theorem State.askSweep_bus (c : Channel) : (s.askSweep c).bus = s.bus := rfl
@[simp] theorem State.askSweep_outlets (c : Channel) : (s.askSweep c).outlets = s.outlets := rfl
@[simp] theorem State.askSweep_cue (c : Channel) : (s.askSweep c).cue = s.cue := rfl
@[simp] theorem State.askSweep_asrun (c : Channel) : (s.askSweep c).asrun = s.asrun := rfl
@[simp] theorem State.askSweep_asrunDrops (c : Channel) : (s.askSweep c).asrunDrops = s.asrunDrops := rfl
@[simp] theorem State.askSweep_notices (c : Channel) : (s.askSweep c).notices = s.notices := rfl
@[simp] theorem State.askSweep_floor (c : Channel) : (s.askSweep c).floor = s.floor := rfl
@[simp] theorem State.askSweep_attn (c : Channel) : (s.askSweep c).attn = s.attn := rfl
@[simp] theorem State.askSweep_port (c : Channel) : (s.askSweep c).port = s.port := rfl
@[simp] theorem State.askSweep_itemSerial (c : Channel) : (s.askSweep c).itemSerial = s.itemSerial := rfl
@[simp] theorem State.askSweep_reports (c : Channel) : (s.askSweep c).reports = s.reports := rfl
@[simp] theorem State.askSweep_pending (c : Channel) : (s.askSweep c).pending = s.pending := rfl

@[simp] theorem State.setRx_tb (r : BusRx) (n : Nat) : (s.setRx r n).tb = s.tb := rfl
@[simp] theorem State.setRx_now (r : BusRx) (n : Nat) : (s.setRx r n).now = s.now := rfl
@[simp] theorem State.setRx_station (r : BusRx) (n : Nat) : (s.setRx r n).station = s.station := rfl
@[simp] theorem State.setRx_sp (r : BusRx) (n : Nat) : (s.setRx r n).sp = s.sp := rfl
@[simp] theorem State.setRx_locked (r : BusRx) (n : Nat) : (s.setRx r n).locked = s.locked := rfl
@[simp] theorem State.setRx_chans (r : BusRx) (n : Nat) : (s.setRx r n).chans = s.chans := rfl
@[simp] theorem State.setRx_feed (r : BusRx) (n : Nat) : (s.setRx r n).feed = s.feed := rfl
@[simp] theorem State.setRx_mirrorReqs (r : BusRx) (n : Nat) : (s.setRx r n).mirrorReqs = s.mirrorReqs := rfl
@[simp] theorem State.setRx_poolFree (r : BusRx) (n : Nat) : (s.setRx r n).poolFree = s.poolFree := rfl
@[simp] theorem State.setRx_outlets (r : BusRx) (n : Nat) : (s.setRx r n).outlets = s.outlets := rfl
@[simp] theorem State.setRx_cue (r : BusRx) (n : Nat) : (s.setRx r n).cue = s.cue := rfl
@[simp] theorem State.setRx_asrun (r : BusRx) (n : Nat) : (s.setRx r n).asrun = s.asrun := rfl
@[simp] theorem State.setRx_asrunDrops (r : BusRx) (n : Nat) : (s.setRx r n).asrunDrops = s.asrunDrops := rfl
@[simp] theorem State.setRx_notices (r : BusRx) (n : Nat) : (s.setRx r n).notices = s.notices := rfl
@[simp] theorem State.setRx_floor (r : BusRx) (n : Nat) : (s.setRx r n).floor = s.floor := rfl
@[simp] theorem State.setRx_attn (r : BusRx) (n : Nat) : (s.setRx r n).attn = s.attn := rfl
@[simp] theorem State.setRx_port (r : BusRx) (n : Nat) : (s.setRx r n).port = s.port := rfl
@[simp] theorem State.setRx_itemSerial (r : BusRx) (n : Nat) : (s.setRx r n).itemSerial = s.itemSerial := rfl
@[simp] theorem State.setRx_reports (r : BusRx) (n : Nat) : (s.setRx r n).reports = s.reports := rfl
@[simp] theorem State.setRx_pending (r : BusRx) (n : Nat) : (s.setRx r n).pending = s.pending := rfl

@[simp] theorem State.countMalformed_tb : (s.countMalformed).tb = s.tb := rfl
@[simp] theorem State.countMalformed_now : (s.countMalformed).now = s.now := rfl
@[simp] theorem State.countMalformed_station : (s.countMalformed).station = s.station := rfl
@[simp] theorem State.countMalformed_sp : (s.countMalformed).sp = s.sp := rfl
@[simp] theorem State.countMalformed_locked : (s.countMalformed).locked = s.locked := rfl
@[simp] theorem State.countMalformed_chans : (s.countMalformed).chans = s.chans := rfl
@[simp] theorem State.countMalformed_feed : (s.countMalformed).feed = s.feed := rfl
@[simp] theorem State.countMalformed_mirrorReqs : (s.countMalformed).mirrorReqs = s.mirrorReqs := rfl
@[simp] theorem State.countMalformed_poolFree : (s.countMalformed).poolFree = s.poolFree := rfl
@[simp] theorem State.countMalformed_outlets : (s.countMalformed).outlets = s.outlets := rfl
@[simp] theorem State.countMalformed_cue : (s.countMalformed).cue = s.cue := rfl
@[simp] theorem State.countMalformed_asrun : (s.countMalformed).asrun = s.asrun := rfl
@[simp] theorem State.countMalformed_asrunDrops : (s.countMalformed).asrunDrops = s.asrunDrops := rfl
@[simp] theorem State.countMalformed_notices : (s.countMalformed).notices = s.notices := rfl
@[simp] theorem State.countMalformed_floor : (s.countMalformed).floor = s.floor := rfl
@[simp] theorem State.countMalformed_attn : (s.countMalformed).attn = s.attn := rfl
@[simp] theorem State.countMalformed_port : (s.countMalformed).port = s.port := rfl
@[simp] theorem State.countMalformed_itemSerial : (s.countMalformed).itemSerial = s.itemSerial := rfl
@[simp] theorem State.countMalformed_reports : (s.countMalformed).reports = s.reports := rfl
@[simp] theorem State.countMalformed_pending : (s.countMalformed).pending = s.pending := rfl

@[simp] theorem State.setPeer_tb (st : Station) (p : Peer) : (s.setPeer st p).tb = s.tb := rfl
@[simp] theorem State.setPeer_now (st : Station) (p : Peer) : (s.setPeer st p).now = s.now := rfl
@[simp] theorem State.setPeer_station (st : Station) (p : Peer) : (s.setPeer st p).station = s.station := rfl
@[simp] theorem State.setPeer_sp (st : Station) (p : Peer) : (s.setPeer st p).sp = s.sp := rfl
@[simp] theorem State.setPeer_locked (st : Station) (p : Peer) : (s.setPeer st p).locked = s.locked := rfl
@[simp] theorem State.setPeer_chans (st : Station) (p : Peer) : (s.setPeer st p).chans = s.chans := rfl
@[simp] theorem State.setPeer_feed (st : Station) (p : Peer) : (s.setPeer st p).feed = s.feed := rfl
@[simp] theorem State.setPeer_mirrorReqs (st : Station) (p : Peer) : (s.setPeer st p).mirrorReqs = s.mirrorReqs := rfl
@[simp] theorem State.setPeer_poolFree (st : Station) (p : Peer) : (s.setPeer st p).poolFree = s.poolFree := rfl
@[simp] theorem State.setPeer_outlets (st : Station) (p : Peer) : (s.setPeer st p).outlets = s.outlets := rfl
@[simp] theorem State.setPeer_cue (st : Station) (p : Peer) : (s.setPeer st p).cue = s.cue := rfl
@[simp] theorem State.setPeer_asrun (st : Station) (p : Peer) : (s.setPeer st p).asrun = s.asrun := rfl
@[simp] theorem State.setPeer_asrunDrops (st : Station) (p : Peer) : (s.setPeer st p).asrunDrops = s.asrunDrops := rfl
@[simp] theorem State.setPeer_notices (st : Station) (p : Peer) : (s.setPeer st p).notices = s.notices := rfl
@[simp] theorem State.setPeer_floor (st : Station) (p : Peer) : (s.setPeer st p).floor = s.floor := rfl
@[simp] theorem State.setPeer_attn (st : Station) (p : Peer) : (s.setPeer st p).attn = s.attn := rfl
@[simp] theorem State.setPeer_port (st : Station) (p : Peer) : (s.setPeer st p).port = s.port := rfl
@[simp] theorem State.setPeer_itemSerial (st : Station) (p : Peer) : (s.setPeer st p).itemSerial = s.itemSerial := rfl
@[simp] theorem State.setPeer_reports (st : Station) (p : Peer) : (s.setPeer st p).reports = s.reports := rfl
@[simp] theorem State.setPeer_pending (st : Station) (p : Peer) : (s.setPeer st p).pending = s.pending := rfl

@[simp] theorem State.hearPeer_tb (f : Frame) : (s.hearPeer f).tb = s.tb := rfl
@[simp] theorem State.hearPeer_now (f : Frame) : (s.hearPeer f).now = s.now := rfl
@[simp] theorem State.hearPeer_station (f : Frame) : (s.hearPeer f).station = s.station := rfl
@[simp] theorem State.hearPeer_sp (f : Frame) : (s.hearPeer f).sp = s.sp := rfl
@[simp] theorem State.hearPeer_locked (f : Frame) : (s.hearPeer f).locked = s.locked := rfl
@[simp] theorem State.hearPeer_chans (f : Frame) : (s.hearPeer f).chans = s.chans := rfl
@[simp] theorem State.hearPeer_feed (f : Frame) : (s.hearPeer f).feed = s.feed := rfl
@[simp] theorem State.hearPeer_mirrorReqs (f : Frame) : (s.hearPeer f).mirrorReqs = s.mirrorReqs := rfl
@[simp] theorem State.hearPeer_poolFree (f : Frame) : (s.hearPeer f).poolFree = s.poolFree := rfl
@[simp] theorem State.hearPeer_outlets (f : Frame) : (s.hearPeer f).outlets = s.outlets := rfl
@[simp] theorem State.hearPeer_cue (f : Frame) : (s.hearPeer f).cue = s.cue := rfl
@[simp] theorem State.hearPeer_asrun (f : Frame) : (s.hearPeer f).asrun = s.asrun := rfl
@[simp] theorem State.hearPeer_asrunDrops (f : Frame) : (s.hearPeer f).asrunDrops = s.asrunDrops := rfl
@[simp] theorem State.hearPeer_notices (f : Frame) : (s.hearPeer f).notices = s.notices := rfl
@[simp] theorem State.hearPeer_floor (f : Frame) : (s.hearPeer f).floor = s.floor := rfl
@[simp] theorem State.hearPeer_attn (f : Frame) : (s.hearPeer f).attn = s.attn := rfl
@[simp] theorem State.hearPeer_port (f : Frame) : (s.hearPeer f).port = s.port := rfl
@[simp] theorem State.hearPeer_itemSerial (f : Frame) : (s.hearPeer f).itemSerial = s.itemSerial := rfl
@[simp] theorem State.hearPeer_reports (f : Frame) : (s.hearPeer f).reports = s.reports := rfl
@[simp] theorem State.hearPeer_pending (f : Frame) : (s.hearPeer f).pending = s.pending := rfl

@[simp] theorem State.endAttempt_tb : (s.endAttempt).tb = s.tb := rfl
@[simp] theorem State.endAttempt_now : (s.endAttempt).now = s.now := rfl
@[simp] theorem State.endAttempt_station : (s.endAttempt).station = s.station := rfl
@[simp] theorem State.endAttempt_sp : (s.endAttempt).sp = s.sp := rfl
@[simp] theorem State.endAttempt_locked : (s.endAttempt).locked = s.locked := rfl
@[simp] theorem State.endAttempt_chans : (s.endAttempt).chans = s.chans := rfl
@[simp] theorem State.endAttempt_feed : (s.endAttempt).feed = s.feed := rfl
@[simp] theorem State.endAttempt_mirrorReqs : (s.endAttempt).mirrorReqs = s.mirrorReqs := rfl
@[simp] theorem State.endAttempt_poolFree : (s.endAttempt).poolFree = s.poolFree := rfl
@[simp] theorem State.endAttempt_outlets : (s.endAttempt).outlets = s.outlets := rfl
@[simp] theorem State.endAttempt_cue : (s.endAttempt).cue = s.cue := rfl
@[simp] theorem State.endAttempt_asrun : (s.endAttempt).asrun = s.asrun := rfl
@[simp] theorem State.endAttempt_asrunDrops : (s.endAttempt).asrunDrops = s.asrunDrops := rfl
@[simp] theorem State.endAttempt_notices : (s.endAttempt).notices = s.notices := rfl
@[simp] theorem State.endAttempt_floor : (s.endAttempt).floor = s.floor := rfl
@[simp] theorem State.endAttempt_attn : (s.endAttempt).attn = s.attn := rfl
@[simp] theorem State.endAttempt_port : (s.endAttempt).port = s.port := rfl
@[simp] theorem State.endAttempt_itemSerial : (s.endAttempt).itemSerial = s.itemSerial := rfl
@[simp] theorem State.endAttempt_reports : (s.endAttempt).reports = s.reports := rfl
@[simp] theorem State.endAttempt_pending : (s.endAttempt).pending = s.pending := rfl

@[simp] theorem State.setFraming_tb (f : Framing) : (s.setFraming f).tb = s.tb := rfl
@[simp] theorem State.setFraming_now (f : Framing) : (s.setFraming f).now = s.now := rfl
@[simp] theorem State.setFraming_station (f : Framing) : (s.setFraming f).station = s.station := rfl
@[simp] theorem State.setFraming_sp (f : Framing) : (s.setFraming f).sp = s.sp := rfl
@[simp] theorem State.setFraming_locked (f : Framing) : (s.setFraming f).locked = s.locked := rfl
@[simp] theorem State.setFraming_chans (f : Framing) : (s.setFraming f).chans = s.chans := rfl
@[simp] theorem State.setFraming_mirrorReqs (f : Framing) : (s.setFraming f).mirrorReqs = s.mirrorReqs := rfl
@[simp] theorem State.setFraming_poolFree (f : Framing) : (s.setFraming f).poolFree = s.poolFree := rfl
@[simp] theorem State.setFraming_bus (f : Framing) : (s.setFraming f).bus = s.bus := rfl
@[simp] theorem State.setFraming_outlets (f : Framing) : (s.setFraming f).outlets = s.outlets := rfl
@[simp] theorem State.setFraming_cue (f : Framing) : (s.setFraming f).cue = s.cue := rfl
@[simp] theorem State.setFraming_asrun (f : Framing) : (s.setFraming f).asrun = s.asrun := rfl
@[simp] theorem State.setFraming_asrunDrops (f : Framing) : (s.setFraming f).asrunDrops = s.asrunDrops := rfl
@[simp] theorem State.setFraming_notices (f : Framing) : (s.setFraming f).notices = s.notices := rfl
@[simp] theorem State.setFraming_floor (f : Framing) : (s.setFraming f).floor = s.floor := rfl
@[simp] theorem State.setFraming_attn (f : Framing) : (s.setFraming f).attn = s.attn := rfl
@[simp] theorem State.setFraming_port (f : Framing) : (s.setFraming f).port = s.port := rfl
@[simp] theorem State.setFraming_itemSerial (f : Framing) : (s.setFraming f).itemSerial = s.itemSerial := rfl
@[simp] theorem State.setFraming_reports (f : Framing) : (s.setFraming f).reports = s.reports := rfl
@[simp] theorem State.setFraming_pending (f : Framing) : (s.setFraming f).pending = s.pending := rfl

@[simp] theorem State.feedFault_tb : (s.feedFault).tb = s.tb := rfl
@[simp] theorem State.feedFault_now : (s.feedFault).now = s.now := rfl
@[simp] theorem State.feedFault_station : (s.feedFault).station = s.station := rfl
@[simp] theorem State.feedFault_sp : (s.feedFault).sp = s.sp := rfl
@[simp] theorem State.feedFault_locked : (s.feedFault).locked = s.locked := rfl
@[simp] theorem State.feedFault_chans : (s.feedFault).chans = s.chans := rfl
@[simp] theorem State.feedFault_mirrorReqs : (s.feedFault).mirrorReqs = s.mirrorReqs := rfl
@[simp] theorem State.feedFault_poolFree : (s.feedFault).poolFree = s.poolFree := rfl
@[simp] theorem State.feedFault_bus : (s.feedFault).bus = s.bus := rfl
@[simp] theorem State.feedFault_outlets : (s.feedFault).outlets = s.outlets := rfl
@[simp] theorem State.feedFault_cue : (s.feedFault).cue = s.cue := rfl
@[simp] theorem State.feedFault_asrun : (s.feedFault).asrun = s.asrun := rfl
@[simp] theorem State.feedFault_asrunDrops : (s.feedFault).asrunDrops = s.asrunDrops := rfl
@[simp] theorem State.feedFault_notices : (s.feedFault).notices = s.notices := rfl
@[simp] theorem State.feedFault_floor : (s.feedFault).floor = s.floor := rfl
@[simp] theorem State.feedFault_attn : (s.feedFault).attn = s.attn := rfl
@[simp] theorem State.feedFault_port : (s.feedFault).port = s.port := rfl
@[simp] theorem State.feedFault_itemSerial : (s.feedFault).itemSerial = s.itemSerial := rfl
@[simp] theorem State.feedFault_reports : (s.feedFault).reports = s.reports := rfl
@[simp] theorem State.feedFault_pending : (s.feedFault).pending = s.pending := rfl

@[simp] theorem State.setCueFraming_tb (f : Framing) : (s.setCueFraming f).tb = s.tb := rfl
@[simp] theorem State.setCueFraming_now (f : Framing) : (s.setCueFraming f).now = s.now := rfl
@[simp] theorem State.setCueFraming_station (f : Framing) : (s.setCueFraming f).station = s.station := rfl
@[simp] theorem State.setCueFraming_sp (f : Framing) : (s.setCueFraming f).sp = s.sp := rfl
@[simp] theorem State.setCueFraming_locked (f : Framing) : (s.setCueFraming f).locked = s.locked := rfl
@[simp] theorem State.setCueFraming_chans (f : Framing) : (s.setCueFraming f).chans = s.chans := rfl
@[simp] theorem State.setCueFraming_feed (f : Framing) : (s.setCueFraming f).feed = s.feed := rfl
@[simp] theorem State.setCueFraming_mirrorReqs (f : Framing) : (s.setCueFraming f).mirrorReqs = s.mirrorReqs := rfl
@[simp] theorem State.setCueFraming_poolFree (f : Framing) : (s.setCueFraming f).poolFree = s.poolFree := rfl
@[simp] theorem State.setCueFraming_bus (f : Framing) : (s.setCueFraming f).bus = s.bus := rfl
@[simp] theorem State.setCueFraming_outlets (f : Framing) : (s.setCueFraming f).outlets = s.outlets := rfl
@[simp] theorem State.setCueFraming_asrun (f : Framing) : (s.setCueFraming f).asrun = s.asrun := rfl
@[simp] theorem State.setCueFraming_asrunDrops (f : Framing) : (s.setCueFraming f).asrunDrops = s.asrunDrops := rfl
@[simp] theorem State.setCueFraming_notices (f : Framing) : (s.setCueFraming f).notices = s.notices := rfl
@[simp] theorem State.setCueFraming_floor (f : Framing) : (s.setCueFraming f).floor = s.floor := rfl
@[simp] theorem State.setCueFraming_attn (f : Framing) : (s.setCueFraming f).attn = s.attn := rfl
@[simp] theorem State.setCueFraming_port (f : Framing) : (s.setCueFraming f).port = s.port := rfl
@[simp] theorem State.setCueFraming_itemSerial (f : Framing) : (s.setCueFraming f).itemSerial = s.itemSerial := rfl
@[simp] theorem State.setCueFraming_reports (f : Framing) : (s.setCueFraming f).reports = s.reports := rfl
@[simp] theorem State.setCueFraming_pending (f : Framing) : (s.setCueFraming f).pending = s.pending := rfl

@[simp] theorem State.countLate_tb : (s.countLate).tb = s.tb := rfl
@[simp] theorem State.countLate_now : (s.countLate).now = s.now := rfl
@[simp] theorem State.countLate_station : (s.countLate).station = s.station := rfl
@[simp] theorem State.countLate_sp : (s.countLate).sp = s.sp := rfl
@[simp] theorem State.countLate_locked : (s.countLate).locked = s.locked := rfl
@[simp] theorem State.countLate_chans : (s.countLate).chans = s.chans := rfl
@[simp] theorem State.countLate_feed : (s.countLate).feed = s.feed := rfl
@[simp] theorem State.countLate_mirrorReqs : (s.countLate).mirrorReqs = s.mirrorReqs := rfl
@[simp] theorem State.countLate_poolFree : (s.countLate).poolFree = s.poolFree := rfl
@[simp] theorem State.countLate_bus : (s.countLate).bus = s.bus := rfl
@[simp] theorem State.countLate_outlets : (s.countLate).outlets = s.outlets := rfl
@[simp] theorem State.countLate_asrun : (s.countLate).asrun = s.asrun := rfl
@[simp] theorem State.countLate_asrunDrops : (s.countLate).asrunDrops = s.asrunDrops := rfl
@[simp] theorem State.countLate_notices : (s.countLate).notices = s.notices := rfl
@[simp] theorem State.countLate_floor : (s.countLate).floor = s.floor := rfl
@[simp] theorem State.countLate_attn : (s.countLate).attn = s.attn := rfl
@[simp] theorem State.countLate_port : (s.countLate).port = s.port := rfl
@[simp] theorem State.countLate_itemSerial : (s.countLate).itemSerial = s.itemSerial := rfl
@[simp] theorem State.countLate_reports : (s.countLate).reports = s.reports := rfl
@[simp] theorem State.countLate_pending : (s.countLate).pending = s.pending := rfl

@[simp] theorem State.stampPulse_station : (s.stampPulse).station = s.station := rfl
@[simp] theorem State.stampPulse_sp : (s.stampPulse).sp = s.sp := rfl
@[simp] theorem State.stampPulse_locked : (s.stampPulse).locked = s.locked := rfl
@[simp] theorem State.stampPulse_chans : (s.stampPulse).chans = s.chans := rfl
@[simp] theorem State.stampPulse_feed : (s.stampPulse).feed = s.feed := rfl
@[simp] theorem State.stampPulse_mirrorReqs : (s.stampPulse).mirrorReqs = s.mirrorReqs := rfl
@[simp] theorem State.stampPulse_poolFree : (s.stampPulse).poolFree = s.poolFree := rfl
@[simp] theorem State.stampPulse_bus : (s.stampPulse).bus = s.bus := rfl
@[simp] theorem State.stampPulse_outlets : (s.stampPulse).outlets = s.outlets := rfl
@[simp] theorem State.stampPulse_cue : (s.stampPulse).cue = s.cue := rfl
@[simp] theorem State.stampPulse_asrun : (s.stampPulse).asrun = s.asrun := rfl
@[simp] theorem State.stampPulse_asrunDrops : (s.stampPulse).asrunDrops = s.asrunDrops := rfl
@[simp] theorem State.stampPulse_notices : (s.stampPulse).notices = s.notices := rfl
@[simp] theorem State.stampPulse_floor : (s.stampPulse).floor = s.floor := rfl
@[simp] theorem State.stampPulse_attn : (s.stampPulse).attn = s.attn := rfl
@[simp] theorem State.stampPulse_port : (s.stampPulse).port = s.port := rfl
@[simp] theorem State.stampPulse_itemSerial : (s.stampPulse).itemSerial = s.itemSerial := rfl
@[simp] theorem State.stampPulse_reports : (s.stampPulse).reports = s.reports := rfl
@[simp] theorem State.stampPulse_pending : (s.stampPulse).pending = s.pending := rfl

@[simp] theorem State.openMeasurement_station : (s.openMeasurement).station = s.station := rfl
@[simp] theorem State.openMeasurement_sp : (s.openMeasurement).sp = s.sp := rfl
@[simp] theorem State.openMeasurement_locked : (s.openMeasurement).locked = s.locked := rfl
@[simp] theorem State.openMeasurement_chans : (s.openMeasurement).chans = s.chans := rfl
@[simp] theorem State.openMeasurement_feed : (s.openMeasurement).feed = s.feed := rfl
@[simp] theorem State.openMeasurement_mirrorReqs : (s.openMeasurement).mirrorReqs = s.mirrorReqs := rfl
@[simp] theorem State.openMeasurement_poolFree : (s.openMeasurement).poolFree = s.poolFree := rfl
@[simp] theorem State.openMeasurement_bus : (s.openMeasurement).bus = s.bus := rfl
@[simp] theorem State.openMeasurement_outlets : (s.openMeasurement).outlets = s.outlets := rfl
@[simp] theorem State.openMeasurement_cue : (s.openMeasurement).cue = s.cue := rfl
@[simp] theorem State.openMeasurement_asrun : (s.openMeasurement).asrun = s.asrun := rfl
@[simp] theorem State.openMeasurement_asrunDrops : (s.openMeasurement).asrunDrops = s.asrunDrops := rfl
@[simp] theorem State.openMeasurement_notices : (s.openMeasurement).notices = s.notices := rfl
@[simp] theorem State.openMeasurement_floor : (s.openMeasurement).floor = s.floor := rfl
@[simp] theorem State.openMeasurement_attn : (s.openMeasurement).attn = s.attn := rfl
@[simp] theorem State.openMeasurement_port : (s.openMeasurement).port = s.port := rfl
@[simp] theorem State.openMeasurement_itemSerial : (s.openMeasurement).itemSerial = s.itemSerial := rfl
@[simp] theorem State.openMeasurement_reports : (s.openMeasurement).reports = s.reports := rfl
@[simp] theorem State.openMeasurement_pending : (s.openMeasurement).pending = s.pending := rfl

@[simp] theorem State.reply_tb (r : Reply) : (s.reply r).tb = s.tb := rfl
@[simp] theorem State.reply_now (r : Reply) : (s.reply r).now = s.now := rfl
@[simp] theorem State.reply_station (r : Reply) : (s.reply r).station = s.station := rfl
@[simp] theorem State.reply_sp (r : Reply) : (s.reply r).sp = s.sp := rfl
@[simp] theorem State.reply_locked (r : Reply) : (s.reply r).locked = s.locked := rfl
@[simp] theorem State.reply_chans (r : Reply) : (s.reply r).chans = s.chans := rfl
@[simp] theorem State.reply_feed (r : Reply) : (s.reply r).feed = s.feed := rfl
@[simp] theorem State.reply_mirrorReqs (r : Reply) : (s.reply r).mirrorReqs = s.mirrorReqs := rfl
@[simp] theorem State.reply_poolFree (r : Reply) : (s.reply r).poolFree = s.poolFree := rfl
@[simp] theorem State.reply_bus (r : Reply) : (s.reply r).bus = s.bus := rfl
@[simp] theorem State.reply_outlets (r : Reply) : (s.reply r).outlets = s.outlets := rfl
@[simp] theorem State.reply_cue (r : Reply) : (s.reply r).cue = s.cue := rfl
@[simp] theorem State.reply_asrun (r : Reply) : (s.reply r).asrun = s.asrun := rfl
@[simp] theorem State.reply_asrunDrops (r : Reply) : (s.reply r).asrunDrops = s.asrunDrops := rfl
@[simp] theorem State.reply_notices (r : Reply) : (s.reply r).notices = s.notices := rfl
@[simp] theorem State.reply_floor (r : Reply) : (s.reply r).floor = s.floor := rfl
@[simp] theorem State.reply_attn (r : Reply) : (s.reply r).attn = s.attn := rfl
@[simp] theorem State.reply_itemSerial (r : Reply) : (s.reply r).itemSerial = s.itemSerial := rfl
@[simp] theorem State.reply_reports (r : Reply) : (s.reply r).reports = s.reports := rfl
@[simp] theorem State.reply_pending (r : Reply) : (s.reply r).pending = s.pending := rfl

@[simp] theorem State.refuse_tb (r : RefuseReason) : (s.refuse r).tb = s.tb := rfl
@[simp] theorem State.refuse_now (r : RefuseReason) : (s.refuse r).now = s.now := rfl
@[simp] theorem State.refuse_station (r : RefuseReason) : (s.refuse r).station = s.station := rfl
@[simp] theorem State.refuse_sp (r : RefuseReason) : (s.refuse r).sp = s.sp := rfl
@[simp] theorem State.refuse_locked (r : RefuseReason) : (s.refuse r).locked = s.locked := rfl
@[simp] theorem State.refuse_chans (r : RefuseReason) : (s.refuse r).chans = s.chans := rfl
@[simp] theorem State.refuse_feed (r : RefuseReason) : (s.refuse r).feed = s.feed := rfl
@[simp] theorem State.refuse_mirrorReqs (r : RefuseReason) : (s.refuse r).mirrorReqs = s.mirrorReqs := rfl
@[simp] theorem State.refuse_poolFree (r : RefuseReason) : (s.refuse r).poolFree = s.poolFree := rfl
@[simp] theorem State.refuse_bus (r : RefuseReason) : (s.refuse r).bus = s.bus := rfl
@[simp] theorem State.refuse_outlets (r : RefuseReason) : (s.refuse r).outlets = s.outlets := rfl
@[simp] theorem State.refuse_cue (r : RefuseReason) : (s.refuse r).cue = s.cue := rfl
@[simp] theorem State.refuse_asrun (r : RefuseReason) : (s.refuse r).asrun = s.asrun := rfl
@[simp] theorem State.refuse_asrunDrops (r : RefuseReason) : (s.refuse r).asrunDrops = s.asrunDrops := rfl
@[simp] theorem State.refuse_notices (r : RefuseReason) : (s.refuse r).notices = s.notices := rfl
@[simp] theorem State.refuse_floor (r : RefuseReason) : (s.refuse r).floor = s.floor := rfl
@[simp] theorem State.refuse_attn (r : RefuseReason) : (s.refuse r).attn = s.attn := rfl
@[simp] theorem State.refuse_itemSerial (r : RefuseReason) : (s.refuse r).itemSerial = s.itemSerial := rfl
@[simp] theorem State.refuse_reports (r : RefuseReason) : (s.refuse r).reports = s.reports := rfl
@[simp] theorem State.refuse_pending (r : RefuseReason) : (s.refuse r).pending = s.pending := rfl

@[simp] theorem State.done_tb (d : List Byte) : (s.done d).tb = s.tb := rfl
@[simp] theorem State.done_now (d : List Byte) : (s.done d).now = s.now := rfl
@[simp] theorem State.done_station (d : List Byte) : (s.done d).station = s.station := rfl
@[simp] theorem State.done_sp (d : List Byte) : (s.done d).sp = s.sp := rfl
@[simp] theorem State.done_locked (d : List Byte) : (s.done d).locked = s.locked := rfl
@[simp] theorem State.done_chans (d : List Byte) : (s.done d).chans = s.chans := rfl
@[simp] theorem State.done_feed (d : List Byte) : (s.done d).feed = s.feed := rfl
@[simp] theorem State.done_mirrorReqs (d : List Byte) : (s.done d).mirrorReqs = s.mirrorReqs := rfl
@[simp] theorem State.done_poolFree (d : List Byte) : (s.done d).poolFree = s.poolFree := rfl
@[simp] theorem State.done_bus (d : List Byte) : (s.done d).bus = s.bus := rfl
@[simp] theorem State.done_outlets (d : List Byte) : (s.done d).outlets = s.outlets := rfl
@[simp] theorem State.done_cue (d : List Byte) : (s.done d).cue = s.cue := rfl
@[simp] theorem State.done_asrun (d : List Byte) : (s.done d).asrun = s.asrun := rfl
@[simp] theorem State.done_asrunDrops (d : List Byte) : (s.done d).asrunDrops = s.asrunDrops := rfl
@[simp] theorem State.done_notices (d : List Byte) : (s.done d).notices = s.notices := rfl
@[simp] theorem State.done_floor (d : List Byte) : (s.done d).floor = s.floor := rfl
@[simp] theorem State.done_attn (d : List Byte) : (s.done d).attn = s.attn := rfl
@[simp] theorem State.done_itemSerial (d : List Byte) : (s.done d).itemSerial = s.itemSerial := rfl
@[simp] theorem State.done_reports (d : List Byte) : (s.done d).reports = s.reports := rfl
@[simp] theorem State.done_pending (d : List Byte) : (s.done d).pending = s.pending := rfl

@[simp] theorem State.clamped_tb (d : List Byte) : (s.clamped d).tb = s.tb := rfl
@[simp] theorem State.clamped_now (d : List Byte) : (s.clamped d).now = s.now := rfl
@[simp] theorem State.clamped_station (d : List Byte) : (s.clamped d).station = s.station := rfl
@[simp] theorem State.clamped_sp (d : List Byte) : (s.clamped d).sp = s.sp := rfl
@[simp] theorem State.clamped_locked (d : List Byte) : (s.clamped d).locked = s.locked := rfl
@[simp] theorem State.clamped_chans (d : List Byte) : (s.clamped d).chans = s.chans := rfl
@[simp] theorem State.clamped_feed (d : List Byte) : (s.clamped d).feed = s.feed := rfl
@[simp] theorem State.clamped_mirrorReqs (d : List Byte) : (s.clamped d).mirrorReqs = s.mirrorReqs := rfl
@[simp] theorem State.clamped_poolFree (d : List Byte) : (s.clamped d).poolFree = s.poolFree := rfl
@[simp] theorem State.clamped_bus (d : List Byte) : (s.clamped d).bus = s.bus := rfl
@[simp] theorem State.clamped_outlets (d : List Byte) : (s.clamped d).outlets = s.outlets := rfl
@[simp] theorem State.clamped_cue (d : List Byte) : (s.clamped d).cue = s.cue := rfl
@[simp] theorem State.clamped_asrun (d : List Byte) : (s.clamped d).asrun = s.asrun := rfl
@[simp] theorem State.clamped_asrunDrops (d : List Byte) : (s.clamped d).asrunDrops = s.asrunDrops := rfl
@[simp] theorem State.clamped_notices (d : List Byte) : (s.clamped d).notices = s.notices := rfl
@[simp] theorem State.clamped_floor (d : List Byte) : (s.clamped d).floor = s.floor := rfl
@[simp] theorem State.clamped_attn (d : List Byte) : (s.clamped d).attn = s.attn := rfl
@[simp] theorem State.clamped_itemSerial (d : List Byte) : (s.clamped d).itemSerial = s.itemSerial := rfl
@[simp] theorem State.clamped_reports (d : List Byte) : (s.clamped d).reports = s.reports := rfl
@[simp] theorem State.clamped_pending (d : List Byte) : (s.clamped d).pending = s.pending := rfl

@[simp] theorem State.putFloor_tb (n : Nat) : (s.putFloor n).tb = s.tb := rfl
@[simp] theorem State.putFloor_now (n : Nat) : (s.putFloor n).now = s.now := rfl
@[simp] theorem State.putFloor_station (n : Nat) : (s.putFloor n).station = s.station := rfl
@[simp] theorem State.putFloor_sp (n : Nat) : (s.putFloor n).sp = s.sp := rfl
@[simp] theorem State.putFloor_locked (n : Nat) : (s.putFloor n).locked = s.locked := rfl
@[simp] theorem State.putFloor_chans (n : Nat) : (s.putFloor n).chans = s.chans := rfl
@[simp] theorem State.putFloor_feed (n : Nat) : (s.putFloor n).feed = s.feed := rfl
@[simp] theorem State.putFloor_mirrorReqs (n : Nat) : (s.putFloor n).mirrorReqs = s.mirrorReqs := rfl
@[simp] theorem State.putFloor_poolFree (n : Nat) : (s.putFloor n).poolFree = s.poolFree := rfl
@[simp] theorem State.putFloor_bus (n : Nat) : (s.putFloor n).bus = s.bus := rfl
@[simp] theorem State.putFloor_outlets (n : Nat) : (s.putFloor n).outlets = s.outlets := rfl
@[simp] theorem State.putFloor_cue (n : Nat) : (s.putFloor n).cue = s.cue := rfl
@[simp] theorem State.putFloor_asrun (n : Nat) : (s.putFloor n).asrun = s.asrun := rfl
@[simp] theorem State.putFloor_asrunDrops (n : Nat) : (s.putFloor n).asrunDrops = s.asrunDrops := rfl
@[simp] theorem State.putFloor_notices (n : Nat) : (s.putFloor n).notices = s.notices := rfl
@[simp] theorem State.putFloor_port (n : Nat) : (s.putFloor n).port = s.port := rfl
@[simp] theorem State.putFloor_itemSerial (n : Nat) : (s.putFloor n).itemSerial = s.itemSerial := rfl
@[simp] theorem State.putFloor_reports (n : Nat) : (s.putFloor n).reports = s.reports := rfl
@[simp] theorem State.putFloor_pending (n : Nat) : (s.putFloor n).pending = s.pending := rfl

@[simp] theorem State.fetchReply_tb : (s.fetchReply).tb = s.tb := rfl
@[simp] theorem State.fetchReply_now : (s.fetchReply).now = s.now := rfl
@[simp] theorem State.fetchReply_station : (s.fetchReply).station = s.station := rfl
@[simp] theorem State.fetchReply_sp : (s.fetchReply).sp = s.sp := rfl
@[simp] theorem State.fetchReply_locked : (s.fetchReply).locked = s.locked := rfl
@[simp] theorem State.fetchReply_chans : (s.fetchReply).chans = s.chans := rfl
@[simp] theorem State.fetchReply_feed : (s.fetchReply).feed = s.feed := rfl
@[simp] theorem State.fetchReply_mirrorReqs : (s.fetchReply).mirrorReqs = s.mirrorReqs := rfl
@[simp] theorem State.fetchReply_poolFree : (s.fetchReply).poolFree = s.poolFree := rfl
@[simp] theorem State.fetchReply_bus : (s.fetchReply).bus = s.bus := rfl
@[simp] theorem State.fetchReply_outlets : (s.fetchReply).outlets = s.outlets := rfl
@[simp] theorem State.fetchReply_cue : (s.fetchReply).cue = s.cue := rfl
@[simp] theorem State.fetchReply_asrun : (s.fetchReply).asrun = s.asrun := rfl
@[simp] theorem State.fetchReply_asrunDrops : (s.fetchReply).asrunDrops = s.asrunDrops := rfl
@[simp] theorem State.fetchReply_notices : (s.fetchReply).notices = s.notices := rfl
@[simp] theorem State.fetchReply_floor : (s.fetchReply).floor = s.floor := rfl
@[simp] theorem State.fetchReply_attn : (s.fetchReply).attn = s.attn := rfl
@[simp] theorem State.fetchReply_itemSerial : (s.fetchReply).itemSerial = s.itemSerial := rfl
@[simp] theorem State.fetchReply_reports : (s.fetchReply).reports = s.reports := rfl
@[simp] theorem State.fetchReply_pending : (s.fetchReply).pending = s.pending := rfl

@[simp] theorem State.overlong_tb : (s.overlong).tb = s.tb := rfl
@[simp] theorem State.overlong_now : (s.overlong).now = s.now := rfl
@[simp] theorem State.overlong_station : (s.overlong).station = s.station := rfl
@[simp] theorem State.overlong_sp : (s.overlong).sp = s.sp := rfl
@[simp] theorem State.overlong_locked : (s.overlong).locked = s.locked := rfl
@[simp] theorem State.overlong_chans : (s.overlong).chans = s.chans := rfl
@[simp] theorem State.overlong_feed : (s.overlong).feed = s.feed := rfl
@[simp] theorem State.overlong_mirrorReqs : (s.overlong).mirrorReqs = s.mirrorReqs := rfl
@[simp] theorem State.overlong_poolFree : (s.overlong).poolFree = s.poolFree := rfl
@[simp] theorem State.overlong_bus : (s.overlong).bus = s.bus := rfl
@[simp] theorem State.overlong_outlets : (s.overlong).outlets = s.outlets := rfl
@[simp] theorem State.overlong_cue : (s.overlong).cue = s.cue := rfl
@[simp] theorem State.overlong_asrun : (s.overlong).asrun = s.asrun := rfl
@[simp] theorem State.overlong_asrunDrops : (s.overlong).asrunDrops = s.asrunDrops := rfl
@[simp] theorem State.overlong_notices : (s.overlong).notices = s.notices := rfl
@[simp] theorem State.overlong_floor : (s.overlong).floor = s.floor := rfl
@[simp] theorem State.overlong_attn : (s.overlong).attn = s.attn := rfl
@[simp] theorem State.overlong_itemSerial : (s.overlong).itemSerial = s.itemSerial := rfl
@[simp] theorem State.overlong_reports : (s.overlong).reports = s.reports := rfl
@[simp] theorem State.overlong_pending : (s.overlong).pending = s.pending := rfl

@[simp] theorem State.setAwaitLive_tb (c : Channel) : (s.setAwaitLive c).tb = s.tb := rfl
@[simp] theorem State.setAwaitLive_now (c : Channel) : (s.setAwaitLive c).now = s.now := rfl
@[simp] theorem State.setAwaitLive_station (c : Channel) : (s.setAwaitLive c).station = s.station := rfl
@[simp] theorem State.setAwaitLive_sp (c : Channel) : (s.setAwaitLive c).sp = s.sp := rfl
@[simp] theorem State.setAwaitLive_locked (c : Channel) : (s.setAwaitLive c).locked = s.locked := rfl
@[simp] theorem State.setAwaitLive_feed (c : Channel) : (s.setAwaitLive c).feed = s.feed := rfl
@[simp] theorem State.setAwaitLive_mirrorReqs (c : Channel) : (s.setAwaitLive c).mirrorReqs = s.mirrorReqs := rfl
@[simp] theorem State.setAwaitLive_poolFree (c : Channel) : (s.setAwaitLive c).poolFree = s.poolFree := rfl
@[simp] theorem State.setAwaitLive_bus (c : Channel) : (s.setAwaitLive c).bus = s.bus := rfl
@[simp] theorem State.setAwaitLive_outlets (c : Channel) : (s.setAwaitLive c).outlets = s.outlets := rfl
@[simp] theorem State.setAwaitLive_cue (c : Channel) : (s.setAwaitLive c).cue = s.cue := rfl
@[simp] theorem State.setAwaitLive_asrun (c : Channel) : (s.setAwaitLive c).asrun = s.asrun := rfl
@[simp] theorem State.setAwaitLive_asrunDrops (c : Channel) : (s.setAwaitLive c).asrunDrops = s.asrunDrops := rfl
@[simp] theorem State.setAwaitLive_notices (c : Channel) : (s.setAwaitLive c).notices = s.notices := rfl
@[simp] theorem State.setAwaitLive_floor (c : Channel) : (s.setAwaitLive c).floor = s.floor := rfl
@[simp] theorem State.setAwaitLive_attn (c : Channel) : (s.setAwaitLive c).attn = s.attn := rfl
@[simp] theorem State.setAwaitLive_port (c : Channel) : (s.setAwaitLive c).port = s.port := rfl
@[simp] theorem State.setAwaitLive_itemSerial (c : Channel) : (s.setAwaitLive c).itemSerial = s.itemSerial := rfl
@[simp] theorem State.setAwaitLive_reports (c : Channel) : (s.setAwaitLive c).reports = s.reports := rfl
@[simp] theorem State.setAwaitLive_pending (c : Channel) : (s.setAwaitLive c).pending = s.pending := rfl

@[simp] theorem State.armYield_tb (c : Channel) : (s.armYield c).tb = s.tb := rfl
@[simp] theorem State.armYield_now (c : Channel) : (s.armYield c).now = s.now := rfl
@[simp] theorem State.armYield_station (c : Channel) : (s.armYield c).station = s.station := rfl
@[simp] theorem State.armYield_sp (c : Channel) : (s.armYield c).sp = s.sp := rfl
@[simp] theorem State.armYield_locked (c : Channel) : (s.armYield c).locked = s.locked := rfl
@[simp] theorem State.armYield_feed (c : Channel) : (s.armYield c).feed = s.feed := rfl
@[simp] theorem State.armYield_mirrorReqs (c : Channel) : (s.armYield c).mirrorReqs = s.mirrorReqs := rfl
@[simp] theorem State.armYield_poolFree (c : Channel) : (s.armYield c).poolFree = s.poolFree := rfl
@[simp] theorem State.armYield_bus (c : Channel) : (s.armYield c).bus = s.bus := rfl
@[simp] theorem State.armYield_outlets (c : Channel) : (s.armYield c).outlets = s.outlets := rfl
@[simp] theorem State.armYield_cue (c : Channel) : (s.armYield c).cue = s.cue := rfl
@[simp] theorem State.armYield_asrun (c : Channel) : (s.armYield c).asrun = s.asrun := rfl
@[simp] theorem State.armYield_asrunDrops (c : Channel) : (s.armYield c).asrunDrops = s.asrunDrops := rfl
@[simp] theorem State.armYield_notices (c : Channel) : (s.armYield c).notices = s.notices := rfl
@[simp] theorem State.armYield_floor (c : Channel) : (s.armYield c).floor = s.floor := rfl
@[simp] theorem State.armYield_attn (c : Channel) : (s.armYield c).attn = s.attn := rfl
@[simp] theorem State.armYield_port (c : Channel) : (s.armYield c).port = s.port := rfl
@[simp] theorem State.armYield_itemSerial (c : Channel) : (s.armYield c).itemSerial = s.itemSerial := rfl
@[simp] theorem State.armYield_reports (c : Channel) : (s.armYield c).reports = s.reports := rfl
@[simp] theorem State.armYield_pending (c : Channel) : (s.armYield c).pending = s.pending := rfl

@[simp] theorem State.setHold_tb (c : Channel) (h : Option EventId) : (s.setHold c h).tb = s.tb := rfl
@[simp] theorem State.setHold_now (c : Channel) (h : Option EventId) : (s.setHold c h).now = s.now := rfl
@[simp] theorem State.setHold_station (c : Channel) (h : Option EventId) : (s.setHold c h).station = s.station := rfl
@[simp] theorem State.setHold_sp (c : Channel) (h : Option EventId) : (s.setHold c h).sp = s.sp := rfl
@[simp] theorem State.setHold_locked (c : Channel) (h : Option EventId) : (s.setHold c h).locked = s.locked := rfl
@[simp] theorem State.setHold_feed (c : Channel) (h : Option EventId) : (s.setHold c h).feed = s.feed := rfl
@[simp] theorem State.setHold_mirrorReqs (c : Channel) (h : Option EventId) : (s.setHold c h).mirrorReqs = s.mirrorReqs := rfl
@[simp] theorem State.setHold_poolFree (c : Channel) (h : Option EventId) : (s.setHold c h).poolFree = s.poolFree := rfl
@[simp] theorem State.setHold_bus (c : Channel) (h : Option EventId) : (s.setHold c h).bus = s.bus := rfl
@[simp] theorem State.setHold_outlets (c : Channel) (h : Option EventId) : (s.setHold c h).outlets = s.outlets := rfl
@[simp] theorem State.setHold_cue (c : Channel) (h : Option EventId) : (s.setHold c h).cue = s.cue := rfl
@[simp] theorem State.setHold_asrun (c : Channel) (h : Option EventId) : (s.setHold c h).asrun = s.asrun := rfl
@[simp] theorem State.setHold_asrunDrops (c : Channel) (h : Option EventId) : (s.setHold c h).asrunDrops = s.asrunDrops := rfl
@[simp] theorem State.setHold_notices (c : Channel) (h : Option EventId) : (s.setHold c h).notices = s.notices := rfl
@[simp] theorem State.setHold_floor (c : Channel) (h : Option EventId) : (s.setHold c h).floor = s.floor := rfl
@[simp] theorem State.setHold_attn (c : Channel) (h : Option EventId) : (s.setHold c h).attn = s.attn := rfl
@[simp] theorem State.setHold_port (c : Channel) (h : Option EventId) : (s.setHold c h).port = s.port := rfl
@[simp] theorem State.setHold_itemSerial (c : Channel) (h : Option EventId) : (s.setHold c h).itemSerial = s.itemSerial := rfl
@[simp] theorem State.setHold_reports (c : Channel) (h : Option EventId) : (s.setHold c h).reports = s.reports := rfl
@[simp] theorem State.setHold_pending (c : Channel) (h : Option EventId) : (s.setHold c h).pending = s.pending := rfl

end Sys2Proof.Machine
end

