-- ==== Sys2Proof/Laws/Pool.lean ====
section
/-! SUPPORT. Reading a channel record after a change of it, and how the slots of the pool move when one channel's lists change
(R20). -/

namespace Sys2Proof.Machine

/-! ## One channel record -/

/-- A record that is found carries the channel it was asked for. -/
theorem chan?_channel {s : State} {c : Channel} {ch : Chan} (h : s.chan? c = some ch) : ch.part.channel = c := by
  have := List.find?_some h
  simpa using this

/-- Reading the channel record just changed, when the change keeps the channel number. -/
theorem chan?_modChan {s : State} {c : Channel} {f : Chan → Chan} (hf : ∀ ch, (f ch).part.channel = ch.part.channel) :
    (s.modChan c f).chan? c = (s.chan? c).map f := by
  unfold State.chan? State.modChan
  simp only
  induction s.chans with
  | nil => rfl
  | cons d rest ih =>
    simp only [List.map_cons, List.find?_cons]
    by_cases hd : d.part.channel = c
    · simp [hd, hf]
    · have hne : (d.part.channel == c) = false := beq_eq_false_iff_ne.2 hd
      simp only [hne, Bool.false_eq_true, if_false]
      exact ih

/-- Reading another channel's record after a change. -/
theorem chan?_modChan_ne {s : State} {c d : Channel} {f : Chan → Chan}
    (hf : ∀ ch, (f ch).part.channel = ch.part.channel) (hcd : d ≠ c) : (s.modChan c f).chan? d = s.chan? d := by
  unfold State.chan? State.modChan
  simp only
  induction s.chans with
  | nil => rfl
  | cons e rest ih =>
    simp only [List.map_cons, List.find?_cons]
    by_cases he : e.part.channel = c
    · have hne : (c == d) = false := by simpa using fun h => hcd h.symm
      simp only [he, hf, beq_self_eq_true, if_true, hne]
      exact ih
    · simp only [he, beq_iff_eq, if_false]
      cases e.part.channel == d
      · simpa using ih
      · rfl

/-! ## Counting slots -/

/-- The change of one channel's record changes the slots of the channels by that record's slots alone. -/
theorem count_modChan {s : State} (hd : s.ChannelsDistinct) {c : Channel} {ch : Chan} (h : s.chan? c = some ch)
    (f : Chan → Chan) (a : Nat) :
    ((s.modChan c f).chans.flatMap Chan.slots).count a + ch.slots.count a =
      (s.chans.flatMap Chan.slots).count a + (f ch).slots.count a := by
  unfold State.ChannelsDistinct at hd
  unfold State.chan? at h
  unfold State.modChan
  simp only
  revert hd h
  generalize s.chans = l
  induction l with
  | nil => intro _ h; cases h
  | cons d rest ih =>
    intro hd h
    rw [List.map_cons, List.nodup_cons] at hd
    by_cases hdc : d.part.channel = c
    · have : d = ch := by simpa [hdc] using h
      subst this
      have hrest : rest.map (fun e => if e.part.channel == c then f e else e) = rest := by
        conv_rhs => rw [← List.map_id rest]
        refine List.map_congr_left (fun e he => ?_)
        have : e.part.channel ≠ c := fun hc => hd.1 (List.mem_map.2 ⟨e, he, by simp [hc, hdc]⟩)
        simp [this]
      simp only [List.map_cons, hrest, hdc, beq_self_eq_true, if_true, List.flatMap_cons, List.count_append]
      omega
    · have h' : rest.find? (fun ch => ch.part.channel == c) = some ch := by simpa [hdc] using h
      have := ih hd.2 h'
      simp only [List.map_cons, hdc, beq_iff_eq, if_false, List.flatMap_cons, List.count_append] at this ⊢
      omega

/-- A change that keeps every record's slots keeps the slots of the channels. -/
theorem flatMap_modChan (s : State) (c : Channel) (f : Chan → Chan) (h : ∀ ch, (f ch).slots.Perm ch.slots) (a : Nat) :
    ((s.modChan c f).chans.flatMap Chan.slots).count a = (s.chans.flatMap Chan.slots).count a := by
  unfold State.modChan
  simp only
  induction s.chans with
  | nil => rfl
  | cons d rest ih =>
    simp only [List.map_cons, List.flatMap_cons, List.count_append, ih]
    split
    · rw [(h d).count_eq]
    · rfl

/-- The slots of the pool, counted. -/
theorem count_poolSlots (s : State) (a : Nat) :
    s.poolSlots.count a = s.poolFree.count a + (s.chans.flatMap Chan.slots).count a := by
  simp [State.poolSlots, List.count_append]

/-- The slots of a channel, counted list by list. -/
theorem count_slots (ch : Chan) (a : Nat) :
    ch.slots.count a = (ch.list.map (·.slot)).count a + (ch.incoming.map (·.slot)).count a
      + (ch.unlinked.map (·.slot)).count a := by
  simp only [Chan.slots, List.map_append, List.count_append]

end Sys2Proof.Machine
end

