-- ==== Sys2Proof/Laws/Keeps.lean ====
section
/-! SUPPORT. What every shared operation of the takeover unit, the mirror, the runner and the outlet controller keeps, said once
as `KeepsOuter`: the time base, the profile, the watch records, the feed, the host's port and the bus controller's own fields stay
as they are, and the limits and agreements of Safety hold after it where they held before it. `Keeps` says beside that what the
mirror holds and what is asked of it stay; `Tends`, of an operation that gives the mirror its turn, that the mirror has at most
served requests. -/

namespace Sys2Proof.Machine

/-- The bus controller's fields that no other block changes: all but the queue, the frame under attempt (which a withdrawal
marks) and the drop count. -/
def BusCtl.core (b : BusCtl) : BusCtl := { b with queue := [], attempt := none, drops := 0 }

/-- The cue link's fields but for the send order. -/
def CueLink.core (q : CueLink) : CueLink := { q with sendOrder := [] }

/-- What the mirror, the takeover unit and the runner leave as it is in a channel's records. -/
def Chan.fixed (ch : Chan) : ChannelPart × WatchRec × Option Version := (ch.part, ch.watch, ch.latestQueued)

/-- What the mirror holds for a channel, whatever resolution and pins make of it. -/
def Chan.content (ch : Chan) : MirrorRec × List (Nat × EventData) × List EventRec :=
  (ch.mirror, ch.list.map (fun e => (e.slot, e.data)), ch.incoming)

/-- See the head of this file. -/
structure KeepsOuter (s t : State) : Prop where
  tb : t.tb = s.tb
  station : t.station = s.station
  locked : t.locked = s.locked
  floor : t.floor = s.floor
  port : t.port = s.port
  pending : t.pending = s.pending
  feed : t.feed = s.feed
  bus : t.bus.core = s.bus.core
  cue : t.cue.core = s.cue.core
  fixed : t.chans.map Chan.fixed = s.chans.map Chan.fixed
  attention : s.AttentionRight → t.AttentionRight
  air : s.AirRight → t.AirRight
  transmit : s.TransmitRight → t.TransmitRight
  sendOrder : s.SendOrderRight → t.SendOrderRight
  outlets : s.OutletsBounded → t.OutletsBounded
  awaiting : ∀ o : OutletNo, (t.outlet o).awaiting.length ≤ (s.outlet o).awaiting.length
  asrun : s.asrun.length ≤ 64 → t.asrun.length ≤ 64
  busDrops : s.bus.drops ≤ 65535 → t.bus.drops ≤ 65535
  asrunDrops : s.asrunDrops ≤ 65535 → t.asrunDrops ≤ 65535
  noticeCounts : (∀ i : Fin 12, s.notices[i].count ≤ 255) → ∀ i : Fin 12, t.notices[i].count ≤ 255
  lostNotice : t.notices[3] = s.notices[3]
  lists : s.ChannelsDistinct → s.ListsRight → t.ListsRight
  pool : s.ChannelsDistinct → ∀ a, t.poolSlots.count a = s.poolSlots.count a

theorem KeepsOuter.refl (s : State) : KeepsOuter s s := by
  constructor <;> intros <;> first | rfl | assumption | skip
  all_goals simp_all

/-- The channel numbers stay, so they stay distinct. -/
theorem KeepsOuter.channels {s t : State} (h : KeepsOuter s t) (hd : s.ChannelsDistinct) : t.ChannelsDistinct := by
  unfold State.ChannelsDistinct at *
  have e : ∀ l : List Chan, l.map (fun ch => ch.part.channel) = (l.map Chan.fixed).map (fun x => x.1.channel) := by
    intro l; simp [Chan.fixed]
  rw [e, h.fixed, ← e]; exact hd

theorem KeepsOuter.trans {s t u : State} (h : KeepsOuter s t) (k : KeepsOuter t u) : KeepsOuter s u where
  tb := k.tb.trans h.tb
  station := k.station.trans h.station
  locked := k.locked.trans h.locked
  floor := k.floor.trans h.floor
  port := k.port.trans h.port
  pending := k.pending.trans h.pending
  feed := k.feed.trans h.feed
  bus := k.bus.trans h.bus
  cue := k.cue.trans h.cue
  fixed := k.fixed.trans h.fixed
  attention := fun x => k.attention (h.attention x)
  air := fun x => k.air (h.air x)
  transmit := fun x => k.transmit (h.transmit x)
  sendOrder := fun x => k.sendOrder (h.sendOrder x)
  outlets := fun x => k.outlets (h.outlets x)
  awaiting := fun o => (k.awaiting o).trans (h.awaiting o)
  asrun := fun x => k.asrun (h.asrun x)
  busDrops := fun x => k.busDrops (h.busDrops x)
  asrunDrops := fun x => k.asrunDrops (h.asrunDrops x)
  noticeCounts := fun x => k.noticeCounts (h.noticeCounts x)
  lostNotice := k.lostNotice.trans h.lostNotice
  lists := fun x y => k.lists (h.channels x) (h.lists x y)
  pool := fun x a => (k.pool (h.channels x) a).trans (h.pool x a)

/-- The whole pool stays whole. -/
theorem KeepsOuter.poolWhole {s t : State} (h : KeepsOuter s t) (hd : s.ChannelsDistinct) (hp : s.PoolWhole) : t.PoolWhole := by
  unfold State.PoolWhole at *
  rw [List.perm_iff_count] at *
  intro a; rw [h.pool hd a, hp a]

/-- See the head of this file. -/
structure Keeps (s t : State) : Prop extends KeepsOuter s t where
  reqs : t.mirrorReqs = s.mirrorReqs
  content : t.chans.map Chan.content = s.chans.map Chan.content

theorem Keeps.refl (s : State) : Keeps s s := ⟨KeepsOuter.refl s, rfl, rfl⟩

theorem Keeps.trans {s t u : State} (h : Keeps s t) (k : Keeps t u) : Keeps s u :=
  ⟨h.toKeepsOuter.trans k.toKeepsOuter, k.reqs.trans h.reqs, k.content.trans h.content⟩

/-! ## What serving requests changes -/

theorem Chan.Tended.of_content {a b : Chan} (h : b.content = a.content) : Chan.Tended a b := by
  simp only [Chan.content, Prod.mk.injEq] at h
  obtain ⟨hm, hl, hi⟩ := h
  have hn : b.list.length = a.list.length := by simpa using congrArg List.length hl
  exact ⟨⟨by rw [hm], by rw [hm], by rw [hm], hi⟩, Or.inl (by rw [hm]), by rw [storedIn, storedIn, hl],
    Or.inl ⟨hn, by rw [hm]⟩⟩

theorem Chan.Tended.refl (a : Chan) : Chan.Tended a a := .of_content rfl

theorem Chan.Tended.length_le {a b : Chan} (h : Chan.Tended a b) : b.list.length ≤ a.list.length := by
  simpa [storedIn] using h.list.length_le

theorem Chan.Tended.trans {a b d : Chan} (h : Chan.Tended a b) (k : Chan.Tended b d) : Chan.Tended a d where
  same := ⟨k.same.1.trans h.same.1, k.same.2.1.trans h.same.2.1, k.same.2.2.1.trans h.same.2.2.1, k.same.2.2.2.trans h.same.2.2.2⟩
  condition := by
    rcases h.condition with h1 | h1 <;> rcases k.condition with k1 | k1
    · exact Or.inl (k1.trans h1)
    · exact Or.inr ⟨h1 ▸ k1.1, k1.2⟩
    · exact Or.inr ⟨h1.1, k1.trans h1.2⟩
    · exact Or.inr ⟨h1.1, k1.2⟩
  list := k.list.trans h.list
  reclaimed := by
    have := h.length_le
    have := k.length_le
    have := h.reclaimed
    have := k.reclaimed
    omega

/-- A channel's mirror content stays. -/
theorem Keeps.chanContent {s t : State} (h : Keeps s t) (c : Channel) :
    (t.chan? c).map Chan.content = (s.chan? c).map Chan.content := by
  have key : ∀ l m : List Chan, l.map Chan.content = m.map Chan.content → l.map Chan.fixed = m.map Chan.fixed →
      (l.find? (fun ch => ch.part.channel == c)).map Chan.content =
        (m.find? (fun ch => ch.part.channel == c)).map Chan.content := by
    intro l
    induction l with
    | nil => intro m hm _; cases m with | nil => rfl | cons _ _ => cases hm
    | cons a l ih =>
      intro m hm hf
      cases m with
      | nil => cases hm
      | cons b m =>
        simp only [List.map_cons, List.cons.injEq] at hm hf
        have hp : a.part.channel = b.part.channel := by
          have : a.fixed.1 = b.fixed.1 := by rw [hf.1]
          exact congrArg (·.channel) this
        simp only [List.find?_cons, hp]
        split
        · simp [hm.1]
        · exact ih m hm.2 hf.2
  exact key _ _ h.content h.fixed

/-- A channel's part, watch record and latest-queued version stay. -/
theorem KeepsOuter.chanFixed {s t : State} (h : KeepsOuter s t) (c : Channel) :
    (t.chan? c).map Chan.fixed = (s.chan? c).map Chan.fixed := by
  have key : ∀ l : List Chan, (l.find? (fun ch => ch.part.channel == c)).map Chan.fixed =
      (l.map Chan.fixed).find? (fun x => x.1.channel == c) := by
    intro l; rw [List.find?_map]; rfl
  unfold State.chan?
  rw [key, key, h.fixed]

theorem State.MirrorTended.refl (s : State) : s.MirrorTended s := fun _ a h => ⟨a, h, .refl a⟩

theorem State.MirrorTended.trans {s t u : State} (h : s.MirrorTended t) (k : t.MirrorTended u) : s.MirrorTended u := by
  intro c a ha
  obtain ⟨b, hb, hab⟩ := h c a ha
  obtain ⟨d, hd, hbd⟩ := k c b hb
  exact ⟨d, hd, hab.trans hbd⟩

/-- A change of one channel that serving a request makes. -/
theorem mirrorTended_modChan {s : State} {c : Channel} {ch : Chan} (h : s.chan? c = some ch) (f : Chan → Chan)
    (hp : ∀ x : Chan, (f x).part.channel = x.part.channel) (hf : ch.Tended (f ch)) : s.MirrorTended (s.modChan c f) := by
  intro d a ha
  by_cases e : d = c
  · subst e
    rw [h] at ha; cases ha
    exact ⟨f ch, by rw [chan?_modChan hp, h]; rfl, hf⟩
  · exact ⟨a, by rw [chan?_modChan_ne hp e]; exact ha, .refl a⟩

/-- See the head of this file. -/
structure Tends (s t : State) : Prop extends KeepsOuter s t where
  tended : s.MirrorTended t

theorem Tends.refl (s : State) : Tends s s := ⟨KeepsOuter.refl s, .refl s⟩

theorem Tends.trans {s t u : State} (h : Tends s t) (k : Tends t u) : Tends s u :=
  ⟨h.toKeepsOuter.trans k.toKeepsOuter, h.tended.trans k.tended⟩

theorem Keeps.tends {s t : State} (h : Keeps s t) : Tends s t := by
  refine ⟨h.toKeepsOuter, fun c a ha => ?_⟩
  have hc := h.chanContent c
  rw [ha] at hc
  cases hb : t.chan? c with
  | none => rw [hb] at hc; cases hc
  | some b => rw [hb] at hc; exact ⟨b, rfl, .of_content (Option.some.inj hc)⟩

/-- What keeps everything keeps what was tended before. -/
theorem Tends.keeps {s t u : State} (h : Tends s t) (k : Keeps t u) : Tends s u := h.trans k.tends

/-! ## Channel records -/

theorem keepsOuter_modChan {s0 s : State} (h : KeepsOuter s0 s) (c : Channel) (f : Chan → Chan)
    (hf : ∀ ch, (f ch).fixed = ch.fixed) (hs : ∀ ch, (f ch).slots.Perm ch.slots)
    (hl : ∀ ch : Chan, ch.ListsRight → (f ch).ListsRight) : KeepsOuter s0 (s.modChan c f) := by
  refine h.trans ?_
  constructor
  case lists =>
    intro _ hr ch hm
    obtain ⟨e, he, rfl⟩ := List.mem_map.1 hm
    split
    · exact hl e (hr e he)
    · exact hr e he
  case fixed =>
    unfold State.modChan
    simp only [List.map_map]
    refine List.map_congr_left (fun e _ => ?_)
    simp only [Function.comp]
    split
    · exact hf e
    · rfl
  case pool => intro _ a; rw [count_poolSlots, count_poolSlots, flatMap_modChan s c f hs a]; rfl
  all_goals first | rfl | exact fun x => x | exact fun _ => Nat.le_refl _ | exact fun _ x => x

/-- A change of one channel that keeps what the mirror holds. -/
theorem content_modChan (s : State) (c : Channel) (f : Chan → Chan) (hc : ∀ ch, (f ch).content = ch.content) :
    (s.modChan c f).chans.map Chan.content = s.chans.map Chan.content := by
  unfold State.modChan
  simp only [List.map_map]
  refine List.map_congr_left (fun e _ => ?_)
  simp only [Function.comp]
  split
  · exact hc e
  · rfl

theorem keeps_modChan {s0 s : State} (h : Keeps s0 s) (c : Channel) (f : Chan → Chan)
    (hf : ∀ ch, (f ch).fixed = ch.fixed) (hs : ∀ ch, (f ch).slots.Perm ch.slots)
    (hl : ∀ ch : Chan, ch.ListsRight → (f ch).ListsRight)
    (hc : ∀ ch, (f ch).content = ch.content := by intro _; rfl) : Keeps s0 (s.modChan c f) :=
  h.trans ⟨keepsOuter_modChan (KeepsOuter.refl s) c f hf hs hl, rfl, content_modChan s c f hc⟩

theorem keeps_modTk {s0 s : State} (h : Keeps s0 s) (c : Channel) (f : TakeoverRec → TakeoverRec) :
    Keeps s0 (s.modTk c f) := keeps_modChan h c _ (fun _ => rfl) (fun _ => List.Perm.refl _) (fun _ h => ⟨h.1, h.2, h.3, h.4, h.5⟩)

theorem keeps_modRun {s0 s : State} (h : Keeps s0 s) (c : Channel) (f : RunRec → RunRec) : Keeps s0 (s.modRun c f) :=
  keeps_modChan h c _ (fun _ => rfl) (fun _ => List.Perm.refl _) (fun _ h => ⟨h.1, h.2, h.3, h.4, h.5⟩)

/-- A change of the mirror record that keeps the filling. -/
theorem keepsOuter_modMirror {s0 s : State} (h : KeepsOuter s0 s) (c : Channel) (f : MirrorRec → MirrorRec)
    (hm : ∀ m, (f m).filling = m.filling) : KeepsOuter s0 (s.modMirror c f) :=
  keepsOuter_modChan h c _ (fun _ => rfl) (fun _ => List.Perm.refl _)
    (fun ch h => ⟨h.1, h.2, h.3, h.4, by have := h.5; unfold Chan.FillingRight at *; simpa only [hm] using this⟩)

/-! ## The model's own fields -/

theorem keepsOuter_reqs {s0 s : State} (h : KeepsOuter s0 s) (l : List MirrorReq) :
    KeepsOuter s0 { s with mirrorReqs := l } := by
  refine h.trans ?_
  constructor <;> first | rfl | exact fun x => x | exact fun _ x => x | exact fun _ _ => rfl | exact fun _ => Nat.le_refl _ | exact fun _ x => x

theorem keeps_reports {s0 s : State} (h : Keeps s0 s) (l : List ItemReport) : Keeps s0 { s with reports := l } := by
  refine h.trans ⟨?_, rfl, rfl⟩
  constructor <;> first | rfl | exact fun x => x | exact fun _ x => x | exact fun _ _ => rfl | exact fun _ => Nat.le_refl _ | exact fun _ x => x

theorem keeps_serial {s0 s : State} (h : Keeps s0 s) (n : Nat) : Keeps s0 { s with itemSerial := n } := by
  refine h.trans ⟨?_, rfl, rfl⟩
  constructor <;> first | rfl | exact fun x => x | exact fun _ x => x | exact fun _ _ => rfl | exact fun _ => Nat.le_refl _ | exact fun _ x => x

/-! ## Notices -/

/-- The attention judgement says what R186 says. -/
theorem attentionOf_iff (notices : Vector Notice 12) (floor : Nat) :
    attentionOf notices floor = true ↔ ∃ i : Fin 12, notices[i].pending = true ∧ i.val < floor := by
  simp [attentionOf, List.any_eq_true]

theorem modNotice_attention (s : State) (i : Fin 12) (f : Notice → Notice) : (s.modNotice i f).AttentionRight :=
  attentionOf_iff _ _

/-- The notice classes after one is changed. -/
theorem modNotice_get (s : State) (i j : Fin 12) (f : Notice → Notice) :
    (s.modNotice i f).notices[j] = if j = i then f s.notices[i] else s.notices[j] := by
  show (s.notices.set i (f s.notices[i]))[j] = _
  by_cases h : j = i
  · subst h; simp
  · have : i.val ≠ j.val := fun e => h (Fin.ext e.symm)
    simp [h, this]

theorem keeps_raise {s0 s : State} (h : Keeps s0 s) (cls : NoticeClass) (b : Byte) (d : NoticeCode)
    (hcls : cls ≠ .channelLost := by decide) : Keeps s0 (s.raise cls b d) := by
  refine h.trans ⟨?_, rfl, rfl⟩
  constructor
  case attention => exact fun _ => modNotice_attention _ _ _
  case lostNotice =>
    have hj : cls.number ≠ 3 := by cases cls <;> first | decide | exact absurd rfl hcls
    have := modNotice_get s cls.number 3 (fun n =>
      { pending := true, count := sat8 (n.count + 1), detail := some { subject := b, code := d } })
    rw [if_neg (fun e => hj e.symm)] at this
    exact this
  case noticeCounts =>
    intro hc j
    unfold State.raise
    rw [modNotice_get]
    split
    · show sat8 _ ≤ 255
      unfold sat8; omega
    · exact hc j
  all_goals first | rfl | exact fun x => x | exact fun _ x => x | exact fun _ _ => rfl | exact fun _ => Nat.le_refl _ | exact fun _ x => x

/-! ## The transmit queue -/

theorem insertOffered_length (f : Frame) (q : List Frame) : (insertOffered f q).length = q.length + 1 := by
  induction q with
  | nil => rfl
  | cons g rest ih => unfold insertOffered; split <;> simp [ih]

theorem mem_insertOffered {f g : Frame} {q : List Frame} : g ∈ insertOffered f q ↔ g = f ∨ g ∈ q := by
  induction q with
  | nil => simp [insertOffered]
  | cons x rest ih =>
    unfold insertOffered
    split
    · simp only [List.mem_cons, ih, or_left_comm]
    · simp

theorem insertOffered_sorted {f : Frame} {q : List Frame} (h : q.Pairwise (fun a b => frameField a ≤ frameField b)) :
    (insertOffered f q).Pairwise (fun a b => frameField a ≤ frameField b) := by
  induction q with
  | nil => simp [insertOffered]
  | cons g rest ih =>
    rw [List.pairwise_cons] at h
    unfold insertOffered
    split
    · rename_i hle
      rw [List.pairwise_cons]
      refine ⟨fun x hx => ?_, ih h.2⟩
      rcases mem_insertOffered.1 hx with rfl | hx
      · exact hle
      · exact h.1 x hx
    · rename_i hle
      rw [List.pairwise_cons, List.pairwise_cons]
      refine ⟨fun x hx => ?_, h⟩
      rcases List.mem_cons.1 hx with rfl | hx
      · omega
      · have := h.1 x hx; omega

theorem insertReturned_length (f : Frame) (q : List Frame) : (insertReturned f q).length = q.length + 1 := by
  induction q with
  | nil => rfl
  | cons g rest ih => unfold insertReturned; split <;> simp [ih]

theorem mem_insertReturned {f g : Frame} {q : List Frame} : g ∈ insertReturned f q ↔ g = f ∨ g ∈ q := by
  induction q with
  | nil => simp [insertReturned]
  | cons x rest ih =>
    unfold insertReturned
    split
    · simp only [List.mem_cons, ih, or_left_comm]
    · simp

theorem insertReturned_sorted {f : Frame} {q : List Frame} (h : q.Pairwise (fun a b => frameField a ≤ frameField b)) :
    (insertReturned f q).Pairwise (fun a b => frameField a ≤ frameField b) := by
  induction q with
  | nil => simp [insertReturned]
  | cons g rest ih =>
    rw [List.pairwise_cons] at h
    unfold insertReturned
    split
    · rename_i hle
      rw [List.pairwise_cons]
      refine ⟨fun x hx => ?_, ih h.2⟩
      rcases mem_insertReturned.1 hx with rfl | hx
      · exact Nat.le_of_lt hle
      · exact h.1 x hx
    · rename_i hle
      rw [List.pairwise_cons, List.pairwise_cons]
      refine ⟨fun x hx => ?_, h⟩
      rcases List.mem_cons.1 hx with rfl | hx
      · omega
      · have := h.1 x hx; omega

/-- The coalescing test does not depend on the order of the two frames. -/
theorem coalesces_symm (a b : FrameBody) : coalesces a b = coalesces b a := by
  cases a <;> cases b <;> simp [coalesces, Bool.beq_comm]

/-- A place that keeps the order of fields and adds one frame. -/
structure GoodPlace (place : Frame → List Frame → List Frame) : Prop where
  length : ∀ f q, (place f q).length = q.length + 1
  mem : ∀ f g q, g ∈ place f q ↔ g = f ∨ g ∈ q
  sorted : ∀ f q, q.Pairwise (fun a b => frameField a ≤ frameField b) →
    (place f q).Pairwise (fun a b => frameField a ≤ frameField b)
  perm : ∀ f q, (place f q).Perm (f :: q)

theorem insertOffered_perm (f : Frame) (q : List Frame) : (insertOffered f q).Perm (f :: q) := by
  induction q with
  | nil => exact List.Perm.refl _
  | cons g rest ih =>
    unfold insertOffered
    split
    · exact (List.Perm.cons g ih).trans (List.Perm.swap f g rest)
    · exact List.Perm.refl _

theorem insertReturned_perm (f : Frame) (q : List Frame) : (insertReturned f q).Perm (f :: q) := by
  induction q with
  | nil => exact List.Perm.refl _
  | cons g rest ih =>
    unfold insertReturned
    split
    · exact (List.Perm.cons g ih).trans (List.Perm.swap f g rest)
    · exact List.Perm.refl _

theorem insertOffered_good : GoodPlace insertOffered :=
  ⟨insertOffered_length, fun _ _ _ => mem_insertOffered, fun _ _ h => insertOffered_sorted h, insertOffered_perm⟩

theorem insertReturned_good : GoodPlace insertReturned :=
  ⟨insertReturned_length, fun _ _ _ => mem_insertReturned, fun _ _ h => insertReturned_sorted h, insertReturned_perm⟩

/-- What R84 says of a queue. -/
def QueueRight (q : List Frame) : Prop :=
  q.length ≤ 8 ∧ q.Pairwise (fun f g => frameField f ≤ frameField g) ∧
    q.Pairwise (fun f g => coalesces f.body g.body = false)

theorem QueueRight.sublist {q r : List Frame} (h : QueueRight q) (hs : r.Sublist q) : QueueRight r :=
  ⟨hs.length_le.trans h.1, h.2.1.sublist hs, h.2.2.sublist hs⟩

theorem QueueRight.place {q : List Frame} (h : QueueRight q) {place : Frame → List Frame → List Frame}
    (hp : GoodPlace place) (f : Frame) (hl : q.length < 8) (hc : ∀ g ∈ q, coalesces f.body g.body = false) :
    QueueRight (place f q) := by
  refine ⟨by rw [hp.length]; omega, hp.sorted f q h.2.1, ?_⟩
  refine List.Pairwise.perm ?_ (hp.perm f q).symm (fun {a b} hab => by rw [coalesces_symm]; exact hab)
  exact List.pairwise_cons.2 ⟨hc, h.2.2⟩

/-- A change of the transmit queue alone. -/
theorem keeps_setQueue {s0 s : State} (h : Keeps s0 s) (q : List Frame) (hq : QueueRight s.bus.queue → QueueRight q) :
    Keeps s0 (s.setQueue q) := by
  refine h.trans ⟨?_, rfl, rfl⟩
  constructor
  case transmit => exact fun x => hq x
  all_goals first | rfl | exact fun x => x | exact fun _ x => x | exact fun _ _ => rfl | exact fun _ => Nat.le_refl _ | exact fun _ x => x

theorem keeps_countDrop {s0 s : State} (h : Keeps s0 s) : Keeps s0 s.countDrop := by
  refine h.trans ⟨?_, rfl, rfl⟩
  constructor
  case busDrops =>
    intro _
    show sat16 _ ≤ 65535
    unfold sat16; omega
  all_goals first | rfl | exact fun x => x | exact fun _ x => x | exact fun _ _ => rfl | exact fun _ => Nat.le_refl _ | exact fun _ x => x

theorem keeps_enqueueBy {s0 s : State} (h : Keeps s0 s) {place : Frame → List Frame → List Frame} (hp : GoodPlace place)
    (f : Frame) (hc : ∀ g ∈ s.bus.queue, coalesces f.body g.body = false) : Keeps s0 (s.enqueueBy place f) := by
  unfold State.enqueueBy
  by_cases hl : s.bus.queue.length < Config.transmitDepth
  · simp only [if_pos hl]
    exact keeps_setQueue h _ (fun hq => hq.place hp f hl hc)
  · simp only [if_neg hl]
    split
    · split
      · refine keeps_countDrop (keeps_setQueue h _ (fun hq => ?_))
        have hsub := List.dropLast_sublist s.bus.queue
        refine (hq.sublist hsub).place hp f ?_ (fun g hg => hc g (hsub.mem hg))
        rw [List.length_dropLast]; have := hq.1; omega
      · exact keeps_countDrop h
    · exact keeps_countDrop h

theorem keeps_offerFrame {s0 s : State} (h : Keeps s0 s) (f : Frame) : Keeps s0 (s.offerFrame f) := by
  unfold State.offerFrame
  simp only
  split
  · rename_i ha
    refine keeps_setQueue h _ (fun hq => ?_)
    refine (hq.sublist List.filter_sublist).place insertOffered_good f ?_ ?_
    · obtain ⟨g, hg, hcg⟩ := List.any_eq_true.1 ha
      refine Nat.lt_of_lt_of_le ?_ hq.1
      exact List.length_filter_lt_length_iff_exists.2 ⟨g, hg, by simp [hcg]⟩
    · intro g hg
      simpa using (List.mem_filter.1 hg).2
  · rename_i ha
    refine keeps_enqueueBy h insertOffered_good f (fun g hg => ?_)
    simpa using fun hc => ha (List.any_eq_true.2 ⟨g, hg, hc⟩)

theorem keeps_withdrawClaim {s0 s : State} (h : Keeps s0 s) (c : Channel) : Keeps s0 (s.withdrawClaim c) := by
  refine h.trans ⟨?_, rfl, rfl⟩
  constructor
  case transmit => exact fun x => QueueRight.sublist x List.filter_sublist
  all_goals first | rfl | exact fun x => x | exact fun _ x => x | exact fun _ _ => rfl | exact fun _ => Nat.le_refl _ | exact fun _ x => x

theorem keeps_offerClaim {s0 s : State} (h : Keeps s0 s) (c : Channel) (k : Key) : Keeps s0 (s.offerClaim c k) :=
  keeps_offerFrame h _

theorem keeps_offerRelease {s0 s : State} (h : Keeps s0 s) (c : Channel) (k : Key) (r : ReleaseReason) :
    Keeps s0 (s.offerRelease c k r) := by
  unfold State.offerRelease; split
  · exact h
  · exact keeps_offerFrame h _

theorem keeps_assertHold {s0 s : State} (h : Keeps s0 s) (c : Channel) : Keeps s0 (s.assertHold c) := by
  unfold State.assertHold
  split
  · exact h
  · split
    · exact h
    · exact keeps_modTk (keeps_offerFrame h _) _ _

theorem keeps_offerStatus {s0 s : State} (h : Keeps s0 s) : Keeps s0 s.offerStatus := keeps_offerFrame h _

/-! ## Outlets -/

/-- Reading an outlet after one is changed. -/
theorem outlet_modOutlet (s : State) (o p : OutletNo) (f : Outlet → Outlet) :
    (s.modOutlet o f).outlet p = if p = o then f (s.outlet o) else s.outlet p := by
  show (s.outlets.set o (f (s.outlet o)))[p] = _
  by_cases h : p = o
  · subst h; simp
  · have : o.val ≠ p.val := fun e => h (Fin.ext e.symm)
    simp [h, this, State.outlet]

@[simp] theorem outlet_modOutlet_self (s : State) (o : OutletNo) (f : Outlet → Outlet) :
    (s.modOutlet o f).outlet o = f (s.outlet o) := by simp [outlet_modOutlet]

/-- A change of one outlet that keeps the agreement of its air output and its bounds. -/
structure OutletStep (x y : Outlet) : Prop where
  air : (x.air = true ↔ x.state = .air) → (y.air = true ↔ y.state = .air)
  queue : x.queue.length ≤ 4 → y.queue.length ≤ 4
  awaiting : y.awaiting.length ≤ x.awaiting.length
  seq : x.seq < 4 → y.seq < 4

theorem OutletStep.refl (x : Outlet) : OutletStep x x := ⟨id, id, Nat.le_refl _, id⟩

theorem keeps_modOutlet {s0 s : State} (h : Keeps s0 s) (o : OutletNo) (f : Outlet → Outlet)
    (hf : OutletStep (s.outlet o) (f (s.outlet o))) (hs : (f (s.outlet o)).sendable = (s.outlet o).sendable) :
    Keeps s0 (s.modOutlet o f) := by
  refine h.trans ⟨?_, rfl, rfl⟩
  constructor
  case air =>
    intro x p; rw [outlet_modOutlet]; split
    · exact hf.air (x o)
    · exact x p
  case awaiting =>
    intro p; rw [outlet_modOutlet]; split
    · rename_i e; subst e; exact hf.awaiting
    · exact Nat.le_refl _
  case outlets =>
    intro x p; rw [outlet_modOutlet]; split
    · exact ⟨hf.queue (x o).1, hf.awaiting.trans (x o).2.1, hf.seq (x o).2.2⟩
    · exact x p
  case sendOrder =>
    intro x
    refine ⟨x.1, fun p => ?_⟩
    rw [outlet_modOutlet]
    split
    · rename_i e; subst e; rw [hs]; exact x.2 p
    · exact x.2 p
  all_goals first | rfl | exact fun x => x | exact fun _ x => x | exact fun _ _ => rfl | exact fun _ => Nat.le_refl _ | exact fun _ x => x

@[simp] theorem settleOrder_outlet (s : State) (o p : OutletNo) : (s.settleOrder o).outlet p = s.outlet p := by
  unfold State.settleOrder; split <;> [split; skip] <;> rfl

/-- The send order once one outlet's standing is brought up to date, when every other outlet's was right. -/
theorem settleOrder_right {s : State} {o : OutletNo} (hn : s.cue.sendOrder.Nodup)
    (hp : ∀ p, p ≠ o → (p ∈ s.cue.sendOrder ↔ (s.outlet p).sendable = true)) : (s.settleOrder o).SendOrderRight := by
  unfold State.settleOrder
  split
  · rename_i hs
    split
    · rename_i hc
      refine ⟨hn, fun p => ?_⟩
      by_cases e : p = o
      · subst e; simp only [hs, iff_true]; simpa using hc
      · exact hp p e
    · rename_i hc
      have hno : o ∉ s.cue.sendOrder := by simpa using hc
      refine ⟨?_, fun p => ?_⟩
      · show (s.cue.sendOrder ++ [o]).Nodup
        rw [List.nodup_append]
        refine ⟨hn, by simp, fun a ha b hb => ?_⟩
        rw [List.mem_singleton] at hb; subst hb
        exact fun e => hno (e ▸ ha)
      · show p ∈ s.cue.sendOrder ++ [o] ↔ (s.outlet p).sendable = true
        by_cases e : p = o
        · subst e; simp [hs]
        · simp [e, hp p e]
  · rename_i hs
    refine ⟨hn.filter _, fun p => ?_⟩
    show p ∈ s.cue.sendOrder.filter (fun q => q != o) ↔ (s.outlet p).sendable = true
    by_cases e : p = o
    · subst e; simp [hs]
    · simp [e, hp p e]

theorem keeps_modOutlet_settle {s0 s : State} (h : Keeps s0 s) (o : OutletNo) (f : Outlet → Outlet)
    (hf : OutletStep (s.outlet o) (f (s.outlet o))) : Keeps s0 ((s.modOutlet o f).settleOrder o) := by
  have h0 : (s.modOutlet o f).settleOrder o = { s with
      outlets := (s.modOutlet o f).outlets, cue := ((s.modOutlet o f).settleOrder o).cue } := by
    unfold State.settleOrder; repeat' split
    all_goals rfl
  refine h.trans ⟨?_, by rw [h0], by rw [h0]⟩
  have key : ∀ p, ((s.modOutlet o f).settleOrder o).outlet p = if p = o then f (s.outlet o) else s.outlet p := by
    intro p; rw [settleOrder_outlet, outlet_modOutlet]
  constructor
  case air =>
    intro x p; rw [key]; split
    · exact hf.air (x o)
    · exact x p
  case awaiting =>
    intro p; rw [key]; split
    · rename_i e; subst e; exact hf.awaiting
    · exact Nat.le_refl _
  case outlets =>
    intro x p; rw [key]; split
    · exact ⟨hf.queue (x o).1, hf.awaiting.trans (x o).2.1, hf.seq (x o).2.2⟩
    · exact x p
  case sendOrder =>
    intro x
    refine settleOrder_right x.1 (fun p hp => ?_)
    rw [outlet_modOutlet, if_neg hp]; exact x.2 p
  all_goals
    unfold State.settleOrder
    repeat' split
    all_goals first | rfl | exact fun x => x | exact fun _ x => x | exact fun _ _ => rfl | exact fun _ => Nat.le_refl _ | exact fun _ x => x

end Sys2Proof.Machine
end

