-- ==== Sys2Proof/Laws/KeepsTakeover.lean ====
section
/-! SUPPORT. `Keeps` for the operations of the takeover unit, the mirror and the closing of a run. -/

namespace Sys2Proof.Machine

variable {s0 s : State}

/-! ## Takeover -/

theorem keeps_reserveOutlet (h : Keeps s0 s) {o : OutletNo} (ho : (s.outlet o).state = .free) (c : Channel) :
    Keeps s0 (s.reserveOutlet o c) := by
  refine keeps_modOutlet h o _ ⟨fun ha => ?_, id, Nat.le_refl _, id⟩ rfl
  simp only [ho] at ha
  simpa using ha

theorem keeps_unreserve (h : Keeps s0 s) (o : OutletNo) : Keeps s0 (s.unreserve o) := by
  refine keeps_modOutlet h o _ ?_ ?_
  · split
    · rename_i ho
      refine ⟨fun ha => ?_, id, Nat.le_refl _, id⟩
      simp only [ho] at ha
      simpa using ha
    · exact OutletStep.refl _
  · split <;> rfl

theorem keeps_leaveContending (h : Keeps s0 s) (c : Channel) (n : TakeoverState) : Keeps s0 (s.leaveContending c n) := by
  unfold State.leaveContending
  split
  · exact h
  · refine keeps_modTk ?_ _ _
    split
    · exact keeps_unreserve (keeps_withdrawClaim h c) _
    · exact keeps_withdrawClaim h c

theorem keeps_armYield (h : Keeps s0 s) (c : Channel) : Keeps s0 (s.armYield c) := keeps_modTk h _ _

theorem freeOutlet_free {s : State} {o : OutletNo} (h : s.freeOutlet = some o) : (s.outlet o).state = .free := by
  have := List.find?_some h
  simpa [Outlet.isFree] using this

theorem keeps_enterContending (h : Keeps s0 s) (ch : Chan) {o : OutletNo} (ho : (s.outlet o).state = .free) (k : Key) :
    Keeps s0 (s.enterContending ch o k).1 := by
  unfold State.enterContending
  simp only
  split
  · exact keeps_armYield (keeps_leaveContending (keeps_modTk (keeps_reserveOutlet h ho _) _ _) _ _) _
  · exact keeps_offerClaim (keeps_modTk (keeps_reserveOutlet h ho _) _ _) _ _

/-- A check that lets a channel contend takes a FREE outlet. -/
theorem checkOutcome_contend {s : State} {ch : Chan} {o : OutletNo} {k : Key} (h : s.checkOutcome ch = .contend o k) :
    s.freeOutlet = some o := by
  unfold State.checkOutcome at h
  repeat' (split at h)
  all_goals first | (cases h; assumption) | cases h

theorem keeps_checkChannel (h : Keeps s0 s) (c : Channel) : Keeps s0 (s.checkChannel c).1 := by
  unfold State.checkChannel
  split
  · exact h
  · split
    · exact h
    · split
      · dsimp only; exact keeps_modTk h _ _
      · dsimp only; exact keeps_modTk h _ _
      · dsimp only; exact keeps_modTk h _ _
      · rename_i ho
        exact keeps_enterContending h _ (freeOutlet_free (checkOutcome_contend ho)) _

theorem keeps_checkAll (l : List Channel) : ∀ {s : State}, Keeps s0 s → Keeps s0 (s.checkAll l).1 := by
  induction l with
  | nil => exact fun h => h
  | cons c rest ih => exact fun h => ih (keeps_checkChannel h c)

theorem keeps_passes (n : Nat) : ∀ {s : State}, Keeps s0 s → Keeps s0 (State.passes n s) := by
  induction n with
  | zero => exact fun h => h
  | succ n ih =>
    intro s h
    unfold State.passes
    simp only
    split
    · exact ih (keeps_checkAll _ h)
    · exact keeps_checkAll _ h

theorem keeps_pass (h : Keeps s0 s) : Keeps s0 s.pass := keeps_passes _ h

theorem keeps_check (h : Keeps s0 s) (c : Channel) : Keeps s0 (s.check c) := by
  unfold State.check
  simp only
  split
  · exact keeps_pass (keeps_checkChannel h c)
  · exact keeps_checkChannel h c

theorem keeps_rekeyOne (h : Keeps s0 s) (c : Channel) : Keeps s0 (s.rekeyOne c).1 := by
  unfold State.rekeyOne
  split
  · exact h
  · split
    · exact h
    · split
      · exact h
      · split
        · exact h
        · split
          · exact keeps_armYield (keeps_leaveContending h _ _) _
          · exact keeps_offerClaim (keeps_modTk h _ _) _ _

theorem keeps_rekeyAll (l : List Channel) : ∀ {s : State}, Keeps s0 s → Keeps s0 (s.rekeyAll l).1 := by
  induction l with
  | nil => exact fun h => h
  | cons c rest ih => exact fun h => ih (keeps_rekeyOne h c)

theorem keeps_timeClassChanged (h : Keeps s0 s) : Keeps s0 s.timeClassChanged := by
  unfold State.timeClassChanged
  simp only
  split
  · exact keeps_pass (keeps_rekeyAll _ h)
  · exact keeps_rekeyAll _ h

theorem keeps_conditionChanged (h : Keeps s0 s) (c : Channel) : Keeps s0 (s.conditionChanged c) := by
  unfold State.conditionChanged
  split
  · exact h
  · split
    · simp only
      split
      · exact keeps_pass (keeps_rekeyOne h c)
      · exact keeps_rekeyOne h c
    · exact keeps_check h c

theorem keeps_leaveAllContending (l : List Channel) : ∀ {s : State}, Keeps s0 s → Keeps s0 (s.leaveAllContending l) := by
  induction l with
  | nil => exact fun h => h
  | cons c rest ih =>
    intro s h
    unfold State.leaveAllContending
    apply ih
    split
    · split
      · exact keeps_leaveContending h _ _
      · exact h
    · exact h

theorem keeps_busLeftActive (h : Keeps s0 s) : Keeps s0 s.busLeftActive := keeps_pass (keeps_leaveAllContending _ h)

theorem keeps_setAwaitLive (h : Keeps s0 s) (c : Channel) : Keeps s0 (s.setAwaitLive c) :=
  keeps_modChan h c _ (fun _ => rfl) (fun _ => List.Perm.refl _) (fun _ h => ⟨h.1, h.2, h.3, h.4, h.5⟩)

theorem keeps_leaveYielded (h : Keeps s0 s) (c : Channel) : Keeps s0 (s.leaveYielded c) := keeps_check (keeps_modTk h _ _) c

theorem keeps_holderGone (h : Keeps s0 s) (c : Channel) : Keeps s0 (s.holderGone c) := by
  unfold State.holderGone
  split
  · exact h
  · split
    · exact keeps_leaveYielded h c
    · exact keeps_check h c

/-! ## Resolution keeps the slots -/

/-- Resolution changes no record's slot and no field the feed supplied (R42). -/
theorem resolveFrom_data (p : Nat) (a : Option Anchor) (r : Time) (l : List EventRec) :
    ∀ e, (resolveFrom p a r e l).1.map (fun x => (x.slot, x.data)) = l.map (fun x => (x.slot, x.data)) := by
  induction l with
  | nil => intro e; rfl
  | cons x rest ih =>
    intro e
    simp only [resolveFrom, List.map_cons, ih]
    congr 1
    split <;> rfl

theorem resolve_data (p : Nat) (a : Option Anchor) (l : List EventRec) :
    (resolve p a l).map (fun x => (x.slot, x.data)) = l.map (fun x => (x.slot, x.data)) := resolveFrom_data _ _ _ _ _

/-- Two lists of records with the same slots and the same feed-supplied fields. -/
def SameData (l m : List EventRec) : Prop := l.map (fun x => (x.slot, x.data)) = m.map (fun x => (x.slot, x.data))

theorem SameData.slots {l m : List EventRec} (h : SameData l m) : l.map (·.slot) = m.map (·.slot) := by
  have := congrArg (List.map Prod.fst) h
  simpa only [List.map_map, Function.comp_def] using this

theorem SameData.ids {l m : List EventRec} (h : SameData l m) : l.map (·.data.id) = m.map (·.data.id) := by
  have := congrArg (List.map (fun x => x.2.id)) h
  simpa only [List.map_map, Function.comp_def] using this

theorem SameData.length {l m : List EventRec} (h : SameData l m) : l.length = m.length := by
  have := congrArg List.length h
  simpa using this

/-- A change of the channel list that keeps slots and data. -/
theorem keeps_list {s0 s : State} (h : Keeps s0 s) (c : Channel) (f : Chan → List EventRec)
    (hf : ∀ ch, SameData (f ch) ch.list) : Keeps s0 (s.modChan c (fun ch => { ch with list := f ch })) := by
  refine keeps_modChan h c _ (fun _ => rfl) (fun ch => ?_) (fun ch h => ?_)
    (fun ch => by unfold Chan.content; exact congrArg (fun x => (ch.mirror, x, ch.incoming)) (hf ch))
  · simp only [Chan.slots, List.map_append, (hf ch).slots]
    exact List.Perm.refl _
  · exact ⟨by simpa only [(hf ch).length] using h.1, h.2, by simpa only [(hf ch).ids] using h.3, h.4, h.5⟩

/-- Marks on records change neither slots nor data. -/
theorem sameData_map (l : List EventRec) (f : EventRec → EventRec) (hf : ∀ e, ((f e).slot, (f e).data) = (e.slot, e.data)) :
    SameData (l.map f) l := by
  unfold SameData
  rw [List.map_map]
  exact List.map_congr_left (fun e _ => hf e)

theorem keeps_resolveChan (h : Keeps s0 s) (c : Channel) : Keeps s0 (s.resolveChan c) :=
  keeps_list h c _ (fun _ => resolve_data _ _ _)

/-! ## Mirror -/

theorem keepsOuter_setCondition (h : KeepsOuter s0 s) (c : Channel) (f : Condition → Condition) : KeepsOuter s0 (s.setCondition c f) := by
  unfold State.setCondition
  split
  · exact h
  · rename_i ch _
    simp only
    split
    · exact h
    · have h1 := keepsOuter_modMirror h c (fun m => { m with condition := f ch.mirror.condition }) (fun _ => rfl)
      refine KeepsOuter.trans ?_ (keeps_conditionChanged (Keeps.refl _) c).toKeepsOuter
      split
      · exact h1.trans (keeps_raise (Keeps.refl _) _ _ _).toKeepsOuter
      · exact h1

theorem keepsOuter_markStale (h : KeepsOuter s0 s) (c : Channel) : KeepsOuter s0 (s.markStale c) := keepsOuter_setCondition h c _
theorem keepsOuter_markShort (h : KeepsOuter s0 s) (c : Channel) : KeepsOuter s0 (s.markShort c) := keepsOuter_setCondition h c _
theorem keepsOuter_makeCurrent (h : KeepsOuter s0 s) (c : Channel) : KeepsOuter s0 (s.makeCurrent c) := keepsOuter_setCondition h c _

/-- One channel's record changes and its lists stay right. -/
theorem listsRight_modChan {s : State} (hd : s.ChannelsDistinct) {c : Channel} {ch : Chan} (hc : s.chan? c = some ch)
    (f : Chan → Chan) (hl : ch.ListsRight → (f ch).ListsRight) (hr : s.ListsRight) : (s.modChan c f).ListsRight := by
  intro e he
  obtain ⟨d, hdm, rfl⟩ := List.mem_map.1 he
  split
  · rename_i hdc
    have hdc : d.part.channel = c := by simpa using hdc
    have : d = ch := by
      have hch := List.mem_of_find?_eq_some hc
      exact List.inj_on_of_nodup_map hd hdm hch (hdc.trans (chan?_channel hc).symm)
    subst this
    exact hl (hr d hdm)
  · exact hr d hdm

/-- Records leave one channel's lists for the free list: the slots of the pool stay the same. -/
theorem keepsOuter_free (h : KeepsOuter s0 s) {c : Channel} {ch : Chan} (hc : s.chan? c = some ch) (rs : List EventRec)
    (f : Chan → Chan) (hf : ∀ ch, (f ch).fixed = ch.fixed)
    (hs : ∀ a, (f ch).slots.count a + (rs.map (·.slot)).count a = ch.slots.count a)
    (hl : ch.ListsRight → (f ch).ListsRight) : KeepsOuter s0 ((s.freeRecords rs).modChan c f) := by
  refine h.trans ?_
  constructor
  case lists => exact fun hd hr => listsRight_modChan hd hc f hl hr
  case fixed =>
    show (s.modChan c f).chans.map Chan.fixed = _
    unfold State.modChan
    simp only [List.map_map]
    refine List.map_congr_left (fun e _ => ?_)
    simp only [Function.comp]
    split
    · exact hf e
    · rfl
  case pool =>
    intro hd a
    rw [count_poolSlots, count_poolSlots]
    have h1 : ((s.freeRecords rs).modChan c f).poolFree = rs.map (·.slot) ++ s.poolFree := rfl
    have h2 : ((s.freeRecords rs).modChan c f).chans = (s.modChan c f).chans := rfl
    have h3 := count_modChan hd hc f a
    have h4 := hs a
    rw [h1, h2, List.count_append]
    omega
  all_goals first | rfl | exact fun x => x | exact fun _ => Nat.le_refl _ | exact fun _ x => x

theorem keepsOuter_abandonFilling (h : KeepsOuter s0 s) (c : Channel) : KeepsOuter s0 (s.abandonFilling c) := by
  unfold State.abandonFilling
  split
  · exact h
  · rename_i ch hc
    refine keepsOuter_free h hc _ _ (fun _ => rfl) (fun a => ?_) (fun hl => ?_)
    · simp only [count_slots, List.map_nil, List.count_nil]; omega
    · exact ⟨hl.1, Nat.zero_le _, hl.3, List.nodup_nil, rfl⟩

/-- Splitting a list by a test keeps the slots, counted. -/
theorem count_filter_split (l : List EventRec) (p : EventRec → Bool) (a : Nat) :
    ((l.filter (fun e => !p e)).map (·.slot)).count a + ((l.filter p).map (·.slot)).count a = (l.map (·.slot)).count a := by
  induction l with
  | nil => rfl
  | cons x rest ih =>
    cases hp : p x <;> simp [hp, List.count_cons] at ih ⊢ <;> omega

theorem keeps_pin (h : Keeps s0 s) (c : Channel) (n : Nat) : Keeps s0 (s.pin c n) := by
  exact keeps_list h c _ (fun ch => sameData_map _ _ (fun e => by split <;> rfl))

theorem takeFirst_count {p : EventRec → Bool} {l : List EventRec} {e : EventRec} {rest : List EventRec}
    (h : takeFirst p l = some (e, rest)) (a : Nat) :
    (rest.map (·.slot)).count a + ([e].map (·.slot)).count a = (l.map (·.slot)).count a := by
  induction l generalizing e rest with
  | nil => cases h
  | cons x xs ih =>
    unfold takeFirst at h
    split at h
    · cases h; simp [List.count_cons]
    · split at h
      · rename_i y ys hy
        cases h
        have := ih hy
        simp only [List.map_cons, List.count_cons] at this ⊢
        omega
      · cases h

theorem keeps_unpin (h : Keeps s0 s) (c : Channel) (n : Nat) : Keeps s0 (s.unpin c n) := by
  unfold State.unpin
  split
  · exact h
  · rename_i ch hc
    split
    · rename_i e rest ht
      refine h.trans ⟨keepsOuter_free (KeepsOuter.refl s) hc _ _ (fun _ => rfl) (fun a => ?_)
        (fun hl => ⟨hl.1, hl.2, hl.3, hl.4, hl.5⟩), rfl, content_modChan s c _ (by intro _; rfl)⟩
      have := takeFirst_count ht a
      simp only [count_slots] at this ⊢; omega
    · exact keeps_list h c _ (fun ch => sameData_map _ _ (fun e => by split <;> rfl))

theorem sweepFrom_count (t : Time) (l : List EventRec) (a : Nat) :
    ((sweepFrom t l).1.map (·.slot)).count a + ((sweepFrom t l).2.1.map (·.slot)).count a = (l.map (·.slot)).count a := by
  induction l with
  | nil => rfl
  | cons e rest ih =>
    unfold sweepFrom
    simp only
    repeat' split
    all_goals (simp only [List.map_cons, List.count_cons]; omega)

theorem sweepFrom_sublist (t : Time) (l : List EventRec) : (sweepFrom t l).1.Sublist l := by
  induction l with
  | nil => exact List.Sublist.refl _
  | cons e rest ih =>
    unfold sweepFrom
    simp only
    repeat' split
    all_goals first | exact ih.cons_cons _ | exact ih.cons _

theorem sweepFrom_length (t : Time) (l : List EventRec) : (sweepFrom t l).1.length + (sweepFrom t l).2.1.length = l.length := by
  induction l with
  | nil => rfl
  | cons e rest ih =>
    unfold sweepFrom
    simp only
    repeat' split
    all_goals simp only [List.length_cons]; omega

theorem keepsOuter_sweep (h : KeepsOuter s0 s) (c : Channel) : KeepsOuter s0 (s.sweep c) := by
  unfold State.sweep
  split
  · exact h
  · rename_i ch hc
    split
    · exact h
    · have hsub := sweepFrom_sublist (s.cutoff ch) ch.list
      refine keepsOuter_free h hc _ _ (fun _ => rfl) (fun a => ?_)
        (fun hl => ⟨hsub.length_le.trans hl.1, hl.2, hl.3.sublist (hsub.map _), hl.4, hl.5⟩)
      have := sweepFrom_count (s.cutoff ch) ch.list a
      simp only [count_slots]; omega

theorem keepsOuter_driftCheck (h : KeepsOuter s0 s) (c : Channel) (v : Version) (e : EventId) : KeepsOuter s0 (s.driftCheck c v e) := by
  unfold State.driftCheck
  split
  · exact h
  · split
    · exact keepsOuter_markStale h c
    · exact h

theorem keepsOuter_serve (h : KeepsOuter s0 s) (r : MirrorReq) : KeepsOuter s0 (s.serve r) := by
  unfold State.serve
  split
  · exact keepsOuter_driftCheck h _ _ _
  · exact keepsOuter_sweep h _

theorem keepsOuter_serveThrough (p : MirrorReq → Bool) (l : List MirrorReq) :
    ∀ {s : State}, KeepsOuter s0 s → KeepsOuter s0 (State.serveThrough p l s) := by
  induction l with
  | nil => exact fun h => h
  | cons r rest ih =>
    intro s h
    unfold State.serveThrough
    simp only
    split
    · exact keepsOuter_serve (keepsOuter_reqs h _) r
    · exact ih (keepsOuter_serve (keepsOuter_reqs h _) r)

theorem keepsOuter_serveAll (h : KeepsOuter s0 s) : KeepsOuter s0 s.serveAll := keepsOuter_serveThrough _ _ h

/-! ## What serving requests changes -/

theorem tends_reqs (h : Tends s0 s) (l : List MirrorReq) : Tends s0 { s with mirrorReqs := l } :=
  h.trans ⟨keepsOuter_reqs (KeepsOuter.refl s) l, .refl s⟩

theorem tends_askSweep (h : Tends s0 s) (c : Channel) : Tends s0 (s.askSweep c) := tends_reqs h _

theorem markStale_tended (s : State) (c : Channel) : s.MirrorTended (s.markStale c) := by
  unfold State.markStale State.setCondition
  split
  · exact .refl s
  · rename_i ch hc
    simp only
    split
    · exact .refl s
    · rename_i hn
      have h1 : s.MirrorTended (s.modMirror c (fun m => { m with condition := ch.mirror.condition.markStale })) := by
        refine mirrorTended_modChan hc _ (fun _ => rfl) ⟨⟨rfl, rfl, rfl, rfl⟩, Or.inr ?_, List.Sublist.refl _, Or.inl ⟨rfl, rfl⟩⟩
        revert hn
        cases ch.mirror.condition <;> simp [Condition.markStale]
      refine h1.trans (Keeps.tends (keeps_conditionChanged ?_ c)).tended
      split
      · exact keeps_raise (Keeps.refl _) _ _ _
      · exact Keeps.refl _

theorem sweep_tended (s : State) (c : Channel) : s.MirrorTended (s.sweep c) := by
  unfold State.sweep
  split
  · exact .refl s
  · rename_i ch hc
    simp only
    split
    · exact .refl s
    · have hsub := sweepFrom_sublist (s.cutoff ch) ch.list
      have hlen := sweepFrom_length (s.cutoff ch) ch.list
      refine mirrorTended_modChan (ch := ch) hc _ (fun _ => rfl) ⟨⟨rfl, rfl, rfl, rfl⟩, Or.inl rfl, hsub.map _, Or.inr ?_⟩
      show sat16 _ = min 65535 (_ + (_ - (sweepFrom (s.cutoff ch) ch.list).1.length))
      unfold sat16
      omega

theorem serve_tended (s : State) (r : MirrorReq) : s.MirrorTended (s.serve r) := by
  unfold State.serve State.driftCheck
  repeat' split
  · exact .refl s
  · exact markStale_tended s _
  · exact .refl s
  · exact sweep_tended s _

theorem tends_serveThrough (p : MirrorReq → Bool) (l : List MirrorReq) :
    ∀ {s : State}, Tends s0 s → Tends s0 (State.serveThrough p l s) := by
  induction l with
  | nil => exact fun h => h
  | cons r rest ih =>
    intro s h
    have h1 : Tends s0 (State.serve { s with mirrorReqs := rest } r) :=
      (tends_reqs h rest).trans ⟨keepsOuter_serve (KeepsOuter.refl _) r, serve_tended _ r⟩
    unfold State.serveThrough
    simp only
    split
    · exact h1
    · exact ih h1

theorem tends_serveAll (h : Tends s0 s) : Tends s0 s.serveAll := tends_serveThrough _ _ h

theorem tends_mirrorTurn (h : Tends s0 s) (c : Channel) : Tends s0 (s.mirrorTurn c) := by
  unfold State.mirrorTurn
  split
  · exact tends_serveAll h
  · exact h

theorem tends_outletTurn (h : Tends s0 s) (o : OutletNo) : Tends s0 (s.outletTurn o) := by
  unfold State.outletTurn
  split
  · exact h
  · exact tends_mirrorTurn h _

/-- Where nothing waits, serving does nothing. -/
theorem serveAll_of_nil {s : State} (h : s.mirrorReqs = []) : s.serveAll = s := by
  unfold State.serveAll; rw [h]; rfl

theorem mirrorTurn_of_nil {s : State} (h : s.mirrorReqs = []) (c : Channel) : s.mirrorTurn c = s := by
  unfold State.mirrorTurn; rw [serveAll_of_nil h, ite_self]

theorem outletTurn_of_nil {s : State} (h : s.mirrorReqs = []) (o : OutletNo) : s.outletTurn o = s := by
  unfold State.outletTurn
  split
  · rfl
  · exact mirrorTurn_of_nil h _

/-- Serving a request makes none. -/
theorem serve_reqs (s : State) (r : MirrorReq) : (s.serve r).mirrorReqs = s.mirrorReqs := by
  have hm : ∀ c, (s.markStale c).mirrorReqs = s.mirrorReqs := by
    intro c
    unfold State.markStale State.setCondition
    split
    · rfl
    simp only
    split
    · rfl
    · refine (keeps_conditionChanged (Keeps.refl _) c).reqs.trans ?_
      split
      · exact (keeps_raise (Keeps.refl _) _ _ _).reqs
      · rfl
  unfold State.serve State.driftCheck State.sweep
  repeat' split
  all_goals first | rfl | exact hm _

theorem serveThrough_reqs_nil (l : List MirrorReq) : ∀ s : State, s.mirrorReqs = l →
    (State.serveThrough (fun _ => false) l s).mirrorReqs = [] := by
  induction l with
  | nil => exact fun s h => h
  | cons r rest ih =>
    intro s _
    unfold State.serveThrough
    simp only [Bool.false_eq_true, if_false]
    exact ih _ (serve_reqs _ r)

theorem serveAll_reqs (s : State) : s.serveAll.mirrorReqs = [] := serveThrough_reqs_nil _ s rfl

/-! ## Closing a run -/

theorem keeps_writeAsRun (h : Keeps s0 s) (a : AsRun) : Keeps s0 (s.writeAsRun a) := by
  unfold State.writeAsRun
  split
  · refine h.trans ⟨?_, rfl, rfl⟩
    constructor
    case asrunDrops =>
      intro _
      show sat16 _ ≤ 65535
      unfold sat16; omega
    all_goals first | rfl | exact fun x => x | exact fun _ x => x | exact fun _ _ => rfl | exact fun _ => Nat.le_refl _
  · rename_i hl
    have hk : Keeps s0 { s with asrun := s.asrun ++ [a] } := by
      refine h.trans ⟨?_, rfl, rfl⟩
      constructor
      case asrun =>
        intro _
        show (s.asrun ++ [a]).length ≤ 64
        rw [List.length_append]
        have : ¬ 64 ≤ s.asrun.length := hl
        simp only [List.length_cons, List.length_nil]; omega
      all_goals first | rfl | exact fun x => x | exact fun _ x => x | exact fun _ _ => rfl | exact fun _ => Nat.le_refl _
    simp only
    split
    · exact keeps_raise hk _ _ _
    · exact hk

theorem keeps_unpinAll (c : Channel) (l : List Nat) : ∀ {s : State}, Keeps s0 s → Keeps s0 (s.unpinAll c l) := by
  unfold State.unpinAll
  induction l with
  | nil => exact fun h => h
  | cons n rest ih => exact fun h => ih (keeps_unpin h c n)

theorem keeps_clearRun (h : Keeps s0 s) (c : Channel) (r : Option RunRec) :
    Keeps s0 (s.modChan c (fun ch => { ch with run := r })) :=
  keeps_modChan h c _ (fun _ => rfl) (fun _ => List.Perm.refl _) (fun _ h => ⟨h.1, h.2, h.3, h.4, h.5⟩)

theorem keeps_closeRun (h : Keeps s0 s) (c : Channel) (cause : Option (Ending × Time)) : Keeps s0 (s.closeRun c cause) := by
  unfold State.closeRun
  split
  · exact h
  · split
    · exact h
    · simp only
      have h1 : ∀ (l : List Nat) {u : State}, Keeps s0 u →
          Keeps s0 ((u.unpinAll c l).modChan c (fun ch => { ch with run := none })) :=
        fun l _ hu => keeps_clearRun (keeps_unpinAll c l hu) c none
      split
      · split
        · exact keeps_resolveChan (h1 _ (keeps_writeAsRun h _)) c
        · exact keeps_resolveChan (h1 _ h) c
      · split
        · exact h1 _ (keeps_writeAsRun h _)
        · exact h1 _ h

end Sys2Proof.Machine
end

