-- ==== Sys2Proof/Laws/ClaimsOnly.lean ====
section
/-! SUPPORT. What a takeover check, a pass, a re-keying and a yield can change: claims alone, said once as `State.ClaimsOnly`. -/

namespace Sys2Proof.Machine

variable {s t u : State}

/-- The takeover record but for the fields that claiming changes. -/
def TakeoverRec.besideClaim (tk : TakeoverRec) : TakeoverRec :=
  { tk with state := .idle, ownClaim := none, claimSent := false, windowEnd := none, yieldDl := none, outlet := none }

theorem State.ClaimsOnly.refl (s : State) : s.ClaimsOnly s :=
  ⟨rfl, rfl, fun _ _ h _ => h, fun _ => rfl, fun _ _ _ => rfl, fun _ h => h⟩

theorem State.ClaimsOnly.trans (h : s.ClaimsOnly t) (k : t.ClaimsOnly u) : s.ClaimsOnly u where
  rest := by rw [k.rest, h.rest]
  chans := k.chans.trans h.chans
  held := fun c ch x y => k.held c ch (h.held c ch x y) y
  outlets := fun o => (k.outlets o).trans (h.outlets o)
  busy := fun o x y => by
    have e := h.busy o x y
    exact (k.busy o (by rw [e]; exact x) (by rw [e]; exact y)).trans e
  spare := fun o x => k.spare o (h.spare o x)

/-- A change of the transmit queue, the frame under attempt and the drop count. -/
theorem claimsOnly_bus (s : State) (q : List Frame) (a : Option Attempt) (n : Nat) :
    s.ClaimsOnly { s with bus := { s.bus with queue := q, attempt := a, drops := n } } :=
  ⟨rfl, rfl, fun _ _ h _ => h, fun _ => rfl, fun _ _ _ => rfl, fun _ h => h⟩

/-- A change of claim fields in the record of a channel that is not held. -/
theorem claimsOnly_modTk (s : State) (c : Channel) (f : TakeoverRec → TakeoverRec)
    (hf : ∀ tk, (f tk).besideClaim = tk.besideClaim)
    (hc : ∀ ch, s.chan? c = some ch → ch.tk.state.holding = false ∧ ch.tk.state ≠ .detached) :
    s.ClaimsOnly (s.modTk c f) where
  rest := rfl
  chans := by
    unfold State.modTk State.modChan
    simp only [List.map_map]
    refine List.map_congr_left (fun e _ => ?_)
    simp only [Function.comp]
    split
    · have := hf e.tk
      unfold TakeoverRec.besideClaim at this
      unfold Chan.besideClaim
      simp only [this]
    · rfl
  held := by
    intro d ch hd hs
    by_cases e : d = c
    · subst e
      have := hc ch hd
      rcases hs with hs | hs
      · rw [this.1] at hs; cases hs
      · exact absurd hs this.2
    · unfold State.modTk
      rw [chan?_modChan_ne (by intro _; rfl) e]; exact hd
  outlets := fun _ => rfl
  busy := fun _ _ _ => rfl
  spare := fun _ h => h

theorem claimsOnly_offerFrame (s : State) (f : Frame) : s.ClaimsOnly (s.offerFrame f) := by
  unfold State.offerFrame State.enqueueBy State.setQueue State.countDrop
  dsimp only
  repeat' split
  all_goals exact claimsOnly_bus s _ s.bus.attempt _

theorem claimsOnly_withdrawClaim (s : State) (c : Channel) : s.ClaimsOnly (s.withdrawClaim c) :=
  claimsOnly_bus s _ _ s.bus.drops

theorem claimsOnly_offerClaim (s : State) (c : Channel) (k : Key) : s.ClaimsOnly (s.offerClaim c k) :=
  claimsOnly_offerFrame s _

/-- A change of the reservation of an outlet that is FREE or RESERVED before and after. -/
theorem claimsOnly_modOutlet (s : State) (o : OutletNo) (f : Outlet → Outlet)
    (hf : (f (s.outlet o)).besideReservation = (s.outlet o).besideReservation)
    (hb : (s.outlet o).state ≠ .free → (s.outlet o).state ≠ .reserved → f (s.outlet o) = s.outlet o)
    (hs : (s.outlet o).state = .free ∨ (s.outlet o).state = .reserved →
      (f (s.outlet o)).state = .free ∨ (f (s.outlet o)).state = .reserved) : s.ClaimsOnly (s.modOutlet o f) where
  rest := rfl
  chans := rfl
  held := fun _ _ h _ => h
  outlets := by
    intro p
    rw [outlet_modOutlet]
    split
    · rename_i e; subst e; exact hf
    · rfl
  busy := by
    intro p h1 h2
    rw [outlet_modOutlet]
    split
    · rename_i e; subst e; exact hb h1 h2
    · rfl
  spare := by
    intro p h
    rw [outlet_modOutlet]
    split
    · rename_i e; subst e; exact hs h
    · exact h

theorem claimsOnly_reserveOutlet {s : State} {o : OutletNo} (ho : (s.outlet o).state = .free) (c : Channel) :
    s.ClaimsOnly (s.reserveOutlet o c) :=
  claimsOnly_modOutlet s o _ rfl (fun h => absurd ho h) (fun _ => Or.inr rfl)

theorem claimsOnly_unreserve (s : State) (o : OutletNo) : s.ClaimsOnly (s.unreserve o) := by
  refine claimsOnly_modOutlet s o _ ?_ ?_ ?_
  · split <;> rfl
  · intro _ h; rw [if_neg h]
  · intro h
    split
    · exact Or.inl rfl
    · exact h

theorem unreserve_chans (s : State) (o : OutletNo) : (s.unreserve o).chans = s.chans := rfl
theorem withdrawClaim_chans (s : State) (c : Channel) : (s.withdrawClaim c).chans = s.chans := rfl

theorem claimsOnly_leaveContending (s : State) (c : Channel) (n : TakeoverState)
    (hc : ∀ ch, s.chan? c = some ch → ch.tk.state.holding = false ∧ ch.tk.state ≠ .detached) :
    s.ClaimsOnly (s.leaveContending c n) := by
  unfold State.leaveContending
  split
  · exact State.ClaimsOnly.refl s
  · dsimp only
    split
    · exact ((claimsOnly_withdrawClaim s c).trans (claimsOnly_unreserve _ _)).trans
        (claimsOnly_modTk _ c _ (by intro _; rfl) hc)
    · exact (claimsOnly_withdrawClaim s c).trans (claimsOnly_modTk _ c _ (by intro _; rfl) hc)

/-- Leaving CONTENDING sets the channel's state. -/
theorem leaveContending_chan? (s : State) (c : Channel) (n : TakeoverState) :
    (s.leaveContending c n).chan? c = (s.chan? c).map (fun ch => { ch with tk := { ch.tk with
      state := n, outlet := none, ownClaim := none, claimSent := false, windowEnd := none } }) := by
  unfold State.leaveContending
  split
  · rename_i h; rw [h]; rfl
  · dsimp only
    have hw : ∀ s : State, (s.withdrawClaim c).chan? c = s.chan? c := fun _ => rfl
    have hu : ∀ (s : State) o, (s.unreserve o).chan? c = s.chan? c := fun _ _ => rfl
    unfold State.modTk
    rw [chan?_modChan (by intro _; rfl)]
    split
    · rw [hu, hw]
    · rw [hw]

theorem modTk_chan? (s : State) (c : Channel) (f : TakeoverRec → TakeoverRec) :
    (s.modTk c f).chan? c = (s.chan? c).map (fun ch => { ch with tk := f ch.tk }) :=
  chan?_modChan (by intro _; rfl)

theorem claimsOnly_armYield (s : State) (c : Channel)
    (hc : ∀ ch, s.chan? c = some ch → ch.tk.state.holding = false ∧ ch.tk.state ≠ .detached) :
    s.ClaimsOnly (s.armYield c) := claimsOnly_modTk s c _ (by intro _; rfl) hc

/-- Leaving CONTENDING to YIELDED with the yield deadline armed. -/
theorem claimsOnly_yield (s : State) (c : Channel)
    (hc : ∀ ch, s.chan? c = some ch → ch.tk.state.holding = false ∧ ch.tk.state ≠ .detached) :
    s.ClaimsOnly ((s.leaveContending c .yielded).armYield c) := by
  refine (claimsOnly_leaveContending s c _ hc).trans (claimsOnly_armYield _ c ?_)
  intro ch h
  rw [leaveContending_chan?] at h
  cases h0 : s.chan? c with
  | none => rw [h0] at h; cases h
  | some d => rw [h0] at h; cases h; exact ⟨rfl, nofun⟩

theorem claimsOnly_enterContending {s : State} (ch : Chan) {o : OutletNo} (ho : (s.outlet o).state = .free) (k : Key)
    (hc : ∀ d, s.chan? ch.part.channel = some d → d.tk.state.holding = false ∧ d.tk.state ≠ .detached) :
    s.ClaimsOnly (s.enterContending ch o k).1 := by
  unfold State.enterContending
  simp only
  have h1 := (claimsOnly_reserveOutlet ho ch.part.channel).trans
    (claimsOnly_modTk (s.reserveOutlet o ch.part.channel) ch.part.channel
      (fun tk => { tk with state := .contending, outlet := some o, ownClaim := some k, claimSent := false, windowEnd := none })
      (by intro _; rfl) hc)
  split
  · refine h1.trans (claimsOnly_yield _ _ ?_)
    intro d hd
    rw [modTk_chan?] at hd
    cases h0 : (s.reserveOutlet o ch.part.channel).chan? ch.part.channel with
    | none => rw [h0] at hd; cases hd
    | some e => rw [h0] at hd; cases hd; exact ⟨rfl, nofun⟩
  · exact h1.trans (claimsOnly_offerClaim _ _ _)

theorem checked_not_held {st : TakeoverState} (h : st.checked = true) : st.holding = false ∧ st ≠ .detached := by
  cases st <;> first | exact absurd h (by decide) | exact ⟨rfl, by simp⟩

theorem claimsOnly_checkChannel (s : State) (c : Channel) : s.ClaimsOnly (s.checkChannel c).1 := by
  unfold State.checkChannel
  split
  · exact State.ClaimsOnly.refl s
  · rename_i ch h0
    split
    · exact State.ClaimsOnly.refl s
    · rename_i hck
      have hk : ∀ d, s.chan? c = some d → d.tk.state.holding = false ∧ d.tk.state ≠ .detached := by
        intro d hd; rw [h0] at hd; cases hd; exact checked_not_held (by simpa using hck)
      split
      · dsimp only; exact claimsOnly_modTk s c _ (by intro _; rfl) hk
      · dsimp only; exact claimsOnly_modTk s c _ (by intro _; rfl) hk
      · dsimp only; exact claimsOnly_modTk s c _ (by intro _; rfl) hk
      · rename_i ho
        exact claimsOnly_enterContending ch (freeOutlet_free (checkOutcome_contend ho)) _
          (by rw [chan?_channel h0]; exact hk)

theorem claimsOnly_checkAll (l : List Channel) : ∀ s : State, s.ClaimsOnly (s.checkAll l).1 := by
  induction l with
  | nil => exact fun s => State.ClaimsOnly.refl s
  | cons c rest ih => exact fun s => (claimsOnly_checkChannel s c).trans (ih _)

theorem claimsOnly_passes (n : Nat) : ∀ s : State, s.ClaimsOnly (State.passes n s) := by
  induction n with
  | zero => exact fun s => State.ClaimsOnly.refl s
  | succ n ih =>
    intro s
    unfold State.passes
    simp only
    split
    · exact (claimsOnly_checkAll _ s).trans (ih _)
    · exact claimsOnly_checkAll _ s

theorem claimsOnly_pass (s : State) : s.ClaimsOnly s.pass := claimsOnly_passes _ s

theorem claimsOnly_check (s : State) (c : Channel) : s.ClaimsOnly (s.check c) := by
  unfold State.check
  simp only
  split
  · exact (claimsOnly_checkChannel s c).trans (claimsOnly_pass _)
  · exact claimsOnly_checkChannel s c

theorem claimsOnly_rekeyOne (s : State) (c : Channel) : s.ClaimsOnly (s.rekeyOne c).1 := by
  unfold State.rekeyOne
  split
  · exact State.ClaimsOnly.refl s
  · rename_i ch h0
    split
    · exact State.ClaimsOnly.refl s
    · rename_i hct
      have hk : ∀ d, s.chan? c = some d → d.tk.state.holding = false ∧ d.tk.state ≠ .detached := by
        intro d hd; rw [h0] at hd; cases hd
        have : ch.tk.state = .contending := by simpa [Chan.contending] using hct
        rw [this]; exact ⟨rfl, nofun⟩
      split
      · exact State.ClaimsOnly.refl s
      · split
        · exact State.ClaimsOnly.refl s
        · split
          · exact claimsOnly_yield s c hk
          · exact (claimsOnly_modTk s c _ (by intro _; rfl) hk).trans (claimsOnly_offerClaim _ _ _)

theorem claimsOnly_rekeyAll (l : List Channel) : ∀ s : State, s.ClaimsOnly (s.rekeyAll l).1 := by
  induction l with
  | nil => exact fun s => State.ClaimsOnly.refl s
  | cons c rest ih => exact fun s => (claimsOnly_rekeyOne s c).trans (ih _)

theorem claimsOnly_timeClassChanged (s : State) : s.ClaimsOnly s.timeClassChanged := by
  unfold State.timeClassChanged
  simp only
  split
  · exact (claimsOnly_rekeyAll _ s).trans (claimsOnly_pass _)
  · exact claimsOnly_rekeyAll _ s

theorem claimsOnly_conditionChanged (s : State) (c : Channel) : s.ClaimsOnly (s.conditionChanged c) := by
  unfold State.conditionChanged
  split
  · exact State.ClaimsOnly.refl s
  · split
    · simp only
      split
      · exact (claimsOnly_rekeyOne s c).trans (claimsOnly_pass _)
      · exact claimsOnly_rekeyOne s c
    · exact claimsOnly_check s c

theorem claimsOnly_leaveAllContending (l : List Channel) : ∀ s : State, s.ClaimsOnly (s.leaveAllContending l) := by
  induction l with
  | nil => exact fun s => State.ClaimsOnly.refl s
  | cons c rest ih =>
    intro s
    unfold State.leaveAllContending
    refine State.ClaimsOnly.trans ?_ (ih _)
    split
    · rename_i ch h0
      split
      · rename_i hct
        refine claimsOnly_leaveContending s c _ (fun d hd => ?_)
        rw [h0] at hd; cases hd
        have : ch.tk.state = .contending := by simpa [Chan.contending] using hct
        rw [this]; exact ⟨rfl, nofun⟩
      · exact State.ClaimsOnly.refl s
    · exact State.ClaimsOnly.refl s

theorem claimsOnly_busLeftActive (s : State) : s.ClaimsOnly s.busLeftActive :=
  (claimsOnly_leaveAllContending _ s).trans (claimsOnly_pass _)

theorem claimsOnly_leaveYielded (s : State) (c : Channel)
    (hc : ∀ ch, s.chan? c = some ch → ch.tk.state = .yielded) : s.ClaimsOnly (s.leaveYielded c) :=
  (claimsOnly_modTk s c _ (by intro _; rfl) (fun ch h => by rw [hc ch h]; exact ⟨rfl, nofun⟩)).trans (claimsOnly_check _ c)

theorem claimsOnly_holderGone (s : State) (c : Channel) : s.ClaimsOnly (s.holderGone c) := by
  unfold State.holderGone
  split
  · exact State.ClaimsOnly.refl s
  · rename_i ch h0
    split
    · rename_i hy
      exact claimsOnly_leaveYielded s c (fun d hd => by rw [h0] at hd; cases hd; exact hy)
    · exact claimsOnly_check s c

/-! ## What follows -/

theorem State.ClaimsOnly.reports (h : s.ClaimsOnly t) : t.reports = s.reports := by rw [h.rest]
theorem State.ClaimsOnly.notices (h : s.ClaimsOnly t) : t.notices = s.notices := by rw [h.rest]
theorem State.ClaimsOnly.attn (h : s.ClaimsOnly t) : t.attn = s.attn := by rw [h.rest]
theorem State.ClaimsOnly.port (h : s.ClaimsOnly t) : t.port = s.port := by rw [h.rest]
theorem State.ClaimsOnly.tb (h : s.ClaimsOnly t) : t.tb = s.tb := by rw [h.rest]
theorem State.ClaimsOnly.feed (h : s.ClaimsOnly t) : t.feed = s.feed := by rw [h.rest]
theorem State.ClaimsOnly.cue (h : s.ClaimsOnly t) : t.cue = s.cue := by rw [h.rest]
theorem State.ClaimsOnly.mirrorReqs (h : s.ClaimsOnly t) : t.mirrorReqs = s.mirrorReqs := by rw [h.rest]
theorem State.ClaimsOnly.asrun (h : s.ClaimsOnly t) : t.asrun = s.asrun := by rw [h.rest]
theorem State.ClaimsOnly.poolFree (h : s.ClaimsOnly t) : t.poolFree = s.poolFree := by rw [h.rest]
theorem State.ClaimsOnly.station (h : s.ClaimsOnly t) : t.station = s.station := by rw [h.rest]
theorem State.ClaimsOnly.busCore (h : s.ClaimsOnly t) :
    t.bus = { s.bus with queue := t.bus.queue, attempt := t.bus.attempt, drops := t.bus.drops } := by
  conv_lhs => rw [h.rest]

/-- A channel's record stays but for its claim fields. -/
theorem State.ClaimsOnly.chan (h : s.ClaimsOnly t) (c : Channel) :
    (t.chan? c).map Chan.besideClaim = (s.chan? c).map Chan.besideClaim := by
  have key : ∀ l : List Chan, (l.find? (fun ch => ch.part.channel == c)).map Chan.besideClaim =
      (l.map Chan.besideClaim).find? (fun ch => ch.part.channel == c) := by
    intro l; rw [List.find?_map]; rfl
  unfold State.chan?
  rw [key, key, h.chans]

/-- Every channel's watch record stays. -/
theorem State.ClaimsOnly.sameWatches (h : s.ClaimsOnly t) : s.SameWatches t := by
  have e : ∀ l : List Chan, l.map (·.watch) = (l.map Chan.besideClaim).map (·.watch) := by
    intro l; rw [List.map_map]; rfl
  unfold State.SameWatches
  rw [e t.chans, e s.chans, h.chans]

/-! ## Channels a pass leaves alone -/

/-- A change of another channel's takeover record. -/
theorem modTk_chan?_ne (s : State) {c d : Channel} (f : TakeoverRec → TakeoverRec) (h : d ≠ c) :
    (s.modTk c f).chan? d = s.chan? d := chan?_modChan_ne (by intro _; rfl) h

theorem offerFrame_chan? (s : State) (f : Frame) (d : Channel) : (s.offerFrame f).chan? d = s.chan? d := by
  unfold State.offerFrame State.enqueueBy State.setQueue State.countDrop
  dsimp only
  repeat' split
  all_goals rfl

theorem leaveContending_chan?_ne (s : State) {c d : Channel} (n : TakeoverState) (h : d ≠ c) :
    (s.leaveContending c n).chan? d = s.chan? d := by
  unfold State.leaveContending
  split
  · rfl
  · dsimp only
    rw [modTk_chan?_ne _ _ h]
    split <;> rfl

/-- A check of one channel leaves every other channel's record as it is, and its own too unless it is IDLE or BLOCKED. -/
theorem checkChannel_other (s : State) {c d : Channel} {ch : Chan} (hd : s.chan? d = some ch)
    (hn : d = c → ch.tk.state.checked = false) : (s.checkChannel c).1.chan? d = some ch := by
  unfold State.checkChannel
  split
  · exact hd
  · rename_i e h0
    split
    · exact hd
    · rename_i hck
      have hne : d ≠ c := by
        intro x; subst x; rw [hd] at h0; cases h0
        rw [hn rfl] at hck; exact hck rfl
      split
      · rw [← hd]; exact modTk_chan?_ne _ _ hne
      · rw [← hd]; exact modTk_chan?_ne _ _ hne
      · rw [← hd]; exact modTk_chan?_ne _ _ hne
      · unfold State.enterContending
        have hc : e.part.channel = c := chan?_channel h0
        simp only [hc]
        have hr : ∀ o, (s.reserveOutlet o c).chan? d = s.chan? d := fun _ => rfl
        split
        · unfold State.armYield
          rw [modTk_chan?_ne _ _ hne, leaveContending_chan?_ne _ _ hne, modTk_chan?_ne _ _ hne, hr, hd]
        · unfold State.offerClaim
          rw [offerFrame_chan?, modTk_chan?_ne _ _ hne, hr, hd]

theorem checkAll_other (l : List Channel) : ∀ {s : State} {d : Channel} {ch : Chan}, s.chan? d = some ch →
    ch.tk.state.checked = false → (s.checkAll l).1.chan? d = some ch := by
  induction l with
  | nil => exact fun h _ => h
  | cons c rest ih => exact fun h hn => ih (checkChannel_other _ h (fun _ => hn)) hn

theorem passes_other (n : Nat) : ∀ {s : State} {d : Channel} {ch : Chan}, s.chan? d = some ch →
    ch.tk.state.checked = false → (State.passes n s).chan? d = some ch := by
  induction n with
  | zero => exact fun h _ => h
  | succ n ih =>
    intro s d ch h hn
    unfold State.passes
    simp only
    split
    · exact ih (checkAll_other _ h hn) hn
    · exact checkAll_other _ h hn

/-- A pass leaves a channel in no state but IDLE and BLOCKED as it is (R108). -/
theorem pass_other {s : State} {d : Channel} {ch : Chan} (h : s.chan? d = some ch) (hn : ch.tk.state.checked = false) :
    s.pass.chan? d = some ch := passes_other _ h hn

/-- A check leaves a channel in no state but IDLE and BLOCKED as it is (R108). -/
theorem check_other {s : State} {c d : Channel} {ch : Chan} (h : s.chan? d = some ch) (hn : ch.tk.state.checked = false) :
    (s.check c).chan? d = some ch := by
  unfold State.check
  simp only
  split
  · exact pass_other (checkChannel_other _ h (fun _ => hn)) hn
  · exact checkChannel_other _ h (fun _ => hn)

end Sys2Proof.Machine
end

