-- ==== Sys2Proof/Laws/Check.lean ====
section
/-! SUPPORT. What the takeover check does, said once as `State.Checked` (R109 to R111). -/

namespace Sys2Proof.Machine

theorem freeOutlet_none {s : State} (h : s.freeOutlet = none) (o : OutletNo) : (s.outlet o).state ≠ .free := by
  have := List.find?_eq_none.1 h o (List.mem_finRange o)
  simpa [Outlet.isFree] using this

theorem freeOutlet_some {s : State} {o : OutletNo} (ho : (s.outlet o).state = .free)
    (hm : ∀ p, (s.outlet p).state = .free → o ≤ p) : s.freeOutlet = some o := by
  unfold State.freeOutlet
  rw [show List.finRange 4 = [0, 1, 2, 3] from by decide]
  have hp : ∀ p : OutletNo, p < o → (s.outlet p).isFree = false := by
    intro p hlt
    cases hx : (s.outlet p).isFree with
    | false => rfl
    | true =>
      have := hm p (by simpa [Outlet.isFree] using hx)
      exact absurd hlt (not_lt.2 this)
  have h0 : (s.outlet o).isFree = true := by simpa [Outlet.isFree] using ho
  match o, h0, hp with
  | 0, h0, _ => simp [List.find?, h0]
  | 1, h0, hp => simp [List.find?, h0, hp 0 (by decide)]
  | 2, h0, hp => simp [List.find?, h0, hp 0 (by decide), hp 1 (by decide)]
  | 3, h0, hp => simp [List.find?, h0, hp 0 (by decide), hp 1 (by decide), hp 2 (by decide)]

theorem outbid_iff (s : State) (best : Option ForeignClaim) (k : Key) :
    best.any (fun f => f.beats s.now k) = true ↔ s.Outbid best k := by
  unfold State.Outbid ForeignClaim.beats before State.now
  cases best <;> simp

theorem offerFrame_outlet (s : State) (f : Frame) (o : OutletNo) : (s.offerFrame f).outlet o = s.outlet o := by
  unfold State.offerFrame State.enqueueBy State.setQueue State.countDrop
  dsimp only
  repeat' split
  all_goals rfl

/-- The queue, drop count and the rest of the bus controller after an offer depend on the bus controller alone. -/
theorem offerFrame_bus (s t : State) (f : Frame) (h : s.bus = t.bus) : (s.offerFrame f).bus = (t.offerFrame f).bus := by
  unfold State.offerFrame State.enqueueBy State.setQueue State.countDrop
  dsimp only
  rw [h]
  repeat' split
  all_goals rfl

/-- The check of a channel in IDLE or BLOCKED, by what R109 gives it. -/
theorem check_eq {s : State} {c : Channel} {ch : Chan} (h : s.chan? c = some ch) (hk : ch.tk.state.checked = true) :
    s.check c = match s.checkOutcome ch with
      | .idle => s.modTk c (fun tk => { tk with state := .idle })
      | .blocked r => s.modTk c (fun tk => { tk with state := .blocked r })
      | .yielded => s.modTk c (fun tk => { tk with state := .yielded, yieldDl := none })
      | .contend o k => if (s.enterContending ch o k).2 then (s.enterContending ch o k).1.pass
          else (s.enterContending ch o k).1 := by
  unfold State.check State.checkChannel
  rw [h]
  simp only [hk, Bool.not_true, Bool.false_eq_true, if_false]
  cases s.checkOutcome ch <;> rfl

/-- A CONTENDING channel that a better foreign claim makes yield at once (R111). -/
theorem enterContending_outbid {s : State} {c : Channel} {ch : Chan} (h : s.chan? c = some ch) (o : OutletNo) (k : Key)
    (hb : s.Outbid ch.tk.best k) :
    (s.enterContending ch o k).2 = true ∧ (s.enterContending ch o k).1.chan? c = some { ch with tk := { ch.tk with
      state := .yielded, outlet := none, ownClaim := none, claimSent := false, windowEnd := none
      yieldDl := some (s.tb.now + BitVec.ofNat 48 (2 * (s.sp.claimWindow * 240))) } } := by
  have hc : ch.part.channel = c := chan?_channel h
  have hb' := (outbid_iff s ch.tk.best k).2 hb
  unfold State.enterContending
  dsimp only
  rw [show ((s.reserveOutlet o ch.part.channel).modTk ch.part.channel (fun tk =>
    { tk with state := .contending, outlet := some o, ownClaim := some k, claimSent := false, windowEnd := none })).now = s.now
    from rfl, if_pos hb']
  refine ⟨rfl, ?_⟩
  unfold State.armYield
  rw [hc, modTk_chan?, leaveContending_chan?, modTk_chan?, show (s.reserveOutlet o c).chan? c = s.chan? c from rfl, h]
  have e := (claimsOnly_leaveContending ((s.reserveOutlet o c).modTk c (fun tk =>
    { tk with state := .contending, outlet := some o, ownClaim := some k, claimSent := false, windowEnd := none })) c .yielded
    (by
      intro d hd
      rw [modTk_chan?, show (s.reserveOutlet o c).chan? c = s.chan? c from rfl, h] at hd
      cases hd; exact ⟨rfl, nofun⟩))
  simp only [Option.map_some]
  have e1 := e.tb
  have e2 := e.station
  simp only [State.now, State.memorySpan, State.sp, e1, e2]
  rfl

/-- A channel that no better foreign claim stops contends with its outlet reserved and its CLAIM offered (R110, R111). -/
theorem enterContending_free {s : State} {c : Channel} {ch : Chan} (h : s.chan? c = some ch) (o : OutletNo) (k : Key)
    (hb : ¬ s.Outbid ch.tk.best k) :
    (s.enterContending ch o k).2 = false ∧
    (s.enterContending ch o k).1.chan? c = some { ch with tk := { ch.tk with
      state := .contending, outlet := some o, ownClaim := some k, claimSent := false, windowEnd := none } } ∧
    (s.enterContending ch o k).1.outlet o = { s.outlet o with state := .reserved, channel := some c } ∧
    (s.enterContending ch o k).1.bus = (s.offerFrame ⟨k.merit, s.bus.own, .claim c⟩).bus := by
  have hc : ch.part.channel = c := chan?_channel h
  have hb' := mt (outbid_iff s ch.tk.best k).1 hb
  unfold State.enterContending
  dsimp only
  rw [show ((s.reserveOutlet o ch.part.channel).modTk ch.part.channel (fun tk =>
    { tk with state := .contending, outlet := some o, ownClaim := some k, claimSent := false, windowEnd := none })).now = s.now
    from rfl, if_neg hb', hc]
  refine ⟨rfl, ?_, ?_, ?_⟩
  · unfold State.offerClaim
    rw [offerFrame_chan?, modTk_chan?, show (s.reserveOutlet o c).chan? c = s.chan? c from rfl, h]
    rfl
  · unfold State.offerClaim
    rw [offerFrame_outlet]
    show ((s.reserveOutlet o c)).outlet o = _
    unfold State.reserveOutlet
    rw [outlet_modOutlet]
    simp
  · exact offerFrame_bus _ _ _ rfl

/-- The takeover check for one channel in IDLE or BLOCKED does what R109 to R111 say, its passes being what `hr` says. -/
theorem check_checked_of {s : State} {c : Channel} {ch : Chan} (h : s.chan? c = some ch) (hk : ch.tk.state.checked = true)
    (hr : s.CheckRun (s.check c) c ch) : s.Checked (s.check c) c ch where
  run := hr
  claims := claimsOnly_check s c
  outcome := by
    have hc : ch.part.channel = c := chan?_channel h
    obtain ⟨x, hx⟩ : ∃ x, (s.check c).chan? c = some x := by
      have := (claimsOnly_check s c).chan c
      rw [h] at this
      cases hx : (s.check c).chan? c with
      | none => rw [hx] at this; simp at this
      | some x => exact ⟨x, rfl⟩
    refine ⟨x, hx, ?_, ?_⟩
    · intro hr
      have ho : s.checkOutcome ch = .idle := by
        unfold State.checkOutcome
        rcases hr with hr | hr <;> simp [hr]
      rw [check_eq h hk, ho] at hx
      simp only [modTk_chan?, h, Option.map_some, Option.some.injEq] at hx
      rw [← hx]
    · intro hr hw
      refine ⟨fun ha => ?_, fun ha hb => ?_, fun ha hb => ⟨fun hi => ?_, fun hi hh => ?_, fun hi hh => ⟨fun hm => ?_, fun m hm => ⟨fun hf => ?_, fun o hof hol => ⟨fun hbid => ?_, fun hbid => ?_⟩⟩⟩⟩⟩
      case refine_1 | refine_2 | refine_3 | refine_4 | refine_5 =>
        all_goals
          rw [check_eq h hk] at hx
          unfold State.checkOutcome at hx
          simp_all [State.claimKey, State.merit, modTk_chan?, Condition.mirrorClass, Option.isSome_iff_ne_none]
          try rw [← hx]
      case refine_6 =>
        have hn : s.freeOutlet = none := by
          cases hfo : s.freeOutlet with
          | none => rfl
          | some o => exact absurd (freeOutlet_free hfo) (hf o)
        rw [check_eq h hk] at hx
        unfold State.checkOutcome at hx
        simp_all [State.claimKey, State.merit, modTk_chan?]
        rw [← hx]
      all_goals
        have ho : s.checkOutcome ch = .contend o (s.keyFor ch m) := by
          unfold State.checkOutcome
          simp [hr, hw, ha, hb, hi, hh, State.claimKey, State.merit, hm, freeOutlet_some hof hol, State.keyFor, meritOf]
        have hck := check_eq h hk
        rw [ho] at hck
      case refine_7 =>
        have e := enterContending_outbid h o _ hbid
        simp only [e.1, if_true] at hck
        rw [hck, pass_other e.2 rfl] at hx
        rw [← Option.some.inj hx]
      case refine_8 =>
        have e := enterContending_free h o _ hbid
        simp only [e.1, Bool.false_eq_true, if_false] at hck
        rw [hck] at hx ⊢
        rw [e.2.1] at hx
        exact ⟨by rw [← Option.some.inj hx], e.2.2.1, e.2.2.2⟩

end Sys2Proof.Machine
end

