-- ==== Sys2Proof/Laws/KeepsRun.lean ====
section
/-! SUPPORT. `Keeps` for the operations of the outlet controller and the runner. -/

namespace Sys2Proof.Machine

variable {s0 s : State}

/-! ## Outlets -/

theorem keeps_faultOutlet (h : Keeps s0 s) (o : OutletNo) (k : CmdKind) (f : Failure) : Keeps s0 (s.faultOutlet o k f) :=
  keeps_modOutlet_settle h o _ ⟨fun _ => by simp, fun _ => by simp, by simp, id⟩

theorem keeps_joinFailed (h : Keeps s0 s) (c : Channel) (o : OutletNo) (f : Failure) : Keeps s0 (s.joinFailed c o f) := by
  have h1 := keeps_faultOutlet h o .prep f
  unfold State.joinFailed
  simp only
  split
  · exact h
  · split
    · exact h
    · refine keeps_check (keeps_modTk (keeps_closeRun (keeps_raise ?_ _ _ _) _ _) _ _) _
      split
      · exact keeps_offerRelease h1 _ _ _
      · exact h1

theorem keeps_setOutcome (h : Keeps s0 s) (o : OutletNo) (x : StopOutcome) :
    Keeps s0 (s.modOutlet o (fun y => { y with armed := y.armed.map (fun a => { a with outcome := x }) })) :=
  keeps_modOutlet h o _ ⟨id, id, Nat.le_refl _, id⟩ rfl

theorem keeps_stopFailed (h : Keeps s0 s) (o : OutletNo) (f : Failure) : Keeps s0 (s.stopFailed o f) := by
  unfold State.stopFailed
  simp only
  split
  · exact keeps_faultOutlet (keeps_setOutcome h o _) _ _ _
  · exact keeps_setOutcome h o _

theorem keeps_failCmd (h : Keeps s0 s) (o : OutletNo) (cmd : Cmd) (orphaned : Bool) (f : Failure) :
    Keeps s0 (s.failCmd o cmd orphaned f) := by
  have h1 := keeps_raise h .cueFault (outletByte o) (.cueFault (cmdKind cmd) f)
  unfold State.failCmd
  simp only
  split
  · exact h1
  · split
    · exact h1
    · split
      · exact keeps_stopFailed h1 _ _
      · exact h1
    · split
      · exact h1
      · split
        · exact keeps_joinFailed h1 _ _ _
        · exact keeps_reports h1 _

theorem keeps_offerCmd (h : Keeps s0 s) (o : OutletNo) (cmd : Cmd) : Keeps s0 (s.offerCmd o cmd) := by
  unfold State.offerCmd
  simp only
  split
  · exact h
  · split
    · rename_i hl
      refine keeps_modOutlet_settle h o _ ⟨id, fun _ => ?_, Nat.le_refl _, id⟩
      simp only [List.length_append, List.length_cons, List.length_nil]
      have : (s.outlet o).queue.length < 4 := hl
      omega
    · exact keeps_failCmd h _ _ _ _

theorem sendable_map (x : Outlet) (f : Cmd → Cmd) (a : Option ArmedStop) (u : Option Outstanding)
    (hu : u.isNone = x.outstanding.isNone) :
    ({ x with queue := x.queue.map f, armed := a, outstanding := u } : Outlet).sendable = x.sendable := by
  simp [Outlet.sendable, hu]

theorem keeps_requestStop (h : Keeps s0 s) (o : OutletNo) (t : Time) : Keeps s0 (s.requestStop o t) := by
  unfold State.requestStop
  simp only
  have h1 : Keeps s0 (s.modOutlet o (fun x =>
    { x with armed := some { at_ := t, outcome := .pending }
             outstanding := x.outstanding.map (fun u => { u with cmd := u.cmd.undecide }) })) :=
    keeps_modOutlet h o _ ⟨id, id, Nat.le_refl _, id⟩ (by simp [Outlet.sendable])
  split
  · refine keeps_modOutlet h1 o _ ⟨id, fun hq => ?_, Nat.le_refl _, id⟩ (by simp [Outlet.sendable])
    simpa using hq
  · exact keeps_offerCmd h1 _ _

theorem keeps_withdrawStop (h : Keeps s0 s) (o : OutletNo) : Keeps s0 (s.withdrawStop o) := by
  refine keeps_modOutlet_settle h o _ ⟨id, fun hq => ?_, Nat.le_refl _, id⟩
  exact (List.length_filter_le _ _).trans hq

theorem keeps_toStopping (h : Keeps s0 s) (o : OutletNo) (spare : Cmd → Bool) : Keeps s0 (s.toStopping o spare) :=
  keeps_modOutlet_settle h o _ ⟨fun _ => by simp, fun _ => by simp, by simp, id⟩

theorem keeps_stopNow (h : Keeps s0 s) (o : OutletNo) : Keeps s0 (s.stopNow o) := by
  unfold State.stopNow
  split
  · exact keeps_requestStop (keeps_toStopping h _ _) _ _
  · exact keeps_requestStop (keeps_toStopping h _ _) _ _
  · exact h

/-- A STOPPING outlet becomes FREE, its air output deasserted already. -/
theorem keeps_free_stopped (h : Keeps s0 s) {o : OutletNo} (ho : (s.outlet o).state = .stopping) :
    Keeps s0 (s.modOutlet o (fun x => { x with state := .free, armed := none })) := by
  refine keeps_modOutlet h o _ ⟨fun ha => ?_, id, Nat.le_refl _, id⟩ rfl
  simp only [ho] at ha
  simpa using ha

theorem keeps_freeStopped (h : Keeps s0 s) {o : OutletNo} (ho : (s.outlet o).state = .stopping) :
    Keeps s0 (s.freeStopped o) := keeps_pass (keeps_free_stopped h ho)

theorem toStopping_state (s : State) (o : OutletNo) (spare : Cmd → Bool) :
    ((s.toStopping o spare).outlet o).state = .stopping := by
  unfold State.toStopping; rw [settleOrder_outlet, outlet_modOutlet_self]

theorem keeps_endOfAir (h : Keeps s0 s) (o : OutletNo) : Keeps s0 (s.endOfAir o).1 := by
  have h1 := keeps_toStopping h o Cmd.isDeciding
  unfold State.endOfAir
  simp only
  repeat' split
  · exact keeps_requestStop h1 _ _
  · exact keeps_faultOutlet h1 _ _ _
  · exact h1
  · exact keeps_free_stopped h1 (toStopping_state _ _ _)
  · exact h1
  · exact h

/-! ## Items -/

theorem keeps_setHold (h : Keeps s0 s) (c : Channel) (x : Option EventId) : Keeps s0 (s.setHold c x) := keeps_modRun h _ _

theorem keeps_releaseItem (h : Keeps s0 s) (c : Channel) (it : Item) : Keeps s0 (s.releaseItem c it) := by
  unfold State.releaseItem
  split
  · exact h
  · simp only
    split
    · exact h
    · exact keeps_unpin h _ _

theorem keeps_pinItem (h : Keeps s0 s) (c : Channel) (it : Item) : Keeps s0 (s.pinItem c it) := by
  unfold State.pinItem
  split
  · exact h
  · exact keeps_pin h _ _

theorem keeps_setCued (h : Keeps s0 s) (c : Channel) (it : Item) : Keeps s0 (s.setCued c it) :=
  keeps_pinItem (keeps_modRun (keeps_serial h _) _ _) _ _

theorem keeps_setGo (h : Keeps s0 s) (c : Channel) (it : Item) : Keeps s0 (s.setGo c it) :=
  keeps_pinItem (keeps_modRun (keeps_serial h _) _ _) _ _

theorem keeps_dropCued (h : Keeps s0 s) (c : Channel) : Keeps s0 (s.dropCued c) := by
  unfold State.dropCued
  split
  · exact h
  · exact keeps_releaseItem (keeps_modRun h _ _) _ _

theorem keeps_dropGo (h : Keeps s0 s) (c : Channel) : Keeps s0 (s.dropGo c) := by
  unfold State.dropGo
  split
  · exact h
  · exact keeps_releaseItem (keeps_modRun h _ _) _ _

theorem keeps_settleSide (h : Keeps s0 s) (c : Channel) (p : ItemPlace) : Keeps s0 (s.settleSide c p) := by
  unfold State.settleSide
  split
  · exact h
  · split
    · exact h
    · split
      · exact h
      · simp only
        split
        · exact keeps_offerCmd (keeps_modRun h _ _) _ _
        · exact keeps_modRun h _ _

theorem keeps_settleDueSides (c : Channel) (p : ItemPlace) (n : Nat) :
    ∀ {s : State}, Keeps s0 s → Keeps s0 (s.settleDueSides c p n) := by
  induction n with
  | zero => exact fun h => h
  | succ n ih =>
    intro s h
    unfold State.settleDueSides
    split
    · exact ih (keeps_settleSide h _ _)
    · exact h

theorem keeps_lockItem (h : Keeps s0 s) (c : Channel) (p : ItemPlace) (j : Bool) : Keeps s0 (s.lockItem c p j) := by
  unfold State.lockItem
  repeat' split
  all_goals first
    | exact h
    | exact keeps_settleDueSides _ _ _ (keeps_offerCmd (keeps_modRun h _ _) _ _)

/-! ## Choosing -/

theorem keeps_cueJoin (h : Keeps s0 s) (c : Channel) (ch : Chan) (r : RunRec) (j : JoinResult) :
    Keeps s0 (s.cueJoin c ch r j) := by
  unfold State.cueJoin
  split
  · exact h
  · exact keeps_lockItem (keeps_setCued (keeps_setHold h _ _) _ _) _ _ _

theorem keeps_lateCue (h : Keeps s0 s) (c : Channel) (ch : Chan) (r : RunRec) : Keeps s0 (s.lateCue c ch r) := by
  unfold State.lateCue
  split
  · split
    · exact keeps_setHold h _ _
    · exact keeps_cueJoin h _ _ _ _
  · exact keeps_cueJoin h _ _ _ _

theorem keeps_takeChoice (h : Keeps s0 s) (c : Channel) (ch : Chan) (r : RunRec) (it : Item) (x : Option EventId) :
    Keeps s0 (s.takeChoice c ch r it x) := by
  unfold State.takeChoice
  simp only
  repeat' split
  · exact h
  · exact keeps_lateCue h _ _ _
  · exact keeps_lockItem (keeps_setCued (keeps_setHold h _ _) _ _) _ _ _
  · exact keeps_modRun (keeps_setCued (keeps_setHold h _ _) _ _) _ _

theorem keeps_chooseBehindFiller (h : Keeps s0 s) (c : Channel) (ch : Chan) (r : RunRec) (e : Time) :
    Keeps s0 (s.chooseBehindFiller c ch r e) := by
  unfold State.chooseBehindFiller
  split
  · exact keeps_setHold h _ _
  · exact keeps_takeChoice h _ _ _ _ _
  · exact keeps_takeChoice h _ _ _ _ _
  · exact keeps_lateCue h _ _ _

theorem keeps_chooseFrom (h : Keeps s0 s) (c : Channel) (ch : Chan) (r : RunRec) (e : Time) :
    Keeps s0 (s.chooseFrom c ch r e) := by
  unfold State.chooseFrom
  split
  · exact keeps_takeChoice h _ _ _ _ _
  · exact keeps_takeChoice h _ _ _ _ _
  · exact keeps_takeChoice h _ _ _ _ _
  · exact keeps_lateCue h _ _ _

theorem keeps_choose (h : Keeps s0 s) (c : Channel) (t : Option Time) : Keeps s0 (s.choose c t) := by
  unfold State.choose
  repeat' split
  · exact h
  · exact h
  · exact h
  · exact keeps_chooseBehindFiller h _ _ _ _
  · exact h
  · exact keeps_chooseFrom h _ _ _ _

theorem keeps_chooseLate (h : Keeps s0 s) (c : Channel) : Keeps s0 (s.chooseLate c) := by
  unfold State.chooseLate
  repeat' split
  · exact h
  · exact h
  · exact keeps_lateCue h _ _ _

theorem tends_chooseIfNone (h : Tends s0 s) (c : Channel) : Tends s0 (s.chooseIfNone c) := by
  unfold State.chooseIfNone
  split
  · exact (tends_serveAll h).keeps (keeps_choose (Keeps.refl _) _ _)
  · exact h

/-- Where nothing waits for the mirror, a choice keeps what it holds. -/
theorem keeps_chooseIfNone (h : Keeps s0 s) (hq : s0.mirrorReqs = []) (c : Channel) : Keeps s0 (s.chooseIfNone c) := by
  unfold State.chooseIfNone
  rw [serveAll_of_nil (h.reqs.trans hq)]
  split
  · exact keeps_choose h _ _
  · exact h

theorem keeps_dropLostHold (h : Keeps s0 s) (c : Channel) : Keeps s0 (s.dropLostHold c) := by
  unfold State.dropLostHold
  repeat' split
  · exact h
  · exact h
  · exact h
  · exact keeps_setHold h _ _

theorem keeps_listChanged (h : Keeps s0 s) (c : Channel) : Keeps s0 (s.listChanged c) := by
  unfold State.listChanged
  split
  · exact h
  · split
    · exact h
    · have h1 := keeps_dropLostHold h c
      have h2 := keeps_choose (keeps_dropCued h1 c) c none
      simp only
      repeat' split
      · exact keeps_choose h1 _ _
      · exact h1
      · exact h1
      · exact h2
      · exact h2

theorem keeps_afterChange (h : Keeps s0 s) (c : Channel) : Keeps s0 (s.afterChange c) :=
  keeps_listChanged (keeps_resolveChan h c) c

/-! ## Starts and failures -/

theorem tends_cuedStarts (h : Tends s0 s) (c : Channel) (ch : Chan) (r : RunRec) (it : Item) (t : Time) (u : Bool) :
    Tends s0 (s.cuedStarts c ch r it t u) := by
  unfold State.cuedStarts
  simp only
  refine tends_chooseIfNone (tends_askSweep (h.keeps ?_) c) c
  split
  · exact keeps_modRun (Keeps.refl _) _ _
  · exact keeps_releaseItem (keeps_modRun (keeps_writeAsRun (Keeps.refl _) _) _ _) _ _

theorem tends_takeGoReport (h : Tends s0 s) (c : Channel) : Tends s0 (s.takeGoReport c) := by
  unfold State.takeGoReport
  repeat' split
  · exact h
  · exact h
  · exact tends_cuedStarts ((tends_mirrorTurn h _).keeps (keeps_modRun (Keeps.refl _) _ _)) _ _ _ _ _ _
  · exact h

theorem tends_itemStarted (h : Tends s0 s) (c : Channel) (n : Nat) (t : Time) (u : Bool) :
    Tends s0 (s.itemStarted c n t u) := by
  unfold State.itemStarted
  repeat' split
  · exact h
  · exact h
  · exact tends_takeGoReport (tends_cuedStarts h _ _ _ _ _ _) _
  · exact h.keeps (keeps_modRun (Keeps.refl _) _ _)
  · exact h

theorem keeps_replaceItem (h : Keeps s0 s) (c : Channel) (ch : Chan) (r : RunRec) (it : Item) :
    Keeps s0 (s.replaceItem c ch r it) := by
  unfold State.replaceItem
  simp only
  repeat' split
  · exact h
  · exact keeps_lockItem (keeps_setCued h _ _) _ _ _
  · exact keeps_chooseLate h _
  · exact h
  · exact keeps_lockItem (keeps_setCued h _ _) _ _ _

theorem tends_cuedFails (h : Tends s0 s) (c : Channel) (ch : Chan) (r : RunRec) (it : Item) :
    Tends s0 (s.cuedFails c ch r it) := by
  have h1 := h.keeps (keeps_releaseItem (keeps_modRun (keeps_writeAsRun (Keeps.refl _) (asRunMissed ch r it)) c (fun r =>
    { r with cued := r.goItem, goItem := none, cueMoment := none, cuedOrigin := r.goOrigin })) c it)
  unfold State.cuedFails
  simp only
  repeat' split
  · exact tends_takeGoReport h1 _
  · exact h1.keeps (keeps_replaceItem (Keeps.refl _) _ _ _ _)
  · exact h1.keeps (keeps_choose (Keeps.refl _) _ _)
  · exact h1

theorem keeps_goFails (h : Keeps s0 s) (c : Channel) (ch : Chan) (r : RunRec) (it : Item) :
    Keeps s0 (s.goFails c ch r it) := keeps_modRun (keeps_dropGo (keeps_writeAsRun h _) _) _ _

theorem tends_itemFailed (h : Tends s0 s) (c : Channel) (n : Nat) : Tends s0 (s.itemFailed c n) := by
  unfold State.itemFailed
  repeat' split
  · exact h
  · exact h
  · exact tends_cuedFails h _ _ _ _
  · exact h.keeps (keeps_goFails (Keeps.refl _) _ _ _ _)
  · exact h

/-! ## Stop requests and reports -/

theorem keeps_makeStop (h : Keeps s0 s) (c : Channel) : Keeps s0 (s.makeStop c) := by
  unfold State.makeStop
  repeat' split
  · exact h
  · exact keeps_modTk (keeps_requestStop h _ _) _ _
  · exact h

theorem keeps_retryStop (h : Keeps s0 s) (c : Channel) : Keeps s0 (s.retryStop c) := by
  unfold State.retryStop
  repeat' split
  · exact h
  · exact h
  · exact keeps_makeStop h _
  · exact h

theorem tends_takeReport (h : Tends s0 s) (x : ItemReport) : Tends s0 (s.takeReport x) := by
  have h1 := tends_mirrorTurn h x.channel
  unfold State.takeReport
  simp only
  refine Tends.keeps ?_ (keeps_retryStop (Keeps.refl _) _)
  repeat' split
  · exact tends_itemStarted h1 _ _ _ _
  · exact h1
  · exact tends_itemFailed h1 _ _

theorem tends_settleReports (n : Nat) : ∀ {s : State}, Tends s0 s → Tends s0 (State.settleReports n s) := by
  induction n with
  | zero => exact fun h => h.keeps (keeps_reports (Keeps.refl _) _)
  | succ n ih =>
    intro s h
    unfold State.settleReports
    split
    · exact h
    · exact ih (tends_takeReport (h.keeps (keeps_reports (Keeps.refl _) _)) _)

theorem tends_settle (h : Tends s0 s) : Tends s0 s.settle := tends_settleReports _ h

/-- Without a report that waits, settling does nothing. -/
theorem settle_of_nil {s : State} (h : s.reports = []) : s.settle = s := by
  unfold State.settle State.settleReports; simp only [h]

theorem keeps_openRun (h : Keeps s0 s) (c : Channel) (o : OutletNo) (t f : Time) : Keeps s0 (s.openRun c o t f) := by
  unfold State.openRun
  split
  · exact h
  · exact keeps_lockItem (keeps_setCued (keeps_setHold (keeps_clearRun h c _) _ _) _ _) _ _ _

/-! ## Handback -/

theorem keeps_limitCued (h : Keeps s0 s) (c : Channel) : Keeps s0 (s.limitCued c) := by
  unfold State.limitCued
  repeat' split
  · exact h
  · exact h
  · exact keeps_dropCued h _
  · exact h

theorem tends_enterHandback (h : Tends s0 s) (c : Channel) (x : Handback) : Tends s0 (s.enterHandback c x) :=
  (tends_mirrorTurn h c).keeps (keeps_limitCued (keeps_assertHold (keeps_modTk (Keeps.refl _) _ _) _) _)

theorem keeps_restoreCue (h : Keeps s0 s) (c : Channel) (a b : Time) : Keeps s0 (s.restoreCue c a b) := by
  unfold State.restoreCue
  split
  · exact h
  · split
    · exact h
    · rename_i r _
      simp only
      have h1 : Keeps s0 (if r.goItem.any (fun i => i.lockedAtOrAfter b) then s.dropGo c else s) := by
        split
        · exact keeps_dropGo h _
        · exact h
      generalize (if r.goItem.any (fun i => i.lockedAtOrAfter b) = true then s.dropGo c else s) = u at h1 ⊢
      have h2 : Keeps s0 (if r.cued.any (fun i => !i.locked || i.lockedAtOrAfter b) then u.dropCued c else u) := by
        split
        · exact keeps_dropCued h1 _
        · exact h1
      generalize (if r.cued.any (fun i => !i.locked || i.lockedAtOrAfter b) = true then u.dropCued c else u) = v at h2 ⊢
      have h3 := keeps_modRun h2 c (fun x => { x with walkOrigin := r.originAfter b })
      generalize (v.modRun c (fun x => { x with walkOrigin := r.originAfter b })) = w at h3 ⊢
      split
      · exact h3
      · split
        · exact h3
        · exact keeps_lockItem (keeps_setCued (keeps_setHold h3 _ _) _ _) _ _ _

theorem keeps_undoStop (h : Keeps s0 s) (c : Channel) (o : OutletNo) (x : Handback) : Keeps s0 (s.undoStop c o x) := by
  unfold State.undoStop
  simp only
  split
  · exact keeps_restoreCue (keeps_withdrawStop h _) _ _ _
  · exact keeps_withdrawStop h _

theorem tends_replaceHandback (h : Tends s0 s) (c : Channel) (a b : Time) (f : Bool) :
    Tends s0 (s.replaceHandback c a b f) := by
  have h1 := tends_mirrorTurn h c
  unfold State.replaceHandback
  simp only
  split
  · exact h1
  · split
    · repeat' split
      all_goals first
        | exact tends_chooseIfNone (h1.keeps (keeps_limitCued (keeps_undoStop (keeps_modTk (Keeps.refl _) _ _) _ _ _) _)) _
        | exact h1.keeps (keeps_limitCued (keeps_undoStop (keeps_modTk (Keeps.refl _) _ _) _ _ _) _)
        | exact tends_chooseIfNone (h1.keeps (keeps_limitCued (keeps_modTk (Keeps.refl _) _ _) _)) _
        | exact h1.keeps (keeps_limitCued (keeps_modTk (Keeps.refl _) _ _) _)
    · exact h1

theorem tends_cancelHandback (h : Tends s0 s) (c : Channel) : Tends s0 (s.cancelHandback c) := by
  have h1 := tends_mirrorTurn h c
  unfold State.cancelHandback
  split
  · exact h
  · split
    · exact h
    · split
      · exact h
      · simp only
        refine tends_chooseIfNone (Tends.keeps ?_ (keeps_assertHold (keeps_modTk (Keeps.refl _) _ _) _)) _
        split
        · exact h1.keeps (keeps_undoStop (Keeps.refl _) _ _ _)
        · exact h1

theorem tends_takeOffer (h : Tends s0 s) (c : Channel) (m : MainState) : Tends s0 (s.takeOffer c m) := by
  unfold State.takeOffer
  repeat' split
  all_goals first
    | exact h
    | exact h.keeps (keeps_raise (Keeps.refl _) _ _ _)
    | exact tends_enterHandback h _ _
    | exact tends_replaceHandback h _ _ _ _
    | exact tends_cancelHandback h _

/-- The takeover unit's own part of a watch report: all of it but the cancel of a handback. -/
theorem keeps_awaitLive (h : Keeps s0 s) (c : Channel) (w : WatchState) :
    Keeps s0 (if w = .lost then s else s.modTk c (fun tk => { tk with awaitLive := false })) := by
  split
  · exact h
  · exact keeps_modTk h _ _

theorem tends_watchReport (h : Tends s0 s) (c : Channel) (v w : WatchState) : Tends s0 (s.watchReport c v w) := by
  unfold State.watchReport
  simp only
  have h1 := h.keeps (keeps_awaitLive (Keeps.refl s) c w)
  generalize (if w = WatchState.lost then s else s.modTk c (fun tk => { tk with awaitLive := false })) = u at h1 ⊢
  repeat' split
  all_goals first
    | exact h1
    | exact h1.keeps (keeps_check (Keeps.refl _) _)
    | exact h1.keeps (keeps_pass (keeps_check (keeps_leaveContending (Keeps.refl _) _ _) _))
    | exact h1.keeps (keeps_leaveYielded (Keeps.refl _) _)
    | exact tends_cancelHandback h1 _

/-- Outside HANDING_BACK a watch report keeps what the mirror holds. -/
theorem keeps_watchReport (h : Keeps s0 s) {c : Channel} (hs : ∀ ch, s.chan? c = some ch → ch.tk.state ≠ .handingBack)
    (v w : WatchState) : Keeps s0 (s.watchReport c v w) := by
  unfold State.watchReport
  simp only
  have h1 := keeps_awaitLive h c w
  have h2 : ∀ ch, (if w = WatchState.lost then s else s.modTk c (fun tk => { tk with awaitLive := false })).chan? c = some ch →
      ch.tk.state ≠ .handingBack := by
    intro ch hc
    split at hc
    · exact hs ch hc
    · rw [State.modTk, chan?_modChan (by intro _; rfl)] at hc
      cases hs0 : s.chan? c with
      | none => rw [hs0] at hc; cases hc
      | some x => rw [hs0] at hc; cases hc; exact hs x hs0
  generalize (if w = WatchState.lost then s else s.modTk c (fun tk => { tk with awaitLive := false })) = u at h1 h2 ⊢
  repeat' split
  all_goals first
    | exact h1
    | exact keeps_check h1 _
    | exact keeps_pass (keeps_check (keeps_leaveContending h1 _ _) _)
    | exact keeps_leaveYielded h1 _
    | exact absurd (by assumption) (h2 _ (by assumption))

/-- The state a watch report starts from: the new watch state, and CHANNEL_LOST at an entry to LOST (R75). -/
def State.watched (s : State) (c : Channel) (w : WatchState) (cause : LostCause) : State :=
  if w = .lost then (s.modWatch c (fun x => { x with state := w })).raise .channelLost c (.channelLost cause)
  else s.modWatch c (fun x => { x with state := w })

/-- What giving a channel a watch state does: nothing where it has that state, else the state, CHANNEL_LOST at an entry to LOST,
and what `Tends` says of the rest, `Keeps` outside HANDING_BACK (R75). -/
theorem setWatch_cases (s : State) (c : Channel) (w : WatchState) (cause : LostCause) :
    (s.setWatch c w cause = s ∧ ∀ ch, s.chan? c = some ch → ch.watch.state = w) ∨
      ∃ ch, s.chan? c = some ch ∧ ch.watch.state ≠ w ∧ Tends (s.watched c w cause) (s.setWatch c w cause) ∧
        (ch.tk.state ≠ .handingBack → Keeps (s.watched c w cause) (s.setWatch c w cause)) := by
  unfold State.setWatch
  split
  · rename_i h0
    exact Or.inl ⟨rfl, fun ch h => by rw [h0] at h; cases h⟩
  · rename_i ch h0
    split
    · rename_i h1
      exact Or.inl ⟨rfl, fun ch' h => by rw [h0] at h; cases h; exact h1⟩
    · rename_i h1
      have h2 : ∀ x, (s.watched c w cause).chan? c = some x → x.tk = ch.tk := by
        intro x hx
        have : (s.watched c w cause).chan? c = some { ch with watch := { ch.watch with state := w } } := by
          unfold State.watched
          split
          · rw [State.chan?, State.raise_chans, ← State.chan?, State.modWatch, chan?_modChan (by intro _; rfl), h0]; rfl
          · rw [State.modWatch, chan?_modChan (by intro _; rfl), h0]; rfl
        rw [this] at hx; cases hx; rfl
      refine Or.inr ⟨ch, h0, h1, ?_, fun hn => ?_⟩
      · exact tends_watchReport (Tends.refl _) _ _ _
      · exact keeps_watchReport (Keeps.refl _) (fun x hx => by rw [h2 x hx]; exact hn) _ _

end Sys2Proof.Machine
end

