-- ==== Sys2Proof/Laws/MirrorClaims.lean ====
section
/-! SUPPORT. The mirror's requests and the abandoning of a filling, said as the change of the copy and of claims alone; what
`Keeps` says in the words of Safety. -/

namespace Sys2Proof.Machine

theorem setCondition_claims {s : State} {c : Channel} {ch : Chan} (h : s.chan? c = some ch) (f : Condition → Condition)
    (hf : f ch.mirror.condition ≠ ch.mirror.condition → f ch.mirror.condition = .stale ∨ f ch.mirror.condition = .short) :
    (s.marked c ch (f ch.mirror.condition)).ClaimsOnly (s.setCondition c f) := by
  unfold State.setCondition State.marked
  rw [h]
  dsimp only
  split
  · exact State.ClaimsOnly.refl s
  · rename_i hne
    rw [if_pos (hf hne)]
    exact claimsOnly_conditionChanged _ _

theorem markStale_ok (c : Condition) : c.markStale ≠ c → c.markStale = .stale ∨ c.markStale = .short := by
  cases c <;> simp [Condition.markStale]
theorem markShort_ok (c : Condition) : c.markShort ≠ c → c.markShort = .stale ∨ c.markShort = .short := by
  cases c <;> simp [Condition.markShort]

theorem chan?_mem {s : State} {c : Channel} {ch : Chan} (h : s.chan? c = some ch) : ch ∈ s.chans := List.mem_of_find?_eq_some h

/-- a change beside claims commutes with claims -/
theorem claims_modChan {s t : State} (h : s.ClaimsOnly t) (c : Channel) (f : Chan → Chan)
    (hf : ∀ x y : Chan, x.besideClaim = y.besideClaim → (f x).besideClaim = (f y).besideClaim)
    (hp : ∀ x, (f x).part.channel = x.part.channel) (htk : ∀ x, (f x).tk = x.tk) (free : List Nat) :
    (State.modChan { s with poolFree := free } c f).ClaimsOnly (State.modChan { t with poolFree := free } c f) where
  rest := by rw [h.rest]; rfl
  chans := by
    have key : ∀ l m : List Chan, l.map Chan.besideClaim = m.map Chan.besideClaim →
       (l.map (fun ch => if ch.part.channel == c then f ch else ch)).map Chan.besideClaim =
       (m.map (fun ch => if ch.part.channel == c then f ch else ch)).map Chan.besideClaim := by
      intro l
      induction l with
      | nil => intro m hm; cases m with | nil => rfl | cons _ _ => cases hm
      | cons a l ih =>
        intro m hm
        cases m with
        | nil => cases hm
        | cons b m =>
          simp only [List.map_cons, List.cons.injEq] at hm ⊢
          refine ⟨?_, ih m hm.2⟩
          have hc : a.besideClaim.part.channel = b.besideClaim.part.channel := by rw [hm.1]
          have hc : a.part.channel = b.part.channel := hc
          rw [hc]
          split
          · exact hf _ _ hm.1
          · exact hm.1
    exact key _ _ h.chans
  held := by
    intro d ch hd hh
    by_cases e : d = c
    · subst e
      rw [chan?_modChan hp] at hd ⊢
      cases h0 : s.chan? d with
      | none => rw [show State.chan? { s with poolFree := free } d = s.chan? d from rfl, h0] at hd; cases hd
      | some x =>
        rw [show State.chan? { s with poolFree := free } d = s.chan? d from rfl, h0] at hd
        cases hd
        rw [htk] at hh
        rw [show State.chan? { t with poolFree := free } d = t.chan? d from rfl, h.held d x h0 hh]; rfl
    · rw [chan?_modChan_ne hp e] at hd ⊢
      exact h.held d ch hd hh
  outlets := h.outlets
  busy := h.busy
  spare := h.spare

theorem abandon_claims {s t : State} {c : Channel} {ch y : Chan} (h : s.ClaimsOnly t) (hc : s.chan? c = some y) (hy : y.incoming = ch.incoming) :
   (s.abandoned c ch).ClaimsOnly (t.abandonFilling c) := by
  have h1 := h.chan c
  rw [hc] at h1
  cases h2 : t.chan? c with
  | none => rw [h2] at h1; cases h1
  | some x =>
    rw [h2] at h1
    have hi : x.incoming = ch.incoming := by
      have h3 : x.besideClaim.incoming = y.besideClaim.incoming := by rw [Option.some.inj h1]
      exact h3.trans hy
    unfold State.abandonFilling State.abandoned
    rw [h2]
    dsimp only
    unfold State.freeRecords
    rw [hi, h.poolFree]
    refine claims_modChan h c _ ?_ ?_ ?_ _
    · intro x y hxy
      have e := hxy
      unfold Chan.besideClaim at e ⊢
      simp only [Chan.mk.injEq] at e ⊢
      simp_all
    · intro _; rfl
    · intro _; rfl

theorem abandoned_chan? (s : State) (c : Channel) (ch : Chan) (h : s.chan? c = some ch) :
  (s.abandoned c ch).chan? c = some { ch with incoming := [], mirror := { ch.mirror with filling := none } } := by
  unfold State.abandoned
  rw [chan?_modChan (by intro _; rfl)]
  show (s.chan? c).map _ = _
  rw [h]; rfl

theorem marked_abandoned (s : State) (c : Channel) (ch : Chan) (n : Condition)  : 
  (s.abandoned c ch).marked c ch n = (s.marked c ch n).abandoned c ch := by
  unfold State.marked
  split
  · rfl
  · unfold State.abandoned State.modMirror State.modChan State.raise State.modNotice State.judgeAttention
    simp only [List.map_map]
    congr 1
    refine List.map_congr_left (fun x _ => ?_)
    simp only [Function.comp]
    by_cases h : (x.part.channel == c) = true <;> simp [h]

theorem marked_chan? (s : State) (c : Channel) (ch : Chan) (n : Condition) (h : s.chan? c = some ch) :
  (s.marked c ch n).chan? c = some { ch with mirror := { ch.mirror with condition := n } } := by
  unfold State.marked
  split
  · rename_i e; subst e; exact h
  · show (s.modMirror c (fun m => { m with condition := n })).chan? c = _
    unfold State.modMirror
    rw [chan?_modChan (by intro _; rfl), h]; rfl


/-- What the takeover unit, the runner and the outlet controller keep, in the words of Safety. -/
theorem KeepsOuter.sameOutside {s t : State} (h : KeepsOuter s t) : s.SameOutside t where
  tb := h.tb
  station := h.station
  locked := h.locked
  floor := h.floor
  port := h.port
  pending := h.pending
  feed := h.feed
  bus := h.bus
  cue := h.cue
  parts := by
    have e : ∀ l : List Chan, l.map (fun ch => (ch.part, ch.latestQueued)) =
        (l.map Chan.fixed).map (fun x => (x.1, x.2.2)) := by
      intro l; rw [List.map_map]; rfl
    rw [e t.chans, e s.chans, h.fixed]

theorem KeepsOuter.sameWatches {s t : State} (h : KeepsOuter s t) : s.SameWatches t := by
  have e : ∀ l : List Chan, l.map (·.watch) = (l.map Chan.fixed).map (fun x => x.2.1) := by
    intro l; rw [List.map_map]; rfl
  unfold State.SameWatches
  rw [e t.chans, e s.chans, h.fixed]

theorem Keeps.sameMirror {s t : State} (h : Keeps s t) : s.SameMirror t := h.content

end Sys2Proof.Machine
end

