-- ==== Sys2Proof/Laws/BusQueue.lean ====
section
/-! SUPPORT. The transmit queue and the frames handed on, said once (R83 to R87, R96). -/

namespace Sys2Proof.Machine

/-- Where an offered frame stands in an ordered queue: behind the frames of its field (R84). -/
theorem insertOffered_split (f : Frame) : ∀ q : List Frame, q.Pairwise (fun x y => frameField x ≤ frameField y) →
    ∃ a b, q = a ++ b ∧ (∀ g ∈ a, frameField g ≤ frameField f) ∧ (∀ g ∈ b, frameField f < frameField g) ∧ insertOffered f q = a ++ f :: b := by
  intro q
  induction q with
  | nil => intro _; exact ⟨[], [], rfl, by simp, by simp, rfl⟩
  | cons g q ih =>
    intro h
    rw [List.pairwise_cons] at h
    unfold insertOffered
    split
    · rename_i hg
      obtain ⟨a, b, e, ha, hb, hi⟩ := ih h.2
      refine ⟨g :: a, b, by rw [e]; rfl, ?_, hb, by rw [hi]; rfl⟩
      intro x hx
      rcases List.mem_cons.1 hx with rfl | hx
      · exact hg
      · exact ha x hx
    · rename_i hg
      refine ⟨[], g :: q, rfl, by simp, ?_, rfl⟩
      intro x hx
      rcases List.mem_cons.1 hx with rfl | hx
      · omega
      · have := h.1 x hx; omega

/-- Where a returned frame stands in an ordered queue: before the frames of its field (log 11). -/
theorem insertReturned_split (f : Frame) : ∀ q : List Frame, q.Pairwise (fun x y => frameField x ≤ frameField y) →
    ∃ a b, q = a ++ b ∧ (∀ g ∈ a, frameField g < frameField f) ∧ (∀ g ∈ b, frameField f ≤ frameField g) ∧ insertReturned f q = a ++ f :: b := by
  intro q
  induction q with
  | nil => intro _; exact ⟨[], [], rfl, by simp, by simp, rfl⟩
  | cons g q ih =>
    intro h
    rw [List.pairwise_cons] at h
    unfold insertReturned
    split
    · rename_i hg
      obtain ⟨a, b, e, ha, hb, hi⟩ := ih h.2
      refine ⟨g :: a, b, by rw [e]; rfl, ?_, hb, by rw [hi]; rfl⟩
      intro x hx
      rcases List.mem_cons.1 hx with rfl | hx
      · exact hg
      · exact ha x hx
    · rename_i hg
      refine ⟨[], g :: q, rfl, by simp, ?_, rfl⟩
      intro x hx
      rcases List.mem_cons.1 hx with rfl | hx
      · omega
      · have := h.1 x hx; omega

theorem tends_frameTurn (s : State) (f : Frame) : Tends s (s.frameTurn f) := by
  unfold State.frameTurn
  repeat' split
  · exact Tends.refl s
  · exact tends_mirrorTurn (Tends.refl s) _
  · exact Tends.refl s

/-- Where nothing waits for the mirror, a frame gives it no turn. -/
theorem frameTurn_of_nil {s : State} (h : s.mirrorReqs = []) (f : Frame) : s.frameTurn f = s := by
  unfold State.frameTurn
  repeat' split
  · rfl
  · exact mirrorTurn_of_nil h _
  · rfl

/-- A good frame of another station is heard and handed on, the mirror's turn first (R18, R83). -/
theorem closeFrame_other (s : State) (f : Frame) (hr : s.bus.rx = .free ∨ s.bus.rx = .receiving) (hst : f.station ≠ s.bus.own)
    (hf : frameFieldsOk f = true) : s.closeFrame f = ((s.frameTurn f).heard f).handOn f := by
  unfold State.closeFrame
  have : s.takesFrames = true := by unfold State.takesFrames; rcases hr with h | h <;> rw [h] <;> rfl
  rw [this]
  simp only [Bool.not_true, Bool.false_eq_true, if_false]
  rw [if_pos hf]
  unfold State.goodFrame
  have hb : (s.frameTurn f).bus.core = s.bus.core := (tends_frameTurn s f).bus
  have ho : (s.frameTurn f).bus.core.own = s.bus.core.own := by rw [hb]
  change (s.frameTurn f).bus.own = s.bus.own at ho
  rw [if_neg (show ¬ f.station = ((s.frameTurn f).setRx BusRx.hunt 1).bus.own by rw [State.setRx]; exact ho ▸ hst)]
  congr 1

/-- A frame returned to the queue changes the queue and the drop count alone (R86, R87). -/
theorem returnFrame_bus (s : State) (a : Attempt) : s.returnFrame a = { s with bus := { s.bus with
    queue := (s.returnFrame a).bus.queue, drops := (s.returnFrame a).bus.drops } } := by
  unfold State.returnFrame State.enqueueBy State.setQueue State.countDrop
  dsimp only
  repeat' split
  all_goals rfl

/-- Offering a RELEASE changes the bus controller alone (R96). -/
theorem offerRelease_keeps (s : State) (c k r) : (s.offerRelease c k r).chans = s.chans ∧ (s.offerRelease c k r).outlets = s.outlets ∧ (s.offerRelease c k r).notices = s.notices ∧
   (s.offerRelease c k r).asrun = s.asrun ∧ (s.offerRelease c k r).tb = s.tb ∧ (s.offerRelease c k r).reports = s.reports ∧ (s.offerRelease c k r).station = s.station ∧ (s.offerRelease c k r).cue = s.cue := by
  unfold State.offerRelease
  split
  · simp
  · unfold State.offerFrame State.enqueueBy State.setQueue State.countDrop
    dsimp only
    repeat' split
    all_goals simp

/-- What offering a RELEASE does to the bus controller depends on the bus controller alone. -/
theorem offerRelease_bus (s t : State) (h : s.bus = t.bus) (c k r) : (s.offerRelease c k r).bus = (t.offerRelease c k r).bus := by
  unfold State.offerRelease State.releaseWaiting
  rw [h]
  split
  · exact h
  · exact offerFrame_bus _ _ _ h

end Sys2Proof.Machine
end

