-- ==== Sys2Proof/Laws/Bytes.lean ====
section
/-! SUPPORT. Reading back the big-endian numbers of the formats. -/

namespace Sys2Proof.Machine

@[simp] theorem length_beBytes (n v : Nat) : (beBytes n v).length = n := by
  induction n with
  | zero => rfl
  | succ n ih => simp [beBytes, ih]

theorem beNat_foldl (l : List Byte) (a : Nat) :
    l.foldl (fun acc b => acc * 256 + b.toNat) a = a * 256 ^ l.length + beNat l := by
  induction l generalizing a with
  | nil => simp [beNat]
  | cons b l ih =>
    unfold beNat
    simp only [List.foldl_cons, List.length_cons]
    rw [ih, ih (0 * 256 + b.toNat)]
    ring

theorem beNat_cons (b : Byte) (l : List Byte) : beNat (b :: l) = b.toNat * 256 ^ l.length + beNat l := by
  show List.foldl _ (0 * 256 + b.toNat) l = _
  rw [beNat_foldl]; ring

/-- `n` bytes hold a number modulo 256^n. -/
theorem beNat_beBytes (n v : Nat) : beNat (beBytes n v) = v % 256 ^ n := by
  induction n with
  | zero => simp [beBytes, beNat, Nat.mod_one]
  | succ n ih =>
    rw [beBytes, beNat_cons, ih, length_beBytes]
    have h : (BitVec.ofNat 8 (v / 256 ^ n)).toNat = v / 256 ^ n % 256 := by simp
    rw [h, Nat.pow_succ, Nat.mod_mul]
    ring

/-- A number at the front of the bytes is taken off. -/
theorem takeNat_beBytes (n v : Nat) (l : List Byte) : takeNat n (beBytes n v ++ l) = some (v % 256 ^ n, l) := by
  unfold takeNat
  have h : ¬ (beBytes n v ++ l).length < n := by simp
  rw [if_neg h, List.take_append_of_le_length (by simp), List.drop_append_of_le_length (by simp)]
  rw [List.take_of_length_le (by simp), List.drop_of_length_le (by simp), beNat_beBytes]
  rfl

/-- A word of whole bytes at the front of the bytes is taken off. -/
theorem takeNat_word {w n : Nat} (x : BitVec w) (h : 2 ^ w = 256 ^ n) (l : List Byte) :
    takeNat n (beBytes n x.toNat ++ l) = some (x.toNat, l) := by
  rw [takeNat_beBytes, ← h, Nat.mod_eq_of_lt x.isLt]

end Sys2Proof.Machine
end

