-- ==== Sys2Proof/Laws/Formats.lean ====
section
/-! SUPPORT. Reading back the fields of the feed formats (section 2.2, section 3.1). -/

namespace Sys2Proof.Machine

/-- The side cues of an event are read back from their bytes (section 3.1). -/
theorem parseCues_cueBytes (cs : List SideCue) : parseCues cs.length ((cs.map cueBytes).flatten) = some cs := by
  induction cs with
  | nil => rfl
  | cons c cs ih =>
    simp only [List.length_cons, List.map_cons, List.flatten_cons, parseCues, cueBytes, List.append_assoc]
    rw [takeNat_word c.offset (by norm_num)]
    simp only [Option.bind_eq_bind, Option.bind_some]
    rw [takeNat_word c.code (by norm_num)]
    simp only [Option.bind_some, ih]
    simp

/-- A start rule is read back from its bytes. -/
theorem parseStart_startBytes (st : StartRule) (l : List Byte) : parseStart (startBytes st ++ l) = some (st, l) := by
  cases st with
  | fixed t =>
    simp only [parseStart, startBytes, List.append_assoc]
    rw [takeNat_beBytes]
    simp only [Option.bind_eq_bind, Option.bind_some]
    rw [takeNat_word t (by norm_num)]
    simp
  | follow =>
    simp only [parseStart, startBytes]
    rw [takeNat_beBytes]
    simp
  | manual =>
    simp only [parseStart, startBytes]
    rw [takeNat_beBytes]
    simp

theorem takeNat_byte (b : Byte) (l : List Byte) : takeNat 1 (b :: l) = some (b.toNat, l) := by
  simp [takeNat, beNat]

/-- An event record of at most four side cues is read back from its bytes. -/
theorem parseEvent_eventBytes (e : EventData) (h : e.cues.length ≤ 4) : parseEvent (eventBytes e) = some e := by
  simp only [parseEvent, eventBytes, List.append_assoc]
  rw [takeNat_word e.id (by norm_num)]
  simp only [Option.bind_eq_bind, Option.bind_some]
  rw [parseStart_startBytes]
  simp only [Option.bind_some]
  rw [takeNat_word e.duration (by norm_num)]
  simp only [Option.bind_some]
  rw [takeNat_word e.material (by norm_num)]
  simp only [Option.bind_some]
  rw [takeNat_word e.entry (by norm_num)]
  simp only [Option.bind_some, List.cons_append, List.nil_append]
  rw [takeNat_byte]
  simp only [Option.bind_some]
  rw [takeNat_beBytes]
  have : e.cues.length % 256 ^ 1 = e.cues.length := by omega
  simp only [Option.bind_some, this]
  rw [if_neg (by omega), parseCues_cueBytes]
  simp

/-- A beacon is read back from its body. -/
theorem parseBeacon_beaconBody (b : BeaconMsg) : parseBeacon b.channel (beaconBody b) = some b := by
  simp only [parseBeacon, beaconBody, List.append_assoc]
  rw [takeNat_word b.stamp (by norm_num)]
  simp only [Option.bind_eq_bind, Option.bind_some]
  rw [takeNat_beBytes]
  simp only [Option.bind_some]
  rw [takeNat_word b.version (by norm_num)]
  simp only [Option.bind_some]
  rw [takeNat_word b.onAir (by norm_num)]
  simp only [Option.bind_some]
  obtain ⟨c, st, m, v, o⟩ := b
  cases m with
  | running => simp [mainStateCode]
  | standingDown => simp [mainStateCode]
  | resumeOffer t =>
    have h := takeNat_word t (n := 6) (by norm_num) []
    rw [List.append_nil] at h
    simp [mainStateCode, h]

/-! ## The reads, spelled by their fields -/

@[simp] theorem spelled_nil : spelled [] = [] := rfl

@[simp] theorem spelled_cons (f : Nat × Nat) (l : List (Nat × Nat)) : spelled (f :: l) = beBytes f.1 f.2 ++ spelled l := by
  have h : ∀ n v, (List.range n).map (fun i => BitVec.ofNat 8 (v / 256 ^ (n - 1 - i))) = beBytes n v := by
    intro n v
    induction n with
    | zero => rfl
    | succ n ih =>
      rw [List.range_succ_eq_map, List.map_cons, List.map_map, beBytes, ← ih]
      refine congrArg₂ _ (by simp) (List.map_congr_left (fun i _ => ?_))
      simp only [Function.comp]
      congr 3
      omega
  unfold spelled
  rw [List.flatMap_cons, h]

@[simp] theorem spelled_append (a b : List (Nat × Nat)) : spelled (a ++ b) = spelled a ++ spelled b := by
  unfold spelled; exact List.flatMap_append

theorem beBytes_byte (b : Byte) : beBytes 1 b.toNat = [b] := by simp [beBytes]

/-- A field that may be absent. -/
theorem spelled_presented {α : Type} (f : α → List (Nat × Nat)) (g : α → List Byte) (x : Option α) (h : ∀ a, spelled (f a) = g a) :
    spelled (presented (x.map f)) = optField g x := by
  cases x with
  | none => rfl
  | some a => simp [presented, optField, h]

theorem spelled_key (k : Key) : spelled k.fields = keyBytes k := by
  simp [Key.fields, keyBytes, beBytes_byte]

theorem spelled_event (e : EventData) : spelled (eventFields e) = eventBytes e := by
  have hc : spelled (e.cues.flatMap (fun c => [(3, c.offset.toNat), (2, c.code.toNat)])) = (e.cues.map cueBytes).flatten := by
    induction e.cues with
    | nil => rfl
    | cons c l ih => simp [ih, cueBytes]
  unfold eventFields eventBytes startBytes
  rw [spelled_append, hc]
  cases e.start <;> simp [beBytes_byte]

theorem spelled_record (e : EventRec) : spelled e.fields = eventData e := by
  unfold EventRec.fields eventData
  simp only [spelled_append, spelled_event]
  cases e.times <;> simp [presented, optField, timeBytes, marked01, markByte]

theorem spelled_watch (w : WatchRec) : spelled w.fields = watchBytes w := by
  unfold WatchRec.fields watchBytes
  simp only [spelled_append]
  rw [spelled_presented _ timeBytes _ (fun t => by simp [timeBytes]), spelled_presented _ timeBytes _ (fun t => by simp [timeBytes]),
    spelled_presented _ timeBytes _ (fun t => by simp [timeBytes]), spelled_presented _ timeBytes _ (fun t => by simp [timeBytes]),
    spelled_presented _ (fun m => beBytes 1 (mainKindCode m)) _ (fun m => by cases m <;> rfl),
    spelled_presented _ (fun (e : EventId) => beBytes 4 e.toNat) _ (fun e => by simp)]
  cases w.state <;> simp [placed, marked01, markByte, watchPlace, timeBytes, List.findIdx_cons]

theorem spelled_takeover (tk : TakeoverRec) : spelled tk.fields = takeoverBytes tk ++ handbackBytes tk.handback := by
  unfold TakeoverRec.fields takeoverBytes handbackBytes
  simp only [spelled_append]
  rw [spelled_presented _ keyBytes _ spelled_key, spelled_presented _ keyBytes _ spelled_key,
    spelled_presented _ foreignBytes _ (fun f => by simp [foreignBytes, spelled_key, timeBytes]),
    spelled_presented _ holderBytes _ (fun h => by
      cases h with | mk k st v e a b => cases st <;> simp [holderBytes, spelled_key, timeBytes, versionBytes, idBytes, placed, holdStateCode, List.findIdx_cons]),
    spelled_presented _ (fun (o : OutletNo) => beBytes 1 o.val) _ (fun o => by simp),
    spelled_presented _ (fun (h : Handback) => timeBytes h.switch) _ (fun o => by simp [timeBytes]),
    spelled_presented _ (fun (h : Handback) => timeBytes h.localSwitch) _ (fun o => by simp [timeBytes])]
  have e1 : optField timeBytes (tk.handback.map (·.switch)) = optField (fun (h : Handback) => timeBytes h.switch) tk.handback := by
    cases tk.handback <;> rfl
  have e2 : optField timeBytes (tk.handback.map (·.localSwitch)) = optField (fun (h : Handback) => timeBytes h.localSwitch) tk.handback := by
    cases tk.handback <;> rfl
  rw [e1, e2]
  have e3 : ∀ st : TakeoverState, spelled st.fields =
      beBytes 1 (takeoverPlace st) ++ optField (fun r => beBytes 1 (blockedPlace r)) (blockedOf st) := by
    intro st
    cases st with
    | blocked r => cases r <;> rfl
    | _ => rfl
  rw [e3]
  simp [marked01, markByte, List.append_assoc]

theorem spelled_item (it : Item) : spelled it.fields = itemBytes it := by
  unfold Item.fields itemBytes Item.event?
  cases it.source <;> simp [idBytes, timeBytes, marked01, markByte, optField]

theorem spelled_run (r : RunRec) : spelled r.fields = runBytes r := by
  unfold RunRec.fields runBytes
  simp only [spelled_append]
  rw [spelled_presented _ itemBytes _ spelled_item, spelled_presented _ itemBytes _ spelled_item,
    spelled_presented _ idBytes _ (fun e => by simp [idBytes]),
    spelled_presented _ (fun (a : Anchor) => idBytes a.id ++ timeBytes a.main) _ (fun e => by simp [idBytes, timeBytes])]
  cases r.mode <;> simp [placed, modePlace, List.findIdx_cons]

/-- The data of READ_CHANNEL by its fields (R190). -/
theorem spelled_chan (ch : Chan) : spelled ch.fields = channelData ch := by
  unfold Chan.fields channelData mirrorBytes
  simp only [spelled_append, spelled_watch, spelled_takeover]
  rw [spelled_presented _ runBytes _ spelled_run, spelled_presented _ versionBytes _ (fun e => by simp [versionBytes])]
  cases ch.mirror.condition <;> simp [placed, conditionPlace, List.findIdx_cons, marked01, markByte]

/-- A peer entry by its fields (R192). -/
theorem spelled_peer (p : Peer) : spelled p.fields = peerBytes p := by
  unfold Peer.fields peerBytes
  simp only [spelled_append]
  rw [spelled_presented _ timeBytes _ (fun t => by simp [timeBytes]),
    spelled_presented _ statusBytes _ (fun b => by
      cases b with | mk a f t h v => cases t <;> simp [statusBytes, timeClassField, timeClassCode])]
  cases p.presence <;> simp [placed, presencePlace, List.findIdx_cons]

/-- An outlet record by its fields (R194). -/
theorem spelled_outlet (x : Outlet) : spelled x.fields = outletBytes x := by
  have ha : spelled (x.awaiting.flatMap (fun a => [(1, a.tag), (6, a.prep.start.toNat)])) =
      (x.awaiting.map (fun a => beBytes 1 a.tag ++ timeBytes a.prep.start)).flatten := by
    induction x.awaiting with
    | nil => rfl
    | cons a l ih => simp [ih, timeBytes]
  unfold Outlet.fields outletBytes
  simp only [spelled_append, ha]
  rw [spelled_presented _ (fun (c : Channel) => [c]) _ (fun c => by simp [beBytes_byte]),
    spelled_presented _ (fun (u : Outstanding) => beBytes 1 (cmdKindCode (cmdKind u.cmd)) ++ beBytes 1 u.tag) _ (fun u => by
      cases h : u.cmd <;> simp [CmdKind.field, placed, cmdKind, cmdKindCode, List.findIdx_cons]),
    spelled_presented _ (fun (a : ArmedStop) => timeBytes a.at_ ++ beBytes 1 (stopPlace a.outcome)) _ (fun a => by
      cases h : a.outcome <;> simp [timeBytes, stopPlace]),
    spelled_presented _ (fun (f : CmdKind × Failure) => beBytes 1 (cmdKindCode f.1) ++ beBytes 1 (failurePlace f.2)) _ (fun f => by
      cases f with | mk a b => cases a <;> cases b <;> simp [CmdKind.field, placed, cmdKindCode, failurePlace, List.findIdx_cons])]
  cases x.state <;> simp [placed, outletPlace, List.findIdx_cons, marked01, markByte]

/-- An as-run record by its fields (R196). -/
theorem spelled_asRun (a : AsRun) : spelled a.fields = asRunBytes a := by
  unfold AsRun.fields asRunBytes
  cases a.ending <;> simp [placed, endingCode, List.findIdx_cons, marked01, markByte, beBytes_byte, idBytes, timeBytes]

end Sys2Proof.Machine
end

