-- ==== Sys2Proof/Laws/Ingest.lean ====
section
/-! SUPPORT. What the ingest commands of the mirror share (R18, R25, R31). -/

namespace Sys2Proof.Machine

/-- With no request waiting, an ingest message is taken at once (R18). -/
theorem takeIngest_nil {s : State} (h : s.mirrorReqs = []) (rest : List SchedMsg) : s.takeIngest rest = s.popped rest := by
  simp [State.takeIngest, State.serveAll, State.serveThrough, h, State.popped]

/-- Abandoning the filling of a profiled channel (R25). -/
theorem abandonFilling_eq {s : State} {c : Channel} {ch : Chan} (h : s.chan? c = some ch) : s.abandonFilling c = s.abandoned c ch := by
  unfold State.abandonFilling; rw [h]; rfl

theorem marked_reports (s : State) (c ch n) : (s.marked c ch n).reports = s.reports := by
  unfold State.marked; split <;> rfl

/-- Abandoning a filling and marking the copy stale, in the words of Safety (R24, R25). -/
theorem abandonFilling_markStale {s : State} {c : Channel} {ch : Chan} (h : s.chan? c = some ch) :
   ((s.abandoned c ch).marked c ch ch.mirror.condition.markStale).ClaimsOnly ((s.abandonFilling c).markStale c) := by
  rw [abandonFilling_eq h]
  have h1 := abandoned_chan? s c ch h
  have := setCondition_claims h1 Condition.markStale (markStale_ok _)
  exact this

/-- A notice raised on both sides keeps a change of claims alone one. -/
theorem raise_claimsOnly {s t : State} (h : s.ClaimsOnly t) (a b d) : (s.raise a b d).ClaimsOnly (t.raise a b d) := by
  have hn := h.notices
  have hf : t.floor = s.floor := by rw [h.rest]
  have hr := h.rest
  refine ⟨?_, h.chans, h.held, h.outlets, h.busy, h.spare⟩
  have e : t.raise a b d = { t with notices := (s.raise a b d).notices, attn := (s.raise a b d).attn } := by
    unfold State.raise State.modNotice State.judgeAttention
    simp only [hn, hf]
  rw [e]
  exact congrArg (fun x : State => { x with notices := (s.raise a b d).notices, attn := (s.raise a b d).attn }) hr

/-- Serving a request leaves the requests and the feed receiver as they are (R18). -/
theorem serve_keeps (s : State) (r : MirrorReq) : (s.serve r).mirrorReqs = s.mirrorReqs ∧ (s.serve r).feed = s.feed := by
  cases r with
  | drift c v e =>
    unfold State.serve State.driftCheck
    dsimp only
    split
    · exact ⟨rfl, rfl⟩
    · rename_i ch hc
      split
      · have := setCondition_claims hc Condition.markStale (markStale_ok _)
        have h1 := this.mirrorReqs
        have h2 := this.feed
        unfold State.markStale
        rw [h1, h2]
        unfold State.marked
        split <;> exact ⟨rfl, rfl⟩
      · exact ⟨rfl, rfl⟩
  | sweep c =>
    unfold State.serve State.sweep
    dsimp only
    repeat' split
    all_goals exact ⟨rfl, rfl⟩

/-- Serving every request leaves none and the feed receiver as it was (R18). -/
theorem serveThrough_all (l : List MirrorReq) : ∀ s : State, (s.mirrorReqs = l) → (State.serveThrough (fun _ => false) l s).mirrorReqs = [] ∧ (State.serveThrough (fun _ => false) l s).feed = s.feed := by
  induction l with
  | nil => exact fun s h => ⟨h, rfl⟩
  | cons r rest ih =>
    intro s h
    unfold State.serveThrough
    dsimp only
    have h1 := serve_keeps ({ s with mirrorReqs := rest } : State) r
    have h2 := ih _ h1.1
    exact ⟨h2.1, h2.2.trans h1.2⟩

/-- Where an EDIT_PUT places its record: at the head for anchor 0, else directly behind the anchor (R31). -/
theorem insertAfter_split (a : EventId) (r : EventRec) (l : List EventRec) (h : a = 0 ∨ ∃ x ∈ l, x.data.id = a) :
   ∃ before after, l = before ++ after ∧ PlacedAfter a before ∧ insertAfter a r l = before ++ r :: after := by
  induction l with
  | nil =>
    rcases h with h | ⟨x, hx, _⟩
    · exact ⟨[], [], rfl, Or.inl ⟨h, rfl⟩, rfl⟩
    · cases hx
  | cons e l ih =>
    unfold insertAfter
    by_cases h0 : a = 0
    · exact ⟨[], e :: l, rfl, Or.inl ⟨h0, rfl⟩, by simp [h0]⟩
    · by_cases h1 : e.data.id = a
      · exact ⟨[e], l, rfl, Or.inr ⟨e, rfl, h1⟩, by rw [if_neg h0, if_pos h1]; rfl⟩
      · obtain ⟨b, c, h2, h3, h4⟩ := ih (by
          rcases h with h | ⟨x, hx, hxa⟩
          · exact Or.inl h
          · right
            rcases List.mem_cons.1 hx with rfl | hx
            · exact absurd hxa h1
            · exact ⟨x, hx, hxa⟩)
        refine ⟨e :: b, c, by rw [h2]; rfl, ?_, by rw [if_neg h0, if_neg h1, h4]; rfl⟩
        rcases h3 with ⟨h3, _⟩ | ⟨y, hy, hya⟩
        · exact absurd h3 h0
        · refine Or.inr ⟨y, ?_, hya⟩
          cases b with
          | nil => cases hy
          | cons z b => simpa [List.getLast?_cons] using hy

end Sys2Proof.Machine
end

