-- ==== Sys2Proof/Laws/RunClose.lean ====
section
/-! SUPPORT. The closing of a run and a stop now, said once (R37, R150 to R152, R168). -/

namespace Sys2Proof.Machine

theorem takeFirst_some {α : Type} {p : α → Bool} {l : List α} {a : α} {rest : List α} (h : takeFirst p l = some (a, rest)) :
    ∃ x y, l = x ++ a :: y ∧ rest = x ++ y ∧ p a = true ∧ ∀ b ∈ x, p b = false := by
  induction l generalizing rest with
  | nil => cases h
  | cons b l ih =>
    unfold takeFirst at h
    by_cases hb : p b = true
    · rw [if_pos hb] at h; cases h
      exact ⟨[], l, rfl, rfl, hb, nofun⟩
    · rw [if_neg hb] at h
      cases ht : takeFirst p l with
      | none => rw [ht] at h; cases h
      | some q =>
        rw [ht] at h; cases h
        obtain ⟨x, y, e1, e2, e3, e4⟩ := ih ht
        refine ⟨b :: x, y, by rw [e1]; rfl, by rw [e2]; rfl, e3, fun z hz => ?_⟩
        rcases List.mem_cons.1 hz with rfl | hz
        · simpa using hb
        · exact e4 z hz

theorem takeFirst_none {α : Type} {p : α → Bool} {l : List α} (h : takeFirst p l = none) : ∀ a ∈ l, p a = false := by
  induction l with
  | nil => nofun
  | cons b l ih =>
    unfold takeFirst at h
    by_cases hb : p b = true
    · rw [if_pos hb] at h; cases h
    · rw [if_neg hb] at h
      cases ht : takeFirst p l with
      | some q => rw [ht] at h; cases h
      | none =>
        intro a ha
        rcases List.mem_cons.1 ha with rfl | ha
        · simpa using hb
        · exact ih ht a ha

/-- What unpinning the record in a slot does: an unlinked one is freed, one in the list loses its mark (R37). -/
theorem unpin_cases {s : State} {c : Channel} {ch : Chan} (h : s.chan? c = some ch) (n : Nat) :
    (∃ p q e, ch.unlinked = p ++ e :: q ∧ e.slot = n ∧ (∀ y ∈ p, y.slot ≠ n) ∧
      (s.unpin c n).chan? c = some { ch with unlinked := p ++ q } ∧ (s.unpin c n).poolFree = n :: s.poolFree) ∨
    ((∀ e ∈ ch.unlinked, e.slot ≠ n) ∧ (s.unpin c n).poolFree = s.poolFree ∧ (s.unpin c n).chan? c = some { ch with
      list := ch.list.map (fun e => if e.slot = n then { e with pinned := false } else e) }) := by
  unfold State.unpin
  rw [h]
  dsimp only
  cases ht : takeFirst (fun e => e.slot == n) ch.unlinked with
  | some a =>
    obtain ⟨e, rest⟩ := a
    obtain ⟨p, q, e1, rfl, e3, e4⟩ := takeFirst_some ht
    have e3 : e.slot = n := by simpa using e3
    refine Or.inl ⟨p, q, e, e1, e3, fun y hy => by simpa using e4 y hy, ?_, ?_⟩
    · dsimp only
      rw [chan?_modChan (by intro _; rfl), show (s.freeRecords [e]).chan? c = s.chan? c from rfl, h]; rfl
    · show [e.slot] ++ s.poolFree = _
      rw [e3]; rfl
  | none =>
    refine Or.inr ⟨fun e he => by simpa using takeFirst_none ht e he, rfl, ?_⟩
    dsimp only
    rw [chan?_modChan (by intro _; rfl), h]; rfl

/-- What unpinning the records in several slots does, where no two records of the channel share one (R37). -/
theorem unpinAll_unpins {c : Channel} (slots : List Nat) : ∀ {s : State} {ch : Chan}, s.chan? c = some ch →
    ((ch.list ++ ch.unlinked).map (·.slot)).Nodup → ∃ x, (s.unpinAll c slots).chan? c = some x ∧
      x.list = ch.list.map (fun e => if e.slot ∈ slots then { e with pinned := false } else e) ∧
      x.unlinked = ch.unlinked.filter (fun e => decide (e.slot ∉ slots)) ∧ x.mirror = ch.mirror ∧
      (s.unpinAll c slots).poolFree.Perm
        ((ch.unlinked.filter (fun e => decide (e.slot ∈ slots))).map (·.slot) ++ s.poolFree) := by
  induction slots with
  | nil => intro s ch h _; exact ⟨ch, h, by simp, by simp, rfl, by simp [State.unpinAll]⟩
  | cons n slots ih =>
    intro s ch h hn
    show ∃ x, ((s.unpin c n).unpinAll c slots).chan? c = some x ∧ _ ∧ _ ∧ _ ∧ ((s.unpin c n).unpinAll c slots).poolFree.Perm _
    rw [List.map_append, List.nodup_append] at hn
    obtain ⟨hl, hu, hd⟩ := hn
    rcases unpin_cases h n with ⟨p, q, e, e1, e2, e3, e4, e5⟩ | ⟨e1, e2, e3⟩
    · rw [e1, List.map_append, List.map_cons] at hu
      have hu' : ((p ++ q).map (·.slot)).Nodup := by
        rw [List.map_append]; exact (List.nodup_middle.1 hu).of_cons
      have hq : ∀ y ∈ q, y.slot ≠ n := by
        intro y hy he
        have := (List.nodup_cons.1 (List.nodup_middle.1 hu)).1
        exact this (List.mem_append_right _ (List.mem_map.2 ⟨y, hy, by rw [he, e2]⟩))
      have hnl : ∀ y ∈ ch.list, y.slot ≠ n := by
        intro y hy he
        exact hd _ (List.mem_map.2 ⟨y, hy, rfl⟩) _ (by rw [e1]; exact List.mem_map.2 ⟨e, by simp, rfl⟩) (by rw [he, e2])
      obtain ⟨x, h1, h2, h3, h4, h5⟩ := ih (ch := { ch with unlinked := p ++ q }) e4 (by
        rw [List.map_append, List.nodup_append]
        refine ⟨hl, hu', fun a ha b hb => hd a ha b ?_⟩
        rw [e1]; simp only [List.map_append, List.map_cons, List.mem_append, List.mem_cons] at hb ⊢; tauto)
      have f1 : ∀ l : List EventRec, (∀ y ∈ l, y.slot ≠ n) →
          l.filter (fun e => decide (e.slot ∉ n :: slots)) = l.filter (fun e => decide (e.slot ∉ slots)) ∧
          l.filter (fun e => decide (e.slot ∈ n :: slots)) = l.filter (fun e => decide (e.slot ∈ slots)) := by
        intro l hl
        constructor <;> refine List.filter_congr fun y hy => ?_ <;> simp [hl y hy]
      refine ⟨x, h1, ?_, ?_, h4, ?_⟩
      · rw [h2]; refine List.map_congr_left fun y hy => ?_
        simp [hnl y hy]
      · rw [h3, e1]
        simp only [List.filter_append, List.filter_cons, (f1 p e3).1, (f1 q hq).1, e2]
        simp
      · refine h5.trans ?_
        rw [e5, e1]
        simp only [List.filter_append, List.filter_cons, (f1 p e3).2, (f1 q hq).2, e2]
        simp only [List.mem_cons, true_or, decide_true, if_true, List.map_append, List.map_cons, e2, List.append_assoc,
          List.cons_append]
        refine List.Perm.append_left _ ?_
        exact List.perm_middle
    · obtain ⟨x, h1, h2, h3, h4, h5⟩ := ih (ch := { ch with
          list := ch.list.map (fun e => if e.slot = n then { e with pinned := false } else e) }) e3 (by
        rw [List.map_append, List.nodup_append, List.map_map]
        have : ((fun e : EventRec => e.slot) ∘ fun e => if e.slot = n then { e with pinned := false } else e) = fun e => e.slot := by
          funext e; simp only [Function.comp]; split <;> rfl
        rw [this]; exact ⟨hl, hu, hd⟩)
      refine ⟨x, h1, ?_, ?_, h4, ?_⟩
      · rw [h2, List.map_map]
        refine List.map_congr_left fun y _ => ?_
        by_cases hy : y.slot = n
        · subst hy; simp
        · simp [hy]
      · rw [h3]; refine List.filter_congr fun y hy => ?_
        simp [e1 y hy]
      · rw [e2] at h5
        refine h5.trans ?_
        rw [show ch.unlinked.filter (fun e => decide (e.slot ∈ n :: slots)) = ch.unlinked.filter (fun e => decide (e.slot ∈ slots)) from
          List.filter_congr fun y hy => by simp [e1 y hy]]

/-- Unpinning a record changes the lists and the pool alone (R37). -/
theorem unpin_keeps (s : State) (c : Channel) (n : Nat) :
    (s.unpin c n).bus = s.bus ∧ (s.unpin c n).outlets = s.outlets ∧ (s.unpin c n).notices = s.notices ∧ (s.unpin c n).asrun = s.asrun ∧ (s.unpin c n).asrunDrops = s.asrunDrops ∧
    (s.unpin c n).reports = s.reports ∧ (s.unpin c n).mirrorReqs = s.mirrorReqs ∧ (s.unpin c n).tb = s.tb ∧ (s.unpin c n).station = s.station ∧ (s.unpin c n).cue = s.cue ∧
    ∀ d, ((s.unpin c n).chan? d).map (fun x => (x.tk, x.run, x.part, x.watch, x.mirror)) = (s.chan? d).map (fun x => (x.tk, x.run, x.part, x.watch, x.mirror)) := by
  have key : ∀ (u : State) (f : Chan → Chan), (∀ x, (f x).tk = x.tk ∧ (f x).run = x.run ∧ (f x).part = x.part ∧ (f x).watch = x.watch ∧ (f x).mirror = x.mirror) → ∀ d,
      ((u.modChan c f).chan? d).map (fun x => (x.tk, x.run, x.part, x.watch, x.mirror)) = (u.chan? d).map (fun x => (x.tk, x.run, x.part, x.watch, x.mirror)) := by
    intro u f hf d
    by_cases h : d = c
    · subst h
      rw [chan?_modChan (by intro x; exact congrArg (·.channel) (hf x).2.2.1)]
      cases u.chan? d with
      | none => rfl
      | some x => obtain ⟨a, b, e, g, k⟩ := hf x; simp [a, b, e, g, k]
    · rw [chan?_modChan_ne (by intro x; exact congrArg (·.channel) (hf x).2.2.1) h]
  unfold State.unpin
  split
  · simp
  · split
    · exact ⟨rfl, rfl, rfl, rfl, rfl, rfl, rfl, rfl, rfl, rfl, fun d => key _ _ (by intro x; exact ⟨rfl, rfl, rfl, rfl, rfl⟩) d⟩
    · exact ⟨rfl, rfl, rfl, rfl, rfl, rfl, rfl, rfl, rfl, rfl, fun d => key _ _ (by intro x; exact ⟨rfl, rfl, rfl, rfl, rfl⟩) d⟩

/-- Unpinning several records changes the lists and the pool alone (R37). -/
theorem unpinAll_keeps (c : Channel) (l : List Nat) : ∀ (s : State),
    (s.unpinAll c l).bus = s.bus ∧ (s.unpinAll c l).outlets = s.outlets ∧ (s.unpinAll c l).notices = s.notices ∧ (s.unpinAll c l).asrun = s.asrun ∧ (s.unpinAll c l).asrunDrops = s.asrunDrops ∧
    (s.unpinAll c l).reports = s.reports ∧ (s.unpinAll c l).mirrorReqs = s.mirrorReqs ∧ (s.unpinAll c l).tb = s.tb ∧ (s.unpinAll c l).station = s.station ∧ (s.unpinAll c l).cue = s.cue ∧
    ∀ d, ((s.unpinAll c l).chan? d).map (fun x => (x.tk, x.run, x.part, x.watch, x.mirror)) = (s.chan? d).map (fun x => (x.tk, x.run, x.part, x.watch, x.mirror)) := by
  induction l with
  | nil => intro s; simp [State.unpinAll]
  | cons n l ih =>
    intro s
    obtain ⟨a, b, e, f, f2, g, h, i, j, q, k⟩ := unpin_keeps s c n
    obtain ⟨a', b', e', f', f2', g', h', i', j', q', k'⟩ := ih (s.unpin c n)
    exact ⟨a'.trans a, b'.trans b, e'.trans e, f'.trans f, f2'.trans f2, g'.trans g, h'.trans h, i'.trans i, j'.trans j, q'.trans q, fun d => (k' d).trans (k d)⟩

/-- A notice raised leaves the other classes as they were (R186). -/
theorem raise_other (s : State) (cls b d) (i : Fin 12) (h : i ≠ cls.number) : (s.raise cls b d).notices[i] = s.notices[i] := by
  unfold State.raise; rw [modNotice_get, if_neg h]

/-- A notice raised is pending, counted and detailed (R186). -/
theorem raise_noticed (s : State) (cls : NoticeClass) (b d) : s.Noticed (s.raise cls b d) cls.number b d := by
  unfold State.Noticed State.raise; rw [modNotice_get, if_pos rfl]; rfl

/-- Writing an as-run record: it is added, or dropped at a full queue (R152). -/
theorem writeAsRun_changes (s : State) (a : AsRun) :
    (s.writeAsRun a).bus = s.bus ∧ (s.writeAsRun a).outlets = s.outlets ∧ (∀ i : Fin 12, i ≠ 11 → (s.writeAsRun a).notices[i] = s.notices[i]) ∧
    (s.writeAsRun a).asrun = (if 64 ≤ s.asrun.length then s.asrun else s.asrun ++ [a]) ∧ (s.writeAsRun a).chans = s.chans ∧
    (s.writeAsRun a).poolFree = s.poolFree ∧
    (s.writeAsRun a).reports = s.reports ∧ (s.writeAsRun a).mirrorReqs = s.mirrorReqs ∧ (s.writeAsRun a).tb = s.tb ∧ (s.writeAsRun a).station = s.station ∧ (s.writeAsRun a).cue = s.cue := by
  unfold State.writeAsRun
  rw [show Config.asrunDepth = 64 from rfl]
  split
  · simp
  · dsimp only
    split
    · refine ⟨rfl, rfl, fun i hi => ?_, rfl, rfl, rfl, rfl, rfl, rfl, rfl, rfl⟩
      unfold State.raise
      rw [modNotice_get, if_neg (by exact hi)]
    · simp

/-- Writing an as-run record does what R152 says. -/
theorem writeAsRun_records (s : State) (a : AsRun) : s.Records (s.writeAsRun a) (some a) := by
  unfold State.Records State.writeAsRun
  rw [show Config.asrunDepth = 64 from rfl, show Config.asrunWatermark = 48 from rfl]
  dsimp only
  split
  · exact ⟨rfl, rfl, rfl⟩
  · by_cases h : s.asrun.length = 47
    · rw [if_pos (by simp [h])]
      exact ⟨rfl, rfl, fun _ => raise_noticed { s with asrun := s.asrun ++ [a] } _ _ _, fun hn => absurd h hn⟩
    · rw [if_neg (by simp; omega)]
      exact ⟨rfl, rfl, fun hn => absurd hn h, fun _ => rfl⟩

/-- What leaves the as-run queue, its drop count and class 11 as they were keeps what has been recorded (R152). -/
theorem Records.after {s t u : State} {a : Option AsRun} (h : s.Records t a) (k : t.Records u none) : s.Records u a := by
  obtain ⟨k1, k2, k3⟩ := k
  unfold State.Records State.Noticed at *
  rw [k1, k2, k3]
  exact h

theorem Records.before {s t u : State} {a : Option AsRun} (h : s.Records t none) (k : t.Records u a) : s.Records u a := by
  obtain ⟨k1, k2, k3⟩ := h
  unfold State.Records State.Noticed at *
  rw [k1, k2, k3] at k
  exact k

/-- Nothing recorded. -/
theorem State.Records.refl (s : State) : s.Records s none := ⟨rfl, rfl, rfl⟩

/-- What the closing of a run leaves as it was (R150). -/
structure RunClosed (s t : State) (c : Channel) (ch : Chan) : Prop where
  bus : t.bus = s.bus
  outlets : t.outlets = s.outlets
  notices : ∀ i : Fin 12, i ≠ 11 → t.notices[i] = s.notices[i]
  reports : t.reports = s.reports
  tb : t.tb = s.tb
  station : t.station = s.station
  cue : t.cue = s.cue
  chan : ∃ x, t.chan? c = some x ∧ x.run = none ∧ x.tk = ch.tk ∧ x.part = ch.part ∧ x.watch = ch.watch ∧ x.mirror = ch.mirror ∧ s.RunEnded t ch x

/-- Closing a run removes its record, writes the as-run record of its on-air item, unpins what it held, resolves the list without
its anchor and changes nothing of the other blocks (R37, R41, R150, R151). -/
theorem closeRun_closed (s : State) (c : Channel) (ch : Chan) (hc : s.chan? c = some ch) (cause : Option (Ending × Time)) :
    RunClosed s (s.closeRun c cause) c ch ∧ (cause = none → s.Records (s.closeRun c cause) none ∧ (s.closeRun c cause).notices = s.notices) ∧
    (∀ e t, cause = some (e, t) → s.RecordsOnAir (s.closeRun c cause) ch t e) := by
  unfold State.closeRun
  rw [hc]
  dsimp only
  cases hr : ch.run with
  | none =>
    refine ⟨⟨rfl, rfl, fun _ _ => rfl, rfl, rfl, rfl, rfl, ch, hc, hr, rfl, rfl, rfl, rfl, hr, fun _ => ⟨rfl, rfl, rfl⟩,
      fun r h => by rw [hr] at h; cases h⟩, fun _ => ⟨⟨rfl, rfl, rfl⟩, rfl⟩, fun e t _ => ?_⟩
    unfold State.RecordsOnAir; rw [hr]; exact ⟨rfl, rfl, rfl⟩
  | some r =>
    dsimp only
    have tail : ∀ u : State, (u.bus = s.bus ∧ u.outlets = s.outlets ∧ (∀ i : Fin 12, i ≠ 11 → u.notices[i] = s.notices[i]) ∧ u.chans = s.chans ∧
        u.poolFree = s.poolFree ∧ u.reports = s.reports ∧ u.tb = s.tb ∧ u.station = s.station ∧ u.cue = s.cue ∧
        (cause = none → s.Records u none ∧ u.notices = s.notices) ∧ (∀ e t, cause = some (e, t) → s.RecordsOnAir u ch t e)) →
        ∀ w : State, w = (if r.anchor.isSome then ((u.unpinAll c (r.items.filterMap Item.pins?)).modChan c (fun ch => { ch with run := none })).resolveChan c
          else (u.unpinAll c (r.items.filterMap Item.pins?)).modChan c (fun ch => { ch with run := none })) →
        RunClosed s w c ch ∧ (cause = none → s.Records w none ∧ w.notices = s.notices) ∧ (∀ e t, cause = some (e, t) → s.RecordsOnAir w ch t e) := by
      intro u hu1 w hw
      obtain ⟨a, b, d, g, g2, h, i, j, k, l, m⟩ := hu1
      obtain ⟨a', b', d', f', f2', g', _, i', j', k', q'⟩ := unpinAll_keeps c (r.items.filterMap Item.pins?) u
      have huc : u.chan? c = some ch := by unfold State.chan?; rw [g]; exact hc
      have hun := unpinAll_unpins (c := c) (r.items.filterMap Item.pins?) huc
      have hq := q' c
      rw [huc] at hq
      generalize hv : u.unpinAll c (r.items.filterMap Item.pins?) = v at *
      obtain ⟨x, hx, hx'⟩ : ∃ x, v.chan? c = some x ∧ (x.tk, x.run, x.part, x.watch, x.mirror) = (ch.tk, ch.run, ch.part, ch.watch, ch.mirror) := by
        cases hx : v.chan? c with
        | none => rw [hx] at hq; cases hq
        | some x => rw [hx] at hq; exact ⟨x, rfl, by simpa using hq⟩
      simp only [Prod.mk.injEq] at hx'
      have e1 : (v.modChan c (fun ch => { ch with run := none })).chan? c = some { x with run := none } := by
        rw [chan?_modChan (by intro _; rfl), hx]; rfl
      have e2 : w.bus = v.bus ∧ w.outlets = v.outlets ∧ w.notices = v.notices ∧ v.Records w none ∧ w.reports = v.reports ∧ w.tb = v.tb ∧
          w.station = v.station ∧ w.cue = v.cue ∧ w.poolFree = v.poolFree := by
        rw [hw]; split <;> exact ⟨rfl, rfl, rfl, ⟨rfl, rfl, rfl⟩, rfl, rfl, rfl, rfl, rfl⟩
      obtain ⟨z1, z2, z3, z4, z5, z6, z7, z8, z9⟩ := e2
      have z4 : u.Records w none := Records.before (⟨f', f2', by rw [d']⟩ : u.Records v none) z4
      have hslots : r.items.filterMap Item.pins? = (r.onAir.toList ++ r.cued.toList ++ r.goItem.toList).filterMap (fun it =>
          match it.source with
          | .event slot _ => some slot
          | .filler => it.upTo) := rfl
      have ended : ∀ y : Chan, y.run = none → y.unlinked = x.unlinked →
          y.list = (if r.anchor.isSome then resolve x.period none x.list else x.list) → s.RunEnded w ch y := by
        intro y hy hyu hyl
        refine ⟨hy, fun hn => absurd (hr.symm.trans hn) nofun, fun r' hr' hnd => ?_⟩
        obtain rfl : r = r' := Option.some.inj (hr.symm.trans hr')
        obtain ⟨x', h1, h2, h3, h4, h5⟩ := hun hnd
        rw [hx] at h1; cases h1
        rw [hslots] at h2 h3 h5
        rw [g2] at h5
        have hp : x.period = ch.period := by unfold Chan.period; rw [h4]
        refine ⟨fun ha => ?_, fun ha => ?_, hyu.trans h3, by rw [z9]; exact h5⟩
        · rw [hyl, ha]; exact h2
        · rw [hyl, if_pos (Option.isSome_iff_ne_none.2 ha), hp, h2] <;> rfl
      refine ⟨⟨by rw [z1, a', a], by rw [z2, b', b], fun n hn => by rw [z3, d']; exact d n hn, by rw [z5, g', h], by rw [z6, i', i], by rw [z7, j', j], by rw [z8, k', k], ?_⟩,
        fun hn => ⟨Records.after (l hn).1 z4, by rw [z3, d']; exact (l hn).2⟩, fun e t he => Records.after (m e t he) z4⟩
      have hwx : w.chan? c = some { x with run := none, list := if r.anchor.isSome then resolve x.period none x.list else x.list } := by
        rw [hw]; split
        · unfold State.resolveChan
          rw [chan?_modChan (by intro _; rfl), e1]; rfl
        · rw [e1]
      exact ⟨_, hwx, rfl, hx'.1, hx'.2.2.1, hx'.2.2.2.1, hx'.2.2.2.2, ended _ rfl rfl rfl⟩
    unfold State.RecordsOnAir at tail
    simp only [hr, Option.bind_some] at tail
    unfold State.RecordsOnAir
    simp only [hr, Option.bind_some]
    cases ho : r.onAir with
    | none =>
      rw [ho] at tail
      exact tail s ⟨rfl, rfl, fun _ _ => rfl, rfl, rfl, rfl, rfl, rfl, rfl, fun _ => ⟨⟨rfl, rfl, rfl⟩, rfl⟩, fun e t _ => ⟨rfl, rfl, rfl⟩⟩ _ rfl
    | some it =>
      rw [ho] at tail
      cases cause with
      | none => exact tail s ⟨rfl, rfl, fun _ _ => rfl, rfl, rfl, rfl, rfl, rfl, rfl, fun _ => ⟨⟨rfl, rfl, rfl⟩, rfl⟩, fun e t h => by cases h⟩ _ rfl
      | some p =>
        obtain ⟨e, t⟩ := p
        obtain ⟨a, b, d, f, g, g2, h, _, i, j, k⟩ := writeAsRun_changes s (asRunEnded ch r it t e)
        refine tail (s.writeAsRun (asRunEnded ch r it t e)) ⟨a, b, d, g, g2, h, i, j, k, fun h => (by cases h), fun e' t' h => ?_⟩ _ rfl
        cases h
        exact writeAsRun_records _ _

/-- Settling the send order changes the send order alone (R158). -/
theorem settleOrder_keeps (s : State) (o : OutletNo) :
    (s.settleOrder o).bus = s.bus ∧ (s.settleOrder o).outlets = s.outlets ∧ (s.settleOrder o).chans = s.chans ∧ (s.settleOrder o).notices = s.notices ∧
    (s.settleOrder o).asrun = s.asrun ∧ (s.settleOrder o).reports = s.reports ∧ (s.settleOrder o).tb = s.tb ∧ (s.settleOrder o).station = s.station ∧ (s.settleOrder o).mirrorReqs = s.mirrorReqs
    ∧ (s.settleOrder o).asrunDrops = s.asrunDrops ∧ (s.settleOrder o).poolFree = s.poolFree := by
  unfold State.settleOrder
  repeat' split
  all_goals simp

/-- What a stop now leaves: the outlet STOPPING, and nothing else changed (R168). -/
structure OutletStopped (s t : State) (o : OutletNo) : Prop where
  bus : t.bus = s.bus
  chans : t.chans = s.chans
  notices : t.notices = s.notices
  asrun : t.asrun = s.asrun
  reports : t.reports = s.reports
  tb : t.tb = s.tb
  station : t.station = s.station
  outlet : t.outlet o = (s.outlet o).stoppedNow
  others : ∀ p, p ≠ o → t.outlet p = s.outlet p

/-- A stop now of a RESERVED or AIR outlet (R168). -/
theorem stopNow_stopped (s : State) (o : OutletNo) (h : (s.outlet o).state = .reserved ∨ (s.outlet o).state = .air) : OutletStopped s (s.stopNow o) o := by
  have e : s.stopNow o = (s.toStopping o Cmd.isStop).requestStop o 0 := by
    unfold State.stopNow; rcases h with h | h <;> rw [h]
  have ht : (s.toStopping o Cmd.isStop).outlet o = { s.outlet o with
      state := .stopping, channel := none, air := false, queue := [], awaiting := []
      outstanding := (s.outlet o).outstanding.map (fun u => if Cmd.isStop u.cmd then u else { u with orphaned := true }) } := by
    unfold State.toStopping
    rw [settleOrder_outlet, outlet_modOutlet, if_pos rfl]
  have hk := settleOrder_keeps (s.modOutlet o (fun x =>
    { x with state := .stopping, channel := none, air := false, queue := [], awaiting := []
             outstanding := x.outstanding.map (fun u => if Cmd.isStop u.cmd then u else { u with orphaned := true }) })) o
  have hto : ∀ p, p ≠ o → (s.toStopping o Cmd.isStop).outlet p = s.outlet p := by
    intro p hp
    unfold State.toStopping
    rw [settleOrder_outlet, outlet_modOutlet, if_neg hp]
  rw [e]
  generalize hw : s.toStopping o Cmd.isStop = w at *
  have hw' : w.bus = s.bus ∧ w.chans = s.chans ∧ w.notices = s.notices ∧ w.asrun = s.asrun ∧ w.reports = s.reports ∧ w.tb = s.tb ∧ w.station = s.station := by
    rw [← hw]; unfold State.toStopping; exact ⟨hk.1, hk.2.2.1, hk.2.2.2.1, hk.2.2.2.2.1, hk.2.2.2.2.2.1, hk.2.2.2.2.2.2.1, hk.2.2.2.2.2.2.2.1⟩
  unfold State.requestStop
  dsimp only
  rw [outlet_modOutlet, if_pos rfl, ht]
  simp only [List.any_nil, Bool.false_eq_true, if_false]
  unfold State.offerCmd
  dsimp only
  rw [outlet_modOutlet, if_pos rfl, ht]
  simp only [cmdKind, ne_eq, not_true, and_false, if_false, List.length_nil, Config.commandDepth, Nat.zero_lt_succ, if_true]
  have hk2 := settleOrder_keeps (State.modOutlet (w.modOutlet o fun x => { x with armed := some { at_ := 0, outcome := .pending }, outstanding := x.outstanding.map fun u => { u with cmd := u.cmd.undecide } }) o
    fun x => { x with queue := x.queue ++ [Cmd.stop 0 true] }) o
  refine ⟨hk2.1.trans hw'.1, hk2.2.2.1.trans hw'.2.1, hk2.2.2.2.1.trans hw'.2.2.1, hk2.2.2.2.2.1.trans hw'.2.2.2.1, hk2.2.2.2.2.2.1.trans hw'.2.2.2.2.1, hk2.2.2.2.2.2.2.1.trans hw'.2.2.2.2.2.1, hk2.2.2.2.2.2.2.2.1.trans hw'.2.2.2.2.2.2, ?_, fun p hp => ?_⟩
  · rw [settleOrder_outlet, outlet_modOutlet, if_pos rfl, outlet_modOutlet, if_pos rfl, ht]
    unfold Outlet.stoppedNow
    simp only [Option.map_map, List.nil_append]
    congr 1
    congr 1
    funext u
    simp only [Function.comp]
    cases hs : u.cmd.isStop <;> simp
  · rw [settleOrder_outlet, outlet_modOutlet, if_neg hp, outlet_modOutlet, if_neg hp]
    exact hto p hp

end Sys2Proof.Machine
end

