-- ==== Sys2Proof/Laws/Served.lean ====
section
/-! SUPPORT. What the mirror's serving of requests leaves as it is, said once (R18). -/

namespace Sys2Proof.Machine

/-- See the head of this file. -/
structure Served (s t : State) : Prop where
  tends : Tends s t
  runs : ∀ d, (t.chan? d).map (·.run) = (s.chan? d).map (·.run)
  handbacks : ∀ d, (t.chan? d).map (·.tk.handback) = (s.chan? d).map (·.tk.handback)
  held : ∀ d ch, s.chan? d = some ch → ch.tk.state.holding = true ∨ ch.tk.state = .detached →
    ∃ x, t.chan? d = some x ∧ x.tk = ch.tk
  outlets : ∀ o, (t.outlet o).besideReservation = (s.outlet o).besideReservation
  busy : ∀ o, (s.outlet o).state ≠ .free → (s.outlet o).state ≠ .reserved → t.outlet o = s.outlet o
  spare : ∀ o, (s.outlet o).state = .free ∨ (s.outlet o).state = .reserved →
    (t.outlet o).state = .free ∨ (t.outlet o).state = .reserved
  cue : t.cue = s.cue
  reports : t.reports = s.reports
  asrun : t.asrun = s.asrun
  serial : t.itemSerial = s.itemSerial

theorem Served.refl (s : State) : Served s s :=
  ⟨.refl s, fun _ => rfl, fun _ => rfl, fun _ ch h _ => ⟨ch, h, rfl⟩, fun _ => rfl, fun _ _ _ => rfl, fun _ h => h, rfl, rfl, rfl, rfl⟩

theorem Served.trans {s t u : State} (h : Served s t) (k : Served t u) : Served s u where
  tends := h.tends.trans k.tends
  runs := fun d => (k.runs d).trans (h.runs d)
  handbacks := fun d => (k.handbacks d).trans (h.handbacks d)
  held := by
    intro d ch hd hh
    obtain ⟨x, hx, e⟩ := h.held d ch hd hh
    obtain ⟨y, hy, f⟩ := k.held d x hx (by rw [e]; exact hh)
    exact ⟨y, hy, f.trans e⟩
  outlets := fun o => (k.outlets o).trans (h.outlets o)
  busy := fun o h1 h2 => by
    have e := h.busy o h1 h2
    rw [← e]
    exact k.busy o (by rw [e]; exact h1) (by rw [e]; exact h2)
  spare := fun o h1 => k.spare o (h.spare o h1)
  cue := k.cue.trans h.cue
  reports := k.reports.trans h.reports
  asrun := k.asrun.trans h.asrun
  serial := k.serial.trans h.serial

theorem marked_chan?_ne (s : State) {c d : Channel} (ch : Chan) (n : Condition) (h : d ≠ c) : (s.marked c ch n).chan? d = s.chan? d := by
  unfold State.marked
  split
  · rfl
  · show (s.modMirror c (fun m => { m with condition := n })).chan? d = _
    unfold State.modMirror
    exact chan?_modChan_ne (by intro _; rfl) h

/-- The record of a channel whose copy was marked, but for the mark. -/
theorem marked_chan (s : State) (c d : Channel) (ch : Chan) (n : Condition) (h : s.chan? c = some ch) :
    ((s.marked c ch n).chan? d).map (fun x => (x.run, x.tk)) = (s.chan? d).map (fun x => (x.run, x.tk)) := by
  by_cases e : d = c
  · subst e; rw [marked_chan? s d ch n h, h]; rfl
  · rw [marked_chan?_ne s ch n e]

theorem serve_served (s : State) (r : MirrorReq) : Served s (s.serve r) := by
  have ht : Tends s (s.serve r) := ⟨keepsOuter_serve (KeepsOuter.refl s) r, serve_tended s r⟩
  cases r with
  | sweep c =>
    unfold State.serve at ht ⊢
    dsimp only at ht ⊢
    unfold State.sweep at ht ⊢
    cases hc : s.chan? c with
    | none => exact .refl s
    | some ch =>
      rw [hc] at ht
      dsimp only at ht ⊢
      split
      · exact .refl s
      · rename_i hn
        rw [if_neg hn] at ht
        have key : ∀ (f : Chan → Chan) (l : List EventRec), (∀ x, (f x).run = x.run ∧ (f x).tk = x.tk ∧ (f x).part.channel = x.part.channel) →
            ∀ d, (((s.freeRecords l).modChan c f).chan? d).map (fun x => (x.run, x.tk)) = (s.chan? d).map (fun x => (x.run, x.tk)) := by
          intro f l hf d
          by_cases e : d = c
          · subst e
            rw [chan?_modChan (fun x => (hf x).2.2), show (s.freeRecords l).chan? d = s.chan? d from rfl, hc]
            simp [(hf ch).1, (hf ch).2.1]
          · rw [chan?_modChan_ne (fun x => (hf x).2.2) e]; rfl
        have hk := key (fun ch' => { ch' with
            list := (sweepFrom (s.cutoff ch) ch.list).1
            mirror := { ch'.mirror with reclaimed := sat16 (ch'.mirror.reclaimed + (sweepFrom (s.cutoff ch) ch.list).2.1.length) } })
          (sweepFrom (s.cutoff ch) ch.list).2.1 (fun x => ⟨rfl, rfl, rfl⟩)
        refine ⟨ht, fun d => ?_, fun d => ?_, fun d x hd _ => ?_, fun _ => rfl, fun _ _ _ => rfl, fun _ h => h, rfl, rfl, rfl, rfl⟩
        · have := congrArg (Option.map Prod.fst) (hk d)
          simp only [Option.map_map] at this
          exact this
        · have := congrArg (Option.map (fun p : Option RunRec × TakeoverRec => p.2.handback)) (hk d)
          simp only [Option.map_map] at this
          exact this
        · have h1 := hk d
          rw [hd] at h1
          cases hy : State.chan? (State.modChan _ c _) d with
          | none => rw [hy] at h1; cases h1
          | some y => rw [hy] at h1; exact ⟨y, rfl, congrArg Prod.snd (Option.some.inj h1)⟩
  | drift c v e =>
    unfold State.serve at ht ⊢
    dsimp only at ht ⊢
    unfold State.driftCheck at ht ⊢
    cases hc : s.chan? c with
    | none => exact .refl s
    | some ch =>
      rw [hc] at ht
      dsimp only at ht ⊢
      split
      · rename_i hm
        rw [if_pos hm] at ht
        have hcl := setCondition_claims hc Condition.markStale (markStale_ok _)
        have hst : s.markStale c = s.setCondition c Condition.markStale := rfl
        rw [← hst] at hcl
        have hmo : ∀ o, (s.marked c ch ch.mirror.condition.markStale).outlet o = s.outlet o := by
          intro o; unfold State.marked; split <;> rfl
        refine ⟨ht, fun d => ?_, fun d => ?_, fun d x hd hh => ?_, fun o => (hcl.outlets o).trans (by rw [hmo]), fun o h1 h2 => ?_, fun o h1 => ?_, ?_, ?_, ?_, ?_⟩
        · have h1 := hcl.chan d
          have h2 := congrArg (Option.map Prod.fst) (marked_chan s c d ch ch.mirror.condition.markStale hc)
          simp only [Option.map_map] at h2
          have h3 := congrArg (Option.map (·.run)) h1
          simp only [Option.map_map] at h3
          exact Eq.trans h3 h2
        · have h1 := hcl.chan d
          have h2 := congrArg (Option.map (fun p : Option RunRec × TakeoverRec => p.2.handback))
            (marked_chan s c d ch ch.mirror.condition.markStale hc)
          simp only [Option.map_map] at h2
          have h3 := congrArg (Option.map (·.tk.handback)) h1
          simp only [Option.map_map] at h3
          exact Eq.trans h3 h2
        · have h2 := marked_chan s c d ch ch.mirror.condition.markStale hc
          rw [hd] at h2
          cases hy : (s.marked c ch ch.mirror.condition.markStale).chan? d with
          | none => rw [hy] at h2; cases h2
          | some y =>
            rw [hy] at h2
            have ey : y.tk = x.tk := congrArg Prod.snd (Option.some.inj h2)
            exact ⟨y, hcl.held d y hy (by rw [ey]; exact hh), ey⟩
        · rw [← hmo] at h1 h2 ⊢; exact hcl.busy o h1 h2
        · rw [← hmo] at h1; exact hcl.spare o h1
        · rw [hcl.cue]; unfold State.marked; split <;> rfl
        · rw [hcl.reports]; unfold State.marked; split <;> rfl
        · rw [hcl.asrun]; unfold State.marked; split <;> rfl
        · have : (s.markStale c).itemSerial = (s.marked c ch ch.mirror.condition.markStale).itemSerial := by rw [hcl.rest]
          rw [this]; unfold State.marked; split <;> rfl
      · exact .refl s

theorem Served.ofReqs (s : State) (l : List MirrorReq) : Served s { s with mirrorReqs := l } :=
  ⟨tends_reqs (.refl s) l, fun _ => rfl, fun _ => rfl, fun _ ch h _ => ⟨ch, h, rfl⟩, fun _ => rfl, fun _ _ _ => rfl, fun _ h => h, rfl, rfl, rfl, rfl⟩

theorem serveThrough_served (p : MirrorReq → Bool) (l : List MirrorReq) : ∀ s : State, Served s (State.serveThrough p l s) := by
  induction l with
  | nil => exact fun s => .refl s
  | cons r rest ih =>
    intro s
    have h1 := (Served.ofReqs s rest).trans (serve_served { s with mirrorReqs := rest } r)
    unfold State.serveThrough
    dsimp only
    split
    · exact h1
    · exact h1.trans (ih _)

theorem serveAll_served (s : State) : Served s s.serveAll := serveThrough_served _ _ s

end Sys2Proof.Machine
end

