-- ==== Sys2Proof/Laws/Runner.lean ====
section
/-! SUPPORT. What the runner's shared operations do, said once in the words of Safety: cueing and locking an item, a late cue, a
choice, a changed list, and the start and the failure of an item (R139 to R145). -/

namespace Sys2Proof.Machine

variable {s t : State} {c : Channel} {ch : Chan} {r : RunRec}

theorem modChan_get (h : s.chan? c = some ch) (f : Chan → Chan) (hf : ∀ x : Chan, (f x).part.channel = x.part.channel) :
    (s.modChan c f).chan? c = some (f ch) := by rw [chan?_modChan hf, h]; rfl

theorem modRun_chan? (s : State) (c : Channel) (f : RunRec → RunRec) :
    (s.modRun c f).chan? c = (s.chan? c).map (fun ch => { ch with run := ch.run.map f }) :=
  chan?_modChan (by intro _; rfl)

theorem modRun_get (h : s.chan? c = some ch) (f : RunRec → RunRec) :
    (s.modRun c f).chan? c = some { ch with run := ch.run.map f } := by rw [modRun_chan?, h]; rfl

/-- The pinning of a record marks it in the list (R35). -/
theorem pin_get (h : s.chan? c = some ch) (n : Nat) : (s.pin c n).chan? c = some { ch with
    list := ch.list.map (fun e => if e.slot = n then { e with pinned := true } else e) } := by
  unfold State.pin
  rw [chan?_modChan (by intro _; rfl), h]; rfl

/-- The record an item holds pinned, by what the item airs. -/
theorem pins?_iff (it : Item) (n : Nat) : it.pins? = some n ↔ it.Holds n := by
  unfold Item.pins? Item.Holds
  cases it.source <;> simp

theorem pinItem_get (h : s.chan? c = some ch) (it : Item) : ∃ l, (s.pinItem c it).chan? c = some { ch with list := l } ∧
    (∀ e ∈ l, it.Holds e.slot → e.pinned = true) ∧
    l.map (fun e => (e.slot, e.data)) = ch.list.map (fun e => (e.slot, e.data)) ∧
    l = ch.list.map (fun e => match it.source with
      | .event slot _ => if e.slot = slot then { e with pinned := true } else e
      | .filler => if it.upTo = some e.slot then { e with pinned := true } else e) := by
  have held : ∀ e : EventRec, (match it.source with
      | .event slot _ => if e.slot = slot then { e with pinned := true } else e
      | .filler => if it.upTo = some e.slot then { e with pinned := true } else e) =
      if it.pins? = some e.slot then { e with pinned := true } else e := by
    intro e
    unfold Item.pins?
    cases it.source with
    | filler => rfl
    | event n id => simp only [Option.some.injEq, eq_comm]
  simp only [held, ← pins?_iff]
  unfold State.pinItem
  cases hs : it.pins? with
  | none => exact ⟨ch.list, h, nofun, rfl, by simp⟩
  | some n =>
    refine ⟨_, pin_get h n, fun e he x => ?_, ?_, by simp only [Option.some.injEq, eq_comm]⟩
    · obtain ⟨y, hy, rfl⟩ := List.mem_map.1 he
      split
      · rfl
      · rename_i hn
        rw [if_neg hn] at x
        exact absurd (Option.some.inj x).symm hn
    · rw [List.map_map]
      apply List.map_congr_left
      intro e _
      simp only [Function.comp]
      split <;> rfl

/-- The PREP that the runner issues for an item is the one R160 spells. -/
theorem prepOf_for (ch : Chan) (it : Item) (j : Bool) : ch.prepOf it j = ch.prepFor it j := by
  unfold Chan.prepOf Chan.prepFor Chan.material Chan.record? Item.slot? Item.openFiller
  cases it.source with
  | filler => cases it.cuedEnd <;> simp
  | event slot id =>
    simp only [Option.bind_some]
    cases List.find? _ (ch.list ++ ch.unlinked) <;> simp

/-- A record found by its slot has the stored data that the list holds, whatever pins made of it. -/
theorem material_pinned (ch : Chan) (l : List EventRec) (h : l.map (fun e => (e.slot, e.data)) = ch.list.map (fun e => (e.slot, e.data)))
    (run : Option RunRec) (it : Item) (j : Bool) : ({ ch with list := l, run := run } : Chan).prepOf it j = ch.prepOf it j := by
  have key : ∀ (n : Nat) (a b : List EventRec), a.map (fun e => (e.slot, e.data)) = b.map (fun e => (e.slot, e.data)) →
      (a.find? (fun e => e.slot == n)).map (·.data) = (b.find? (fun e => e.slot == n)).map (·.data) := by
    intro n a
    induction a with
    | nil => intro b hb; cases b with | nil => rfl | cons _ _ => cases hb
    | cons x a ih =>
      intro b hb
      cases b with
      | nil => cases hb
      | cons y b =>
        simp only [List.map_cons, List.cons.injEq, Prod.mk.injEq] at hb
        simp only [List.find?_cons, hb.1.1]
        split
        · simp [hb.1.2]
        · exact ih b hb.2
  have hm : ({ ch with list := l, run := run } : Chan).material it = ch.material it := by
    unfold Chan.material
    cases hs : it.slot? with
    | none => rfl
    | some n =>
      simp only [Option.bind_some]
      have := key n (l ++ ch.unlinked) (ch.list ++ ch.unlinked) (by rw [List.map_append, List.map_append, h])
      unfold Chan.record?
      dsimp only
      cases h1 : (l ++ ch.unlinked).find? (fun e => e.slot == n) <;> cases h2 : (ch.list ++ ch.unlinked).find? (fun e => e.slot == n) <;>
        rw [h1, h2] at this <;> simp_all
  unfold Chan.prepOf
  rw [hm]

/-- A command offered to an outlet that takes it joins the queue (R157). -/
theorem offerCmd_takes (s : State) (o : OutletNo) (cmd : Cmd) (h1 : (s.outlet o).state ≠ .stopping) (h2 : (s.outlet o).state ≠ .faulted)
    (h3 : (s.outlet o).queue.length < 4) :
    s.offerCmd o cmd = (s.modOutlet o (fun x => { x with queue := x.queue ++ [cmd] })).settleOrder o := by
  unfold State.offerCmd
  dsimp only
  rw [if_neg (by tauto)]
  exact if_pos h3

/-- What settling side cues leaves: the next side cue moved on, commands at the tail of the queue, and the rest as it was. -/
structure SidesOf (s t : State) (c : Channel) (ch : Chan) (r : RunRec) (it : Item) : Prop where
  chan : ∃ n, t.chan? c = some { ch with run := some { r with cued := some { it with nextCue := n } } }
  queue : (s.outlet r.outlet).queue <+: (t.outlet r.outlet).queue
  others : ∀ p, p ≠ r.outlet → t.outlet p = s.outlet p
  bus : t.bus = s.bus
  asrun : s.Records t none
  reqs : t.mirrorReqs = s.mirrorReqs
  reports : t.reports = s.reports
  pool : t.poolFree = s.poolFree

theorem offerSide_sides (s : State) (o : OutletNo) (code : BitVec 16) (x : Time) :
    (s.outlet o).queue <+: ((s.offerCmd o (.side code x)).outlet o).queue ∧
    (∀ p, p ≠ o → (s.offerCmd o (.side code x)).outlet p = s.outlet p) ∧ (s.offerCmd o (.side code x)).chans = s.chans ∧
    (s.offerCmd o (.side code x)).bus = s.bus ∧ s.Records (s.offerCmd o (.side code x)) none ∧
    (s.offerCmd o (.side code x)).mirrorReqs = s.mirrorReqs ∧ (s.offerCmd o (.side code x)).reports = s.reports ∧
    (s.offerCmd o (.side code x)).poolFree = s.poolFree := by
  unfold State.offerCmd
  dsimp only
  split
  · exact ⟨List.prefix_refl _, fun _ _ => rfl, rfl, rfl, .refl _, rfl, rfl, rfl⟩
  · split
    · obtain ⟨a, _, d, d2, f, g, _, _, j, f2, j2⟩ := settleOrder_keeps (s.modOutlet o (fun x_1 => { x_1 with queue := x_1.queue ++ [Cmd.side code x] })) o
      refine ⟨?_, fun p hp => ?_, d, a, ⟨f, f2, by rw [d2]; rfl⟩, j, g, j2⟩
      · rw [settleOrder_outlet, outlet_modOutlet, if_pos rfl]; exact List.prefix_append _ _
      · rw [settleOrder_outlet, outlet_modOutlet, if_neg hp]
    · unfold State.failCmd
      simp only [Bool.false_eq_true, if_false]
      exact ⟨List.prefix_refl _, fun _ _ => rfl, rfl, rfl, ⟨rfl, rfl, raise_other _ _ _ _ 11 nofun⟩, rfl, rfl, rfl⟩

theorem settleSide_sides {it : Item} {n : Nat} (h : s.chan? c = some { ch with run := some { r with cued := some { it with nextCue := n } } }) :
    SidesOf s (s.settleSide c .cued) c ch r it := by
  unfold State.settleSide
  rw [h]
  dsimp only
  split
  · exact ⟨⟨n, h⟩, List.prefix_refl _, fun _ _ => rfl, rfl, .refl _, rfl, rfl, rfl⟩
  · have hm := modRun_get h (fun r => r.modItem .cued (fun i => { i with nextCue := i.nextCue + 1 }))
    have hm : (s.modRun c (fun r => r.modItem .cued (fun i => { i with nextCue := i.nextCue + 1 }))).chan? c =
      some { ch with run := some { r with cued := some { it with nextCue := n + 1 } } } := by rw [hm]; rfl
    split
    · obtain ⟨a, b, d, e, f, g, k, k2⟩ := offerSide_sides (s.modRun c (fun r => r.modItem .cued (fun i => { i with nextCue := i.nextCue + 1 })))
        r.outlet _ _
      exact ⟨⟨n + 1, by unfold State.chan?; rw [d]; exact hm⟩, a, b, e, f, g, k, k2⟩
    · exact ⟨⟨n + 1, hm⟩, List.prefix_refl _, fun _ _ => rfl, rfl, .refl _, rfl, rfl, rfl⟩

theorem settleDueSides_sides {it : Item} (k : Nat) : ∀ (s : State) (n : Nat),
    s.chan? c = some { ch with run := some { r with cued := some { it with nextCue := n } } } →
    SidesOf s (s.settleDueSides c .cued k) c ch r it := by
  induction k with
  | zero => exact fun s n h => ⟨⟨n, h⟩, List.prefix_refl _, fun _ _ => rfl, rfl, .refl _, rfl, rfl, rfl⟩
  | succ k ih =>
    intro s n h
    unfold State.settleDueSides
    split
    · have h1 := settleSide_sides h
      obtain ⟨m, hm⟩ := h1.chan
      have h2 := ih _ m hm
      exact ⟨h2.chan, h1.queue.trans h2.queue, fun p hp => (h2.others p hp).trans (h1.others p hp), h2.bus.trans h1.bus,
        Records.before h1.asrun h2.asrun, h2.reqs.trans h1.reqs, h2.reports.trans h1.reports, h2.pool.trans h1.pool⟩
    · exact ⟨⟨n, h⟩, List.prefix_refl _, fun _ _ => rfl, rfl, .refl _, rfl, rfl, rfl⟩

/-- Locking the cued item (R142). -/
theorem lockCued_locks {it : Item} (h : s.chan? c = some ch) (hr : ch.run = some r) (hi : r.cued = some it)
    (h1 : (s.outlet r.outlet).state ≠ .stopping) (h2 : (s.outlet r.outlet).state ≠ .faulted)
    (h3 : (s.outlet r.outlet).queue.length < 4) (j : Bool) :
    ∃ n, (s.lockItem c .cued j).chan? c = some { ch with run := some { r with
        cued := some { it with locked := true, nextCue := n }, cueMoment := none, cuedOrigin := r.walkOrigin
        walkOrigin := match it.source with
          | .event _ id => some id
          | .filler => r.walkOrigin } } ∧
      (s.outlet r.outlet).queue ++ [.prep (ch.prepOf it j)] <+: ((s.lockItem c .cued j).outlet r.outlet).queue ∧
      (∀ p, p ≠ r.outlet → (s.lockItem c .cued j).outlet p = s.outlet p) ∧ (s.lockItem c .cued j).bus = s.bus ∧
      s.Records (s.lockItem c .cued j) none ∧ (s.lockItem c .cued j).mirrorReqs = s.mirrorReqs ∧
      (s.lockItem c .cued j).reports = s.reports ∧ (s.lockItem c .cued j).poolFree = s.poolFree := by
  unfold State.lockItem
  rw [h]
  dsimp only
  rw [hr]
  dsimp only
  rw [show r.item .cued = some it from hi]
  dsimp only
  generalize hf : (fun r' : RunRec => ({ (r'.modItem .cued (fun i => { i with locked := true })) with
    cueMoment := if ItemPlace.cued = .cued then none else r'.cueMoment
    goOrigin := if ItemPlace.cued = .goItem then r'.walkOrigin else r'.goOrigin
    cuedOrigin := if ItemPlace.cued = .cued then r'.walkOrigin else r'.cuedOrigin
    walkOrigin := match it.event? with
      | some id => some id
      | none => r'.walkOrigin } : RunRec)) = f
  have hfr : f r = { r with cued := some { it with locked := true }, cueMoment := none, cuedOrigin := r.walkOrigin
                            walkOrigin := match it.source with
                              | .event _ id => some id
                              | .filler => r.walkOrigin } := by
    rw [← hf]
    simp only [RunRec.modItem, hi, Option.map_some, if_true]
    unfold Item.event?
    cases it.source <;> rfl
  have hm := modRun_get h f
  rw [hr] at hm
  simp only [Option.map_some, hfr] at hm
  rw [offerCmd_takes _ _ _ (by exact h1) (by exact h2) (by exact h3)]
  obtain ⟨a, _, d, d2, e, g, _, _, k, e2, k2⟩ := settleOrder_keeps ((s.modRun c f).modOutlet r.outlet (fun x =>
    { x with queue := x.queue ++ [Cmd.prep (ch.prepOf it j)] })) r.outlet
  generalize hw : ((s.modRun c f).modOutlet r.outlet (fun x => { x with queue := x.queue ++ [Cmd.prep (ch.prepOf it j)] })).settleOrder
    r.outlet = w at *
  have hwc : w.chan? c = some { ch with run := some { ({ r with
      cueMoment := none, cuedOrigin := r.walkOrigin
      walkOrigin := match it.source with
        | .event _ id => some id
        | .filler => r.walkOrigin } : RunRec) with cued := some { ({ it with locked := true } : Item) with nextCue := it.nextCue } } } := by
    unfold State.chan?; rw [d]; exact hm
  have hs := settleDueSides_sides 4 w it.nextCue hwc
  obtain ⟨n, hn⟩ := hs.chan
  have hq : (w.outlet r.outlet).queue = (s.outlet r.outlet).queue ++ [.prep (ch.prepOf it j)] := by
    rw [← hw, settleOrder_outlet, outlet_modOutlet, if_pos rfl]; rfl
  have he : s.Records w none := ⟨e, e2, by rw [d2]; rfl⟩
  refine ⟨n, hn, ?_, fun p hp => ?_, hs.bus.trans a, Records.before he hs.asrun, hs.reqs.trans k, hs.reports.trans g,
    hs.pool.trans k2⟩
  · rw [← hq]; exact hs.queue
  · rw [hs.others p hp, ← hw, settleOrder_outlet, outlet_modOutlet, if_neg hp]; rfl

/-- Making an item the cued one. -/
theorem setCued_get (h : s.chan? c = some ch) (hr : ch.run = some r) (it : Item) :
    ∃ l, (s.setCued c it).chan? c = some { ch with list := l, run := some { r with cued := some it, cueMoment := none } } ∧
      (∀ e ∈ l, it.Holds e.slot → e.pinned = true) ∧
      l.map (fun e => (e.slot, e.data)) = ch.list.map (fun e => (e.slot, e.data)) ∧
      (s.setCued c it).outlets = s.outlets ∧ (s.setCued c it).bus = s.bus ∧ s.Records (s.setCued c it) none ∧
      (s.setCued c it).mirrorReqs = s.mirrorReqs ∧ (s.setCued c it).reports = s.reports ∧ (s.setCued c it).poolFree = s.poolFree ∧
      l = ch.list.map (fun e => match it.source with
        | .event slot _ => if e.slot = slot then { e with pinned := true } else e
        | .filler => if it.upTo = some e.slot then { e with pinned := true } else e) := by
  have h1 : ({ s with itemSerial := s.itemSerial + 1 } : State).chan? c = some ch := h
  have h2 := modRun_get h1 (fun r => { r with cued := some it, cueMoment := none })
  rw [hr] at h2
  obtain ⟨l, hl, hp, hd, he⟩ := pinItem_get h2 it
  refine ⟨l, hl, hp, hd, ?_⟩
  unfold State.setCued State.pinItem
  split <;> exact ⟨rfl, rfl, ⟨rfl, rfl, rfl⟩, rfl, rfl, rfl, he⟩

/-- An item is cued and locked at once (R142). -/
theorem cueNow_cued {it : Item} (h : s.chan? c = some ch) (hr : ch.run = some r) (ho : s.Takes r.outlet) :
    s.Cued ((s.setCued c it).lockItem c .cued false) c ch r it none ∧
      ((s.setCued c it).lockItem c .cued false).reports = s.reports := by
  obtain ⟨l, hl, hp, hd, a1, a2, a3, a4, a5, a6, a7⟩ := setCued_get h hr it
  have ho' : ∀ p, (s.setCued c it).outlet p = s.outlet p := by intro p; unfold State.outlet; rw [a1]
  obtain ⟨n, hn, hq, hot, b1, b2, b3, b4, b5⟩ := lockCued_locks (r := { r with cued := some it, cueMoment := none }) hl rfl rfl
    (by rw [ho']; exact ho.1) (by rw [ho']; exact ho.2.1) (by rw [ho']; exact ho.2.2) false
  have hk : Keeps s ((s.setCued c it).lockItem c .cued false) := keeps_lockItem (keeps_setCued (Keeps.refl s) c it) _ _ _
  refine ⟨⟨_, { it with locked := true, nextCue := n }, hn, rfl, ?_, rfl, hp, a7, rfl, b5.trans a6, ?_, fun p hp' => ?_, b1.trans a2, Records.before a3 b2, b3.trans a4,
    hk.sameOutside, hk.sameWatches, hk.sameMirror⟩, b4.trans a5⟩
  · cases it.source <;> rfl
  · rw [ho'] at hq
    show (s.outlet r.outlet).queue ++ [.prep (ch.prepFor it false)] <+: _
    rw [← prepOf_for, ← material_pinned ch l hd (some { r with cued := some it, cueMoment := none })]
    exact hq
  · rw [hot p hp', ho']

/-- An item is chosen and waits for its cue moment (R140). -/
theorem cueLater_cued {it : Item} (h : s.chan? c = some ch) (hr : ch.run = some r) (hn : it.locked = false) (m : Time) :
    s.Cued ((s.setCued c it).modRun c (fun r => { r with cueMoment := some m })) c ch r it (some m) ∧
      ((s.setCued c it).modRun c (fun r => { r with cueMoment := some m })).reports = s.reports := by
  obtain ⟨l, hl, hp, hd, a1, a2, a3, a4, a5, a6, a7⟩ := setCued_get h hr it
  have ho' : ∀ p, (s.setCued c it).outlet p = s.outlet p := by intro p; unfold State.outlet; rw [a1]
  have hk : Keeps s ((s.setCued c it).modRun c (fun r => { r with cueMoment := some m })) :=
    keeps_modRun (keeps_setCued (Keeps.refl s) c it) _ _
  have hm := modRun_get hl (fun r => { r with cueMoment := some m })
  refine ⟨⟨_, { it with locked := false }, hm, rfl, ?_, rfl, hp, a7, rfl, a6, ⟨rfl, ho' _⟩, fun p _ => ho' p, a2, a3, a4,
    hk.sameOutside, hk.sameWatches, hk.sameMirror⟩, a5⟩
  rw [← hn]; rfl

theorem State.SameOutside.trans {s t u : State} (h : s.SameOutside t) (k : t.SameOutside u) : s.SameOutside u :=
  ⟨k.tb.trans h.tb, k.station.trans h.station, k.locked.trans h.locked, k.floor.trans h.floor, k.port.trans h.port,
    k.pending.trans h.pending, k.feed.trans h.feed, k.bus.trans h.bus, k.cue.trans h.cue, k.parts.trans h.parts⟩

/-- A cue after the hold was set is a cue of the run with that hold. -/
theorem Cued_holding {hold : Option EventId} {it : Item} {m : Option Time} (h : (s.setHold c hold).Cued t c
    { ch with run := some (r.holding hold) } (r.holding hold) it m) : s.Cued t c ch (r.holding hold) it m := by
  obtain ⟨x, it', h1, h2, h3, h4, h5, g1, g2, g3, h6, h7, h8, h9, h10, h11, h12, h13⟩ := h
  have hk : Keeps s (s.setHold c hold) := keeps_setHold (Keeps.refl s) c hold
  exact ⟨x, it', h1, h2, h3, h4, h5, g1, g2, g3, h6, h7, h8, Records.before ⟨rfl, rfl, rfl⟩ h9, h10, hk.sameOutside.trans h11,
    Eq.trans h12 hk.sameWatches, Eq.trans h13 hk.sameMirror⟩

theorem setHold_get (h : s.chan? c = some ch) (hr : ch.run = some r) (hold : Option EventId) :
    (s.setHold c hold).chan? c = some { ch with run := some (r.holding hold) } := by
  unfold State.setHold
  rw [modRun_get h, hr]; rfl

/-! ## Choices -/

theorem pastLimit_iff (ch : Chan) (x : Time) : ch.pastLimit x = true ↔ ch.Limited x := by
  unfold Chan.pastLimit Chan.limit Chan.Limited atOrBefore
  cases ch.tk.handback <;> simp

theorem onOpenFiller_iff (r : RunRec) : r.onOpenFiller = true ↔ ∃ it, r.onAir = some it ∧ it.source = .filler ∧ it.cuedEnd = none := by
  unfold RunRec.onOpenFiller Item.openFiller
  cases r.onAir <;> simp

/-- A cue of an item that a choice or a join result made, with its manual hold (R142, R147). -/
theorem holdCueNow_cued {it : Item} {hold : Option EventId} (h : s.chan? c = some ch) (hr : ch.run = some r) (ho : s.Takes r.outlet) :
    s.Cued (((s.setHold c hold).setCued c it).lockItem c .cued false) c ch (r.holding hold) it none ∧
      (((s.setHold c hold).setCued c it).lockItem c .cued false).reports = s.reports := by
  have := cueNow_cued (r := r.holding hold) (it := it) (setHold_get h hr hold) rfl ho
  exact ⟨Cued_holding this.1, this.2⟩

/-- The item of a join result, field by field (R137, table 7.5): beside its event, or the event its filler plays up to, every result
gives it the start, the frames skipped and the frames to play, and open filler no end. -/
theorem join_item (j : JoinResult) (offset : Time) (serial : Nat) :
    (j.item offset serial).mainStart = j.mainStart ∧ (j.item offset serial).localStart = j.mainStart + offset ∧
      (j.item offset serial).pins? = (match j with
        | .entry e _ _ _ | .eventStart e _ _ | .fillerThen e _ _ _ => some e.slot
        | .fillerOpen _ _ => none) ∧
      (j.item offset serial).locked = false ∧ (j.item offset serial).serial = serial := by
  cases j <;> exact ⟨rfl, rfl, rfl, rfl, rfl⟩

/-- A late cue does what R142 says. -/
theorem lateCue_late (h : s.chan? c = some ch) (hr : ch.run = some r) (ho : s.Takes r.outlet) :
    s.LateCued (s.lateCue c ch r) c ch r ∧ (s.lateCue c ch r).reports = s.reports := by
  unfold State.LateCued State.lateCue
  dsimp only
  have hj : s.joinInput ch r s.now = { time := s.tb.now, offset := r.offset, period := ch.period, lead := s.sp.cueLead * ch.period, minTail := ch.part.minTail } := rfl
  rw [hj]
  generalize join { time := s.tb.now, offset := r.offset, period := ch.period, lead := s.sp.cueLead * ch.period, minTail := ch.part.minTail }
    (r.walkStart ch.list) = j
  have main : (ch.Limited j.mainStart → s.cueJoin c ch r j = s) ∧ (¬ ch.Limited j.mainStart →
      s.Cued (s.cueJoin c ch r j) c ch (r.holding j.hold) (j.item r.offset s.itemSerial) none) ∧ (s.cueJoin c ch r j).reports = s.reports := by
    unfold State.cueJoin
    refine ⟨fun hl => if_pos ((pastLimit_iff _ _).2 hl), fun hl => ?_, ?_⟩
    · rw [if_neg (mt (pastLimit_iff _ _).1 hl)]
      exact (holdCueNow_cued h hr ho).1
    · split
      · rfl
      · exact (holdCueNow_cued h hr ho).2
  cases j with
  | fillerOpen x hold =>
    dsimp only
    refine ⟨⟨fun hb => ?_, fun hb => ?_⟩, ?_⟩
    · obtain ⟨_, _, it, _, hi⟩ := hb
      rw [if_pos ((onOpenFiller_iff r).2 ⟨it, hi⟩)]
      rfl
    · rw [if_neg (fun hf => hb (by obtain ⟨it, hi⟩ := (onOpenFiller_iff r).1 hf; exact ⟨x, hold, it, rfl, hi⟩))]
      exact ⟨main.1, main.2.1⟩
    · split
      · rfl
      · exact main.2.2
  | _ =>
    dsimp only
    refine ⟨⟨fun hb => ?_, fun _ => ⟨main.1, main.2.1⟩⟩, main.2.2⟩
    obtain ⟨_, _, _, hx, _⟩ := hb
    cases hx

/-- A chosen item is taken (R140, R142, R173). -/
theorem takeChoice_takes {it : Item} {hold : Option EventId} (h : s.chan? c = some ch) (hr : ch.run = some r) (ho : s.Takes r.outlet)
    (hn : it.locked = false) :
    ((ch.Limited it.mainStart → s.takeChoice c ch r it hold = s) ∧
    (¬ ch.Limited it.mainStart →
      (diff it.mainStart (s.tb.now - r.offset + BitVec.ofNat 48 (s.sp.cueLead * ch.period)) < 0 →
        s.LateCued (s.takeChoice c ch r it hold) c ch r) ∧
      (diff it.mainStart (s.tb.now - r.offset + BitVec.ofNat 48 (s.sp.cueLead * ch.period)) = 0 →
        s.Cued (s.takeChoice c ch r it hold) c ch (r.holding hold) it none) ∧
      (0 < diff it.mainStart (s.tb.now - r.offset + BitVec.ofNat 48 (s.sp.cueLead * ch.period)) →
        s.Cued (s.takeChoice c ch r it hold) c ch (r.holding hold) it
        (some (it.localStart - BitVec.ofNat 48 (s.sp.cueLead * ch.period)))))) ∧
    (s.takeChoice c ch r it hold).reports = s.reports := by
  unfold State.takeChoice
  dsimp only
  have hs : plus (s.runNow r) (s.lead ch) = s.tb.now - r.offset + BitVec.ofNat 48 (s.sp.cueLead * ch.period) := rfl
  rw [hs]
  generalize diff it.mainStart (s.tb.now - r.offset + BitVec.ofNat 48 (s.sp.cueLead * ch.period)) = d
  refine ⟨⟨fun hl => if_pos ((pastLimit_iff _ _).2 hl), fun hl => ?_⟩, ?_⟩
  · rw [if_neg (mt (pastLimit_iff _ _).1 hl)]
    refine ⟨fun h1 => ?_, fun h1 => ?_, fun h1 => ?_⟩
    · rw [if_pos h1]; exact (lateCue_late h hr ho).1
    · rw [if_neg (by omega), if_pos h1]; exact (holdCueNow_cued h hr ho).1
    · rw [if_neg (by omega), if_neg (by omega)]
      exact Cued_holding (cueLater_cued (r := r.holding hold) (setHold_get h hr hold) rfl hn _).1
  · split
    · rfl
    · split
      · exact (lateCue_late h hr ho).2
      · split
        · exact (holdCueNow_cued h hr ho).2
        · exact (cueLater_cued (r := r.holding hold) (setHold_get h hr hold) rfl hn _).2

/-- What an event that a choice ends at comes with: it is in its place with its times (R140). -/
theorem examine_event (p : Nat) (e : Time) (l : List EventRec) (x : EventRec) (st : Time) (n : Nat)
    (h : examine p e l = .event x st n ∨ examine p e l = .gapTo x st n) : ∃ y, x.times = some y := by
  induction l with
  | nil => rcases h with h | h <;> cases h
  | cons a l ih =>
    unfold examine at h
    cases ht : a.times with
    | none => rw [ht] at h; rcases h with h | h <;> cases h
    | some t =>
      rw [ht] at h
      dsimp only at h
      by_cases he : a.eclipsed = true
      · rw [if_pos he] at h; exact ih h
      · rw [if_neg he] at h
        by_cases hb : before t.nomStart e = true
        · rw [if_pos hb] at h; rcases h with h | h <;> cases h
        · rw [if_neg hb] at h
          by_cases hp : (t.nomStart - e).toNat < p
          · rw [if_pos hp] at h
            rcases h with h | h <;> cases h
            exact ⟨t, ht⟩
          · rw [if_neg hp] at h
            rcases h with h | h <;> cases h
            exact ⟨t, ht⟩

theorem eventItem_chosen (e : EventRec) (offset start : Time) (n serial : Nat) :
    eventItem e offset start 0 n serial =
      chosenItem (.event e.slot e.data.id) offset start e.data.entry.toNat n (e.times.map (·.effEnd)) serial := by
  unfold eventItem chosenItem firstCue
  have : e.data.cues.findIdx (fun c => decide (0 ≤ c.offset.toNat)) = 0 := by
    cases e.data.cues <;> simp [List.findIdx_cons]
  rw [this]
  rfl

/-- The choice from an on-air end (R140). -/
theorem chooseFrom_chose (h : s.chan? c = some ch) (hr : ch.run = some r) (ho : s.Takes r.outlet) (e : Time) :
    s.Chose (s.chooseFrom c ch r e) c ch r e false ∧ (s.chooseFrom c ch r e).reports = s.reports := by
  unfold State.Chose State.chooseFrom
  dsimp only
  cases choiceOf ch.period e (r.walkStart ch.list) with
  | late => exact lateCue_late h hr ho
  | event x st n =>
    dsimp only
    rw [eventItem_chosen]
    exact takeChoice_takes h hr ho rfl
  | gapTo x st n => exact takeChoice_takes h hr ho rfl
  | fillerOpen hold => exact takeChoice_takes h hr ho rfl

/-- The choice behind open filler on air (R141). -/
theorem chooseBehind_chose (h : s.chan? c = some ch) (hr : ch.run = some r) (ho : s.Takes r.outlet) (e : Time) :
    s.Chose (s.chooseBehindFiller c ch r e) c ch r e true ∧ (s.chooseBehindFiller c ch r e).reports = s.reports := by
  unfold State.Chose State.chooseBehindFiller
  dsimp only
  cases choiceOf ch.period e (r.walkStart ch.list) with
  | late => exact lateCue_late h hr ho
  | event x st n =>
    dsimp only
    rw [eventItem_chosen]
    exact takeChoice_takes h hr ho rfl
  | gapTo x st n =>
    dsimp only
    rw [eventItem_chosen]
    exact takeChoice_takes h hr ho rfl
  | fillerOpen hold => exact ⟨rfl, rfl⟩

/-- The runner's choice (R139 to R141). -/
theorem choose_next (h : s.chan? c = some ch) (hr : ch.run = some r) (ho : s.Takes r.outlet) (stop : Option Time) :
    s.ChoseNext (s.choose c stop) c ch r stop ∧ (s.choose c stop).reports = s.reports := by
  unfold State.choose
  rw [h]
  dsimp only
  rw [hr]
  dsimp only
  cases ha : r.onAir with
  | none => exact ⟨⟨fun _ => rfl, fun it hi => by rw [ha] at hi; cases hi⟩, rfl⟩
  | some it =>
    dsimp only
    by_cases hf : it.openFiller = true
    · rw [if_pos hf]
      have hf' : it.source = .filler ∧ it.cuedEnd = none := by
        unfold Item.openFiller at hf
        simpa using hf
      have hb := chooseBehind_chose h hr ho (stop.getD (plus (s.runNow r) (s.lead ch)))
      refine ⟨⟨fun hn => (by rw [ha] at hn; cases hn), fun x hx => ?_⟩, hb.2⟩
      rw [ha] at hx; cases hx
      exact ⟨fun _ _ => hb.1, fun hn => by rcases hn with hn | hn; exacts [absurd hf'.1 hn, absurd hf'.2 hn]⟩
    · rw [if_neg hf]
      have hf' : ¬ (it.source = .filler ∧ it.cuedEnd = none) := by
        unfold Item.openFiller at hf
        simpa using hf
      refine ⟨⟨fun hn => (by rw [ha] at hn; cases hn), fun x hx => ?_⟩, ?_⟩
      · rw [ha] at hx; cases hx
        refine ⟨fun h1 h2 => absurd ⟨h1, h2⟩ hf', fun _ => ⟨fun hn => by rw [hn], fun e he => ?_⟩⟩
        rw [he]
        exact (chooseFrom_chose h hr ho e).1
      · split
        · rfl
        · exact (chooseFrom_chose h hr ho _).2

/-! ## Items that leave the run -/

/-- What an item leaving the run changes: pins and unlinked records alone (R37). -/
structure Released (s t : State) (c : Channel) (ch x : Chan) : Prop where
  chan : t.chan? c = some x
  run : x.run = ch.run
  tk : x.tk = ch.tk
  part : x.part = ch.part
  watch : x.watch = ch.watch
  mirror : x.mirror = ch.mirror
  list : x.list.map (fun e => (e.slot, e.data, e.times, e.eclipsed)) = ch.list.map (fun e => (e.slot, e.data, e.times, e.eclipsed))
  outlets : t.outlets = s.outlets
  bus : t.bus = s.bus
  asrun : s.Records t none
  reqs : t.mirrorReqs = s.mirrorReqs
  serial : t.itemSerial = s.itemSerial
  reports : t.reports = s.reports
  keeps : Keeps s t

theorem Released.refl (h : s.chan? c = some ch) : Released s s c ch ch :=
  ⟨h, rfl, rfl, rfl, rfl, rfl, rfl, rfl, rfl, .refl s, rfl, rfl, rfl, Keeps.refl s⟩

theorem unpin_released (h : s.chan? c = some ch) (n : Nat) : ∃ x, Released s (s.unpin c n) c ch x := by
  have hk := keeps_unpin (Keeps.refl s) c n
  unfold State.unpin at hk ⊢
  rw [h] at hk ⊢
  dsimp only at hk ⊢
  split
  · rename_i e rest he
    rw [he] at hk
    exact ⟨_, modChan_get (s := s.freeRecords [e]) h _ (by intro _; rfl),
      rfl, rfl, rfl, rfl, rfl, rfl, rfl, rfl, ⟨rfl, rfl, rfl⟩, rfl, rfl, rfl, hk⟩
  · rename_i he
    rw [he] at hk
    refine ⟨_, modChan_get h _ (by intro _; rfl), rfl, rfl, rfl, rfl, rfl, ?_, rfl, rfl, ⟨rfl, rfl, rfl⟩, rfl, rfl, rfl, hk⟩
    dsimp only
    rw [List.map_map]
    apply List.map_congr_left
    intro e _
    simp only [Function.comp]
    split <;> rfl

theorem releaseItem_released (h : s.chan? c = some ch) (it : Item) : ∃ x, Released s (s.releaseItem c it) c ch x := by
  unfold State.releaseItem
  split
  · exact ⟨ch, .refl h⟩
  · dsimp only
    split
    · exact ⟨ch, .refl h⟩
    · exact unpin_released h _

/-- The record in the slot is held for an item of the run. -/
theorem names_iff (r : RunRec) (n : Nat) : r.items.any (fun i => i.pins? == some n) = true ↔ r.Names n := by
  unfold RunRec.items RunRec.Names
  rw [List.any_eq_true]
  simp only [beq_iff_eq, pins?_iff, List.mem_append, Option.mem_toList, or_assoc]

/-- What an item that has left the run takes from the pins (R37). -/
theorem releaseItem_unpinned (h : s.chan? c = some ch) (hr : ch.run = some r) (it : Item) {x : Chan}
    (hx : (s.releaseItem c it).chan? c = some x) : s.Unpinned (s.releaseItem c it) ch x (some it) r := by
  unfold State.releaseItem at hx ⊢
  cases hi : it.pins? with
  | none =>
    rw [hi] at hx
    dsimp only at hx
    rw [h] at hx; cases hx
    refine ⟨fun _ => ⟨rfl, rfl, rfl⟩, fun i n hi' he => ?_⟩
    cases hi'; rw [← pins?_iff, hi] at he; cases he
  | some n =>
    rw [hi] at hx
    dsimp only at hx ⊢
    rw [h] at hx ⊢
    simp only [Option.any_some, hr] at hx ⊢
    by_cases hn : r.items.any (fun i => i.pins? == some n) = true
    · rw [if_pos hn] at hx ⊢
      rw [h] at hx; cases hx
      refine ⟨fun _ => ⟨rfl, rfl, rfl⟩, fun i _ hi' he hnn => ?_⟩
      cases hi'; rw [← pins?_iff, hi] at he; cases he
      exact absurd ((names_iff r n).1 hn) hnn
    · rw [if_neg hn] at hx ⊢
      refine ⟨fun hall => absurd (hall it n rfl ((pins?_iff it n).1 hi)) (mt (names_iff r n).2 hn), fun i slot hi' he _ => ?_⟩
      cases hi'; rw [← pins?_iff, hi] at he; cases he
      rcases unpin_cases h n with ⟨p, q, e, e1, e2, e3, e4, e5⟩ | ⟨e1, e2, e3⟩
      · rw [hx] at e4; cases e4
        refine ⟨fun hall => absurd e2 (hall e (by rw [e1]; simp)), fun p' q' e' f1 f2 f3 => ?_⟩
        have hpq : p = p' ∧ q = q' := by
          rw [e1] at f1
          rcases List.append_eq_append_iff.1 f1 with ⟨a, a1, a2⟩ | ⟨a, a1, a2⟩
          · cases a with
            | nil => simp at a1 a2; exact ⟨a1.symm, a2.2⟩
            | cons b a =>
              simp only [List.cons_append, List.cons.injEq] at a2
              exact absurd (a2.1 ▸ e2) (f3 b (by rw [a1]; simp))
          · cases a with
            | nil => simp at a1 a2; exact ⟨a1, a2.2.symm⟩
            | cons b a =>
              simp only [List.cons_append, List.cons.injEq] at a2
              exact absurd (a2.1 ▸ f2) (e3 b (by rw [a1]; simp))
        exact ⟨rfl, by rw [hpq.1, hpq.2], e5⟩
      · rw [hx] at e3; cases e3
        refine ⟨fun _ => ⟨rfl, rfl, e2⟩, fun p' q' e' f1 f2 _ => absurd f2 (e1 e' (by rw [f1]; simp))⟩

/-- Abandoning the cued item (R143, R150). -/
theorem dropCued_dropped {it : Item} (h : s.chan? c = some ch) (hr : ch.run = some r) (hi : r.cued = some it) :
    s.CueDropped (s.dropCued c) c ch r ∧ (s.dropCued c).reports = s.reports := by
  have e : s.dropCued c = (s.modRun c (fun r => { r with cued := none, cueMoment := none })).releaseItem c it := by
    unfold State.dropCued
    rw [h]
    simp only [Option.bind_some, hr, hi]
  have hm := modRun_get h (fun r => { r with cued := none, cueMoment := none })
  rw [hr] at hm
  obtain ⟨x, hx⟩ := releaseItem_released hm it
  have hu := releaseItem_unpinned hm rfl it hx.chan
  rw [e]
  have hk : Keeps s _ := (keeps_modRun (Keeps.refl s) c (fun r => { r with cued := none, cueMoment := none })).trans hx.keeps
  exact ⟨⟨x, hx.chan, hx.run, hx.tk, hx.part, hx.watch, hx.mirror, hx.list, by rw [hi]; exact hu, hx.outlets,
    hx.bus, Records.before ⟨rfl, rfl, rfl⟩ hx.asrun, hx.reqs, hx.serial, hk.sameOutside, hk.sameMirror⟩, hx.reports⟩

/-! ## A changed list -/

theorem hasId_iff (id : EventId) (l : List EventRec) : hasId id l = true ↔ ∃ e ∈ l, e.data.id = id := by
  unfold hasId; simp

theorem dropLostHold_eq (h : s.chan? c = some ch) (hr : ch.run = some r) :
    ((∃ id, r.manualHold = some id ∧ ∀ e ∈ ch.list, e.data.id ≠ id) → s.dropLostHold c = s.modRun c (fun r => r.holding none)) ∧
    (¬ (∃ id, r.manualHold = some id ∧ ∀ e ∈ ch.list, e.data.id ≠ id) → s.dropLostHold c = s) := by
  unfold State.dropLostHold
  rw [h]
  dsimp only
  rw [hr]
  dsimp only [Option.bind_some]
  cases hm : r.manualHold with
  | none => exact ⟨(fun ⟨_, h, _⟩ => nomatch h), fun _ => rfl⟩
  | some id =>
    dsimp only
    by_cases hi : hasId id ch.list = true
    · rw [if_pos hi]
      obtain ⟨e, he, hid⟩ := (hasId_iff _ _).1 hi
      exact ⟨fun ⟨x, hx, hn⟩ => absurd hid (by cases hx; exact hn e he), fun _ => rfl⟩
    · rw [if_neg hi]
      refine ⟨fun _ => rfl, fun hn => absurd ⟨id, rfl, fun e he hid => hi ((hasId_iff _ _).2 ⟨e, he, hid⟩)⟩ hn⟩

/-- The runner told of a changed list does what R143 says. -/
theorem listChanged_told (h : s.chan? c = some ch) (hr : ch.run = some r) (ho : s.Takes r.outlet) :
    s.ListTold (s.listChanged c) c ch r ∧ (s.listChanged c).reports = s.reports := by
  have hl := dropLostHold_eq h hr
  obtain ⟨q, hq1, hq2, hwc, hwr, hwo, hql, hqc⟩ : ∃ q : RunRec, ((∃ id, r.manualHold = some id ∧ ∀ e ∈ ch.list, e.data.id ≠ id) → q = r.holding none) ∧
      (¬ (∃ id, r.manualHold = some id ∧ ∀ e ∈ ch.list, e.data.id ≠ id) → q = r) ∧
      (s.dropLostHold c).chan? c = some { ch with run := some q } ∧ (s.dropLostHold c).reports = s.reports ∧
      (s.dropLostHold c).outlets = s.outlets ∧ q.outlet = r.outlet ∧ q.cued = r.cued := by
    by_cases hc : ∃ id, r.manualHold = some id ∧ ∀ e ∈ ch.list, e.data.id ≠ id
    · rw [hl.1 hc]
      refine ⟨r.holding none, fun _ => rfl, fun hn => absurd hc hn, ?_, rfl, rfl, rfl, rfl⟩
      rw [modRun_get h, hr]; rfl
    · rw [hl.2 hc]
      exact ⟨r, fun hn => absurd hn hc, fun _ => rfl, by rw [h, ← hr], rfl, rfl, rfl, rfl⟩
  have hT : (s.dropLostHold c).Takes q.outlet := by
    unfold State.Takes State.outlet at *; rw [hwo, hql]; exact ho
  unfold State.ListTold State.listChanged
  rw [h]
  dsimp only
  rw [hr]
  dsimp only
  generalize s.dropLostHold c = w at *
  cases hi : r.cued with
  | none =>
    dsimp only
    obtain ⟨h1, h2⟩ := choose_next (r := q) hwc rfl hT none
    exact ⟨⟨w, hl.1, hl.2, q, hq1, hq2, fun _ => h1, fun _ hn => nomatch hn⟩, h2.trans hwr⟩
  | some it =>
    dsimp only
    by_cases hk : it.locked = true
    · rw [if_pos hk]
      refine ⟨⟨w, hl.1, hl.2, q, hq1, hq2, (fun hn => nomatch hn), fun x hx => ⟨fun _ => rfl, fun hn => ?_⟩⟩, hwr⟩
      cases hx; rw [hk] at hn; cases hn
    · rw [if_neg hk]
      obtain ⟨hd, hdr⟩ := dropCued_dropped (r := q) hwc rfl (hqc.trans hi)
      obtain ⟨y, hy, hyr, hyt, hyp, hyw, hym, hyl, hyun, hyo, hyrest⟩ := hd
      have hT' : (w.dropCued c).Takes q.outlet := by
        unfold State.Takes State.outlet at *; rw [hyo]; exact hT
      obtain ⟨hn, hnr⟩ := choose_next (r := { q with cued := none, cueMoment := none }) hy hyr hT' none
      have hz : ∃ z, ((w.dropCued c).choose c none).chan? c = some z := by
        have := (keeps_choose (Keeps.refl (w.dropCued c)) c none).chanFixed c
        rw [hy] at this
        cases hz : ((w.dropCued c).choose c none).chan? c with
        | none => rw [hz] at this; cases this
        | some z => exact ⟨z, rfl⟩
      obtain ⟨z, hz⟩ := hz
      rw [hz]
      dsimp only [Option.bind_some]
      have hagain : ∀ x, sameChoice it x = true ↔ (it.source ≠ .filler ∧ x.source = it.source ∧ x.mainStart = it.mainStart) := by
        intro x
        unfold sameChoice Item.slot?
        cases it.source with
        | filler => simp
        | event n id =>
          simp only [Option.isSome_some, Bool.true_and, Bool.and_eq_true, beq_iff_eq]
          exact ⟨fun ⟨a, b⟩ => ⟨nofun, a.symm, b.symm⟩, fun ⟨_, a, b⟩ => ⟨a.symm, b.symm⟩⟩
      refine ⟨⟨w, hl.1, hl.2, q, hq1, hq2, (fun hn => nomatch hn), fun x hx => ⟨fun hl' => ?_, fun _ => ?_⟩⟩, ?_⟩
      · cases hx; exact absurd hl' hk
      · cases hx
        refine ⟨w.dropCued c, (w.dropCued c).choose c none, y, z, ⟨y, hy, hyr, hyt, hyp, hyw, hym, hyl, hyun, hyo, hyrest⟩, hy, hn, hz,
          fun ⟨x, hx, hs⟩ => ?_, fun hna => ?_⟩
        · rw [hx]; exact if_pos ((hagain x).2 hs)
        · cases hzc : z.run.bind (·.cued) with
          | none => rfl
          | some x => exact if_neg (fun hs => hna ⟨x, hzc, (hagain x).1 hs⟩)
      · cases hzc : z.run.bind (·.cued) with
        | none => exact hnr.trans (hdr.trans hwr)
        | some x =>
          dsimp only
          split
          · exact hwr
          · exact hnr.trans (hdr.trans hwr)

/-! ## Starts and failures of items -/

theorem Served.takes (h : Served s t) {o : OutletNo} (ho : s.Takes o) : t.Takes o := by
  have hq : (t.outlet o).queue = (s.outlet o).queue := congrArg (·.queue) (h.outlets o)
  by_cases h1 : (s.outlet o).state = .free ∨ (s.outlet o).state = .reserved
  · refine ⟨fun e => ?_, fun e => ?_, by rw [hq]; exact ho.2.2⟩
    all_goals rcases h.spare o h1 with h2 | h2 <;> rw [h2] at e <;> cases e
  · have := h.busy o (fun e => h1 (Or.inl e)) (fun e => h1 (Or.inr e))
    unfold State.Takes; rw [this]; exact ho

theorem Served.run (h : Served s t) (hc : s.chan? c = some ch) (hr : ch.run = some r) :
    ∃ x, t.chan? c = some x ∧ x.run = some r := by
  have := h.runs c
  rw [hc] at this
  cases hx : t.chan? c with
  | none => rw [hx] at this; cases this
  | some x => rw [hx] at this; exact ⟨x, rfl, (Option.some.inj this).trans hr⟩

theorem endingAt_ended (it next : Item) (x : Time) : endingAt it next x = endedBy it next x := by
  unfold endingAt endedBy before
  cases it.cuedEnd <;> simp

/-- The start of the cued item once the record of the item it ends is written (`w`) and that item's record is free again (`u`). -/
theorem movedUp_of {f : RunRec → RunRec} {w u : State} {x : Chan} (ho : s.Takes r.outlet) (it : Item) (start : Time) (unc : Bool)
    (hf : f = fun r' => { r' with
      onAir := some { it with runStart := some start, unconfirmed := unc }, cued := r'.goItem, goItem := none, cueMoment := none
      cuedOrigin := r'.goOrigin })
    (hk : Keeps s w) (hb : w.bus = s.bus) (hout : w.outlets = s.outlets) (hq : w.mirrorReqs = s.mirrorReqs)
    (hrep : w.reports = s.reports)
    (has : s.Records w (r.onAir.map (fun old => asRunEnded ch r old start (endedBy old it (start - r.offset)))))
    (hx : Released (w.modRun c f) u c { ch with run := Option.map f (some r) } x) (hun : s.Unpinned u ch x r.onAir (f r)) :
    s.MovedUp ((u.askSweep c).chooseIfNone c) c ch r it start unc ∧ ((u.askSweep c).chooseIfNone c).reports = s.reports := by
  have hk' : Keeps s u := (keeps_modRun hk c f).trans hx.keeps
  have hur : x.run = some { r with
      onAir := some { it with runStart := some start, unconfirmed := unc }, cued := r.goItem, goItem := none, cueMoment := none, cuedOrigin := r.goOrigin } := by
    rw [hx.run, hf]; rfl
  have hu := hx.chan
  have hask : u.askSweep c = { u with mirrorReqs := s.mirrorReqs ++ [.sweep c] } := by
    unfold State.askSweep
    rw [hx.reqs]; show { u with mirrorReqs := w.mirrorReqs ++ _ } = _; rw [hq]
  rw [hask]
  generalize hp : ({ u with mirrorReqs := s.mirrorReqs ++ [.sweep c] } : State) = p
  have hpc : p.chan? c = some x := by rw [← hp]; exact hu
  have hrep' : p.reports = s.reports := by rw [← hp]; exact hx.reports.trans hrep
  have hT : p.Takes r.outlet := by
    have : ∀ o, p.outlet o = s.outlet o := by
      intro o; rw [← hp]; show u.outlets[o] = _; rw [hx.outlets]; show w.outlets[o] = _; rw [hout]; rfl
    unfold State.Takes; rw [this]; exact ho
  have hch : p.chooseIfNone c = if r.goItem.isNone then p.serveAll.choose c none else p := by
    unfold State.chooseIfNone
    rw [hpc]
    simp only [Option.any_some, hur]
  have hser := serveAll_served p
  obtain ⟨z, hz, hzr⟩ := hser.run hpc hur
  have hn := choose_next hz hzr (hser.takes hT) none
  rw [hch]
  unfold State.MovedUp
  refine ⟨⟨u, x, hu, hur, hx.tk, hx.part, hx.watch, hx.list, hx.outlets.trans hout, hx.bus.trans hb,
    hx.reqs.trans hq, hk'.sameOutside, hk'.sameWatches, hk'.sameMirror, Records.after has (Records.before ⟨rfl, rfl, rfl⟩ hx.asrun), by rw [hf] at hun; exact hun, fun hg => ?_, fun hg => ?_⟩, ?_⟩
  · rw [hp, if_neg (by cases hgi : r.goItem <;> simp_all)]
  · rw [hp]
    refine ⟨z, hz, hzr, ?_⟩
    rw [if_pos (by rw [hg]; rfl)]
    exact hn.1
  · split
    · exact hn.2.trans (hser.reports.trans hrep')
    · exact hrep'

/-- The start of the cued item (R144). -/
theorem cuedStarts_moved (h : s.chan? c = some ch) (hr : ch.run = some r) (ho : s.Takes r.outlet) (it : Item) (start : Time)
    (unc : Bool) :
    s.MovedUp (s.cuedStarts c ch r it start unc) c ch r it start unc ∧ (s.cuedStarts c ch r it start unc).reports = s.reports := by
  unfold State.cuedStarts
  dsimp only
  cases ha : r.onAir with
  | none =>
    have hm := modRun_get h (fun r' : RunRec => { r' with
      onAir := some { it with runStart := some start, unconfirmed := unc }, cued := r'.goItem, goItem := none, cueMoment := none, cuedOrigin := r'.goOrigin })
    rw [hr] at hm
    exact movedUp_of ho it start unc rfl (.refl s) rfl rfl rfl rfl (by rw [ha]; exact .refl s) (.refl hm)
      (by rw [ha]; exact ⟨fun _ => ⟨rfl, rfl, rfl⟩, fun _ _ h => by cases h⟩)
  | some old =>
    obtain ⟨a, b, _, _, e, e2, f', g, _⟩ := writeAsRun_changes s (asRunEnded ch r old start (endingAt old it (start - r.offset)))
    have hm := modRun_get (h := show (s.writeAsRun _).chan? c = some ch by unfold State.chan?; rw [e]; exact h)
      (fun r' : RunRec => { r' with
        onAir := some { it with runStart := some start, unconfirmed := unc }, cued := r'.goItem, goItem := none, cueMoment := none, cuedOrigin := r'.goOrigin })
    rw [hr] at hm
    obtain ⟨x, hx⟩ := releaseItem_released hm old
    have hun := releaseItem_unpinned hm rfl old hx.chan
    refine movedUp_of ho it start unc rfl (keeps_writeAsRun (.refl s) _) a b g f' ?_ hx ?_
    · rw [ha, endingAt_ended]; exact writeAsRun_records _ _
    · rw [ha]
      unfold State.Unpinned at hun ⊢
      rw [show State.poolFree (State.modRun _ c _) = s.poolFree from e2] at hun
      exact hun

/-- The failure of the cued item (R145). -/
theorem cuedFails_failed {it : Item} (h : s.chan? c = some ch) (hr : ch.run = some r) (ho : s.Takes r.outlet)
    (hgo : r.goReport = none) :
    s.ItemFailed (s.cuedFails c ch r it) c ch r it ∧ (s.cuedFails c ch r it).reports = s.reports := by
  obtain ⟨a, b, _, _, e, e2, f', g, _⟩ := writeAsRun_changes s (asRunMissed ch r it)
  have d := writeAsRun_records s (asRunMissed ch r it)
  have hk0 := keeps_writeAsRun (Keeps.refl s) (asRunMissed ch r it)
  have e0 : (s.writeAsRun (asRunMissed ch r it)).itemSerial = (s.writeAsRun (asRunMissed ch r it)).itemSerial := rfl
  unfold State.cuedFails
  dsimp only
  generalize s.writeAsRun (asRunMissed ch r it) = w at *
  have hwc : w.chan? c = some ch := by unfold State.chan?; rw [e]; exact h
  have hm := modRun_get hwc (fun r => { r with cued := r.goItem, goItem := none, cueMoment := none, cuedOrigin := r.goOrigin })
  rw [hr] at hm
  have hk1 := keeps_modRun hk0 c (fun r => { r with cued := r.goItem, goItem := none, cueMoment := none, cuedOrigin := r.goOrigin })
  obtain ⟨y, hy⟩ := releaseItem_released hm it
  have hun := releaseItem_unpinned hm rfl it hy.chan
  generalize hv : w.modRun c (fun r => { r with cued := r.goItem, goItem := none, cueMoment := none, cuedOrigin := r.goOrigin }) = v at *
  have hv' : v.outlets = w.outlets ∧ v.bus = w.bus ∧ v.mirrorReqs = w.mirrorReqs ∧ v.reports = w.reports ∧ w.Records v none ∧
      v.poolFree = s.poolFree := by
    rw [← hv]; exact ⟨rfl, rfl, rfl, rfl, ⟨rfl, rfl, rfl⟩, e2⟩
  generalize v.releaseItem c it = u at *
  have hk : Keeps s u := hk1.trans hy.keeps
  have hyr : y.run = some { r with cued := r.goItem, goItem := none, cueMoment := none, cuedOrigin := r.goOrigin } := hy.run
  have houtl : u.outlets = s.outlets := hy.outlets.trans (hv'.1.trans b)
  have hT : u.Takes r.outlet := by
    have : ∀ o, u.outlet o = s.outlet o := by intro o; show u.outlets[o] = _; rw [houtl]; rfl
    unfold State.Takes; rw [this]; exact ho
  have hrep : u.reports = s.reports := hy.reports.trans (hv'.2.2.2.1.trans f')
  have hlim : ∀ x, y.Limited x ↔ ch.Limited x := by intro x; unfold Chan.Limited; rw [hy.tk]
  have hgor : u.takeGoReport c = u := by
    unfold State.takeGoReport
    rw [hy.chan]
    dsimp only
    rw [hyr]
    dsimp only
    rw [hgo]
  have hch := fun stop => choose_next hy.chan hyr hT stop
  have hl8 : u.LateCued (u.chooseLate c) c y { r with cued := r.goItem, goItem := none, cueMoment := none, cuedOrigin := r.goOrigin } ∧
      (u.chooseLate c).reports = u.reports := by
    unfold State.chooseLate
    rw [hy.chan]
    dsimp only
    rw [hyr]
    exact lateCue_late hy.chan hyr hT
  have hcue := fun x => cueNow_cued (it := x) hy.chan hyr hT
  have ht : u.tb = s.tb := hk.tb
  have hsp : u.sp = s.sp := by unfold State.sp; rw [hk.station]
  refine ⟨⟨u, y, hy.chan, hyr, hy.tk, hy.part, hy.list, houtl, hy.bus.trans (hv'.2.1.trans a), hy.reqs.trans (hv'.2.2.1.trans g),
    hk.sameOutside, hk.sameWatches, hk.sameMirror, Records.after d (Records.before hv'.2.2.2.2.1 hy.asrun), ?_, fun hg => ?_, fun hg => ?_⟩, ?_⟩
  · unfold State.Unpinned at hun ⊢
    rw [hv'.2.2.2.2.2] at hun
    exact hun
  · rw [if_pos (Option.isSome_iff_ne_none.2 hg), hgor]
  · rw [if_neg (by rw [hg]; exact nofun)]
    dsimp only
    cases hs : it.source with
    | filler =>
      dsimp only
      refine ⟨fun _ hn => by rw [hn]; rfl, fun hf => absurd rfl hf, fun x hx =>
        ⟨fun _ => ?_, fun hf => absurd rfl hf, fun hf => absurd rfl hf⟩⟩
      rw [hx]
      exact (hch (some x)).1
    | event n id =>
      dsimp only
      unfold State.replaceItem
      dsimp only
      have hlate : laterOf it.mainStart (plus (u.runNow r) (u.lead ch)) =
          if diff it.mainStart (u.tb.now - r.offset + BitVec.ofNat 48 (u.sp.cueLead * ch.period)) < 0 then
            u.tb.now - r.offset + BitVec.ofNat 48 (u.sp.cueLead * ch.period) else it.mainStart := by
        unfold laterOf before
        simp only [decide_eq_true_eq]
        rfl
      rw [hlate]
      generalize (if diff it.mainStart (u.tb.now - r.offset + BitVec.ofNat 48 (u.sp.cueLead * ch.period)) < 0 then
            u.tb.now - r.offset + BitVec.ofNat 48 (u.sp.cueLead * ch.period) else it.mainStart) = at_
      refine ⟨nofun, fun _ hx => ?_, fun x hx => ?_⟩
      · rw [hx]
        dsimp only
        refine ⟨fun hl => if_pos ((pastLimit_iff _ _).2 hl), fun hl => ?_⟩
        rw [if_neg (mt (pastLimit_iff _ _).1 hl)]
        exact (hcue _).1
      rw [hx]
      dsimp only
      refine ⟨nofun, fun _ hlt => ?_, fun _ hge => ⟨fun hl => ?_, fun hl => ?_⟩⟩
      · rw [if_pos hlt]; exact hl8.1
      · rw [if_neg (by omega), if_pos ((pastLimit_iff _ _).2 hl)]
      · rw [if_neg (by omega), if_neg (mt (pastLimit_iff _ _).1 hl)]
        exact (hcue _).1
  · split
    · rw [hgor]; exact hrep
    · split
      · unfold State.replaceItem
        dsimp only
        repeat' split
        all_goals first
          | exact hrep
          | exact (hcue _).2.trans hrep
          | exact hl8.2.trans hrep
      · split
        · exact (hch _).2.trans hrep
        · exact hrep

/-! ## What a choice leaves beside the cued item -/

/-- The takeover record of a channel, and of its run the outlet, the item on air, the go item and the start report that waits, are
as `ch` and `r` have them. -/
def RunKept (t : State) (c : Channel) (ch : Chan) (r : RunRec) : Prop :=
  ∃ x q, t.chan? c = some x ∧ x.tk = ch.tk ∧ x.run = some q ∧ q.goReport = r.goReport ∧ q.goItem = r.goItem ∧ q.onAir = r.onAir ∧ q.outlet = r.outlet

theorem RunKept.refl (h : s.chan? c = some ch) (hr : ch.run = some r) : RunKept s c ch r := ⟨ch, r, h, rfl, hr, rfl, rfl, rfl, rfl⟩

theorem Cued_kept {it m hold} (h : s.Cued t c ch (r.holding hold) it m) : RunKept t c ch r := by
  obtain ⟨x, it', hx, _, hr, hk, _⟩ := h
  exact ⟨x, _, hx, hk, hr, rfl, rfl, rfl, rfl⟩
theorem hold_kept (h : s.chan? c = some ch) (hr : ch.run = some r) (hold : Option EventId) : RunKept (s.modRun c (fun r => r.holding hold)) c ch r := by
  have := modRun_get h (fun r => r.holding hold)
  rw [hr] at this
  exact ⟨_, _, this, rfl, rfl, rfl, rfl, rfl, rfl⟩

/-- A late cue (R142). -/
theorem LateCued_kept (h : s.chan? c = some ch) (hr : ch.run = some r) (hc : s.LateCued t c ch r) : RunKept t c ch r := by
  obtain ⟨h1, h2⟩ := hc
  by_cases hb : ∃ x h it, join { time := s.tb.now, offset := r.offset, period := ch.period, lead := s.sp.cueLead * ch.period, minTail := ch.part.minTail } (r.walkStart ch.list) = .fillerOpen x h ∧ r.onAir = some it ∧ it.source = .filler ∧ it.cuedEnd = none
  · rw [h1 hb]; exact hold_kept h hr _
  · obtain ⟨a, b⟩ := h2 hb
    by_cases hl : ch.Limited (join { time := s.tb.now, offset := r.offset, period := ch.period, lead := s.sp.cueLead * ch.period, minTail := ch.part.minTail } (r.walkStart ch.list)).mainStart
    · rw [a hl]; exact .refl h hr
    · exact Cued_kept (b hl)

/-- A choice (R140, R141). -/
theorem Chose_kept (h : s.chan? c = some ch) (hr : ch.run = some r) {stop behind} (hc : s.Chose t c ch r stop behind) : RunKept t c ch r := by
  unfold State.Chose at hc
  dsimp only at hc
  have tk : ∀ (it : Item) (hold : Option EventId), ((ch.Limited it.mainStart → t = s) ∧
    (¬ ch.Limited it.mainStart →
      (diff it.mainStart (s.tb.now - r.offset + BitVec.ofNat 48 (s.sp.cueLead * ch.period)) < 0 → s.LateCued t c ch r) ∧
      (diff it.mainStart (s.tb.now - r.offset + BitVec.ofNat 48 (s.sp.cueLead * ch.period)) = 0 → s.Cued t c ch (r.holding hold) it none) ∧
      (0 < diff it.mainStart (s.tb.now - r.offset + BitVec.ofNat 48 (s.sp.cueLead * ch.period)) → s.Cued t c ch (r.holding hold) it
        (some (it.localStart - BitVec.ofNat 48 (s.sp.cueLead * ch.period)))))) → RunKept t c ch r := by
    rintro it hold ⟨a, b⟩
    by_cases hl : ch.Limited it.mainStart
    · rw [a hl]; exact .refl h hr
    · obtain ⟨x, y, z⟩ := b hl
      rcases lt_trichotomy (diff it.mainStart (s.tb.now - r.offset + BitVec.ofNat 48 (s.sp.cueLead * ch.period))) 0 with e | e | e
      · exact LateCued_kept h hr (x e)
      · exact Cued_kept (y e)
      · exact Cued_kept (z e)
  split at hc
  · exact LateCued_kept h hr hc
  · exact tk _ _ hc
  · exact tk _ _ hc
  · exact tk _ _ hc
  · rw [hc]; exact hold_kept h hr _
  · exact tk _ _ hc

theorem ChoseNext_kept (h : s.chan? c = some ch) (hr : ch.run = some r) {stop} (hc : s.ChoseNext t c ch r stop) : RunKept t c ch r := by
  obtain ⟨h1, h2⟩ := hc
  cases ho : r.onAir with
  | none => rw [h1 ho]; exact .refl h hr
  | some it =>
    obtain ⟨a, b⟩ := h2 it ho
    by_cases hf : it.source = .filler ∧ it.cuedEnd = none
    · exact Chose_kept h hr (a hf.1 hf.2)
    · obtain ⟨d, e⟩ := b (by by_contra hx; simp at hx; exact hf hx)
      cases hs : stop.or (ch.onAirEnd r it) with
      | none => rw [d hs]; exact .refl h hr
      | some x => exact Chose_kept h hr (e x hs)

/-- The start of an item (R144): the takeover record too, where the mirror cannot re-key the channel. -/
theorem MovedUp_kept {it start unc} (hm : s.MovedUp t c ch r it start unc) :
    ∃ x q, t.chan? c = some x ∧ x.tk.handback = ch.tk.handback ∧ (r.goItem ≠ none ∨ ch.tk.state.holding = true → x.tk = ch.tk) ∧ x.run = some q ∧ q.goReport = r.goReport ∧
      q.goItem = none ∧ q.onAir = some { it with runStart := some start, unconfirmed := unc } ∧ (r.goItem ≠ none → q.cued = r.goItem ∧
        q = { r with onAir := some { it with runStart := some start, unconfirmed := unc }, cued := r.goItem, goItem := none, cueMoment := none, cuedOrigin := r.goOrigin }) := by
  obtain ⟨u, y, hy, hyr, hyk, _, _, _, _, _, _, _, _, _, _, _, hg, hn⟩ := hm
  cases hgo : r.goItem with
  | some g =>
    rw [hg (by rw [hgo]; nofun)]
    exact ⟨y, _, hy, by rw [hyk], fun _ => hyk, hyr, rfl, rfl, rfl, fun _ => ⟨hgo, by rw [hgo]⟩⟩
  | none =>
    obtain ⟨z, hz, hzr, hc⟩ := hn hgo
    obtain ⟨x, q, hx, hk, hq, e1, e2, e3, _⟩ := ChoseNext_kept hz hzr hc
    have hs := serveAll_served { u with mirrorReqs := s.mirrorReqs ++ [.sweep c] }
    refine ⟨x, q, hx, ?_, ?_, hq, e1, e2, e3, fun h => absurd rfl h⟩
    · have := hs.handbacks c
      rw [hz, show State.chan? { u with mirrorReqs := s.mirrorReqs ++ [.sweep c] } c = some y from hy] at this
      rw [hk, ← hyk]; exact Option.some.inj this
    · rintro (h | h)
      · exact absurd rfl h
      · obtain ⟨z', hz', e⟩ := hs.held c y hy (by rw [hyk]; exact Or.inl h)
        rw [hz] at hz'; cases hz'
        rw [hk, e, hyk]
end Sys2Proof.Machine
end

