-- ==== Sys2Proof/Laws/Handback.lean ====
section
/-! SUPPORT. What a handback's operations do, said in the words of Safety: one lemma for each (R172 to R177). -/

namespace Sys2Proof.Machine

variable {s t : State} {c : Channel} {ch : Chan} {r : RunRec} {o : OutletNo} {h : Handback}

theorem stopMayStand_iff (x : Outlet) : x.stopMayStand = true ↔ x.StopStands := by
  unfold Outlet.stopMayStand Outlet.StopStands
  cases x.armed with
  | none => simp
  | some a =>
    obtain ⟨at_, oc⟩ := a
    cases oc with
    | failed f => cases f <;> simp
    | _ => simp

theorem withdrawStop_withdrawn (s : State) (o : OutletNo) :
    s.withdrawStop o = (s.modOutlet o Outlet.stopWithdrawn).settleOrder o := rfl

theorem limitCued_limited (hc : s.chan? c = some ch) (hr : ch.run = some r) : s.CueLimited (s.limitCued c) c := by
  refine ⟨ch, r, hc, hr, ?_, ?_⟩
  · rintro ⟨it, hi, hl, hm⟩
    unfold State.limitCued
    rw [hc]
    simp only [hr, Option.bind_some, hi]
    rw [if_pos (by rw [hl, (pastLimit_iff _ _).2 hm]; rfl)]
    exact (dropCued_dropped hc hr hi).1
  · intro hn
    unfold State.limitCued
    rw [hc]
    simp only [hr, Option.bind_some]
    cases hi : r.cued with
    | none => rfl
    | some it =>
      dsimp only
      rw [if_neg]
      intro hx
      rw [Bool.and_eq_true] at hx
      exact hn ⟨it, hi, by simpa using hx.1, (pastLimit_iff _ _).1 hx.2⟩

theorem chooseIfNone_chose (hc : s.chan? c = some ch) (hr : ch.run = some r) (hq : s.mirrorReqs = []) (ho : s.Takes r.outlet) :
    s.ChoseIfNone (s.chooseIfNone c) c := by
  have hs : s.serveAll = s := by unfold State.serveAll; rw [hq]; rfl
  refine ⟨ch, r, hc, hr, fun hn => ?_, fun hn => ?_⟩
  · unfold State.chooseIfNone
    rw [hc]
    simp only [Option.any_some, hr, hn, Option.isNone_none, if_true, hs]
    exact (choose_next hc hr ho none).1
  · unfold State.chooseIfNone
    rw [hc]
    simp only [Option.any_some, hr]
    rw [if_neg (by cases hx : r.cued <;> simp_all)]

theorem assertHold_held {k : Key} {hs : HoldState} (hc : s.chan? c = some ch) (hk : ch.tk.ownHold = some k)
    (hh : holdStateOf ch.tk.state = hs) : s.assertHold c = s.held c ch k hs := by
  unfold State.assertHold State.held
  rw [hc]
  dsimp only
  rw [hk]
  dsimp only
  unfold Chan.holdFrame
  rw [hh, show ch.part.channel = c by simpa using List.find?_some hc]
  rfl

/-! ## The restore cue -/

/-- Where one change of the run follows another. -/
theorem Released.trans {u : State} {x y : Chan} (a : Released s t c ch x) (b : Released t u c x y) : Released s u c ch y :=
  ⟨b.chan, b.run.trans a.run, b.tk.trans a.tk, b.part.trans a.part, b.watch.trans a.watch, b.mirror.trans a.mirror,
    b.list.trans a.list, b.outlets.trans a.outlets, b.bus.trans a.bus, Records.before a.asrun b.asrun, b.reqs.trans a.reqs,
    b.serial.trans a.serial, b.reports.trans a.reports, a.keeps.trans b.keeps⟩

/-- A change of the run record of `c` alone, with what it unpins. -/
structure Reruns (s t : State) (c : Channel) (ch x : Chan) (p : RunRec) : Prop where
  chan : t.chan? c = some x
  run : x.run = some p
  tk : x.tk = ch.tk
  part : x.part = ch.part
  watch : x.watch = ch.watch
  mirror : x.mirror = ch.mirror
  list : x.list.map (fun e => (e.slot, e.data, e.times, e.eclipsed)) = ch.list.map (fun e => (e.slot, e.data, e.times, e.eclipsed))
  outlets : t.outlets = s.outlets
  bus : t.bus = s.bus
  asrun : s.Records t none
  reqs : t.mirrorReqs = s.mirrorReqs
  serial : t.itemSerial = s.itemSerial
  reports : t.reports = s.reports
  keeps : Keeps s t

theorem Reruns.refl (hc : s.chan? c = some ch) (hr : ch.run = some r) : Reruns s s c ch ch r :=
  ⟨hc, hr, rfl, rfl, rfl, rfl, rfl, rfl, rfl, .refl s, rfl, rfl, rfl, .refl s⟩

theorem Reruns.modRun {x : Chan} {p : RunRec} (h : Reruns s t c ch x p) (f : RunRec → RunRec) :
    Reruns s (t.modRun c f) c ch { x with run := some (f p) } (f p) := by
  have hm := modRun_get h.chan f
  rw [h.run] at hm
  exact ⟨hm, rfl, h.tk, h.part, h.watch, h.mirror, h.list, h.outlets, h.bus, h.asrun, h.reqs, h.serial, h.reports,
    keeps_modRun h.keeps c f⟩

theorem Reruns.release {x : Chan} {p : RunRec} (h : Reruns s t c ch x p) (it : Item) :
    ∃ y, Reruns s (t.releaseItem c it) c ch y p ∧ t.Unpinned (t.releaseItem c it) x y (some it) p := by
  obtain ⟨y, hy⟩ := releaseItem_released h.chan it
  exact ⟨y, ⟨hy.chan, hy.run.trans h.run, hy.tk.trans h.tk, hy.part.trans h.part, hy.watch.trans h.watch, hy.mirror.trans h.mirror,
    hy.list.trans h.list, hy.outlets.trans h.outlets, hy.bus.trans h.bus, Records.before h.asrun hy.asrun, hy.reqs.trans h.reqs,
    hy.serial.trans h.serial, hy.reports.trans h.reports, h.keeps.trans hy.keeps⟩, releaseItem_unpinned h.chan h.run it hy.chan⟩

theorem Reruns.dropCued {x : Chan} {p : RunRec} {it : Item} (h : Reruns s t c ch x p) (hi : p.cued = some it) :
    ∃ y, Reruns s (t.dropCued c) c ch y { p with cued := none, cueMoment := none } ∧
      t.Unpinned (t.dropCued c) x y (some it) { p with cued := none, cueMoment := none } := by
  unfold State.dropCued
  rw [h.chan]
  simp only [Option.bind_some, h.run, hi]
  exact (h.modRun (fun r => { r with cued := none, cueMoment := none })).release it

theorem Reruns.dropGo {x : Chan} {p : RunRec} {it : Item} (h : Reruns s t c ch x p) (hi : p.goItem = some it) :
    ∃ y, Reruns s (t.dropGo c) c ch y { p with goItem := none, goReport := none } ∧
      t.Unpinned (t.dropGo c) x y (some it) { p with goItem := none, goReport := none } := by
  unfold State.dropGo
  rw [h.chan]
  simp only [Option.bind_some, h.run, hi]
  exact (h.modRun (fun r => { r with goItem := none, goReport := none })).release it

theorem event?_iff (it : Item) (id : EventId) : it.event? = some id ↔ ∃ slot, it.source = .event slot id := by
  unfold Item.event?
  cases it.source with
  | filler => simp
  | event n i => simp

theorem lockedAtOrAfter_iff (it : Item) (x : Time) : it.lockedAtOrAfter x = true ↔ it.locked = true ∧ diff x it.mainStart ≤ 0 := by
  unfold Item.lockedAtOrAfter atOrBefore
  simp

theorem any_filter {α : Type} (p : α → Bool) (o : Option α) : o.any p = (o.filter p).isSome := by
  cases o with
  | none => rfl
  | some a => cases h : p a <;> simp [Option.filter, h]

theorem filter_mem {α : Type} {p : α → Bool} {o : Option α} {a : α} (h : o.filter p = some a) : o = some a := by
  cases o with
  | none => cases h
  | some b => cases hb : p b <;> simp_all [Option.filter]

/-- The walk origin once an item is abandoned, by what the item airs (R177). -/
theorem originWithout_source (gone : Option Item) (before origin : Option EventId) :
    originWithout gone before origin = originBack gone before origin := by
  unfold originWithout originBack
  cases gone with
  | none => rfl
  | some it =>
    simp only [Option.bind_some, Option.map_some]
    unfold Item.event?
    cases it.source <;> rfl

/-- The events a restore cue searches, by what the item on air is (R177). -/
theorem restoreStart_source (r : RunRec) (l : List EventRec) :
    r.restoreStart l = match r.onAir.map Item.source with
      | some (.event _ id) =>
        if (r.walkStart l).any (fun e => e.data.id == id) then r.walkStart l
        else l.filter (fun e => e.data.id == id) ++ r.walkStart l
      | _ => r.walkStart l := by
  unfold RunRec.restoreStart hasId
  cases r.onAir with
  | none => rfl
  | some it =>
    simp only [Option.bind_some, Option.map_some]
    unfold Item.event?
    cases it.source <;> rfl

/-- A restore cue, as R177 says. -/
theorem restoreCue_restored (hc : s.chan? c = some ch) (hr : ch.run = some r) (ho : s.Takes r.outlet) (oldLocal oldRun : Time) :
    s.Restored (s.restoreCue c oldLocal oldRun) c ch r oldLocal oldRun ∧ (s.restoreCue c oldLocal oldRun).reports = s.reports := by
  unfold State.restoreCue
  rw [hc]
  dsimp only
  rw [hr]
  dsimp only
  rw [any_filter, any_filter]
  have hcut : (fun it : Item => !it.locked || it.lockedAtOrAfter oldRun) =
      fun it => !it.locked || (it.locked && decide (diff oldRun it.mainStart ≤ 0)) := rfl
  rw [hcut]
  unfold State.Restored
  have hafter : (fun it : Item => it.lockedAtOrAfter oldRun) = fun it => it.locked && decide (diff oldRun it.mainStart ≤ 0) := rfl
  rw [hafter]
  unfold RunRec.originAfter
  rw [originWithout_source, originWithout_source, hafter]
  dsimp only
  generalize hgo : r.goItem.filter (fun it => it.locked && decide (diff oldRun it.mainStart ≤ 0)) = go
  generalize hcue : r.cued.filter (fun it => !it.locked || (it.locked && decide (diff oldRun it.mainStart ≤ 0))) = cue
  generalize hwo : originBack (r.cued.filter (fun it => it.locked && decide (diff oldRun it.mainStart ≤ 0))) r.cuedOrigin
    (originBack go r.goOrigin r.walkOrigin) = wo
  -- the go item
  have hG : ∃ z, Reruns s (if go.isSome = true then s.dropGo c else s) c ch z
        (if go = none then r else { r with goItem := none, goReport := none }) ∧
      s.Unpinned (if go.isSome = true then s.dropGo c else s) ch z go
        (if go = none then r else { r with goItem := none, goReport := none }) := by
    cases go with
    | none => exact ⟨ch, .refl hc hr, fun _ => ⟨rfl, rfl, rfl⟩, fun _ _ h => by cases h⟩
    | some g => exact (Reruns.refl hc hr).dropGo (filter_mem hgo)
  obtain ⟨z, h1, hu1⟩ := hG
  have hr1 : (if go = none then r else { r with goItem := none, goReport := none }).cued = r.cued ∧
      (if go = none then r else { r with goItem := none, goReport := none }).outlet = r.outlet ∧
      (if go = none then r else { r with goItem := none, goReport := none }).offset = r.offset ∧
      (if go = none then r else { r with goItem := none, goReport := none }).onAir = r.onAir := by
    split <;> exact ⟨rfl, rfl, rfl, rfl⟩
  generalize hp1 : (if go = none then r else { r with goItem := none, goReport := none }) = p1 at *
  generalize (if go.isSome = true then s.dropGo c else s) = s1 at *
  have hC : ∃ y, Reruns s (if cue.isSome = true then s1.dropCued c else s1) c ch y
        (if cue = none then p1 else { p1 with cued := none, cueMoment := none }) ∧
      s1.Unpinned (if cue.isSome = true then s1.dropCued c else s1) z y cue
        (if cue = none then p1 else { p1 with cued := none, cueMoment := none }) := by
    cases cue with
    | none => exact ⟨z, h1, fun _ => ⟨rfl, rfl, rfl⟩, fun _ _ h => by cases h⟩
    | some it => exact h1.dropCued (hr1.1.trans (filter_mem hcue))
  obtain ⟨y2, h2, hu2⟩ := hC
  have hr2 : (if cue = none then p1 else { p1 with cued := none, cueMoment := none }).outlet = r.outlet ∧
      (if cue = none then p1 else { p1 with cued := none, cueMoment := none }).offset = r.offset ∧
      (if cue = none then p1 else { p1 with cued := none, cueMoment := none }).onAir = r.onAir := by
    split <;> exact hr1.2
  generalize hp2 : (if cue = none then p1 else { p1 with cued := none, cueMoment := none }) = p2 at *
  generalize (if cue.isSome = true then s1.dropCued c else s1) = s2 at *
  have h3 := h2.modRun (fun x => { x with walkOrigin := wo })
  generalize hw : s2.modRun c (fun x => { x with walkOrigin := wo }) = w at *
  generalize hq : ({ p2 with walkOrigin := wo } : RunRec) = q at *
  rw [h3.chan]
  dsimp only
  have hqo : q.outlet = r.outlet ∧ q.offset = r.offset ∧ q.onAir = r.onAir := by rw [← hq]; exact hr2
  have hT : w.Takes q.outlet := by
    have : ∀ o, w.outlet o = s.outlet o := by intro o; show w.outlets[o] = _; rw [h3.outlets]; rfl
    unfold State.Takes; rw [this, hqo.1]; exact ho
  have hu2 : s1.Unpinned w z { y2 with run := some q } cue p2 := by rw [← hw]; exact hu2
  generalize hy : { y2 with run := some q } = y at *
  rw [show y2.list = y.list by rw [← hy]]
  have hpd : y.period = ch.period := by unfold Chan.period; rw [h3.mirror]
  have hlead : w.lead y = s.sp.cueLead * ch.period := by
    unfold State.lead State.sp; rw [hpd, h3.keeps.station]
  have hj : w.joinInput y q (minus oldLocal (w.lead y)) =
      { time := oldLocal - BitVec.ofNat 48 (s.sp.cueLead * ch.period), offset := r.offset, period := ch.period
        lead := s.sp.cueLead * ch.period, minTail := ch.part.minTail } := by
    unfold State.joinInput; rw [hlead, hpd, h3.part, hqo.2.1]; rfl
  rw [hj, restoreStart_source, hqo.2.2]
  generalize hJ : join _ _ = j
  have hcued := holdCueNow_cued (hold := j.hold) (it := j.item r.offset s.itemSerial) h3.chan h3.run hT
  have hitem : j.item q.offset w.itemSerial = j.item r.offset s.itemSerial := by rw [hqo.2.1, h3.serial]
  rw [hitem]
  refine ⟨⟨s1, w, z, y, hu1, hu2, h3.chan, h3.run, h3.list, h3.tk, h3.part, h3.watch, h3.mirror, h3.outlets, h3.bus, h3.asrun,
    h3.reqs, h3.serial, h3.keeps.sameOutside, h3.keeps.sameWatches, h3.keeps.sameMirror, ?_⟩, hcued.2.trans h3.reports⟩
  subst hJ
  exact hcued.1

/-! ## Withdrawing a stop, entering, replacing and cancelling -/

theorem modTk_get' (hc : s.chan? c = some ch) (f : TakeoverRec → TakeoverRec) :
    (s.modTk c f).chan? c = some { ch with tk := f ch.tk } := by
  unfold State.modTk
  rw [chan?_modChan (by intro _; rfl), hc]; rfl

theorem withdrawStop_takes {p : OutletNo} (ho : s.Takes p) : (s.withdrawStop o).Takes p := by
  unfold State.Takes at ho ⊢
  rw [withdrawStop_withdrawn, settleOrder_outlet, outlet_modOutlet]
  split
  · rename_i e
    subst e
    exact ⟨ho.1, ho.2.1, lt_of_le_of_lt (List.length_filter_le _ _) ho.2.2⟩
  · exact ho

theorem settleOrder_frame (s : State) (o : OutletNo) :
    (s.settleOrder o).chans = s.chans ∧ (s.settleOrder o).reports = s.reports ∧ (s.settleOrder o).mirrorReqs = s.mirrorReqs := by
  unfold State.settleOrder
  split <;> [split; skip] <;> exact ⟨rfl, rfl, rfl⟩

/-- Withdrawing a stop, with the restore cue where the server may hold it: what is then on channel `c`, and whether it is cued. -/
theorem undoStop_undone (hc : s.chan? c = some ch) (hr : ch.run = some r) (ho : s.Takes r.outlet) :
    s.StopUndone (s.undoStop c o h) c ch r o h ∧ (s.undoStop c o h).reports = s.reports ∧
      (s.undoStop c o h).mirrorReqs = s.mirrorReqs ∧
      ∃ y q, (s.undoStop c o h).chan? c = some y ∧ y.run = some q ∧ y.tk = ch.tk ∧ y.mirror = ch.mirror ∧
        q.onAir = r.onAir ∧ ((∃ it, q.cued = some it ∧ it.locked = true) ∨ (q = r ∧ (s.undoStop c o h).Takes q.outlet)) := by
  have hw := settleOrder_frame (s.modOutlet o Outlet.stopWithdrawn) o
  rw [← withdrawStop_withdrawn] at hw
  have hcw : (s.withdrawStop o).chan? c = some ch := by unfold State.chan?; rw [hw.1]; exact hc
  have hT := withdrawStop_takes (o := o) ho
  unfold State.StopUndone State.undoStop
  dsimp only
  by_cases hs : (s.outlet o).stopMayStand = true
  · rw [if_pos hs]
    obtain ⟨hres, hrep⟩ := restoreCue_restored hcw hr hT h.localSwitch h.runSwitch
    refine ⟨⟨fun _ => hres, fun hn => absurd ((stopMayStand_iff _).1 hs) hn⟩, hrep.trans hw.2.1, ?_, ?_⟩
    · obtain ⟨v, w, z, y, _, _, _, _, _, _, _, _, _, _, _, _, hm, _, _, _, _, hcd⟩ := hres
      obtain ⟨x, it', _, _, _, _, _, _, _, _, _, _, _, _, hm2, _⟩ := hcd
      exact hm2.trans (hm.trans hw.2.2)
    · obtain ⟨v, w, z, y, _, _, _, _, _, htk, _, _, _, _, _, _, _, _, _, _, _, hcd⟩ := hres
      obtain ⟨x, it', hx, hit, hrun, hxtk, _⟩ := hcd
      refine ⟨x, _, hx, hrun, hxtk.trans htk, ?_, ?_, Or.inl ⟨it', rfl, by rw [hit]; rfl⟩⟩
      · have hk := (keeps_restoreCue (.refl (s.withdrawStop o)) c h.localSwitch h.runSwitch).chanContent c
        rw [hx, hcw] at hk
        exact (congrArg (fun p => p.1) (Option.some.inj hk) : _)
      · show RunRec.onAir (if _ then (if _ then r else _) else _) = _
        split <;> split <;> rfl
  · rw [if_neg hs]
    refine ⟨⟨fun hn => absurd ((stopMayStand_iff _).2 hn) hs, fun _ => rfl⟩, hw.2.1, hw.2.2, ch, r, hcw, hr, rfl, rfl, rfl, Or.inr ⟨rfl, hT⟩⟩

theorem limitCued_locked (hc : s.chan? c = some ch) (hr : ch.run = some r) (hl : ∃ it, r.cued = some it ∧ it.locked = true) :
    s.limitCued c = s := by
  obtain ⟨it, hi, hl⟩ := hl
  unfold State.limitCued
  rw [hc]
  simp [hr, hi, hl]

/-- What a limited cue leaves of a run, and whether it reports. -/
theorem limitCued_frame (hc : s.chan? c = some ch) (hr : ch.run = some r) :
    (s.limitCued c).reports = s.reports ∧ (s.limitCued c).mirrorReqs = s.mirrorReqs ∧ (s.limitCued c).outlets = s.outlets ∧
      ∃ y q, (s.limitCued c).chan? c = some y ∧ y.run = some q ∧ q.outlet = r.outlet := by
  obtain ⟨y', q', h1, h2, hl, hn⟩ := limitCued_limited hc hr
  rw [hc] at h1
  cases Option.some.inj h1
  rw [hr] at h2
  cases Option.some.inj h2
  by_cases hx : ∃ it, r.cued = some it ∧ it.locked = false ∧ ch.Limited it.mainStart
  · obtain ⟨it, hi, hlk, hm⟩ := hx
    have e : s.limitCued c = s.dropCued c := by
      unfold State.limitCued
      rw [hc]
      simp only [hr, Option.bind_some, hi]
      rw [if_pos (by rw [hlk, (pastLimit_iff _ _).2 hm]; rfl)]
    have hd := dropCued_dropped hc hr hi
    rw [e]
    obtain ⟨x, hxc, hrun, _, _, _, _, _, _, ho, _, _, hm, _⟩ := hd.1
    exact ⟨hd.2, hm, ho, x, _, hxc, hrun, rfl⟩
  · rw [hn hx]
    exact ⟨rfl, rfl, rfl, ch, r, hc, hr, rfl⟩

/-- The runner's choice where nothing is cued, once the requests are served; with a locked item cued the outlet does not matter. -/
theorem chooseIfNone_chose' (hc : s.chan? c = some ch) (hr : ch.run = some r) (hq : s.mirrorReqs = [])
    (ho : (∃ it, r.cued = some it ∧ it.locked = true) ∨ s.Takes r.outlet) :
    s.ChoseIfNone (s.chooseIfNone c) c ∧ (s.chooseIfNone c).reports = s.reports := by
  rcases ho with ⟨it, hi, _⟩ | ho
  · have e : s.chooseIfNone c = s := by
      unfold State.chooseIfNone
      rw [hc]
      simp [hr, hi]
    rw [e]
    exact ⟨⟨ch, r, hc, hr, fun hn => absurd hn (by rw [hi]; exact nofun), fun _ => rfl⟩, rfl⟩
  · refine ⟨chooseIfNone_chose hc hr hq ho, ?_⟩
    unfold State.chooseIfNone
    split
    · have hs : s.serveAll = s := by unfold State.serveAll; rw [hq]; rfl
      rw [hs]; exact (choose_next hc hr ho none).2
    · rfl

theorem serveAll_none (s : State) : s.serveAll.mirrorReqs = [] := (serveThrough_all s.mirrorReqs s rfl).1

theorem mirrorTurn_run (hc : s.chan? c = some ch) (hr : ch.run = some r) : s.mirrorTurn c = s.serveAll := by
  unfold State.mirrorTurn
  rw [hc]
  simp [hr]

/-- A held channel's record after the requests are served. -/
theorem serveAll_held (hc : s.chan? c = some ch) (hr : ch.run = some r) (hh : ch.tk.state.holding = true) :
    ∃ y, s.serveAll.chan? c = some y ∧ y.run = some r ∧ y.tk = ch.tk := by
  obtain ⟨y, hy, ht⟩ := (serveAll_served s).held c ch hc (Or.inl hh)
  refine ⟨y, hy, ?_, ht⟩
  have := (serveAll_served s).runs c
  rw [hy, hc] at this
  exact (Option.some.inj this).trans hr

/-- Offering a frame touches the bus queue and its drop count alone. -/
theorem offerFrame_rest (s : State) (f : Frame) : s.offerFrame f = { s with bus := (s.offerFrame f).bus } := by
  unfold State.offerFrame State.enqueueBy State.setQueue State.countDrop
  dsimp only
  repeat' split
  all_goals rfl

/-- What offering a HOLD leaves of a channel, and of what the runner needs. -/
theorem held_frame {k : Key} {hs : HoldState} {x : Chan} (hc : s.chan? c = some ch) :
    (∃ tk, (s.held c x k hs).chan? c = some { ch with tk := tk }) ∧ (s.held c x k hs).reports = s.reports ∧
      (s.held c x k hs).mirrorReqs = s.mirrorReqs ∧ (s.held c x k hs).outlets = s.outlets := by
  unfold State.held
  have h := offerFrame_chan? s ⟨k.merit, s.bus.own, .hold c hs (x.mirror.version.getD 0) x.currentEvent⟩ c
  rw [hc] at h
  refine ⟨⟨_, modTk_get' h _⟩, ?_⟩
  rw [offerFrame_rest]
  exact ⟨rfl, rfl, rfl⟩

/-- A HOLD says what the record says of its copy and of the event on air. -/
theorem held_congr {k : Key} {hs : HoldState} {x y : Chan} (hm : x.mirror.version = y.mirror.version)
    (he : x.currentEvent = y.currentEvent) : s.held c x k hs = s.held c y k hs := by
  unfold State.held; rw [hm, he]

/-- Serving the requests leaves an outlet taking commands. -/
theorem serveAll_takes {p : OutletNo} (hT : s.Takes p) : s.serveAll.Takes p := by
  have h1 := (serveAll_served s).outlets p
  by_cases hsp : (s.outlet p).state = .free ∨ (s.outlet p).state = .reserved
  · refine ⟨fun hx => ?_, fun hx => ?_, ?_⟩
    · rcases (serveAll_served s).spare p hsp with h | h <;> · rw [h] at hx; cases hx
    · rcases (serveAll_served s).spare p hsp with h | h <;> · rw [h] at hx; cases hx
    · have : (s.serveAll.outlet p).queue = (s.outlet p).queue := by have := congrArg Outlet.queue h1; exact this
      rw [this]; exact hT.2.2
  · have := (serveAll_served s).busy p (fun h => hsp (Or.inl h)) (fun h => hsp (Or.inr h))
    unfold State.Takes
    rw [this]; exact hT

/-- Entering HANDING_BACK, as R172 says, once the requests are served. -/
theorem enterHandback_entered {k : Key} (hc : s.chan? c = some ch) (hr : ch.run = some r) (hh : ch.tk.state.holding = true)
    (hk : ch.tk.ownHold = some k) :
    ∃ y, s.serveAll.chan? c = some y ∧ y.run = some r ∧ y.tk = ch.tk ∧
      s.serveAll.HandbackEntered (s.enterHandback c h) c y k h ∧ (s.enterHandback c h).reports = s.reports := by
  obtain ⟨y, hy, hyr, hyt⟩ := serveAll_held hc hr hh
  refine ⟨y, hy, hyr, hyt, ?_⟩
  unfold State.enterHandback State.HandbackEntered
  rw [mirrorTurn_run hc hr]
  have h1 := modTk_get' hy (fun tk => { tk with state := .handingBack, handback := some h })
  have h2 := assertHold_held (hs := .handingBack) h1 (show y.tk.ownHold = some k by rw [hyt]; exact hk) rfl
  rw [h2, held_congr (y := y) rfl rfl]
  obtain ⟨⟨tk, h3⟩, h4, _, _⟩ := held_frame (x := y) (k := k) (hs := .handingBack) h1
  exact ⟨limitCued_limited h3 hyr, (limitCued_frame h3 hyr).1.trans (h4.trans (serveAll_served s).reports)⟩

/-- Replacing a handback, as R175 says, once the requests are served. -/
theorem replaceHandback_replaced {switch localSwitch : Time} {forced : Bool} (hc : s.chan? c = some ch) (hr : ch.run = some r)
    (hh : ch.tk.state.holding = true) (ho : ch.tk.outlet = some o) (hb : ch.tk.handback = some h) (hT : s.Takes r.outlet) :
    ∃ y, s.serveAll.chan? c = some y ∧ y.run = some r ∧ y.tk = ch.tk ∧
      s.serveAll.HandbackReplaced (s.replaceHandback c switch localSwitch forced) c y r o h
        (s.serveAll.handbackTo y r switch localSwitch forced) ∧
      (s.replaceHandback c switch localSwitch forced).reports = s.reports := by
  obtain ⟨y, hy, hyr, hyt⟩ := serveAll_held hc hr hh
  refine ⟨y, hy, hyr, hyt, ?_⟩
  have hT' := serveAll_takes hT
  unfold State.replaceHandback
  rw [mirrorTurn_run hc hr]
  dsimp only
  rw [hy]
  dsimp only
  rw [hyt, hb, ho, hyr]
  dsimp only
  have hfresh : handbackFor switch localSwitch r.offset forced (s.serveAll.lead y) s.serveAll.now =
      s.serveAll.handbackTo y r switch localSwitch forced := by
    unfold handbackFor State.handbackTo stopPointFor State.lead minus atOrBefore
    simp only [decide_eq_true_eq]; rfl
  rw [hfresh]
  generalize hf : s.serveAll.handbackTo y r switch localSwitch forced = fresh
  have hls : fresh.localSwitch = localSwitch := by rw [← hf]; rfl
  have hsr : fresh.stopRequested = false := by rw [← hf]; rfl
  have hq := serveAll_none s
  have hrep := (serveAll_served s).reports
  generalize s.serveAll = u at *
  have hlater : before h.localSwitch localSwitch = decide (diff h.localSwitch fresh.localSwitch < 0) := by
    unfold before; rw [hls]
  rw [hlater]
  unfold State.HandbackReplaced
  dsimp only
  generalize hl : decide (diff h.localSwitch fresh.localSwitch < 0) = later
  have hl' : (diff h.localSwitch fresh.localSwitch < 0) ↔ later = true := by rw [← hl]; simp
  have ha := modTk_get' hy (fun tk => { tk with handback := some { fresh with stopRequested := h.stopRequested && !later } })
  generalize hA : u.modTk c (fun tk => { tk with handback := some { fresh with stopRequested := h.stopRequested && !later } }) = a at *
  have haT : a.Takes r.outlet := by rw [← hA]; exact hT'
  have haq : a.mirrorReqs = [] := by rw [← hA]; exact hq
  have har : a.reports = s.reports := by rw [← hA]; exact hrep
  clear hA
  -- after the stop is withdrawn or kept
  have hV : ∃ v, v = (if (h.stopRequested && later) = true then a.undoStop c o h else a) ∧
      (h.stopRequested = true → diff h.localSwitch fresh.localSwitch < 0 →
        a.StopUndone v c { y with tk := { y.tk with handback := some { fresh with stopRequested := false } } } r o h) ∧
      (h.stopRequested = false ∨ ¬ diff h.localSwitch fresh.localSwitch < 0 → v = a) ∧ v.reports = s.reports ∧ v.mirrorReqs = [] ∧
      ∃ z q, v.chan? c = some z ∧ z.run = some q ∧ ((∃ it, q.cued = some it ∧ it.locked = true) ∨ v.Takes q.outlet) := by
    refine ⟨_, rfl, ?_⟩
    by_cases hx : (h.stopRequested && later) = true
    · rw [if_pos hx]
      rw [Bool.and_eq_true] at hx
      obtain ⟨h1, h2, h3, z, q, h4, h5, _, _, _, h6⟩ := undoStop_undone (o := o) (h := h) ha (show y.run = some r from hyr) haT
      refine ⟨fun _ _ => ?_, ?_, h2.trans har, h3.trans haq, z, q, h4, h5, ?_⟩
      · rw [hx.1, hx.2] at h1; exact h1
      · rintro (h7 | h7)
        · rw [hx.1] at h7; cases h7
        · exact absurd (hl'.2 hx.2) h7
      · rcases h6 with h6 | ⟨_, h6⟩
        · exact Or.inl h6
        · exact Or.inr h6
    · rw [if_neg hx]
      refine ⟨fun h7 h8 => absurd (by rw [h7, hl'.1 h8]; rfl) hx, fun _ => rfl, har, haq, _, r, ha, hyr, Or.inr haT⟩
  obtain ⟨v, hv, h1, h2, h3, h4, z, q, h5, h6, h7⟩ := hV
  rw [← hv]
  have hL := limitCued_limited h5 h6
  obtain ⟨f1, f2, f3, z2, q2, f4, f5, f6⟩ := limitCued_frame h5 h6
  have hLc : (∃ it, q2.cued = some it ∧ it.locked = true) ∨ (v.limitCued c).Takes q2.outlet := by
    rcases h7 with h7 | h7
    · have := limitCued_locked h5 h6 h7
      rw [this, h5] at f4
      cases Option.some.inj f4
      rw [h6] at f5
      cases Option.some.inj f5
      exact Or.inl h7
    · right
      rw [f6]
      unfold State.Takes State.outlet at h7 ⊢
      rw [f3]; exact h7
  by_cases hlt : later = true
  · rw [if_pos hlt]
    obtain ⟨g1, g2⟩ := chooseIfNone_chose' f4 f5 (f2.trans h4) hLc
    refine ⟨⟨v, _, h1, h2, hL, fun _ => g1, fun hn => absurd (hl'.2 hlt) hn⟩, g2.trans (f1.trans h3)⟩
  · rw [if_neg hlt]
    exact ⟨⟨v, _, h1, h2, hL, fun hn => absurd (hl'.1 hn) hlt, fun _ => rfl⟩, f1.trans h3⟩

/-- Cancelling a handback that is not forced, as R176 says, once the requests are served. -/
theorem cancelHandback_cancelled {k : Key} (hc : s.chan? c = some ch) (hr : ch.run = some r) (hh : ch.tk.state.holding = true)
    (ho : ch.tk.outlet = some o) (hb : ch.tk.handback = some h) (hf : h.forced = false) (hk : ch.tk.ownHold = some k)
    (hT : s.Takes r.outlet) :
    ∃ y, s.serveAll.chan? c = some y ∧ y.run = some r ∧ y.tk = ch.tk ∧
      s.serveAll.HandbackCancelled (s.cancelHandback c) c y r o h k ∧ (s.cancelHandback c).reports = s.reports := by
  obtain ⟨y, hy, hyr, hyt⟩ := serveAll_held hc hr hh
  refine ⟨y, hy, hyr, hyt, ?_⟩
  unfold State.cancelHandback State.HandbackCancelled
  rw [hc]
  dsimp only
  rw [hb]
  dsimp only
  rw [hf, ho, mirrorTurn_run hc hr]
  simp only [Bool.false_eq_true, if_false]
  obtain ⟨h1, h2, h3, z, q, h4, h5, h6, h7, h8, h9⟩ := undoStop_undone (o := o) (h := h) hy hyr (serveAll_takes hT)
  generalize s.serveAll.undoStop c o h = v at *
  have g1 := modTk_get' h4 (fun tk => { tk with state := .onAir, handback := none })
  have g2 := assertHold_held (hs := .onAir) g1 (show z.tk.ownHold = some k by rw [h6, hyt]; exact hk) rfl
  rw [g2, held_congr (y := y) (by exact congrArg (fun m => m.version) h7) (by unfold Chan.currentEvent; simp [h5, hyr, h8])]
  obtain ⟨⟨tk, e1⟩, e2, e3, e4⟩ := held_frame (x := y) (k := k) (hs := .onAir) g1
  have e5 := chooseIfNone_chose' e1 (show z.run = some q from h5) (e3.trans (h3.trans (serveAll_none s))) (by
    rcases h9 with h9 | ⟨_, h9⟩
    · exact Or.inl h9
    · right
      unfold State.Takes State.outlet at h9 ⊢
      rw [e4]; exact h9)
  exact ⟨⟨v, h1, e5.1⟩, e5.2.trans (e2.trans (h2.trans (serveAll_served s).reports))⟩

end Sys2Proof.Machine
end

