-- ==== Sys2Proof/Laws/Notices.lean ====
section
/-! SUPPORT. What the byte of a notice's detail code tells (R186). -/

namespace Sys2Proof.Machine

theorem Failure.index_lt (f : Failure) : f.index < 8 := by rcases f with ⟨⟨⟩⟩ | _ | _ | _ <;> decide

theorem Failure.index_inj {f g : Failure} (h : f.index = g.index) : f = g := by
  rcases f with ⟨⟨⟩⟩ | _ | _ | _ <;> rcases g with ⟨⟨⟩⟩ | _ | _ | _ <;> first | rfl | cases h

/-- The number of a code fits a byte. -/
theorem NoticeCode.index_lt (c : NoticeCode) : c.index < 256 := by
  cases c with
  | dualHolder st l => have := st.isLt; cases l <;> simp only [NoticeCode.index] <;> omega
  | joinFailed o f => have := f.index_lt; have := o.isLt; simp only [NoticeCode.index]; omega
  | stationClash x => have := x.isLt; simp only [NoticeCode.index]; omega
  | channelLost x => cases x <;> decide
  | taken o => have := o.isLt; simp only [NoticeCode.index]; omega
  | cueFault k f => have := f.index_lt; cases k <;> simp only [NoticeCode.index] <;> omega
  | handedBack o f => have := o.isLt; cases f <;> simp only [NoticeCode.index] <;> omega
  | mirror x => cases x <;> decide
  | busQuiet x => cases x <;> decide
  | _ => decide

theorem handedBack_index_lt (o : OutletNo) (x : Bool) : (NoticeCode.handedBack o x).index < 8 := by
  have := o.isLt; cases x <;> simp only [NoticeCode.index] <;> omega

/-- Codes of one class have numbers of their own. -/
theorem NoticeCode.index_inj {a b : NoticeCode} (hc : a.cls = b.cls) (h : a.index = b.index) : a = b := by
  cases a <;> cases b <;> first | cases hc | skip
  case dualHolder.dualHolder s x t y =>
    have := s.isLt; have := t.isLt
    cases x <;> cases y <;> simp only [NoticeCode.index] at h <;> first | omega | rw [BitVec.eq_of_toNat_eq (show s.toNat = t.toNat by omega)]
  case joinFailed.joinFailed o f p g =>
    have := f.index_lt; have := g.index_lt
    simp only [NoticeCode.index] at h
    rw [Fin.ext (show o.val = p.val by omega), Failure.index_inj (show f.index = g.index by omega)]
  case stationClash.stationClash x y => rw [BitVec.eq_of_toNat_eq (show x.toNat = y.toNat from h)]
  case taken.taken o p => rw [Fin.ext (show o.val = p.val from h)]
  case cueFault.cueFault k f l g =>
    have := f.index_lt; have := g.index_lt
    cases k <;> cases l <;> simp only [NoticeCode.index] at h <;> first | omega | rw [Failure.index_inj (show f.index = g.index by omega)]
  case handedBack.handedBack o x p y =>
    have := o.isLt; have := p.isLt
    cases x <;> cases y <;> simp only [NoticeCode.index] at h <;> first | omega | rw [Fin.ext (show o.val = p.val by omega)]
  case channelLost.channelLost x y => cases x <;> cases y <;> first | rfl | cases h
  case mirror.mirror x y => cases x <;> cases y <;> first | rfl | cases h
  case busQuiet.busQuiet x y => cases x <;> cases y <;> first | rfl | cases h
  all_goals first
    | rfl
    | cases h
    | (rename_i o x; have := handedBack_index_lt o x; simp only [NoticeCode.index] at h this; omega)

/-- Codes of one class have bytes of their own, so the byte tells what the code names (R186). -/
theorem noticeCodeByte_inj {a b : NoticeCode} (hc : a.cls = b.cls) (h : noticeCodeByte a = noticeCodeByte b) : a = b := by
  unfold noticeCodeByte at h
  rw [hc] at h
  have h := congrArg BitVec.toNat ((Config.noticeCodes b.cls.number).injective h)
  rw [BitVec.toNat_ofNat, BitVec.toNat_ofNat, Nat.mod_eq_of_lt a.index_lt, Nat.mod_eq_of_lt b.index_lt] at h
  exact NoticeCode.index_inj hc h

end Sys2Proof.Machine
end

