-- ==== Sys2Proof/Laws/Pass.lean ====
section
/-! SUPPORT. What a pass of the takeover check, the end of an ACTIVE bus and a re-keying leave of one channel (R108, R113, R115). -/

namespace Sys2Proof.Machine

theorem modTk_get (s : State) {c : Channel} {ch : Chan} (h : s.chan? c = some ch) (f : TakeoverRec → TakeoverRec) :
    (s.modTk c f).chan? c = some { ch with tk := f ch.tk } := by rw [modTk_chan?, h]; rfl

theorem modTk_modTk (s : State) (c : Channel) (f g : TakeoverRec → TakeoverRec) :
    (s.modTk c f).modTk c g = s.modTk c (fun tk => g (f tk)) := by
  unfold State.modTk State.modChan
  simp only [List.map_map]
  congr 1
  apply List.map_congr_left
  intro x _
  simp only [Function.comp]
  by_cases h : x.part.channel == c
  · simp [h]
  · simp [h]

theorem check_unchecked {s : State} {c : Channel} {ch : Chan} (h : s.chan? c = some ch) (hk : ch.tk.state.checked = false) : s.check c = s := by
  unfold State.check State.checkChannel
  rw [h]; simp [hk]

theorem mem_insertRanked (ch d : Chan) (l : List Chan) : d ∈ insertRanked ch l ↔ d = ch ∨ d ∈ l := by
  induction l with
  | nil => simp [insertRanked]
  | cons e rest ih => unfold insertRanked; split <;> simp [ih]; tauto

/-- Every profiled channel is in the order of the pass (R108). -/
theorem mem_passOrder {s : State} {c : Channel} {ch : Chan} (h : s.chan? c = some ch) : c ∈ s.passOrder := by
  unfold State.passOrder
  have key : ∀ l : List Chan, ∀ d, d ∈ l.foldr insertRanked [] ↔ d ∈ l := by
    intro l; induction l with
    | nil => simp
    | cons e rest ih => intro d; simp [mem_insertRanked, ih]
  rw [List.mem_map]
  exact ⟨ch, (key _ _).2 (List.mem_of_find?_eq_some h), chan?_channel h⟩

theorem contending_iff (ch : Chan) : ch.contending = true ↔ ch.tk.state = .contending := by
  unfold Chan.contending; simp

theorem checkChannel_cannot (s : State) (c d : Channel) (ch : Chan) (hd : s.chan? d = some ch)
    (hno : ch.tk.inhibit = true ∨ s.bus.state ≠ .active) (hs : ch.tk.state ≠ .contending) :
    ∃ x, (s.checkChannel c).1.chan? d = some x ∧ x.tk.state ≠ .contending ∧ x.tk.inhibit = ch.tk.inhibit ∧ x.tk.outlet = ch.tk.outlet ∧
      x.tk.ownClaim = ch.tk.ownClaim ∧ x.tk.claimSent = ch.tk.claimSent ∧ x.tk.windowEnd = ch.tk.windowEnd ∧
      x.part = ch.part ∧ x.watch = ch.watch ∧ x.tk.awaitLive = ch.tk.awaitLive ∧
      (ch.tk.inhibit = true → ch.tk.state = .blocked .inhibited → ch.part.rank ≠ 15 → ch.watch.state = .lost → ch.tk.awaitLive = false → s.bus.state = .active → x.tk.state = .blocked .inhibited) ∧
      (s.bus.state ≠ .active → ch.tk.state = .idle ∨ ch.tk.state = .blocked .awaitLive → x.tk.state = .idle ∨ x.tk.state = .blocked .awaitLive) := by
  by_cases hcd : d = c
  · subst hcd
    unfold State.checkChannel
    rw [hd]
    dsimp only
    split
    · rename_i hk
      exact ⟨ch, hd, hs, rfl, rfl, rfl, rfl, rfl, rfl, rfl, rfl, fun _ h _ _ _ _ => h,
        fun _ h => h⟩
    · have hnc : ∀ o k, s.checkOutcome ch ≠ .contend o k := by
        intro o k
        unfold State.checkOutcome
        repeat' split
        all_goals simp_all
      have hin : ch.tk.inhibit = true → ch.tk.state = .blocked .inhibited → ch.part.rank ≠ 15 → ch.watch.state = .lost → ch.tk.awaitLive = false → s.bus.state = .active → s.checkOutcome ch = .blocked .inhibited := by
        intro a b d e f g
        unfold State.checkOutcome
        simp [a, d, e, f, g]
      have hia : s.bus.state ≠ .active → s.checkOutcome ch = .idle ∨ s.checkOutcome ch = .blocked .awaitLive := by
        intro a
        unfold State.checkOutcome
        repeat' split
        all_goals simp_all
      cases ho : s.checkOutcome ch with
      | contend o k => exact absurd ho (hnc o k)
      | idle =>
        refine ⟨_, modTk_get s hd _, by simp, rfl, rfl, rfl, rfl, rfl, rfl, rfl, rfl, fun a b d e f g => ?_, fun _ _ => Or.inl rfl⟩
        have := hin a b d e f g; rw [ho] at this; cases this
      | yielded =>
        refine ⟨_, modTk_get s hd _, by simp, rfl, rfl, rfl, rfl, rfl, rfl, rfl, rfl, fun a b d e f g => ?_, fun a b => ?_⟩
        · have := hin a b d e f g; rw [ho] at this; cases this
        · have := hia a; rw [ho] at this; simp at this
      | blocked r =>
        refine ⟨_, modTk_get s hd _, by simp, rfl, rfl, rfl, rfl, rfl, rfl, rfl, rfl, fun a b d e f g => ?_, fun a b => ?_⟩
        · have := hin a b d e f g; rw [ho] at this; cases this; rfl
        · have := hia a; rw [ho] at this; simp at this; right; simp [this]
  · have : (s.checkChannel c).1.chan? d = some ch := checkChannel_other _ hd (fun h => absurd h hcd)
    exact ⟨ch, this, hs, rfl, rfl, rfl, rfl, rfl, rfl, rfl, rfl, fun _ h _ _ _ _ => h, fun _ h => h⟩

/-- What a check or a pass leaves of a channel that cannot contend, being inhibited or off an ACTIVE bus (R109). -/
structure Uncontending (s : State) (ch x : Chan) : Prop where
  notContending : x.tk.state ≠ .contending
  inhibit : x.tk.inhibit = ch.tk.inhibit
  outlet : x.tk.outlet = ch.tk.outlet
  ownClaim : x.tk.ownClaim = ch.tk.ownClaim
  claimSent : x.tk.claimSent = ch.tk.claimSent
  windowEnd : x.tk.windowEnd = ch.tk.windowEnd
  part : x.part = ch.part
  watch : x.watch = ch.watch
  awaitLive : x.tk.awaitLive = ch.tk.awaitLive
  stays : ch.tk.inhibit = true → ch.tk.state = .blocked .inhibited → ch.part.rank ≠ 15 → ch.watch.state = .lost → ch.tk.awaitLive = false → s.bus.state = .active → x.tk.state = .blocked .inhibited
  offActive : s.bus.state ≠ .active → ch.tk.state = .idle ∨ ch.tk.state = .blocked .awaitLive → x.tk.state = .idle ∨ x.tk.state = .blocked .awaitLive

theorem Uncontending.refl (s : State) (ch : Chan) (h : ch.tk.state ≠ .contending) : Uncontending s ch ch := ⟨h, rfl, rfl, rfl, rfl, rfl, rfl, rfl, rfl, fun _ h _ _ _ _ => h, fun _ h => h⟩

theorem Uncontending.trans {s t : State} {a b c : Chan} (hb : t.bus.state = s.bus.state) (h : Uncontending s a b) (k : Uncontending t b c) : Uncontending s a c where
  notContending := k.notContending
  inhibit := k.inhibit.trans h.inhibit
  outlet := k.outlet.trans h.outlet
  ownClaim := k.ownClaim.trans h.ownClaim
  claimSent := k.claimSent.trans h.claimSent
  windowEnd := k.windowEnd.trans h.windowEnd
  part := k.part.trans h.part
  watch := k.watch.trans h.watch
  awaitLive := k.awaitLive.trans h.awaitLive
  stays := fun x1 x2 x3 x4 x5 x6 => k.stays (h.inhibit.trans x1) (h.stays x1 x2 x3 x4 x5 x6) (by rw [h.part]; exact x3) (by rw [h.watch]; exact x4) (by rw [h.awaitLive]; exact x5) (by rw [hb]; exact x6)
  offActive := fun x1 x2 => k.offActive (by rw [hb]; exact x1) (h.offActive x1 x2)

theorem checkChannel_uncontending (s : State) (c d : Channel) (ch : Chan) (hd : s.chan? d = some ch)
    (hno : ch.tk.inhibit = true ∨ s.bus.state ≠ .active) (hs : ch.tk.state ≠ .contending) :
    ∃ x, (s.checkChannel c).1.chan? d = some x ∧ Uncontending s ch x := by
  obtain ⟨x, h0, h1, h2, h3, h4, h5, h6, h7, h8, h9, h11, h12⟩ := checkChannel_cannot s c d ch hd hno hs
  exact ⟨x, h0, h1, h2, h3, h4, h5, h6, h7, h8, h9, h11, h12⟩

theorem claimsOnly_busState {s t : State} (h : s.ClaimsOnly t) : t.bus.state = s.bus.state := by rw [h.busCore]

theorem checkAll_uncontending (l : List Channel) : ∀ (s : State) (d : Channel) (ch : Chan), s.chan? d = some ch →
    (ch.tk.inhibit = true ∨ s.bus.state ≠ .active) → ch.tk.state ≠ .contending → ∃ x, (s.checkAll l).1.chan? d = some x ∧ Uncontending s ch x := by
  induction l with
  | nil => exact fun s d ch h _ h2 => ⟨ch, h, Uncontending.refl s ch h2⟩
  | cons c l ih =>
    intro s d ch h h1 h2
    obtain ⟨x, hx, hi⟩ := checkChannel_uncontending s c d ch h h1 h2
    have hb := claimsOnly_busState (claimsOnly_checkChannel s c)
    obtain ⟨y, hy, hj⟩ := ih (s.checkChannel c).1 d x hx (by rw [hi.inhibit, hb]; exact h1) hi.notContending
    exact ⟨y, hy, hi.trans hb hj⟩

theorem passes_uncontending (n : Nat) : ∀ (s : State) (d : Channel) (ch : Chan), s.chan? d = some ch →
    (ch.tk.inhibit = true ∨ s.bus.state ≠ .active) → ch.tk.state ≠ .contending → ∃ x, (State.passes n s).chan? d = some x ∧ Uncontending s ch x := by
  induction n with
  | zero => exact fun s d ch h _ h2 => ⟨ch, h, Uncontending.refl s ch h2⟩
  | succ n ih =>
    intro s d ch h h1 h2
    unfold State.passes
    simp only
    obtain ⟨x, hx, hi⟩ := checkAll_uncontending s.passOrder s d ch h h1 h2
    have hb := claimsOnly_busState (claimsOnly_checkAll s.passOrder s)
    split
    · obtain ⟨y, hy, hj⟩ := ih (s.checkAll s.passOrder).1 d x hx (by rw [hi.inhibit, hb]; exact h1) hi.notContending
      exact ⟨y, hy, hi.trans hb hj⟩
    · exact ⟨x, hx, hi⟩

theorem pass_uncontending (s : State) (d : Channel) (ch : Chan) (h : s.chan? d = some ch)
    (h1 : ch.tk.inhibit = true ∨ s.bus.state ≠ .active) (h2 : ch.tk.state ≠ .contending) : ∃ x, s.pass.chan? d = some x ∧ Uncontending s ch x :=
  passes_uncontending _ s d ch h h1 h2

/-- Leaving CONTENDING for IDLE, channel by channel (R115). -/
theorem leaveAllContending_chan (l : List Channel) : ∀ (s : State) (d : Channel) (ch : Chan), s.chan? d = some ch →
    (ch.tk.state ≠ .contending → (s.leaveAllContending l).chan? d = some ch) ∧
    (ch.tk.state = .contending → d ∈ l → (s.leaveAllContending l).chan? d = some { ch with tk := { ch.tk with
      state := .idle, outlet := none, ownClaim := none, claimSent := false, windowEnd := none } }) := by
  induction l with
  | nil => exact fun s d ch h => ⟨fun _ => h, fun _ hm => by cases hm⟩
  | cons c l ih =>
    intro s d ch h
    unfold State.leaveAllContending
    by_cases hcd : d = c
    · subst hcd
      rw [h]; dsimp only
      constructor
      · intro hn
        rw [if_neg (by rw [contending_iff]; exact hn)]
        exact (ih s d ch h).1 hn
      · intro hy _
        rw [if_pos ((contending_iff ch).2 hy)]
        have := leaveContending_chan? s d .idle
        rw [h] at this
        exact (ih _ d _ this).1 (by simp)
    · have hstep : (match s.chan? c with
        | some ch => if ch.contending then s.leaveContending c .idle else s
        | none => s).chan? d = some ch := by
        split
        · split
          · rw [leaveContending_chan?_ne _ _ hcd]; exact h
          · exact h
        · exact h
      refine ⟨fun hn => (ih _ d ch hstep).1 hn, fun hy hm => ?_⟩
      rcases List.mem_cons.1 hm with rfl | hm
      · exact absurd rfl hcd
      · exact (ih _ d ch hstep).2 hy hm

/-- When the bus leaves ACTIVE every claim ends (R115). -/
theorem busLeftActive_ends (s : State) (hb : s.bus.state ≠ .active) :
    (∀ c x, s.busLeftActive.chan? c = some x → x.tk.state ≠ .contending) ∧
    ∀ c ch, s.chan? c = some ch → ch.tk.state = .contending → ∃ x, s.busLeftActive.chan? c = some x ∧
        (x.tk.state = .idle ∨ x.tk.state = .blocked .awaitLive) ∧ x.tk.ownClaim = none ∧ x.tk.claimSent = false ∧
        x.tk.windowEnd = none ∧ x.tk.outlet = none := by
  have cl := claimsOnly_leaveAllContending s.passOrder s
  have hb' : (s.leaveAllContending s.passOrder).bus.state ≠ .active := by rw [claimsOnly_busState cl]; exact hb
  constructor
  · intro c x hx
    have := (claimsOnly_busLeftActive s).chan c
    rw [hx] at this
    cases hc : s.chan? c with
    | none => rw [hc] at this; cases this
    | some ch =>
      have h1 := leaveAllContending_chan s.passOrder s c ch hc
      by_cases hk : ch.tk.state = .contending
      · obtain ⟨y, hy, hi⟩ := pass_uncontending _ c _ (h1.2 hk (mem_passOrder hc)) (Or.inr hb') (by simp)
        unfold State.busLeftActive at hx
        rw [hy] at hx; cases hx; exact hi.notContending
      · obtain ⟨y, hy, hi⟩ := pass_uncontending _ c _ (h1.1 hk) (Or.inr hb') hk
        unfold State.busLeftActive at hx
        rw [hy] at hx; cases hx; exact hi.notContending
  · intro c ch hc hk
    have h1 := leaveAllContending_chan s.passOrder s c ch hc
    obtain ⟨y, hy, hi⟩ := pass_uncontending _ c _ (h1.2 hk (mem_passOrder hc)) (Or.inr hb') (by simp)
    exact ⟨y, hy, hi.offActive hb' (Or.inl rfl), hi.ownClaim, hi.claimSent, hi.windowEnd, hi.outlet⟩

/-- What re-keying leaves of a contending channel: yielded, or contending with the new key (R113). -/
def Rekeyed (ch : Chan) (k : Key) (x : Chan) : Prop :=
  x.part = ch.part ∧ x.mirror = ch.mirror ∧ (x.tk.state = .yielded ∨ (x.tk.state = .contending ∧ x.tk.ownClaim = some k))

theorem claimKey_same {s t : State} (h : s.ClaimsOnly t) (ch x : Chan) (hp : x.part = ch.part) (hm : x.mirror = ch.mirror) :
    t.claimKey x = s.claimKey ch := by
  unfold State.claimKey State.merit
  rw [hp, hm, h.tb, h.busCore]

theorem rekeyOne_self (s : State) (c : Channel) (ch : Chan) (k : Key) (hc : s.chan? c = some ch) (hk : s.claimKey ch = some k)
    (hs : ch.tk.state = .contending) : ∃ x, (s.rekeyOne c).1.chan? c = some x ∧ Rekeyed ch k x := by
  unfold State.rekeyOne
  rw [hc]
  simp only [Chan.contending, hs, beq_self_eq_true, Bool.not_true, hk]
  simp only [Bool.false_eq_true, if_false]
  split
  · rename_i h; exact ⟨ch, hc, rfl, rfl, Or.inr ⟨hs, h⟩⟩
  · split
    · have h := leaveContending_chan? s c .yielded
      rw [hc] at h
      exact ⟨_, modTk_get _ h _, rfl, rfl, Or.inl rfl⟩
    · have h : ((s.modTk c (fun tk =>
          { tk with ownClaim := some k, claimSent := false, windowEnd := none })).offerClaim c k).chan? c = some { ch with tk :=
          { ch.tk with ownClaim := some k, claimSent := false, windowEnd := none } } := by
        unfold State.offerClaim
        rw [offerFrame_chan?, modTk_get s hc]
      exact ⟨_, h, rfl, rfl, Or.inr ⟨hs, rfl⟩⟩

theorem rekeyOne_ne (s : State) {c d : Channel} (h : d ≠ c) : (s.rekeyOne c).1.chan? d = s.chan? d := by
  unfold State.rekeyOne
  repeat' split
  all_goals try rfl
  · show ((s.leaveContending c .yielded).armYield c).chan? d = _
    unfold State.armYield
    rw [modTk_chan?_ne _ _ h, leaveContending_chan?_ne _ _ h]
  · show (State.offerClaim _ _ _).chan? d = _
    unfold State.offerClaim
    rw [offerFrame_chan?, modTk_chan?_ne _ _ h]

theorem rekeyOne_keepsRekeyed (s : State) (c d : Channel) (ch : Chan) (k : Key) (x : Chan) (hx : s.chan? d = some x)
    (hd : Rekeyed ch k x) (hk : s.claimKey ch = some k) : ∃ y, (s.rekeyOne c).1.chan? d = some y ∧ Rekeyed ch k y := by
  by_cases e : d = c
  · subst e
    obtain ⟨h1, h2, h3⟩ := hd
    rcases h3 with h3 | ⟨h3, h4⟩
    · refine ⟨x, ?_, h1, h2, Or.inl h3⟩
      unfold State.rekeyOne
      rw [hx]; simp [Chan.contending, h3, hx]
    · have : s.claimKey x = some k := by rw [← hk]; exact claimKey_same (State.ClaimsOnly.refl s) ch x h1 h2
      obtain ⟨y, hy, d1, d2, d3⟩ := rekeyOne_self s d x k hx this h3
      exact ⟨y, hy, d1.trans h1, d2.trans h2, d3⟩
  · exact ⟨x, by rw [rekeyOne_ne s e, hx], hd⟩

theorem rekeyAll_keepsRekeyed (l : List Channel) : ∀ (s : State) (d : Channel) (ch : Chan) (k : Key) (x : Chan), s.chan? d = some x →
    s.claimKey ch = some k → (Rekeyed ch k x) → ∃ y, (s.rekeyAll l).1.chan? d = some y ∧ Rekeyed ch k y := by
  induction l with
  | nil => exact fun s d ch k x hx _ hd => ⟨x, hx, hd⟩
  | cons c rest ih =>
    intro s d ch k x hx hk hd
    obtain ⟨y, hy, hd'⟩ := rekeyOne_keepsRekeyed s c d ch k x hx hd hk
    exact ih (s.rekeyOne c).1 d ch k y hy ((claimKey_same (claimsOnly_rekeyOne s c) ch ch rfl rfl).trans hk) hd'

theorem rekeyAll_mem (l : List Channel) : ∀ (s : State) (d : Channel) (ch : Chan) (k : Key), d ∈ l → s.chan? d = some ch →
    s.claimKey ch = some k → ch.tk.state = .contending → ∃ y, (s.rekeyAll l).1.chan? d = some y ∧ Rekeyed ch k y := by
  induction l with
  | nil => intro _ _ _ _ h; cases h
  | cons c rest ih =>
    intro s d ch k hm hx hk hs
    by_cases e : d = c
    · subst e
      obtain ⟨y, hy, hd⟩ := rekeyOne_self s d ch k hx hk hs
      exact rekeyAll_keepsRekeyed rest _ d ch k y hy ((claimKey_same (claimsOnly_rekeyOne s d) ch ch rfl rfl).trans hk) hd
    · have : d ∈ rest := by simpa [e] using hm
      exact ih (s.rekeyOne c).1 d ch k this (by rw [rekeyOne_ne s e, hx])
        ((claimKey_same (claimsOnly_rekeyOne s c) ch ch rfl rfl).trans hk) hs

/-- A change of time class re-keys every contending channel (R12, R113). -/
theorem timeClassChanged_rekeys (s : State) (c : Channel) (ch : Chan) (k : Key) (hc : s.chan? c = some ch)
    (hk : s.claimKey ch = some k) (hs : ch.tk.state = .contending) :
    ∃ x, s.timeClassChanged.chan? c = some x ∧ (x.tk.state = .yielded ∨ (x.tk.state = .contending ∧ x.tk.ownClaim = some k)) := by
  obtain ⟨y, hy, hd⟩ := rekeyAll_mem _ s c ch k (mem_passOrder hc) hc hk hs
  unfold State.timeClassChanged
  simp only
  have hn : y.tk.state.checked = false := by rcases hd.2.2 with h | h <;> simp [h, TakeoverState.checked]
  split
  · exact ⟨y, pass_other hy hn, hd.2.2⟩
  · exact ⟨y, hy, hd.2.2⟩

theorem timeClassChanged_rekeyedTo (s : State) (u : State) (tc : TimeClass) (hu : u.tb.state.timeClass = tc) (hb : u.bus = s.bus) (hcs : u.chans = s.chans) :
    s.RekeyedTo u.timeClassChanged (timeClassCode tc) := by
  intro c ch m hc hs hm
  have hc' : u.chan? c = some ch := by unfold State.chan?; rw [hcs]; exact hc
  refine timeClassChanged_rekeys u c ch _ hc' ?_ hs
  unfold State.claimKey State.merit meritOf
  rw [hm, hu, hb]; rfl

end Sys2Proof.Machine
end

