-- ==== Sys2Proof/Laws/Passed.lean ====
section
/-! SUPPORT. The takeover check, its passes, re-keying and what is told of a condition, said exactly in the words of Safety: one
lemma for each operation (R108 to R115, R117, R118). -/

namespace Sys2Proof.Machine

variable {s t : State} {c : Channel} {ch : Chan}

theorem modOutlet_same (s : State) (o : OutletNo) (f : Outlet → Outlet) (h : f (s.outlet o) = s.outlet o) : s.modOutlet o f = s := by
  unfold State.modOutlet
  rw [h]
  have : s.outlets.set o (s.outlet o) = s.outlets := by
    apply Vector.ext
    intro i hi
    rw [Vector.getElem_set]
    split
    · rename_i e; subst e; rfl
    · rfl
  rw [this]

theorem coalesces_claim (c : Channel) (b : FrameBody) : coalesces (.claim c) b = (b == .claim c) := by
  cases b with
  | claim d =>
    by_cases e : d = c
    · subst e; simp [coalesces]
    · have e' : c ≠ d := fun h => e h.symm
      simp [coalesces, e, e']
  | _ => rfl

theorem unreserve_eq (s : State) (o : OutletNo) : s.unreserve o =
    if (s.outlet o).state = OutletState.reserved then s.modOutlet o (fun x => { x with state := .free, channel := none }) else s := by
  unfold State.unreserve
  split
  · rename_i h
    unfold State.modOutlet
    dsimp only
    rw [if_pos h]
  · rename_i h
    exact modOutlet_same _ _ _ (if_neg h)

/-- Leaving CONTENDING, with the outlet the channel's record names (R110, R114, R115). -/
theorem leaveContending_left (h : s.chan? c = some ch) (n : TakeoverState) :
    s.leaveContending c n = s.leftContending c ch.tk.outlet n := by
  unfold State.leaveContending State.leftContending State.withdrawClaim
  rw [h]
  dsimp only
  simp only [coalesces_claim, unreserve_eq]
  have e : ∀ a : Attempt, (if (a.frame.body == FrameBody.claim c) = true then { a with withdrawn := true } else a) =
      { a with withdrawn := a.withdrawn || a.frame.body == .claim c } := by
    intro a; cases a.frame.body == FrameBody.claim c <;> simp
  simp only [e]
  cases ch.tk.outlet with
  | none => rfl
  | some o => rfl

theorem leftContending_now (s : State) (c : Channel) (o : Option OutletNo) (n : TakeoverState) :
    (s.leftContending c o n).now = s.now ∧ (s.leftContending c o n).memorySpan = s.memorySpan := by
  unfold State.leftContending
  dsimp only
  repeat' split
  all_goals exact ⟨rfl, rfl⟩

/-- A yield to a better claim (R114). -/
theorem yield_left (h : s.chan? c = some ch) : (s.leaveContending c .yielded).armYield c = s.yieldedToClaim c ch.tk.outlet := by
  rw [leaveContending_left h]
  unfold State.armYield State.yieldedToClaim
  rw [(leftContending_now s c _ _).1, (leftContending_now s c _ _).2]
  rfl

/-- The check of a channel in IDLE or BLOCKED, by what R109 gives it, with whether it freed an outlet. -/
theorem checkChannel_eq (h : s.chan? c = some ch) (hk : ¬ ch.tk.state.checked = false) :
    s.checkChannel c = match s.checkOutcome ch with
      | .idle => (s.modTk c (fun tk => { tk with state := .idle }), false)
      | .blocked r => (s.modTk c (fun tk => { tk with state := .blocked r }), false)
      | .yielded => (s.modTk c (fun tk => { tk with state := .yielded, yieldDl := none }), false)
      | .contend o k => s.enterContending ch o k := by
  unfold State.checkChannel
  rw [h]
  simp only [Bool.not_eq_true', hk]
  rw [if_neg nofun]
  all_goals cases s.checkOutcome ch <;> rfl

/-- One takeover check is one step of the table of R109. -/
theorem checkChannel_step (h : s.chan? c = some ch) : s.CheckStep (s.checkChannel c).1 c ch (s.checkChannel c).2 := by
  have hc : ch.part.channel = c := chan?_channel h
  unfold State.CheckStep
  dsimp only
  by_cases hk : ch.tk.state.checked = false
  · rw [if_pos hk]
    unfold State.checkChannel
    rw [h]
    simp only [hk, Bool.not_false, if_true, and_self]
  rw [if_neg hk]
  have e := checkChannel_eq h hk
  have out : ∀ x : CheckOutcome, s.checkOutcome ch = x → s.checkChannel c = match x with
      | .idle => (s.modTk c (fun tk => { tk with state := .idle }), false)
      | .blocked r => (s.modTk c (fun tk => { tk with state := .blocked r }), false)
      | .yielded => (s.modTk c (fun tk => { tk with state := .yielded, yieldDl := none }), false)
      | .contend o k => s.enterContending ch o k := fun x hx => by rw [e, hx]
  unfold State.checkOutcome at out
  by_cases h1 : ch.part.rank = 15 ∨ ch.watch.state ≠ .lost
  · rw [if_pos h1, out .idle (by rcases h1 with h1 | h1 <;> simp [h1])]
    exact ⟨rfl, rfl⟩
  rw [if_neg h1]
  obtain ⟨h2, h3⟩ : ch.part.rank ≠ 15 ∧ ch.watch.state = .lost := by simpa [not_or] using h1
  by_cases h4 : ch.tk.awaitLive = true
  · rw [if_pos h4, out (.blocked .awaitLive) (by simp [h2, h3, h4])]
    exact ⟨rfl, rfl⟩
  rw [if_neg h4]
  by_cases h5 : s.bus.state ≠ .active
  · rw [if_pos h5, out .idle (by simp [h4, h5])]
    exact ⟨rfl, rfl⟩
  rw [if_neg h5]
  by_cases h6 : ch.tk.inhibit = true
  · rw [if_pos h6, out (.blocked .inhibited) (by simp [h2, h3, h4, h5, h6])]
    exact ⟨rfl, rfl⟩
  rw [if_neg h6]
  by_cases h7 : ch.tk.holder ≠ none
  · rw [if_pos h7, out .yielded (by simp [h2, h3, h4, h5, h6, Option.isSome_iff_ne_none, h7])]
    exact ⟨rfl, rfl⟩
  rw [if_neg h7]
  have h7' : ch.tk.holder = none := not_not.1 h7
  refine ⟨fun hm => ?_, fun m hm => ⟨fun hf => ?_, fun o hof hol => ?_⟩⟩
  · rw [out (.blocked .noMirror) (by
      simp [h2, h3, h4, h5, h6, h7', State.claimKey, State.merit, hm, Condition.mirrorClass])]
    exact ⟨rfl, rfl⟩
  · have hn : s.freeOutlet = none := by
      cases hfo : s.freeOutlet with
      | none => rfl
      | some o => exact absurd (freeOutlet_free hfo) (hf o)
    rw [out (.blocked .noOutlet) (by simp [h2, h3, h4, h5, h6, h7', State.claimKey, State.merit, hm, hn])]
    exact ⟨rfl, rfl⟩
  · rw [out (.contend o (s.keyFor ch m)) (by
      simp [h2, h3, h4, h5, h6, h7', State.claimKey, State.merit, hm, freeOutlet_some hof hol, State.keyFor, meritOf])]
    have hw : ((s.modOutlet o (fun x => { x with state := .reserved, channel := some c })).modTk c (fun tk =>
        { tk with state := .contending, outlet := some o, ownClaim := some (s.keyFor ch m), claimSent := false
                  windowEnd := none })).chan? c = some { ch with tk := { ch.tk with
        state := .contending, outlet := some o, ownClaim := some (s.keyFor ch m), claimSent := false
        windowEnd := none } } := modTk_get _ (by exact h) _
    dsimp only
    unfold State.enterContending State.reserveOutlet
    dsimp only
    rw [hc]
    refine ⟨fun hbid => ?_, fun hbid => ?_⟩
    · have hb' := (outbid_iff s ch.tk.best _).2 hbid
      refine ⟨?_, ?_⟩
      · refine Eq.trans (congrArg Prod.fst (if_pos hb')) ?_
        exact yield_left hw
      · exact congrArg Prod.snd (if_pos hb')
    · have hb' := mt (outbid_iff s ch.tk.best _).1 hbid
      exact ⟨congrArg Prod.fst (if_neg hb'), congrArg Prod.snd (if_neg hb')⟩

/-- One re-keying (R113). -/
theorem rekeyOne_step (h : s.chan? c = some ch) : s.RekeyStep (s.rekeyOne c).1 c ch (s.rekeyOne c).2 := by
  unfold State.RekeyStep
  by_cases hk : ch.tk.state ≠ .contending
  · rw [if_pos hk]
    unfold State.rekeyOne
    rw [h]
    simp [Chan.contending, hk]
  rw [if_neg hk]
  have hk' : ch.tk.state = .contending := not_not.1 hk
  have e : ∀ x, s.claimKey ch = x → s.rekeyOne c = match x with
      | none => (s, false)
      | some k =>
        if ch.tk.ownClaim = some k then (s, false)
        else if ch.tk.best.any (fun f => f.beats s.now k) then ((s.leaveContending c .yielded).armYield c, true)
        else
          ((s.modTk c (fun tk => { tk with ownClaim := some k, claimSent := false, windowEnd := none })).offerClaim c k,
            false) := by
    intro x hx
    unfold State.rekeyOne
    rw [h]
    simp only [Chan.contending, hk', beq_self_eq_true, Bool.not_true, Bool.false_eq_true, if_false, hx]
    all_goals cases x <;> rfl
  unfold State.claimKey State.merit at e
  refine ⟨fun hm => ?_, fun m hm => ?_⟩
  · rw [e none (by simp [hm, Condition.mirrorClass])]; exact ⟨rfl, rfl⟩
  · rw [e (some (s.keyFor ch m)) (by simp [hm, State.keyFor, meritOf])]
    dsimp only
    refine ⟨fun ho => ?_, fun ho => ⟨fun hbid => ?_, fun hbid => ?_⟩⟩
    · rw [if_pos ho]; exact ⟨rfl, rfl⟩
    · rw [if_neg ho, if_pos ((outbid_iff s ch.tk.best _).2 hbid)]
      exact ⟨yield_left h, rfl⟩
    · rw [if_neg ho, if_neg (mt (outbid_iff s ch.tk.best _).1 hbid)]
      exact ⟨rfl, rfl⟩

/-! ## The order of a pass -/

theorem insertRanked_perm (x : Chan) (l : List Chan) : (insertRanked x l).Perm (x :: l) := by
  induction l with
  | nil => exact List.Perm.refl _
  | cons d rest ih =>
    unfold insertRanked
    split
    · exact List.Perm.refl _
    · exact (ih.cons d).trans (List.Perm.swap x d rest)

/-- The order a pass takes channels in (R108). -/
def RankedBefore (a b : Chan) : Prop :=
  a.part.rank < b.part.rank ∨ (a.part.rank = b.part.rank ∧ a.part.channel.toNat ≤ b.part.channel.toNat)

theorem insertRanked_pairwise (x : Chan) (l : List Chan) (h : l.Pairwise RankedBefore) : (insertRanked x l).Pairwise RankedBefore := by
  induction l with
  | nil => exact List.pairwise_singleton _ _
  | cons d rest ih =>
    unfold insertRanked
    have hd := List.pairwise_cons.1 h
    split
    · rename_i hx
      refine List.pairwise_cons.2 ⟨fun y hy => ?_, h⟩
      rcases List.mem_cons.1 hy with rfl | hy
      · unfold RankedBefore; omega
      · have := hd.1 y hy
        unfold RankedBefore at this ⊢; omega
    · rename_i hx
      refine List.pairwise_cons.2 ⟨fun y hy => ?_, ih hd.2⟩
      rcases (mem_insertRanked x y rest).1 hy with rfl | hy
      · unfold RankedBefore; omega
      · exact hd.1 y hy

theorem passOrder_ranked (s : State) : ∃ order : List Chan, order.Perm s.chans ∧ order.Pairwise RankedBefore ∧
    s.passOrder = order.map (·.part.channel) := by
  have key : ∀ l : List Chan, (l.foldr insertRanked []).Perm l ∧ (l.foldr insertRanked []).Pairwise RankedBefore := by
    intro l
    induction l with
    | nil => exact ⟨List.Perm.refl _, List.Pairwise.nil⟩
    | cons a l ih => exact ⟨(insertRanked_perm a _).trans (ih.1.cons a), insertRanked_pairwise a _ ih.2⟩
  exact ⟨_, (key s.chans).1, (key s.chans).2, rfl⟩

theorem ClaimsOnly_chan_some (h : s.ClaimsOnly t) (hs : ∃ x, s.chan? c = some x) : ∃ x, t.chan? c = some x := by
  obtain ⟨x, hx⟩ := hs
  have := h.chan c
  rw [hx] at this
  cases ht : t.chan? c with
  | none => rw [ht] at this; cases this
  | some y => exact ⟨y, rfl⟩

theorem checkAll_through (l : List Channel) : ∀ s : State, (∀ c ∈ l, ∃ x, s.chan? c = some x) →
    State.Through State.CheckStep l s (s.checkAll l).1 (s.checkAll l).2 := by
  induction l with
  | nil => exact fun s _ => ⟨rfl, rfl⟩
  | cons c rest ih =>
    intro s hs
    obtain ⟨ch, hc⟩ := hs c List.mem_cons_self
    exact ⟨ch, _, _, _, hc, checkChannel_step hc, ih _ (fun d hd => ClaimsOnly_chan_some (claimsOnly_checkChannel s c)
      (hs d (List.mem_cons_of_mem _ hd))), rfl⟩

theorem rekeyAll_through (l : List Channel) : ∀ s : State, (∀ c ∈ l, ∃ x, s.chan? c = some x) →
    State.Through State.RekeyStep l s (s.rekeyAll l).1 (s.rekeyAll l).2 := by
  induction l with
  | nil => exact fun s _ => ⟨rfl, rfl⟩
  | cons c rest ih =>
    intro s hs
    obtain ⟨ch, hc⟩ := hs c List.mem_cons_self
    exact ⟨ch, _, _, _, hc, rekeyOne_step hc, ih _ (fun d hd => ClaimsOnly_chan_some (claimsOnly_rekeyOne s c)
      (hs d (List.mem_cons_of_mem _ hd))), rfl⟩

/-- The end of an ACTIVE bus takes channels as rank order has them (R115). -/
theorem leaveAll_through (l : List Channel) : ∀ s : State, (∀ c ∈ l, ∃ x, s.chan? c = some x) →
    ∃ freed, State.Through State.LeaveStep l s (s.leaveAllContending l) freed := by
  induction l with
  | nil => exact fun s _ => ⟨false, rfl, rfl⟩
  | cons c rest ih =>
    intro s hs
    obtain ⟨ch, hc⟩ := hs c List.mem_cons_self
    unfold State.leaveAllContending
    rw [hc]
    dsimp only
    by_cases hk : ch.contending = true
    · rw [if_pos hk]
      have hl := claimsOnly_leaveContending s c .idle (fun d hd => by
        rw [hc] at hd; cases hd; rw [(contending_iff ch).1 hk]; exact ⟨rfl, nofun⟩)
      obtain ⟨g, hg⟩ := ih (s.leaveContending c .idle) (fun d hd => ClaimsOnly_chan_some hl (hs d (List.mem_cons_of_mem _ hd)))
      refine ⟨true || g, ch, _, true, g, hc, ?_, hg, rfl⟩
      unfold State.LeaveStep
      rw [if_pos ((contending_iff ch).1 hk)]
      exact ⟨leaveContending_left hc _, rfl⟩
    · rw [if_neg hk]
      obtain ⟨g, hg⟩ := ih s (fun d hd => hs d (List.mem_cons_of_mem _ hd))
      refine ⟨false || g, ch, _, false, g, hc, ?_, hg, rfl⟩
      unfold State.LeaveStep
      rw [if_neg (mt (contending_iff ch).2 hk)]
      exact ⟨rfl, rfl⟩

theorem passOrder_mem (s : State) : ∀ c ∈ s.passOrder, ∃ x, s.chan? c = some x := by
  intro c hc
  obtain ⟨order, hp, _, e⟩ := passOrder_ranked s
  rw [e, List.mem_map] at hc
  obtain ⟨x, hx, rfl⟩ := hc
  have hx := hp.mem_iff.1 hx
  cases hf : s.chan? x.part.channel with
  | some y => exact ⟨y, rfl⟩
  | none =>
    have := List.find?_eq_none.1 hf x hx
    simp at this

theorem checkAll_ranked (s : State) : s.InRankOrder State.CheckStep (s.checkAll s.passOrder).1 (s.checkAll s.passOrder).2 := by
  obtain ⟨order, hp, hw, e⟩ := passOrder_ranked s
  exact ⟨order, hp, hw, by rw [← e]; exact checkAll_through _ s (passOrder_mem s)⟩

theorem leaveAll_ranked (s : State) : ∃ freed, s.InRankOrder State.LeaveStep (s.leaveAllContending s.passOrder) freed := by
  obtain ⟨order, hp, hw, e⟩ := passOrder_ranked s
  obtain ⟨f, hf⟩ := leaveAll_through _ s (passOrder_mem s)
  exact ⟨f, order, hp, hw, by rw [← e]; exact hf⟩

theorem rekeyAll_ranked (s : State) : s.InRankOrder State.RekeyStep (s.rekeyAll s.passOrder).1 (s.rekeyAll s.passOrder).2 := by
  obtain ⟨order, hp, hw, e⟩ := passOrder_ranked s
  exact ⟨order, hp, hw, by rw [← e]; exact rekeyAll_through _ s (passOrder_mem s)⟩

/-- Passes are passes in rank order, each but the last having freed an outlet (R108). -/
theorem passes_passesIn (n : Nat) : ∀ s : State, State.PassesIn n s (State.passes n s) := by
  induction n with
  | zero => exact fun _ => rfl
  | succ n ih =>
    intro s
    refine ⟨_, _, checkAll_ranked s, ?_⟩
    unfold State.passes
    dsimp only
    split
    · exact ih _
    · rfl

theorem pass_passed (s : State) : s.Passed s.pass := passes_passesIn _ s

theorem check_run (h : s.chan? c = some ch) : s.CheckRun (s.check c) c ch := by
  refine ⟨_, _, checkChannel_step h, ?_⟩
  unfold State.check
  dsimp only
  split
  · exact pass_passed _
  · rfl

/-- The takeover check for one channel in IDLE or BLOCKED, as R108 to R111 say. -/
theorem check_checked (h : s.chan? c = some ch) (hk : ch.tk.state.checked = true) : s.Checked (s.check c) c ch :=
  check_checked_of h hk (check_run h)

/-- What the loss of the known holder does (R106, R107). -/
theorem holderGone_checked {s : State} {c : Channel} {ch : Chan} (h : s.chan? c = some ch) : s.HolderGone (s.holderGone c) c ch := by
  refine ⟨fun hy => ?_, fun hk => ?_, fun h1 h2 => ?_⟩
  · unfold State.holderGone
    rw [h]; dsimp only; rw [if_pos hy]
    exact check_checked (modTk_get s h _) rfl
  · unfold State.holderGone
    rw [h]; dsimp only
    rw [if_neg (by intro e; rw [e] at hk; cases hk)]
    exact check_checked h hk
  · unfold State.holderGone
    rw [h]; dsimp only
    rw [if_neg h1]
    unfold State.check State.checkChannel
    rw [h]; simp [h2]

theorem timeClassChanged_rekeyed (s : State) : s.Rekeyed s.timeClassChanged := by
  refine ⟨_, _, rekeyAll_ranked s, ?_⟩
  unfold State.timeClassChanged
  dsimp only
  split
  · exact pass_passed _
  · rfl

theorem conditionChanged_told (h : s.chan? c = some ch) : s.ConditionTold (s.conditionChanged c) c ch := by
  unfold State.conditionChanged
  rw [h]
  dsimp only
  refine ⟨fun hk => ⟨_, _, rekeyOne_step h, ?_⟩, fun hk => ?_⟩
  · rw [if_pos ((contending_iff ch).2 hk)]
    split
    · exact pass_passed _
    · rfl
  · rw [if_neg (mt (contending_iff ch).1 hk)]
    exact check_run h

/-- A change of condition, as R24 says. -/
theorem setCondition_conditioned (h : s.chan? c = some ch) (f : Condition → Condition) :
    s.Conditioned (s.setCondition c f) c ch (f ch.mirror.condition) := by
  unfold State.Conditioned State.setCondition
  rw [h]
  dsimp only
  split
  · rfl
  · have hm : (s.modMirror c (fun m => { m with condition := f ch.mirror.condition })).chan? c =
        some { ch with mirror := { ch.mirror with condition := f ch.mirror.condition } } := by
      unfold State.modMirror
      rw [chan?_modChan (by intro _; rfl), h]; rfl
    split
    · exact conditionChanged_told hm
    · exact conditionChanged_told hm

/-- A report of the watch to the takeover unit, outside the cancel of a handback. -/
theorem watchReport_told (h : s.chan? c = some ch) (old new : WatchState) (hw : ch.watch.state = new) :
    s.WatchTold (s.watchReport c old new) c ch old new := by
  unfold State.WatchTold State.watchReport
  dsimp only
  generalize hu : (if new = .lost then s else s.modTk c (fun tk => { tk with awaitLive := false })) = u
  generalize hn : (if new = .lost then ch else { ch with tk := { ch.tk with awaitLive := false } }) = now
  have hx : u.chan? c = some now := by
    rw [← hu, ← hn]; split
    · exact h
    · exact modTk_get s h _
  have hst : now.tk.state = ch.tk.state := by rw [← hn]; split <;> rfl
  have hout : now.tk.outlet = ch.tk.outlet := by rw [← hn]; split <;> rfl
  have hwt : now.watch.state = new := by rw [← hn]; split <;> exact hw
  rw [hx]
  dsimp only
  rw [hst]
  refine ⟨fun hk => ?_, fun hk => ⟨fun ho hnl => ?_, fun ho => ?_⟩, fun hk => ⟨fun ho hnl => ?_, fun ho => ?_⟩, fun hk => ?_⟩
  · cases hs : ch.tk.state <;> rw [hs] at hk <;> first | exact check_run hx | exact absurd hk (by decide)
  · rw [hk]; dsimp only
    rw [if_pos ⟨ho, hnl⟩]
    have hl := leaveContending_chan? u c .idle
    rw [hx] at hl
    have e : (u.leaveContending c .idle).check c = u.leaveContending c .idle := by
      rw [check_eq hl rfl]
      have : (u.leaveContending c .idle).checkOutcome { now with tk := { now.tk with
          state := .idle, outlet := none, ownClaim := none, claimSent := false, windowEnd := none } } = .idle := by
        unfold State.checkOutcome
        simp [hwt, hnl]
      simp only [this]
      rw [leaveContending_left hx]
      unfold State.leftContending
      rw [modTk_modTk]
    rw [e, leaveContending_left hx, hout]
    exact pass_passed _
  · rw [hk]; dsimp only
    rw [if_neg (by tauto)]
  · rw [hk]; dsimp only
    rw [if_pos ⟨ho, hnl⟩]
    unfold State.leaveYielded
    rw [check_eq (modTk_get u hx _) rfl]
    have : (u.modTk c (fun tk => { tk with state := .idle, yieldDl := none })).checkOutcome { now with tk := { now.tk with
          state := .idle, yieldDl := none } } = .idle := by
      unfold State.checkOutcome
      simp [hwt, hnl]
    simp only [this]
    rw [modTk_modTk]
  · rw [hk]; dsimp only
    rw [if_neg (by tauto)]
  · rcases hk with hk | hk | hk | ⟨hk, hnl⟩ <;> rw [hk]
    rw [if_neg hnl]

/-- With distinct channels, a change of one watch record writes the record that it makes of the one that stood there. -/
theorem modWatch_const (hd : s.ChannelsDistinct) (h : s.chan? c = some ch) (f : WatchRec → WatchRec) :
    s.modWatch c f = s.modWatch c (fun _ => f ch.watch) := by
  have hm := List.mem_of_find?_eq_some h
  have hc : ch.part.channel = c := by simpa using List.find?_some h
  unfold State.modWatch State.modChan
  congr 1
  refine List.map_congr_left (fun x hx => ?_)
  split
  · rename_i e
    have : x = ch := by
      have hi := List.inj_on_of_nodup_map hd hx hm
      exact hi ((by simpa using e : x.part.channel = c).trans hc.symm)
    rw [this]
  · rfl

/-- A command of the watch that gives a record a state (R75). -/
theorem setWatch_moved (hd : s.ChannelsDistinct) (h : s.chan? c = some ch) (f : WatchRec → WatchRec) (new : WatchState)
    (cause : LostCause) (hf : (f ch.watch).state = ch.watch.state) :
    s.WatchMoved ((s.modWatch c f).setWatch c new cause) c ch { f ch.watch with state := new } cause := by
  have hg : ∀ g : WatchRec → WatchRec, (s.modWatch c g).chan? c = some { ch with watch := g ch.watch } := fun g => by
    unfold State.modWatch
    rw [chan?_modChan (by intro _; rfl), h]; rfl
  have hmm : (s.modWatch c f).modWatch c (fun w => { w with state := new }) =
      s.modWatch c (fun _ => { f ch.watch with state := new }) := by
    have : (s.modWatch c f).modWatch c (fun w => { w with state := new }) = s.modWatch c (fun w => { f w with state := new }) := by
      unfold State.modWatch State.modChan
      simp only [List.map_map]
      congr 1
      refine List.map_congr_left (fun x _ => ?_)
      simp only [Function.comp]
      split
      · simp
      · simp
    rw [this, modWatch_const hd h (fun w => { f w with state := new })]
  unfold State.WatchMoved State.setWatch
  rw [hg f]
  dsimp only
  rw [hf]
  by_cases hs : ch.watch.state = new
  · rw [if_pos hs, if_pos hs.symm, modWatch_const hd h f]
    congr 1
    funext _
    rw [← hs, ← hf]
  · rw [if_neg hs, if_neg (Ne.symm hs), hmm]
    have hx := hg (fun _ => { f ch.watch with state := new })
    generalize s.modWatch c (fun _ => { f ch.watch with state := new }) = v at *
    split
    · exact watchReport_told (s := v.raise .channelLost c (.channelLost cause)) (show v.chan? c = _ from hx) _ _ rfl
    · exact watchReport_told hx _ _ rfl

end Sys2Proof.Machine
end

