-- ==== Sys2Proof/Laws/StopRequest.lean ====
section
/-! SUPPORT. The stop request of a handback and the wait for it, said once in the words of Safety (R162, R174). -/

namespace Sys2Proof.Machine

variable {s : State} {c : Channel} {ch : Chan} {o : OutletNo} {h : Handback}

/-- The model's test of the wait is the one that Safety words. -/
theorem stopBlocked_iff : ch.stopBlocked h = true ↔ ch.StopHeld h := by
  unfold Chan.stopBlocked Chan.StopHeld before
  cases ch.run with
  | none => simp
  | some r => simp [or_and_right, exists_or]

theorem modOutlet_modOutlet (s : State) (o : OutletNo) (f g : Outlet → Outlet) :
    (s.modOutlet o f).modOutlet o g = s.modOutlet o (fun x => g (f x)) := by
  unfold State.modOutlet State.outlet
  simp

/-- Making the stop request (R162). -/
theorem makeStop_asked (hc : s.chan? c = some ch) (ho : ch.tk.outlet = some o) (hh : ch.tk.handback = some h) :
    s.StopAsked (s.makeStop c) c o h := by
  unfold State.StopAsked State.makeStop
  rw [hc]
  dsimp only
  rw [ho, hh]
  dsimp only
  unfold State.requestStop
  simp only [outlet_modOutlet_self]
  refine ⟨fun hq => ?_, fun hq hl => ?_, fun hq hl hst => ?_⟩
  · rw [if_pos hq, modOutlet_modOutlet]
  · rw [if_neg (by simp [hq])]
    unfold State.offerCmd
    dsimp only
    rw [if_neg (by simp [cmdKind]), if_pos (by rw [outlet_modOutlet_self]; exact hl), modOutlet_modOutlet]
  · rw [if_neg (by simp [hq])]
    unfold State.offerCmd
    dsimp only
    rw [if_neg (by simp [cmdKind]), if_neg (by rw [outlet_modOutlet_self]; exact Nat.not_lt.mpr hl)]
    unfold State.failCmd
    dsimp only
    simp only [Bool.false_eq_true, if_false, if_true]
    unfold State.stopFailed
    dsimp only
    have hr : ∀ (v : State) (n : NoticeClass) (b : Byte) (d : NoticeCode), (v.raise n b d).outlet o = v.outlet o :=
      fun _ _ _ _ => rfl
    rw [if_neg (by simp only [outlet_modOutlet_self, hr]; rw [hst]; nofun)]
    congr 1
    unfold State.raise State.modNotice State.judgeAttention State.modOutlet State.outlet
    simp [cmdKind, outletByte]

/-- Looking at a waiting stop request again (R174). -/
theorem retryStop_retried (s : State) (c : Channel) : s.StopRetried (s.retryStop c) c := by
  intro ch hc
  dsimp only
  unfold State.retryStop
  rw [hc]
  dsimp only
  refine ⟨fun h o hm => ?_, fun hn => ?_⟩
  · obtain ⟨hh, ho, hw, hb⟩ := hm
    rw [hh]
    dsimp only
    rw [if_pos (by rw [hw, Bool.eq_false_iff.mpr (fun e => hb (stopBlocked_iff.mp e))]; rfl)]
    exact makeStop_asked hc ho hh
  · cases hh : ch.tk.handback with
    | none => rfl
    | some h =>
      dsimp only
      split
      · rename_i hw
        simp only [Bool.and_eq_true, Bool.not_eq_true'] at hw
        unfold State.makeStop
        rw [hc]
        dsimp only
        cases ho : ch.tk.outlet with
        | none => rfl
        | some o => exact absurd ⟨hh, ho, hw.1, fun e => by simp [stopBlocked_iff.mpr e] at hw⟩ (hn h o)
      · rfl

theorem settleOrder_reports (s : State) (o : OutletNo) : (s.settleOrder o).reports = s.reports := by
  unfold State.settleOrder; split <;> (try split) <;> rfl

/-- A stop request reports no item: its own failure goes no further than the stop outcome (R164). -/
theorem requestStop_reports (s : State) (o : OutletNo) (t : Time) : (s.requestStop o t).reports = s.reports := by
  unfold State.requestStop
  dsimp only
  split
  · rfl
  · unfold State.offerCmd
    dsimp only
    split
    · rfl
    · split
      · rw [settleOrder_reports]; rfl
      · unfold State.failCmd State.stopFailed State.faultOutlet
        dsimp only
        rw [if_neg (by simp), if_pos rfl]
        split
        · rw [settleOrder_reports]; rfl
        · rfl

theorem retryStop_reports (s : State) (c : Channel) : (s.retryStop c).reports = s.reports := by
  unfold State.retryStop State.makeStop
  repeat' split
  all_goals first
    | rfl
    | (show (State.requestStop _ _ _).reports = _; rw [requestStop_reports])

end Sys2Proof.Machine
end

