-- ==== Sys2Proof/Laws/WatchRecord.lean ====
section
/-! SUPPORT. A change of one watch record and its report, said once (R75). -/

namespace Sys2Proof.Machine

/-- Reading a channel whose watch record has changed. -/
theorem modWatch_chan? (s : State) (c f) : (s.modWatch c f).chan? c = (s.chan? c).map (fun ch => { ch with watch := f ch.watch }) :=
  chan?_modChan (by intro _; rfl)

/-- A change of a watch record, with a notice or none, followed by what a report can reach, is a change of that watch record (R75). -/
theorem watches_of_tends {s u t : State} {c : Channel} {ch : Chan} {f : WatchRec → WatchRec} (hc : s.chan? c = some ch)
    (hu : u = s.modWatch c f ∨ ∃ a b d, u = (s.modWatch c f).raise a b d) (hk : Tends u t) : s.Watches t c (f ch.watch) := by
  have hck : u.chans = (s.modWatch c f).chans := by
    rcases hu with rfl | ⟨a, b, d, rfl⟩ <;> rfl
  have hcu : ∀ d, u.chan? d = (s.modWatch c f).chan? d := by intro d; unfold State.chan?; rw [hck]
  refine ⟨?_, ?_, ?_, ?_⟩
  · have h1 := hk.chanFixed c
    rw [hcu, modWatch_chan?, hc] at h1
    cases h2 : t.chan? c with
    | none => rw [h2] at h1; cases h1
    | some x =>
      rw [h2] at h1
      have h3 := Option.some.inj h1
      unfold Chan.fixed at h3
      simp only [Prod.mk.injEq] at h3
      simp [h3.2.1]
  · intro d hd
    have h1 := congrArg (Option.map (fun x => x.2.1)) (hk.chanFixed d)
    rw [hcu] at h1
    unfold State.modWatch at h1
    rw [chan?_modChan_ne (by intro _; rfl) hd, Option.map_map, Option.map_map] at h1
    exact h1
  · refine State.MirrorTended.trans (fun d a ha => ?_) hk.tended
    have hm := mirrorTended_modChan hc (fun x => { x with watch := f x.watch }) (fun _ => rfl) (.of_content rfl)
    rw [hcu]
    exact hm d a ha
  · have h1 := hk.sameOutside
    have h2 : s.SameOutside u := by
      have : u.chans.map (fun ch => (ch.part, ch.latestQueued)) = s.chans.map (fun ch => (ch.part, ch.latestQueued)) := by
        rw [hck]
        show List.map _ (List.map _ _) = _
        rw [List.map_map]
        refine List.map_congr_left (fun x _ => ?_)
        simp only [Function.comp]
        split <;> rfl
      rcases hu with rfl | ⟨a, b, d, rfl⟩ <;> exact ⟨rfl, rfl, rfl, rfl, rfl, rfl, rfl, rfl, rfl, this⟩
    exact ⟨h1.tb.trans h2.tb, h1.station.trans h2.station, h1.locked.trans h2.locked, h1.floor.trans h2.floor, h1.port.trans h2.port,
      h1.pending.trans h2.pending, h1.feed.trans h2.feed, h1.bus.trans h2.bus, h1.cue.trans h2.cue, h1.parts.trans h2.parts⟩

/-- Two changes of a watch record are one. -/
theorem modWatch_modWatch (s : State) (c f g) : (s.modWatch c f).modWatch c g = s.modWatch c (fun w => g (f w)) := by
  unfold State.modWatch State.modChan
  simp only [List.map_map]
  congr 1
  refine List.map_congr_left (fun x _ => ?_)
  simp only [Function.comp]
  by_cases h : (x.part.channel == c) = true <;> simp [h]

/-- A change of watch state behind a change of the record: one report, and CHANNEL_LOST at an entry to LOST (R75). -/
theorem setWatch_watches {s : State} {c : Channel} {ch : Chan} (hc : s.chan? c = some ch) (f : WatchRec → WatchRec) (w : WatchState) (cause : LostCause) :
    (∃ u, (u = s.modWatch c (fun x => { f x with state := w }) ∨ (∃ a b d, u = (s.modWatch c (fun x => { f x with state := w })).raise a b d))
      ∧ Tends u (((s.modWatch c f).setWatch c w cause)) ∧
      (ch.tk.state ≠ .handingBack → Keeps u (((s.modWatch c f).setWatch c w cause))) ∧
      (w = .lost → (f ch.watch).state ≠ .lost → u.notices[3] = { pending := true, count := min 255 (s.notices[3].count + 1), detail := some ⟨c, .channelLost cause⟩ }))
   ∨ ((s.modWatch c f).setWatch c w cause = s.modWatch c f ∧ (f ch.watch).state = w) := by
  have hcf : (s.modWatch c f).chan? c = some { ch with watch := f ch.watch } := by rw [modWatch_chan?, hc]; rfl
  rcases setWatch_cases (s.modWatch c f) c w cause with ⟨h1, h2⟩ | ⟨x, h1, h2, h3, h5⟩
  · have h4 := h2 _ hcf
    exact Or.inr ⟨h1, h4⟩
  · rw [hcf] at h1
    have h1 := Option.some.inj h1
    refine Or.inl ⟨_, ?_, h3, fun hn => h5 (by rw [← h1]; exact hn), ?_⟩
    · unfold State.watched
      rw [modWatch_modWatch]
      split
      · exact Or.inr ⟨_, _, _, rfl⟩
      · exact Or.inl rfl
    · intro hw _
      unfold State.watched
      rw [if_pos hw]
      have := modNotice_get (((s.modWatch c f).modWatch c (fun x => { x with state := w }))) NoticeClass.channelLost.number 3 (fun n =>
      { pending := true, count := sat8 (n.count + 1), detail := some { subject := c, code := .channelLost cause } })
      rw [if_pos (by decide)] at this
      exact this

end Sys2Proof.Machine
end

