-- ==== Sys2Proof/Tests/Slice0.lean ====
section
/-! SUPPORT. Tests: the checks of WellFormed each refuse an ill-formed command, the manual's worked values come out, one step of
a few commands does what its rule says, and the hypotheses of every statement are met. Expected values are the manual's own
figures or hand calculation from its rules. -/

open Sys2Proof Sys2Proof.Machine

namespace Sys2Proof.Tests

/-! ## Small states -/

def sp0 : StationPart :=
  { number := 3, rate := 3, feedDelay := 0, claimWindow := 300, holdPeriod := 200, statusPeriod := 1000, cueLead := 12,
    replyTimeout := 100, handbackMin := 5, retention := 60, slewLimit := 2400 }

def part0 : ChannelPart :=
  { channel := 7, rate := 3, filler := 9, rank := 2, beaconPeriod := 500, k1 := 3, k2 := 8, windowMin := 6, returnCount := 5,
    minTail := 25 }

/-- A channel as START makes it. -/
def chan0 : Chan := { Chan.added part0 with tk := TakeoverRec.blank .idle }

/-- A part that runs with one channel, at station time 100,000,000, ACTIVE on a free bus, both receivers in WAIT. -/
def base : State :=
  { State.reset with
    station := some sp0, locked := true, chans := [chan0], poolFree := [5, 6]
    tb := { TimeBase.reset with now := 100000000, state := .seeking }
    feed := { State.reset.feed with framing := .wait }
    cue := { State.reset.cue with framing := .wait }
    bus := { BusCtl.reset with state := .active, own := 3, rx := .free } }

/-- `base` with its channel changed. -/
def withChan (f : Chan → Chan) : State := { base with chans := [f chan0] }

def withTk (f : TakeoverRec → TakeoverRec) : State := withChan (fun ch => { ch with tk := f ch.tk })

def withWatch (f : WatchRec → WatchRec) : State := withChan (fun ch => { ch with watch := f ch.watch })

/-- `base` with its time base changed. -/
def withTime (f : TimeBase → TimeBase) : State := { base with tb := f base.tb }

def withBus (f : BusCtl → BusCtl) : State := { base with bus := f base.bus }

/-- The state after a command. -/
def after (c : Instr) (s : State) : State :=
  match exec c s with
  | .next t => t
  | _ => s

/-- An event of two seconds at P = 9600, 50 frames. -/
def event (id : EventId) (start : StartRule) : EventData :=
  { id := id, start := start, duration := 50, material := 1, entry := 0, flags := 0, cues := [] }

def record (slot : Nat) (d : EventData) : EventRec := { slot := slot, data := d, times := none, eclipsed := false, pinned := false }

/-- A record with times, as resolution leaves it. -/
def placed (slot : Nat) (id : EventId) (start : Time) : EventRec :=
  { record slot (event id (.fixed start)) with
    times := some { nomStart := start, nomEnd := start + 480000, effEnd := start + 480000 } }

/-! ## Well-formedness: one ill-formed command for each check -/

theorem test_wf_channel_zero : (Instr.lostDeadline 0).wf = false := by decide
theorem test_wf_channel_high : (Instr.beacon ⟨65, 0, .running, 0, 0⟩).wf = false := by decide
theorem test_wf_channel_top : (Instr.lostDeadline 64).wf = true := by decide
theorem test_wf_merit_low : (Instr.claimFrame 3 1 7).wf = false := by decide
theorem test_wf_merit_high : (Instr.holdFrame 187 1 7 .onAir 0 0).wf = false := by decide
theorem test_wf_merit_edge : (Instr.releaseFrame 186 1 7 .handedBack).wf = true := by decide
theorem test_wf_cues : (Instr.scheduleMessage ⟨7, .snapEvent 1 0 { event 1 .follow with cues := List.replicate 5 ⟨0, 0⟩ }⟩).wf = false := by
  decide
theorem test_wf_status : (Instr.statusFrame 1 ⟨true, 5, .locked, 0, 0⟩).wf = false := by decide
theorem test_wf_frame_status_merit : (Instr.clashFrame ⟨1, 3, .status ⟨true, 4, .locked, 0, 0⟩⟩).wf = false := by decide
theorem test_wf_feed_body : (Instr.feedMessageDiscard 1 7 (List.replicate 64 0) 0).wf = false := by decide +kernel
theorem test_wf_bus_body : (Instr.malformedFrame ⟨1, 4, 1, List.replicate 13 0, 0, true⟩).wf = false := by decide
theorem test_wf_cue_body : (Instr.cueMessageDiscard 9 0 (List.replicate 8 0) 0).wf = false := by decide
theorem test_wf_tag : (Instr.taken 16).wf = false := by decide
theorem test_wf_started_outlet : (Instr.started 4 0 0).wf = false := by decide
theorem test_wf_params : (Instr.setFloor (List.replicate 251 0)).wf = false := by decide +kernel

/-- The table gives no row any bits, so no word spells a command. -/
theorem test_decode_none : decodeTableWord 16 0x1234 = none := by decide

/-! ## The manual's worked values -/

/-- Section 2.1: the check of the nine digits is 29B1h. -/
theorem test_check_digits : checkWord [0x31, 0x32, 0x33, 0x34, 0x35, 0x36, 0x37, 0x38, 0x39] = 0x29B1 := by decide +kernel

/-- R6, R7 at rate 25 (P = 9600): the accepted edges and the counts past them. -/
theorem test_step_slow_edge : acceptable 9600 491618304 = true ∧ stepFor 9600 491618304 = 21470542 ∧
    acceptable 9600 491618305 = false := by decide
theorem test_step_fast_edge : acceptable 9600 491421696 = true ∧ stepFor 9600 491421696 = 21479131 ∧
    acceptable 9600 491421695 = false := by decide
theorem test_step_inside : stepFor 9600 491569152 = 21472689 ∧ stepFor 9600 491446272 = 21478058 ∧
    stepFor 9600 491520000 = 21474836 := by decide

/-- Section 5.10: the arbitration fields of the three frames. -/
theorem test_fields : frameField ⟨20, 3, .claim 9⟩ = 4419 ∧ frameField ⟨20, 5, .claim 9⟩ = 4421 ∧
    frameField ⟨8, 7, .hold 14 .onAir 0 0⟩ = 8327 := by decide

/-- A list of stored events with their start rule and duration, for the worked lists. -/
def list (l : List (StartRule × Nat)) : List EventRec :=
  l.zipIdx.map (fun x => record x.2 { event (BitVec.ofNat 32 (x.2 + 1)) x.1.1 with duration := BitVec.ofNat 24 x.1.2 })

/-- Effective end and frames to play of each event, absent where it is unresolved. -/
def ends (l : List EventRec) : List (Option Nat × Option Nat) := l.map (fun e => (e.times.map (·.effEnd.toNat), e.effFrames 9600))

/-- Section 3.9, a FIXED event cuts a chain. -/
theorem test_resolve_cut : ends (resolve 9600 none (list [(.fixed 1000000, 100), (.follow, 50), (.follow, 10), (.fixed 2200000, 20)])) =
    [(some 1960000, some 100), (some 2200000, some 25), (some 2200000, some 0), (some 2392000, some 20)] := by decide +kernel

/-- Section 3.9, a hold point, before and after GO anchors F. -/
theorem test_resolve_anchor :
    ends (resolve 9600 none (list [(.fixed 3000000, 50), (.manual, 40), (.follow, 30), (.fixed 4200000, 10)])) =
      [(some 3480000, some 50), (none, none), (none, none), (some 4296000, some 10)] ∧
    ends (resolve 9600 (some ⟨2, 3600000⟩) (list [(.fixed 3000000, 50), (.manual, 40), (.follow, 30), (.fixed 4200000, 10)])) =
      [(some 3480000, some 50), (some 3984000, some 40), (some 4200000, some 22), (some 4296000, some 10)] := by decide +kernel

/-- Section 3.9, FIXED events out of order, and a cut below one frame. -/
theorem test_resolve_order : ends (resolve 9600 none
    (list [(.fixed 10000000, 20), (.follow, 10), (.fixed 9950000, 30), (.fixed 10240000, 5), (.fixed 10244800, 10)])) =
    [(some 9950000, some 0), (some 9950000, some 0), (some 10238000, some 30), (some 10244800, some 0), (some 10340800, some 10)] := by decide +kernel

/-- Section 3.9, across the wrap. -/
theorem test_resolve_wrap : ends (resolve 9600 none (list [(.fixed 281474976230656, 100), (.follow, 50), (.fixed 720000, 20)])) =
    [(some 480000, some 100), (some 720000, some 25), (some 912000, some 20)] := by decide +kernel

/-- The join of section 7.7 over a resolved list: its main start, and the frames entered and to play. -/
def joinAt (t o : Time) (l : List (StartRule × Nat)) : Nat × Nat × Nat :=
  match join { time := t, offset := o, period := 9600, lead := 115200, minTail := 25 } (resolve 9600 none (list l)) with
  | .entry _ s k n => (s.toNat, k, n)
  | .eventStart _ s n => (s.toNat, 0, n)
  | .fillerThen _ s _ n => (s.toNat, 1000000, n)
  | .fillerOpen s h => (s.toNat, 2000000, (h.getD 0).toNat)

/-- Section 7.7, entry into a FIXED event, and the tail skip into 14 frames of filler. -/
theorem test_join_entry : joinAt 5000000000 1200000480 [(.fixed 3790080000, 3000), (.fixed 3818880000, 50)] =
    (3800121600, 1046, 1954) ∧
    joinAt 5000000000 1200000480 [(.fixed 3790080000, 1060), (.fixed 3800256000, 50)] = (3800121600, 1000000, 14) := by
  decide +kernel

/-- Section 7.7, a gap: 30 frames on H's grid, and the event start when less than a frame is left. -/
theorem test_join_gap : joinAt 5000000000 1200000480 [(.fixed 3799520000, 50), (.fixed 3800405000, 50)] =
    (3800117000, 1000000, 30) ∧
    joinAt 5000000000 1200000480 [(.fixed 3799520000, 50), (.fixed 3800120000, 50)] = (3800120000, 0, 50) := by decide +kernel

/-- Section 7.7, a hold point, and across the wrap. -/
theorem test_join_hold : joinAt 5000000000 1200000480 [(.fixed 3799520000, 50), (.manual, 9), (.follow, 9), (.fixed 3900000000, 9)] =
    (3800114720, 2000000, 2) := by decide +kernel
theorem test_join_wrap : joinAt 1001884800 1000000000 [(.fixed 281474975750656, 500)] = (2006400, 309, 191) := by decide +kernel

/-! ## One step of a few commands -/

/-- R59: an error of 13 moves the estimate by 1, one of −15 by −1, and 7 leaves it. -/
theorem test_beacon_slews :
    [(13 : Int), -15, 7, -7].map (fun e => ((after (.beacon ⟨7, 100000000 - BitVec.ofInt 48 (50 + e), .running, 0, 0⟩)
      (withWatch (fun w => { w with seeded := true, estimate := 50 }))).chan? 7).map (fun c => c.watch.estimate.toInt)) =
      [some 51, some 49, some 50, some 50] := by decide +kernel

/-- R2: from pin reset the 201st cycle carries the first grain (200 × STEP is below 2^32). -/
theorem test_clock_carries : (after .clockCycle (withTime (fun b => { b with acc := 200 * 21474836 }))).tb.now = 100000001 ∧
    (after .clockCycle (withTime (fun b => { b with acc := 199 * 21474836 }))).tb.now = 100000000 := by decide

/-- R102: a CURRENT copy of rank 2 under SEEKING claims with merit 8 + 2. -/
theorem test_claim_merit : ((after (.lostDeadline 7) (withChan (fun ch => { ch with
      watch := { ch.watch with state := .live, lostDl := some 100000000 }
      mirror := { ch.mirror with condition := .current, version := some 1 } }))).chan? 7).map (·.tk.ownClaim) =
    some (some ⟨10, 3⟩) := by decide +kernel

/-- R189: a floor of 13 is stored as 12 and answered CLAMPED with it. -/
theorem test_floor_clamped : (after (.setFloor [13]) { base with floor := 2 }).floor = 12 ∧
    (after (.setFloor [13]) base).port.reply = some ⟨.clamped, [12]⟩ := by decide

/-- The interface: a command put at the front of the queue is the one the next step runs; a word spells none. -/
theorem test_step_takes_front :
    (match step { base with pending := [.setFloor [3], .pinReset] } with
      | .next t => (t.floor, t.pending)
      | _ => (99, [])) = (3, [.pinReset]) ∧
    base.withFetchWord 16 7 = base := by decide

/-! ## The hypotheses of the statements are met

One theorem for each statement with hypotheses, named after it: concrete states and operands that meet the hypotheses of its
clauses together, at boundary values where a clause has a range. -/

theorem witness_StationTimeMovesOnlyByClock : exec .clockCycle (withTime (fun b => { b with acc := 2 ^ 32 - 21474836 })) =
    .next (after .clockCycle (withTime (fun b => { b with acc := 2 ^ 32 - 21474836 }))) := rfl

/-- A time base in LOCKED at the closing pulse of a measurement with `count` cycles. -/
def closing (state : TimeBaseState) (count suspects : Nat) : State :=
  withTime (fun b => { b with state := state, measuring := true, periods := 255, cycles := count, suspectRun := suspects })

theorem witness_StepWrittenOnlyByAcceptedMeasurement :
    exec .referencePulse (closing .locked 491618304 0) = .next (after .referencePulse (closing .locked 491618304 0)) := rfl

theorem witness_ProfileFixedAfterStart : base.locked = true ∧ exec (.setFloor [3]) base = .next (after (.setFloor [3]) base) ∧
    Instr.setFloor [3] ≠ .pinReset := ⟨rfl, rfl, by decide⟩

theorem witness_WatchChangesOnlyByItsCommands : exec .attempt base = .next (after .attempt base) := rfl

/-- A channel that is LIVE and whose LOST deadline is reached. -/
def dying : State := withWatch (fun w => { w with state := .live, lostDl := some 100000000 })

theorem witness_EntryToLostIsNotified : exec (.lostDeadline 7) dying = .next (after (.lostDeadline 7) dying) ∧
    ((dying.chan? 7).map (·.watch.state) = some .live ∧ ((after (.lostDeadline 7) dying).chan? 7).map (·.watch.state) = some .lost) :=
  ⟨rfl, by decide +kernel⟩

theorem witness_ClockAndPulsesCount : (withTime (fun b => { b with state := .freeRun })).tb.state = .freeRun ∧
    (base.tb.state ≠ .freeRun ∧ base.tb.measuring = false) ∧
    (let s := withTime (fun b => { b with measuring := true, periods := 254 })
     s.tb.state ≠ .freeRun ∧ s.tb.measuring = true ∧ s.tb.periods + 1 < 256) := by decide

theorem witness_ClosingPulseSetsStep :
    (∀ st ∈ [TimeBaseState.locked, .seeking], (closing st 491421696 2).tb.state ≠ .freeRun) ∧
    (closing .locked 491421696 2).tb.measuring = true ∧ 256 ≤ (closing .locked 491421696 2).tb.periods + 1 ∧
    (closing .locked 491421696 2).Accepted ∧ (closing .seeking 491618304 0).Accepted :=
  ⟨by decide, by decide, by decide, by unfold State.Accepted; decide, by unfold State.Accepted; decide⟩

/-- The missing-pulse and silence deadlines reached. -/
def late (state : TimeBaseState) (measuring : Bool) (suspects : Nat) : State := withTime (fun b =>
  { b with state := state, measuring := measuring, suspectRun := suspects
           missingDl := some 100000000, silenceDl := some 100000000 })

theorem witness_FailedMeasurementsAndHoldover :
    (¬ (closing .seeking 491618305 0).Accepted ∧ ¬ (closing .locked 491421695 1).Accepted ∧
      (closing .locked 491421695 1).tb.suspectRun + 1 < 3) ∧
    (∀ m ∈ [true, false], due (late .locked m 1).tb.missingDl (late .locked m 1).tb.now = true ∧
      due (late .seeking m 1).tb.silenceDl (late .seeking m 1).tb.now = true) ∧
    due base.tb.missingDl base.tb.now = false ∧ due base.tb.silenceDl base.tb.now = false ∧
    ((closing .locked 491421695 2).tb.state = .locked ∧ ¬ (closing .locked 491421695 2).Accepted ∧
      3 ≤ (closing .locked 491421695 2).tb.suspectRun + 1) ∧
    ((late .locked true 2).tb.state = .locked ∧ due (late .locked true 2).tb.missingDl (late .locked true 2).tb.now = true ∧
      due (late .locked true 2).tb.silenceDl (late .locked true 2).tb.now = true ∧ 3 ≤ (late .locked true 2).tb.suspectRun + 1) :=
  ⟨⟨by unfold State.Accepted; decide, by unfold State.Accepted; decide, by decide⟩, by decide, by decide, by decide,
    ⟨by decide, by unfold State.Accepted; decide, by decide⟩, by decide⟩

theorem witness_MeasuredStepIsNearest : acceptable (Config.ratePeriod 3) 491421696 = true ∧
    acceptable (Config.ratePeriod 1) 512512000 = true ∧ acceptable (Config.ratePeriod 8) 204800000 = true := by decide

/-- `base` with the feed receiver in a framing state. -/
def withFeed (f : FeedRx → FeedRx) : State := { base with feed := f base.feed }

theorem witness_FeedFramingAndDiscards : State.reset.locked = false ∧ (withFeed (fun x => { x with framing := .hunt })).locked = true ∧
    (withFeed (fun x => { x with framing := .hunt })).feed.framing = .hunt ∧ base.feed.framing = .wait ∧
    (withFeed (fun x => { x with framing := .receiving })).feed.framing = .receiving ∧ (List.replicate 63 (0 : Byte)).length ≤ 63 ∧
    messageCheck 1 7 [] ≠ 0 ∧ base.chan? 8 = none ∧ (base.chan? 7).isSome = true ∧ parseFeed 7 7 [] = none := by decide +kernel

theorem witness_MessagesAndFramesReadBack :
    schedOk (.editPut 1 2 0 { event 5 .manual with cues := List.replicate 4 ⟨1, 2⟩ }) = true ∧
    frameFieldsOk ⟨186, 15, .hold 64 .handingBack 65535 0xFFFFFFFF⟩ = true ∧
    frameFieldsOk ⟨0, 0, .status ⟨true, 4, .seeking, 4, 0xFFFFFFFFFFFFFFFF⟩⟩ = true := by decide

/-- A schedule message with `n` side cues. -/
def putMsg (n : Nat) : SchedMsg := ⟨7, .editPut 1 2 0 { event 5 .follow with cues := List.replicate n ⟨1, 2⟩ }⟩

theorem witness_ScheduleMessageOffered :
    (schedStructure (putMsg 4).body = true ∧ schedStructure (putMsg 5).body = false ∧ base.chan? 7 = some chan0 ∧
      base.chan? 8 = none ∧ State.reset.locked = false) ∧
    (withFeed (fun x => { x with ingest := List.replicate 23 (putMsg 0) })).feed.ingest.length < 24 ∧
    24 ≤ (withFeed (fun x => { x with ingest := List.replicate 24 (putMsg 0) })).feed.ingest.length := by decide

/-- A channel with a CURRENT copy of version 4 that holds events 1 and 2; event 2 is pinned. -/
def copied : Chan := { chan0 with
  latestQueued := some 4
  mirror := { chan0.mirror with condition := .current, version := some 4 }
  list := [placed 2 1 90000000, { placed 3 2 99000000 with pinned := true }] }

/-- A part with that channel and requests that wait. -/
def asking (l : List MirrorReq) (f : Chan → Chan) : State := { withChan (fun _ => f copied) with mirrorReqs := l }

theorem witness_MirrorRequestsServed :
    (asking [] id).mirrorReqs.any MirrorReq.isDrift = false ∧ (asking [.drift 7 5 0] id).mirrorReqs = [.drift 7 5 0] ∧
    (asking [.drift 7 5 0] id).chan? 7 = some copied ∧ copied.latestQueued ≠ some 5 ∧ copied.mirror.condition = .current ∧
    (∀ x ∈ copied.list, x.data.id ≠ 9) ∧ chan0.mirror.condition ≠ .current ∧ copied.latestQueued = some 4 ∧
    (∃ x ∈ copied.list, x.data.id = 2) ∧
    (asking [] id).mirrorReqs.any MirrorReq.isSweep = false ∧ (asking [.sweep 7] id).mirrorReqs = [.sweep 7] ∧
    (asking [.sweep 7] id).chan? 7 = some copied ∧ copied.watch.seeded = false ∧
    (asking [.sweep 7] (fun ch => { ch with watch := { ch.watch with seeded := true } })).chan? 7 =
      some { copied with watch := { copied.watch with seeded := true } } := by decide

/-- A part whose oldest message is `b` for channel 7, with its channel as given. -/
def holding (b : SchedBody) (f : Chan → Chan) : State :=
  { withChan (fun _ => f copied) with feed := { base.feed with ingest := [⟨7, b⟩] } }

/-- A snapshot of version 6 with two events expected, `n` of which have come. -/
def filling (n : Nat) (ch : Chan) : Chan := { ch with
  mirror := { ch.mirror with filling := some ⟨6, 2, n⟩ }
  incoming := (List.range n).map (fun i => record (10 + i) (event (BitVec.ofNat 32 (20 + i)) (.fixed 1000))) }

theorem witness_SnapshotFills :
    ((holding (.snapOpen 6 240) id).feed.ingest = [⟨7, .snapOpen 6 240⟩] ∧ (240 : BitVec 16).toNat ≤ 240) ∧
    (let s := holding (.snapEvent 6 1 (event 25 .follow)) (filling 1)
     s.mirrorReqs = [] ∧ s.chan? 7 = some (filling 1 copied) ∧ (filling 1 copied).mirror.filling = some ⟨6, 2, 1⟩ ∧
      validEvent (event 25 .follow) = true ∧ hasId 25 (filling 1 copied).incoming = false ∧ s.poolFree = [5, 6]) := by
  decide +kernel

theorem witness_SnapshotCloseReplacesList :
    (let s := holding (.snapClose 6 2) (filling 2)
     s.mirrorReqs = [] ∧ s.reports = [] ∧ (s.chans.map (fun ch => ch.part.channel)).Nodup ∧ s.chan? 7 = some (filling 2 copied) ∧
      (filling 2 copied).mirror.filling = some ⟨6, 2, 2⟩ ∧ (filling 2 copied).run = none) := by decide +kernel

theorem witness_EditsChangeTheList :
    (let s := holding (.editPut 4 5 2 (event 9 .follow)) id
     s.mirrorReqs = [] ∧ s.reports = [] ∧ s.chan? 7 = some copied ∧ copied.mirror.condition ≠ .empty ∧
      copied.mirror.version = some 4 ∧ validEvent (event 9 .follow) = true ∧ (∃ x ∈ copied.list, x.data.id = 2 ∧ (2 : EventId) ≠ 9) ∧
      hasId 9 copied.list = false ∧ copied.list.length < 240 ∧ s.poolFree = [5, 6]) ∧
    copied.list.find? (fun x => x.data.id == 1) = some (placed 2 1 90000000) ∧
    (copied.list.find? (fun x => x.data.id == 2)).map (·.pinned) = some true ∧
    (holding (.editDrop 4 5 2) id).feed.ingest = [⟨7, .editDrop 4 5 2⟩] := by decide +kernel

theorem witness_RejectedScheduleMessages :
    (240 < (241 : BitVec 16).toNat) ∧ copied.mirror.filling = none ∧
    (let f := (filling 1 copied)
     f.mirror.filling = some ⟨6, 2, 1⟩ ∧ (6 : Version) = (⟨6, 2, 1⟩ : Filling).version ∧ validEvent (event 0 .follow) = false ∧
      hasId 20 f.incoming = true) ∧
    chan0.mirror.condition = .empty ∧ copied.mirror.condition ≠ .empty ∧ copied.mirror.version ≠ some 3 ∧
    copied.mirror.version = some 4 ∧ hasId 9 (copied.list.filter (fun x => x.data.id != 9)) = false ∧
    ({ holding (.editPut 4 5 0 (event 2 .follow)) id with poolFree := [] }).poolFree = [] ∧
    hasId 2 (copied.list.filter (fun x => x.data.id != 9)) = true := by decide +kernel

/-- A list whose last FIXED start lies 2^45 grains after the first. -/
def farList : List EventRec := list [(.fixed 1000000, 100), (.follow, 50), (.fixed 35184373088832, 20)]

/-- A hold point behind a FIXED event, with the anchor on it, and a FOLLOW event behind it. -/
def heldList : List EventRec := list [(.fixed 3000000, 50), (.manual, 40), (.follow, 30), (.fixed 4200000, 10)]

theorem witness_ResolutionWritesTimes : 0 < 9600 ∧ 9600 ≤ 10010 ∧
    (∀ e ∈ heldList[0]?, e.FixedAt (some ⟨2, 3600000⟩) 3000000) ∧ (∀ e ∈ heldList[1]?, e.FixedAt (some ⟨2, 3600000⟩) 3600000) ∧
    (∀ e ∈ heldList[1]?, e.data.start = .manual ∧ ∀ t, ¬ e.FixedAt none t) ∧ (∀ e ∈ heldList[2]?, e.data.start = .follow) ∧
    ([record 0 (event 1 .follow)][0]?.map (·.data.start)) = some .follow := by
  have h : heldList = [record 0 { event 1 (.fixed 3000000) with duration := 50 },
    record 1 { event 2 .manual with duration := 40 }, record 2 { event 3 .follow with duration := 30 },
    record 3 { event 4 (.fixed 4200000) with duration := 10 }] := by decide
  rw [h]
  simp [EventRec.FixedAt, record, event]

theorem witness_ResolvedIntervalsStayApart : farList.length ≤ 240 ∧
    ∀ e ∈ farList, ∀ t, ownStart none e = some t → (diff t (referenceStart none farList)).natAbs ≤ 2 ^ 45 := by
  have hr : referenceStart none farList = 1000000 := by decide
  have hl : farList = [record 0 { event 1 (.fixed 1000000) with duration := 100 },
    record 1 { event 2 .follow with duration := 50 }, record 2 { event 3 (.fixed 35184373088832) with duration := 20 }] := by decide
  rw [hr, hl]
  refine ⟨by decide, fun e he t ht => ?_⟩
  simp only [List.mem_cons, List.not_mem_nil, or_false] at he
  rcases he with rfl | rfl | rfl <;> cases ht <;> decide

theorem witness_ResolutionReadsFeedFieldsOnly :
    [{ record 4 (event 1 .follow) with eclipsed := true }].map (·.data) = [record 8 (event 1 .follow)].map (·.data) := by decide

theorem witness_BeaconUpdatesWatchRecord : base.locked = true ∧ base.feed.framing ≠ .hunt ∧ base.reports = [] ∧
    (base.chans.map (fun ch => ch.part.channel)).Nodup ∧ base.chan? 7 = some chan0 ∧
    (∀ st ∈ [WatchState.unseen, .live, .doubtful, .lost, .returning], ({ chan0.watch with state := st }).forced = false) ∧
    chan0.part.returnCount ≤ 4 + 1 ∧ 3 + 1 < chan0.part.returnCount := by decide

theorem witness_WatchDeadlinesAct :
    (let s := withWatch (fun w => { w with
        state := .returning, doubtfulDl := some 100000000, lostDl := some 100000000, returnDl := some 100000000 })
     s.reports = [] ∧ due ((s.chan? 7).bind (·.watch.doubtfulDl)) s.tb.now = true ∧
      due ((s.chan? 7).bind (·.watch.lostDl)) s.tb.now = true ∧ due ((s.chan? 7).bind (·.watch.returnDl)) s.tb.now = true) ∧
    due (some 100000001) base.tb.now = false ∧ due ((dying.chan? 7).bind (·.watch.lostDl)) dying.tb.now = true ∧
    (base.chans.map (fun ch => ch.part.channel)).Nodup ∧
    (let s := withWatch (fun w => { w with state := .live, windowEnd := some 100000000, windowCount := 5 })
     s.reports = [] ∧ (s.chan? 7).bind (·.watch.windowEnd) = some 100000000 ∧ atOrBefore 100000000 s.tb.now = true) ∧
    atOrBefore 100000001 base.tb.now = false := by decide

theorem witness_ForceLostActs : base.locked = true ∧ base.reports = [] ∧ (base.chans.map (fun ch => ch.part.channel)).Nodup ∧ base.chan? 7 = some chan0 ∧ chan0.watch.state = .unseen ∧
    (dying.chan? 7).map (·.watch.state) = some .live := by decide

theorem witness_UnforceClearsMark : (withWatch (fun w => { w with forced := true })).locked = true ∧
    ((withWatch (fun w => { w with forced := true })).chan? 7).map (·.watch.forced) = some true := by decide

theorem witness_ReceiverJudgesFrames :
    (withBus (fun b => { b with rx := .hunt })).bus.rx = .hunt ∧ base.bus.rx = .free ∧
    (withBus (fun b => { b with rx := .off })).bus.rx ≠ .free ∧ parseFrame ⟨1, 10, 5, [7], 0, true⟩ = none ∧
    parseFrame ⟨1, 10, 5, [7], busCheck 1 10 5 [7], true⟩ = some ⟨10, 5, .claim 7⟩ ∧
    frameFieldsOk ⟨4, 3, .claim 64⟩ = true ∧ (3 : Station) = base.bus.own := by decide +kernel

/-- A channel that contends with its own claim key and outlet 0. -/
def claiming : TakeoverRec → TakeoverRec := fun tk =>
  { tk with state := .contending, ownClaim := some ⟨10, 3⟩, outlet := some 0, claimSent := true, windowEnd := some 100000000 }

/-- `s` with its outlet 0 as given. -/
def withOutlet (s : State) (x : Outlet) : State := s.modOutlet 0 (fun _ => x)

def reserved : Outlet := { Outlet.reset with state := .reserved, channel := some 7 }

theorem witness_StatusAndClaimFramesAct : base.bus.rx = .free ∧ (5 : Station) ≠ base.bus.own ∧
    statusOk ⟨true, 4, .locked, 0, 0⟩ = true ∧ meritOk 4 = true ∧ meritOk 186 = true ∧
    channelOk 7 = true ∧ base.chan? 8 = none ∧ base.chan? 7 = some chan0 ∧ chan0.tk.state ≠ .contending ∧
    (claiming chan0.tk).state = .contending ∧ (claiming chan0.tk).ownClaim.any (fun k => Key.better ⟨4, 5⟩ k) = true ∧
    (claiming chan0.tk).ownClaim.all (fun k => !Key.better ⟨186, 5⟩ k) = true := by decide

/-- A channel on air on outlet 0 with holding merit 10. -/
def onAirTk : TakeoverRec → TakeoverRec := fun tk =>
  { tk with state := .onAir, ownHold := some ⟨10, 3⟩, outlet := some 0, holdDl := some 100000000 }

theorem witness_HoldFrameActs : base.reports = [] ∧ base.mirrorReqs = [] ∧ (Chan.added part0).tk.state = .detached ∧
    (claiming chan0.tk).state = .contending ∧ (TakeoverRec.blank .yielded).state = .yielded ∧ chan0.tk.state.checked = true ∧
    chan0.tk.holder = none ∧ (onAirTk chan0.tk).state.holding = true ∧ (onAirTk chan0.tk).ownHold = some ⟨10, 3⟩ ∧
    Key.better ⟨11, 5⟩ ⟨10, 3⟩ = false ∧ Key.better ⟨10, 1⟩ ⟨10, 3⟩ = true ∧
    (withOutlet (withTk onAirTk) { reserved with state := .air, air := true }).outlet 0 = { reserved with state := .air, air := true } := by
  decide

/-- A transmit queue of `n` HOLD frames of equal field, for channels 1 to `n`. -/
def holds (n : Nat) : List Frame := (List.range n).map (fun i => ⟨10, 3, .hold (BitVec.ofNat 8 (i + 1)) .onAir 1 1⟩)

theorem witness_OfferedFrameIsPlaced :
    (holds 8).Pairwise (fun x y => frameField x ≤ frameField y) ∧ (holds 8).length = 8 ∧ (holds 7).length < 8 ∧
    (holds 8).any (fun g => coalesces (.hold 8 .joining 2 2) g.body) = true ∧
    (holds 8).any (fun g => coalesces (.claim 8) g.body) = false ∧
    frameField ⟨10, 3, .claim 8⟩ < frameField ⟨10, 3, .hold 8 .onAir 1 1⟩ ∧
    frameField ⟨10, 3, .hold 8 .onAir 1 1⟩ ≤ frameField ⟨10, 3, .release 9 .stoodDown⟩ ∧
    (⟨10, 3, .release 7 .stoodDown⟩ : Frame) ∈ (withBus (fun b => { b with queue := [⟨10, 3, .release 7 .stoodDown⟩] })).bus.queue ∧
    (withBus (fun b => { b with attempt := some ⟨⟨10, 3, .release 7 .stoodDown⟩, false⟩ })).bus.attempt =
      some ⟨⟨10, 3, .release 7 .stoodDown⟩, false⟩ ∧ base.bus.queue = [] ∧ base.bus.attempt = none := by decide

theorem witness_AttemptsAndTheirEnds :
    (let s := withBus (fun b => { b with queue := [⟨10, 3, .claim 7⟩] })
     s.bus.rx = .free ∧ s.bus.attempt = none ∧ s.bus.queue = [] ++ ⟨10, 3, .claim 7⟩ :: [] ∧ s.bus.state = .active) ∧
    (let s := withBus (fun b => { b with state := .listeningIn, queue := [⟨10, 3, .claim 7⟩, ⟨10, 3, .hold 7 .onAir 1 1⟩] })
     s.bus.state = .listeningIn ∧ isClaim (.hold 7 .onAir 1 1) = false ∧ (∀ g ∈ [Frame.mk 10 3 (.claim 7)], isClaim g.body = true)) ∧
    (let s := { withTk claiming with bus := { base.bus with attempt := some ⟨⟨10, 3, .claim 7⟩, false⟩, faults := 14 } }
     s.bus.attempt = some ⟨⟨10, 3, .claim 7⟩, false⟩ ∧ s.bus.faults + 1 < 16 ∧
      (s.chan? 7).map (fun ch => ch.tk.ownClaim.map (·.merit)) = some (some 10)) ∧
    base.bus.queue = [] ∧ base.chan? 8 = none := by decide

theorem witness_BusDeadlinesAct :
    (let s := withBus (fun b => { b with state := .quiet, quietDl := some 100000000, quietFromListening := true, listeningDl := some 100000001 })
     s.bus.state = .quiet ∧ due s.bus.quietDl s.tb.now = true ∧ s.bus.quietFromListening = true ∧ s.bus.listeningDl ≠ none ∧
      due s.bus.listeningDl s.tb.now = false) ∧
    (let s := withBus (fun b => { b with state := .listeningIn, listeningDl := some 100000000, statusDl := some 100000000 })
     due s.bus.listeningDl s.tb.now = true ∧ s.bus.state = .listeningIn ∧ s.bus.statusDl = some 100000000 ∧
      atOrBefore 100000000 s.tb.now = true) ∧ atOrBefore 100000001 base.tb.now = false ∧
    due ((base.setPeer 5 { Peer.blank with presence := .present, silenceDl := some 100000000 }).peer 5).silenceDl base.tb.now = true ∧
    base.locked = true := by
  decide

theorem witness_LeavingActiveEndsEveryClaim :
    (let s := { withTk claiming with bus := { base.bus with attempt := some ⟨⟨10, 3, .claim 7⟩, false⟩, faults := 15 } }
     s.bus.attempt = some ⟨⟨10, 3, .claim 7⟩, false⟩ ∧ 16 ≤ s.bus.faults + 1 ∧ s.bus.state = .active ∧ s.locked = true) := by decide

theorem witness_TakeoverCheckFollowsTable : base.locked = true ∧ base.chan? 7 = some chan0 ∧ chan0.tk.state.checked = true ∧
    (claiming chan0.tk).state = .contending ∧ (TakeoverRec.blank .yielded).state = .yielded ∧
    (onAirTk chan0.tk).state.holding = true ∧ (Chan.added part0).tk.state = .detached ∧
    (claiming chan0.tk).state.checked = false := by decide

theorem witness_TakeoverDeadlinesAct :
    atOrBefore (100000000 : Time) base.tb.now = true ∧ atOrBefore (100000001 : Time) base.tb.now = false ∧
    (let s := withTk (fun tk => { tk with
        state := .yielded, yieldDl := some 100000000, best := some ⟨⟨4, 5⟩, 0, 100000000⟩ })
     (s.chan? 7).map (fun ch => (ch.tk.state, ch.tk.holder, due ch.tk.yieldDl s.tb.now)) = some (.yielded, none, true)) ∧
    ((withTk (fun tk => { tk with holder := some ⟨⟨4, 5⟩, .onAir, 1, 1, 0, 100000000⟩ })).chan? 7).map
      (fun ch => ch.tk.holder.map (·.key)) = some (some ⟨4, 5⟩) ∧
    ((withTk onAirTk).chan? 7).map (fun ch => (ch.tk.holdDl, ch.tk.ownHold, ch.tk.state.holding)) =
      some (some 100000000, some ⟨10, 3⟩, true) := by decide

theorem witness_ClaimWindowEndJoins :
    (let s := withOutlet (withTk claiming) reserved
     s.reports = [] ∧ s.mirrorReqs = [] ∧ (s.chan? 7).map (·.tk) = some (claiming chan0.tk) ∧ (s.outlet 0).state = .reserved ∧
      (s.outlet 0).queue = [] ∧ atOrBefore 100000000 s.tb.now = true ∧ atOrBefore 100000001 s.tb.now = false) := by decide

/-- A part whose channel joins at 100,000,000 on filler: event 2 starts one and a half frames behind the join time. -/
def joinsFiller : State :=
  after (.claimWindowEnd 7) (withOutlet (withChan (fun _ =>
    { copied with tk := claiming copied.tk, list := [placed 2 1 90000000, placed 3 2 100129600] })) reserved)

/-- One frame of filler up to an event pins that event's record, not the ended one (R134, table 7.5). -/
theorem test_filler_pins_next :
    (joinsFiller.chan? 7).map (fun ch =>
        ((ch.run.bind (·.cued)).map (fun it => (it.mainStart, it.play, it.cuedEnd)), ch.list.map (·.pinned))) =
      some (some (100120000, 1, some 100129600), [false, true]) := by decide +kernel

/-- The pinned event stays, unlinked, when an edit removes it, and is freed when the run ends (R36, R37, R150). -/
theorem test_filler_unpins_next :
    (let s := after .editDrop { joinsFiller with feed := { joinsFiller.feed with ingest := [⟨7, .editDrop 4 5 2⟩] } }
     [s, after (.release [7]) s].map (fun t => ((t.chan? 7).map (·.unlinked.map (·.slot)), t.poolFree)) =
      [(some [3], [5, 6]), (some [], [3, 5, 6])]) := by decide +kernel

/-- The inputs of the worked joins at a decision time. -/
def joinInput (t : Time) : JoinInput := { time := t, offset := 1200000480, period := 9600, lead := 115200, minTail := 25 }

theorem witness_JoinEntersOnTheGrid : 0 < (joinInput 0).period ∧ (joinInput 0).period ≤ 10010 ∧
    join (joinInput 5000000000) [placed 1 4 3800000000] = .entry (placed 1 4 3800000000) 3800115200 12 38 ∧
    join (joinInput 5000000000) [placed 1 4 3800120000] = .eventStart (placed 1 4 3800120000) 3800120000 50 ∧
    join (joinInput 5000000000) [placed 1 4 3800405000] = .fillerThen (placed 1 4 3800405000) 3800117000 3800405000 30 ∧
    join (joinInput 5000000000) [record 1 (event 4 .manual)] = .fillerOpen 3800114720 (some 4) ∧
    (let j := (joinInput 5000000000).joinTime
     (placed 1 4 3800000000).contains j = true ∧ (placed 1 4 3800000000).effFrames 9600 = some 50 ∧
      (j - 3800000000).toNat ≤ 12 * 9600 ∧ 12 * 9600 < (j - 3800000000).toNat + 9600 ∧ 12 + (joinInput 0).minTail ≤ 50 ∧
      ¬ 12 + 40 ≤ 50 ∧ (placed 1 4 3799000000).endsBy j = true ∧ (placed 2 5 3800405000).contains j = false ∧
      (placed 2 5 3800405000).endsBy j = false ∧ 30 * 9600 ≤ (3800405000 - j).toNat ∧ (3800405000 - j).toNat < 31 * 9600 ∧
      (3800120000 - j).toNat < 9600) := by decide +kernel

/-! ### Runs and outlets -/

/-- An item of record slot 2, event 1, with one name. -/
def item0 : Item :=
  { source := .event 2 1, upTo := none, mainStart := 100200000, localStart := 100200000, entry := 0, skipped := 0, play := 50
    cuedEnd := some 100680000, locked := true, runStart := none, unconfirmed := false, nextCue := 0, byGo := false, serial := 4 }

/-- Open filler on air. -/
def filler0 : Item :=
  { item0 with source := .filler, mainStart := 99000000, localStart := 99000000, play := 0, cuedEnd := none, runStart := some 99000000, serial := 3 }

def run0 : RunRec :=
  { outlet := 0, offset := 0, mode := .running, manualHold := none, onAir := none, cued := some item0, goItem := none
    goReport := none, goOrigin := none, cuedOrigin := none, walkOrigin := some 1, cueMoment := none, anchor := none }

def prep0 : Prep := { serial := 4, join := true, material := 1, entry := 0, start := 100000000, duration := 50 }

/-- A channel that runs: its copy as `copied`, LIVE with a seeded estimate, with a takeover and a run record. -/
def runs (f : TakeoverRec → TakeoverRec) (r : RunRec) : Chan :=
  { copied with tk := f copied.tk, run := some r, watch := { copied.watch with state := .live, seeded := true } }

/-- A part with that channel and its outlet 0. -/
def runsOn (f : TakeoverRec → TakeoverRec) (r : RunRec) (x : Outlet) : State :=
  withOutlet (withChan (fun _ => runs f r)) x

def air0 : Outlet := { reserved with state := .air, air := true }

/-- A part with one channel ON_AIR on outlet 0, with nothing stored. -/
def holdsOne : State :=
  { withOutlet base air0 with
    chans := [{ chan0 with tk := onAirTk chan0.tk, run := some { run0 with cued := none } }], poolFree := List.range 1536 }

theorem witness_EveryStepKeepsInvariant : holdsOne.Inv ∧ step holdsOne = .next holdsOne := by
  refine ⟨⟨by unfold State.StepInRange; decide, ?_, by unfold State.AirRight; decide, ?_, ?_, by unfold State.OutletsBounded; decide,
    by unfold State.QueuesBounded; decide, by unfold State.CountsSaturate; decide, by unfold State.ChannelsDistinct; decide,
    ?_, ?_, rfl, ⟨by decide, ?_, ?_, ?_⟩, ?_, nofun⟩, rfl⟩
  · unfold State.AttentionRight; decide
  · unfold State.TransmitRight; exact ⟨by decide, .nil, .nil⟩
  · unfold State.SendOrderRight; decide
  · intro ch h
    rw [List.mem_singleton.1 h]
    exact ⟨by decide, by decide, .nil, .nil, rfl⟩
  · unfold State.PoolWhole
    have : holdsOne.poolSlots = List.range Config.poolSize := by
      simp [State.poolSlots, holdsOne, Chan.slots, chan0, Chan.added, Config.poolSize]
    rw [this]
    exact List.Perm.refl _
  · intro o c h
    have : ∀ o : OutletNo, (holdsOne.outlet o).channel = none ∨ (o = 0 ∧ (holdsOne.outlet o).channel = some 7) := by decide
    rcases this o with e | ⟨rfl, e⟩
    · rw [e] at h; cases h
    · rw [e] at h; cases h; exact ⟨_, rfl, rfl⟩
  · intro ch h
    rw [List.mem_singleton.1 h]
    unfold TakeoverState.hasOutlet
    decide
  · intro ch h
    rw [List.mem_singleton.1 h]
    decide
  · intro ch h
    rw [List.mem_singleton.1 h]
    exact ⟨by decide, fun r h => by cases h; rfl, by decide⟩

/-- A channel in JOINING with holding merit 10. -/
def joining0 : TakeoverRec → TakeoverRec := fun tk => { onAirTk tk with state := .joining }

def handback0 : Handback :=
  { switch := 100000000, localSwitch := 100000000, runSwitch := 100000000, forced := false, stopPoint := some 100000000
    stopRequested := false, stopWaiting := false, switchDl := some 100000000 }

def handing0 : TakeoverRec → TakeoverRec := fun tk => { onAirTk tk with state := .handingBack, handback := some handback0 }

/-- An item whose side cue at offset 2 is due now, one cue lead before its time. -/
def dueRun : RunRec := { run0 with cued := some { item0 with mainStart := 100096000 } }

def dueChan : Chan := { runs onAirTk dueRun with list := copied.list.map (fun e => { e with data := { e.data with cues := [⟨2, 5⟩] } }) }

/-- A chosen item whose cue moment is now. -/
def chosenRun : RunRec :=
  { run0 with onAir := some filler0, cued := some { item0 with locked := false }, cueMoment := some 100000000 }

theorem witness_RunnerMomentsIssueCommands :
    (let s := runsOn onAirTk chosenRun air0
     s.reports = [] ∧ s.mirrorReqs = [] ∧ s.chan? 7 = some (runs onAirTk chosenRun) ∧ (runs onAirTk chosenRun).run = some chosenRun ∧
      due chosenRun.cueMoment s.tb.now = true ∧ (s.outlet 0).state ≠ .stopping ∧ (s.outlet 0).state ≠ .faulted ∧
      (s.outlet 0).queue.length < 4) ∧
    due run0.cueMoment base.tb.now = false ∧ chosenRun.cued = some { item0 with locked := false } ∧
    (runsOn onAirTk run0 air0).firstDueSide (runs onAirTk run0) run0 = none ∧
    (withOutlet (withChan (fun _ => dueChan)) air0).firstDueSide dueChan dueRun = some .cued ∧
    (dueChan.nextSide dueRun .cued).map (·.2.1) = some ⟨2, 5⟩ ∧
    [(100680000 : Time), 100115201, 100115200].map (fun stop =>
      let r : RunRec := { dueRun with cued := some { item0 with mainStart := 100096000, cuedEnd := some stop } }
      (dueChan.nextSide r .cued).map (fun x => (withOutlet (withChan (fun _ => dueChan)) air0).sidePasses dueChan r .cued x.1 x.2.1 x.2.2)) =
        [some true, some true, some false] ∧
    (let x := { air0 with queue := List.replicate 4 (.side 5 100000001) }
     4 ≤ x.queue.length ∧ x.channel = some 7) := by decide +kernel

/-- R142: the lock of event 1 makes it the walk origin and disarms the cue moment; the origin before it, 9, is kept (log 16). -/
theorem test_lock_keeps_origin :
    ((after (.cueMoment 7) (runsOn onAirTk { chosenRun with walkOrigin := some 9 } air0)).chan? 7).bind (fun ch => ch.run.map (fun r =>
      (r.cuedOrigin, r.walkOrigin, r.cueMoment))) = some (some 9, some 1, none) := by decide +kernel

theorem witness_JoinStartedGoesOnAir :
    (let s := runsOn joining0 run0 { reserved with awaiting := [⟨1, prep0, 100000000⟩] }
     s.locked = true ∧ s.cue.framing ≠ .hunt ∧ s.reports = [] ∧ s.mirrorReqs = [] ∧ (0 : Byte).toNat = (1 : Byte).toNat / 4 ∧ tagOutlet 1 = some 0 ∧
      (s.outlet 0).state = .reserved ∧ (s.outlet 0).channel = some 7 ∧ (s.outlet 0).outstanding = none ∧
      (s.outlet 0).awaiting = ⟨1, prep0, 100000000⟩ :: [] ∧ s.chan? 7 = some (runs joining0 run0) ∧
      (runs joining0 run0).tk.state = .joining ∧ (runs joining0 run0).tk.ownHold = some ⟨10, 3⟩ ∧
      (runs joining0 run0).tk.handback = none ∧ run0.cued = some item0 ∧ item0.locked = true ∧ item0.serial = prep0.serial) := by
  decide +kernel

/-- A run that waits for GO behind a locked hold filler, with event 8 in MANUAL at the list's end. -/
def waitsGo : RunRec := { run0 with mode := .awaitingGo, manualHold := some 8, cued := some { filler0 with locked := true } }

def waitsChan : Chan := { runs onAirTk waitsGo with list := copied.list ++ [record 4 (event 8 .manual)] }

theorem witness_GoSetsAnchor :
    (let s := withOutlet (withChan (fun _ => waitsChan)) air0
     let l := resolve waitsChan.period (some ⟨8, s.tb.now - waitsGo.offset + BitVec.ofNat 48 (s.sp.cueLead * waitsChan.period)⟩) waitsChan.list
     s.locked = true ∧ s.reports = [] ∧ s.mirrorReqs = [] ∧ s.chan? 7 = some waitsChan ∧ waitsChan.run = some waitsGo ∧ waitsGo.mode = .awaitingGo ∧
      waitsGo.manualHold = some 8 ∧ waitsChan.tk.handback = none ∧ waitsGo.goReport = none ∧
      waitsGo.cued = some { filler0 with locked := true } ∧ (l.find? (fun e => e.data.id == 8 && e.airs)).isSome = true ∧
      (s.outlet waitsGo.outlet).state = .air ∧ (s.outlet waitsGo.outlet).queue.length < 4 ∧
      ((l.find? (fun e => e.data.id == 8 && e.airs)).bind (·.times)).map
        (fun t => [t.nomStart, t.nomStart + 1].map (fun switch => decide (diff switch t.nomStart ≤ 0))) = some [true, false]) ∧
    (let s := withOutlet (withChan (fun _ => { waitsChan with tk := joining0 chan0.tk })) reserved
     (s.outlet waitsGo.outlet).state = .reserved ∧ (s.outlet waitsGo.outlet).queue.length < 4 ∧
      s.chan? 7 = some { waitsChan with tk := joining0 chan0.tk }) ∧
    (handing0 chan0.tk).handback = some handback0 ∧ chan0.run = none ∧ run0.mode = .running := by decide +kernel

/-- GO in HANDING_BACK behind hold filler on air, with G at or after the run switch time: nothing is cued (R173); the event that the
cancellation's choice cues then carries no GO mark (log 65). -/
theorem test_go_past_switch :
    (let hold : RunRec := { waitsGo with onAir := some filler0, cued := none }
     let cued (t : State) : Option (Option (ItemSource × Bool)) :=
       (t.chan? 7).bind (fun ch => ch.run.map (fun r => r.cued.map (fun it => (it.source, it.byGo))))
     let past (r : RunRec) (l : List EventRec) : State := withOutlet (withChan (fun _ => { runs handing0 r with list := l })) air0
     cued (after (.go [7]) (past hold [record 4 (event 8 .manual)])) = some none ∧
     cued (after (.forceLost [7]) (past { hold with mode := .running, manualHold := none, anchor := some ⟨8, 100115200⟩ }
       [placed 4 8 100115200])) = some (some (.event 4 8, false))) := by decide +kernel

/-- `base` with outlet 0 and the cue link as given. -/
def withLink (x : Outlet) (f : CueLink → CueLink) : State := { withOutlet base x with cue := f base.cue }

theorem witness_CueReceiverAndSending : State.reset.locked = false ∧
    (withLink reserved (fun l => { l with framing := .hunt })).cue.framing = .hunt ∧ base.cue.framing = .wait ∧
    (withLink reserved (fun l => { l with framing := .receiving })).cue.framing = .receiving ∧
    (List.replicate 7 (0 : Byte)).length ≤ 7 ∧ messageCheck 9 0 [] ≠ 0 ∧ parseServer 12 0 [] = none ∧
    (3 : Byte).toNat ≠ (4 : Byte).toNat / 4 ∧
    (let s := withLink { reserved with queue := [.prep prep0] } (fun l => { l with sendOrder := [0], lastSent := some 99999996 })
     diff (99999996 + 4) s.tb.now ≤ 0 ∧ s.cue.sendOrder = 0 :: [] ∧ (s.outlet 0).queue = .prep prep0 :: []) ∧
    base.cue.sendOrder = [] ∧ 0 < diff ((99999997 : Time) + 4) base.tb.now := by decide +kernel

/-- An outlet with an outstanding command under tag 1, whose reply deadline is now. -/
def sent (x : Outlet) (cmd : Cmd) : Outlet := { x with outstanding := some ⟨cmd, 1, 99999999, 100000000, false⟩ }

theorem witness_RepliesCompleteCommands :
    (let s := runsOn onAirTk run0 (sent air0 (.prep { prep0 with join := false }))
     s.locked = true ∧ s.cue.framing ≠ .hunt ∧ s.reports = [] ∧ s.mirrorReqs = [] ∧ tagOutlet 1 = some 0 ∧ tagOutlet 2 = some 0 ∧
      (s.outlet 0).outstanding.map (·.tag) = some (1 : Byte).toNat ∧ (1 : Nat) ≠ (2 : Byte).toNat ∧
      (s.outlet 0).awaiting.length < 4 ∧ (s.outlet 0).channel = some 7 ∧ s.chan? 7 = some (runs onAirTk run0) ∧
      run0.cued = some item0 ∧ item0.serial = prep0.serial ∧ s.asrun.length < 64 ∧ atOrBefore 100000000 s.tb.now = true) ∧
    cmdKind (.side 5 0) = .side ∧
    (let x := sent { air0 with state := .stopping, armed := some ⟨100000000, .pending⟩ } (.stop 100000000 true)
     x.state = .stopping ∧ x.armed = some ⟨100000000, .pending⟩ ∧ atOrBefore 100000000 base.tb.now = true ∧
      atOrBefore 100000001 base.tb.now = false) := by decide +kernel

theorem witness_OutletDeadlinesAct : base.reports = [] ∧ base.mirrorReqs = [] ∧
    (base.outlet 0).queue = [] ∧ (base.outlet 0).awaiting = [] ∧
    (let q : List Cmd := [.stop 0 true] ++ .side 5 100000000 :: [.side 6 100000001]
     (withOutlet base { air0 with queue := q }).outlet 0 = { air0 with queue := q } ∧ atOrBefore 100000000 base.tb.now = true ∧
      (Cmd.stop 0 true).missTime = none ∧ (Cmd.side 6 100000001).missTime = some 100000001 ∧
      atOrBefore 100000001 base.tb.now = false) ∧
    (let s := runsOn onAirTk run0 { air0 with awaiting := [⟨1, { prep0 with join := false }, 100000000⟩] }
     (s.outlet 0).awaiting = [⟨1, { prep0 with join := false }, 100000000⟩] ∧ (s.outlet 0).state = .air ∧
      (s.outlet 0).channel = some 7 ∧ s.chan? 7 = some (runs onAirTk run0) ∧ run0.goItem = none ∧ run0.goReport = none ∧
      run0.cued = some item0 ∧ item0.serial = prep0.serial) ∧
    (let x := { air0 with state := .stopping, armed := some ⟨0, .taken⟩ }
     x.state = .stopping ∧ x.armed = some ⟨0, .taken⟩) := by decide +kernel

/-- Events 1, 3 and 4 behind one another, event 1 ended at 90480000 and event 3 eclipsed. -/
def walked : List EventRec := [placed 2 1 90000000, { placed 3 3 90000000 with eclipsed := true }, placed 4 4 100009600]

theorem witness_ChoiceExaminesInOrder :
    (∀ e ∈ walked, e.data.id ≠ 9) ∧ walked = [] ++ placed 2 1 90000000 :: walked.tail ∧
    ((placed 2 1 90000000).times.map (fun t => diff t.effEnd 100000000)) = some (-9520000) ∧
    (placed 4 4 100009600).effFrames 9600 = some 50 ∧
    [(100009601 : Time), 100000001, 100000000].map (fun stop => diff 100009600 stop) = [-1, 9599, 9600] ∧
    run0.cued = some item0 ∧ item0.locked = true ∧ chosenRun.cued = some { item0 with locked := false } ∧
    filler0.source = .filler ∧ item0.source = .event 2 1 ∧ (∀ x ∈ [placed 4 4 100009600], x.data.id ≠ 1) ∧
    (record 4 (event 8 .manual)).times = none := by decide +kernel

/-- A restore cue searches from the event on air, as section 10.7 shows, and not from a failed event that filler on air replaces
(R145, R177). -/
theorem test_restore_search :
    [some item0, some filler0].map (fun (a : Option Item) =>
      (RunRec.restoreStart { run0 with onAir := a } walked).map (fun (e : EventRec) => e.data.id)) = [[1, 3, 4], [3, 4]] := by decide +kernel

/-- A run on air whose cued item is followed by a go item, and one whose start report waits. -/
def wentRun (report : Option (Time × Bool)) : RunRec :=
  { run0 with onAir := some filler0, goItem := some { item0 with serial := 5 }, goReport := report }

/-- A channel in HANDING_BACK whose stop request waits for item 0, which starts one grain before the run switch time. -/
def waiting0 : TakeoverRec → TakeoverRec := fun tk =>
  { handing0 tk with
    handback := some { handback0 with
      switch := 100200001, localSwitch := 100200001, runSwitch := 100200001, stopPoint := none, stopWaiting := true
      switchDl := some 100200001 } }

/-- The stop request that waited is made at the item's STARTED (R174). -/
theorem test_waiting_stop_made :
    (let t := after (.started 1 0 100200000)
      (withOutlet (withChan (fun _ => { runs waiting0 { run0 with onAir := some filler0 } with list := [] }))
        { air0 with awaiting := [⟨1, { prep0 with join := false }, 100000000⟩] })
     (t.outlet 0).armed = some ⟨100200001, .pending⟩ ∧ (t.outlet 0).queue = [.stop 100200001 true]) := by decide +kernel

theorem witness_StopRetried : (runs waiting0 run0).tk.handback.map (·.stopWaiting) = some true ∧
    run0.cued = some item0 ∧ item0.locked = true ∧ diff item0.mainStart 100200001 < 0 ∧
    (runs waiting0 run0).tk.outlet = some 0 ∧ air0.queue.any Cmd.isStop = false ∧ air0.queue.length < 4 ∧
    [Cmd.stop 5 true].any Cmd.isStop = true := by decide +kernel

/-- The record of the item that ends is unlinked and goes back to the pool, unless the item that starts airs from it too (R37, R144). -/
theorem test_ended_record_freed :
    (let ends (n : Nat) :=
      let r := { run0 with onAir := some { item0 with source := .event n 9, runStart := some 99000000, serial := 3 } }
      let ch := { runs onAirTk r with unlinked := [{ placed n 9 99000000 with pinned := true }] }
      let t := after (.started 1 0 100200000)
        (withOutlet (withChan (fun _ => ch)) { air0 with awaiting := [⟨1, { prep0 with join := false }, 100000000⟩] })
      ((t.chan? 7).map (·.unlinked.length), t.poolFree)
     [ends 8, ends 2]) = [(some 0, [8, 5, 6]), (some 1, [5, 6])] := by decide +kernel

theorem witness_ItemStartedChoosesNext :
    (let s := runsOn onAirTk { run0 with onAir := some filler0 } { air0 with awaiting := [⟨1, prep0, 100000000⟩] }
     s.locked = true ∧ s.cue.framing ≠ .hunt ∧ s.reports = [] ∧ s.mirrorReqs = [] ∧ (0 : Byte).toNat = (1 : Byte).toNat / 4 ∧
      tagOutlet 1 = some 0 ∧ (s.outlet 0).state = .air ∧ (s.outlet 0).channel = some 7 ∧ (s.outlet 0).outstanding = none ∧
      (s.outlet 0).awaiting = ⟨1, prep0, 100000000⟩ :: [] ∧
      s.chan? 7 = some (runs onAirTk { run0 with onAir := some filler0 }) ∧
      run0.outlet = 0 ∧ (s.outlet 0).queue.length < 4) ∧
    run0.goReport = none ∧ run0.cued = some item0 ∧ item0.locked = true ∧ item0.serial = prep0.serial ∧
    (wentRun (some (100200000, false))).goReport = some (100200000, false) ∧
    (wentRun none).goItem.map (·.serial) = some { prep0 with serial := 5 }.serial ∧
    { prep0 with serial := 6 }.serial ≠ item0.serial ∧ ({ item0 with runStart := some 100000000 }).runStart = some 100000000 ∧
    [(99999999 : Time), 100000000].map (fun stop => decide (0 ≤ diff stop 100000000)) = [false, true] := by decide +kernel

/-- A PREP that lapses with less than a period of its item's interval left gives way to a late cue: the next event, locked and
asked for at once (R142, R145). -/
theorem test_failed_item_late_cue :
    (let r := { run0 with onAir := some filler0, cued := some { item0 with mainStart := 100115200, cuedEnd := some 100120000 } }
     let ch := { runs onAirTk r with list := copied.list ++ [placed 4 4 100120000] }
     let t := after (.replyDeadline 0) (withOutlet (withChan (fun _ => ch)) (sent air0 (.prep { prep0 with join := false })))
     ((t.chan? 7).bind (·.run)).bind (·.cued) |>.map (fun it => (it.source, it.mainStart, it.locked))) =
      some (.event 4 4, 100120000, true) := by decide +kernel

theorem witness_FailedItemReplaced :
    (let s := runsOn onAirTk (wentRun none) (sent { air0 with queue := [.prep { prep0 with serial := 5 }] } (.prep prep0))
     s.locked = true ∧ s.cue.framing ≠ .hunt ∧ s.reports = [] ∧ s.mirrorReqs = [] ∧ (s.outlet 0).state = .air ∧
      (s.outlet 0).channel = some 7 ∧ s.chan? 7 = some (runs onAirTk (wentRun none)) ∧ (wentRun none).outlet = 0 ∧
      (wentRun none).goReport = none ∧ tagOutlet 1 = some 0 ∧
      (s.outlet 0).outstanding.map (fun u => (u.tag, u.orphaned, atOrBefore u.deadline s.tb.now)) = some (1, false, true) ∧
      (s.outlet 0).queue = [] ++ .prep { prep0 with serial := 5 } :: [] ∧ atOrBefore prep0.start s.tb.now = true ∧
      ((s.complete 0).outlet 0).queue.length < 4) ∧
    (wentRun none).cued = some item0 ∧ item0.locked = true ∧ item0.serial = prep0.serial ∧
    (wentRun none).goItem.map (·.serial) = some { prep0 with serial := 5 }.serial ∧
    run0.goItem = none ∧ item0.source = .event 2 1 ∧ filler0.source = .filler ∧
    [(100009599 : Time), 100009600].map (fun e => decide (diff e 100000000 < 9600)) = [true, false] := by decide +kernel

theorem witness_JoinCueFailureReleases :
    (let s := runsOn joining0 run0 (sent reserved (.prep prep0))
     s.reports = [] ∧ s.mirrorReqs = [] ∧ (s.outlet 0).state = .reserved ∧ (s.outlet 0).channel = some 7 ∧ s.chan? 7 = some (runs joining0 run0) ∧
      (runs joining0 run0).tk.state = .joining ∧ (runs joining0 run0).tk.ownHold = some ⟨10, 3⟩ ∧ run0.onAir = none ∧
      prep0.join = true ∧ s.locked = true ∧ s.cue.framing ≠ .hunt ∧ tagOutlet 1 = some 0 ∧ atOrBefore 100000000 s.tb.now = true) ∧
    (runsOn joining0 run0 { reserved with queue := [.prep prep0] }).outlet 0 = { reserved with queue := [.prep prep0] } ∧
    atOrBefore prep0.start base.tb.now = true ∧
    (runsOn joining0 run0 { reserved with awaiting := [⟨1, prep0, 100000000⟩] }).outlet 0 =
      { reserved with awaiting := [⟨1, prep0, 100000000⟩] } := by decide +kernel

theorem witness_MirrorServesRequestsFirst :
    (asking [.sweep 7, .drift 7 4 0] id).mirrorReqs = .sweep 7 :: [.drift 7 4 0] ∧ (MirrorReq.sweep 7).isDrift = false ∧
    [MirrorReq.drift 7 4 0].any MirrorReq.isDrift = true ∧ (MirrorReq.drift 7 4 0).isSweep = false ∧
    (holding (.snapClose 6 2) id).feed.ingest.head?.map (fun m => schedKind m.body) = some 4 ∧
    base.feed.ingest.head?.map (fun m => schedKind m.body) ≠ some 4 ∧
    (let s := { withTk claiming with mirrorReqs := [.sweep 7] }
     (s.chan? 7).map (fun ch => (ch.tk.state, ch.tk.windowEnd)) = some (.contending, some 100000000) ∧
      atOrBefore 100000000 s.tb.now = true) ∧
    (let s := { runsOn onAirTk chosenRun (sent { air0 with
        queue := [.prep prep0], awaiting := [⟨1, prep0, 100000000⟩] } (.prep prep0)) with mirrorReqs := [.sweep 7] }
     s.chan? 7 = some (runs onAirTk chosenRun) ∧ due chosenRun.cueMoment s.tb.now = true ∧ s.locked = true ∧
      (runs onAirTk chosenRun).tk.state = .onAir ∧ (runs onAirTk chosenRun).tk.handback = none ∧ s.bus.rx = .free ∧
      (5 : Station) ≠ s.bus.own ∧ meritOk 10 = true ∧ channelOk 7 = true ∧ (s.outlet 0).channel = some 7 ∧
      s.cue.framing ≠ .hunt ∧ tagOutlet 1 = some 0 ∧ atOrBefore prep0.start s.tb.now = true ∧
      (s.outlet 0).outstanding.map (fun u => (u.tag, u.orphaned, atOrBefore u.deadline s.tb.now)) = some (1, false, true)) ∧
    waitsGo.mode = .awaitingGo ∧ waitsGo.manualHold ≠ none ∧ (runs handing0 run0).tk.handback = some handback0 ∧
    due handback0.switchDl base.tb.now = true ∧ handback0.forced = false := by decide +kernel

theorem witness_HandbackStopAndSwitch :
    (let s := runsOn handing0 { run0 with onAir := some filler0, cued := none } air0
     s.reports = [] ∧ s.mirrorReqs = [] ∧ (s.chan? 7).map (fun ch => (ch.tk.outlet, ch.tk.handback, ch.tk.state, ch.tk.ownHold)) =
        some (some 0, some handback0, .handingBack, some ⟨10, 3⟩) ∧ due handback0.stopPoint s.tb.now = true ∧
      due handback0.switchDl s.tb.now = true ∧ (s.outlet 0).queue.length < 4 ∧ (s.outlet 0).state = .air) ∧
    (run0.cued = some item0 ∧ item0.locked = true ∧ diff item0.mainStart { handback0 with runSwitch := 100200001 }.runSwitch < 0) ∧
    4 ≤ { air0 with queue := List.replicate 4 (.side 5 100000001) }.queue.length ∧
    (List.replicate 4 (Cmd.side 5 100000001)).any Cmd.isStop = false ∧ due (some 100000001) base.tb.now = false ∧
    ((runs handing0 run0).list ++ (runs handing0 run0).unlinked).map (·.slot) = [2, 3] ∧ [2, 3].Nodup ∧ run0.anchor = none ∧
    { run0 with anchor := some ⟨2, 99000000⟩ }.anchor ≠ none ∧
    [47, 63, 64].map (fun n => decide (64 ≤ (List.replicate n (asRunMissed chan0 run0 item0)).length)) = [false, false, true] := by
  decide +kernel

theorem witness_OfferStartsHandback :
    (let s := runsOn onAirTk run0 air0
     s.locked = true ∧ s.feed.framing ≠ .hunt ∧ s.reports = [] ∧ (s.chans.map (fun ch => ch.part.channel)).Nodup ∧
      s.chan? 7 = some (runs onAirTk run0) ∧ (runs onAirTk run0).tk.ownHold = some ⟨10, 3⟩ ∧
      (runs onAirTk run0).watch.state = .live ∧ (runs onAirTk run0).tk.state = .onAir ∧
      s.sp.handbackMin * 240000 = diff ((101200000 : Time) + 0) s.tb.now ∧
      diff ((101199999 : Time) + 0) s.tb.now < s.sp.handbackMin * 240000) := by decide +kernel

theorem witness_HandbackReplacedAndCancelled :
    (let s := runsOn handing0 run0 air0
     s.reports = [] ∧ (s.chans.map (fun ch => ch.part.channel)).Nodup ∧ s.chan? 7 = some (runs handing0 run0) ∧
      (runs handing0 run0).tk.state = .handingBack ∧ (runs handing0 run0).tk.handback = some handback0 ∧
      (runs handing0 run0).tk.outlet = some 0 ∧ (runs handing0 run0).tk.ownHold = some ⟨10, 3⟩ ∧
      (runs handing0 run0).run = some run0 ∧ run0.outlet = 0 ∧ (s.outlet 0).state ≠ .stopping ∧ (s.outlet 0).state ≠ .faulted ∧
      (s.outlet 0).queue.length < 4 ∧ s.locked = true ∧ s.feed.framing ≠ .hunt ∧ (runs handing0 run0).watch.state = .live ∧
      s.sp.handbackMin * 240000 = diff ((101200000 : Time) + 0) s.tb.now ∧ (101200000 : Time) ≠ handback0.switch) ∧
    due (some 100000000) base.tb.now = true ∧ handback0.forced = false ∧
    diff handback0.localSwitch 101200000 < 0 ∧ { handback0 with stopRequested := true }.stopRequested = true := by decide +kernel

theorem witness_HostReleaseActs :
    (let s := runsOn joining0 run0 reserved
     s.locked = true ∧ s.reports = [] ∧ s.mirrorReqs = [] ∧ s.chan? 7 = some (runs joining0 run0) ∧ (runs joining0 run0).tk.outlet = some 0 ∧
      (s.outlet 0).state = .reserved ∧ (s.outlet 0).queue.length < 4) ∧ run0.outlet = 0 ∧
    chan0.tk.state.holding = false ∧ (runs onAirTk run0).tk.state = .onAir ∧ (runs onAirTk run0).tk.handback = none ∧
    (runs handing0 run0).tk.state = .handingBack ∧ handback0.forced = false ∧
    diff handback0.localSwitch (base.tb.now + 115200) ≤ 0 ∧ 0 < diff { handback0 with localSwitch := 100115201 }.localSwitch
      (base.tb.now + 115200) ∧ { air0 with state := .faulted }.state = .faulted := by decide +kernel

/-- A profile that START has not taken yet. -/
def loading : State := { State.reset with station := some sp0, chans := [Chan.added part0], poolFree := [] }

theorem witness_ProfileCommandsAndStart : loading.locked = false ∧ State.reset.locked = false ∧
    ([3, 3] : List Byte).length ∈ [2, 5, 7, 9, 11, 12, 14, 15, 17, 19] ∧ ([3] : List Byte).length ∉ [2, 5, 7, 9, 11, 12, 14, 15, 17, 19] ∧
    (after (.loadStation [3, 3]) State.reset).station = some
      { number := 3, rate := 3, feedDelay := 0, claimWindow := 300, holdPeriod := 200, statusPeriod := 1000, cueLead := 12
        replyTimeout := 100, handbackMin := 5, retention := 60, slewLimit := 2400 } ∧
    (after (.loadStation [3, 3]) State.reset).port.reply = some ⟨.done, []⟩ ∧
    (after (.loadStation [16, 8, 0x24, 0x9F, 0x01]) State.reset).station.map (fun p => (p.number, p.feedDelay)) = some (15, 2400000) ∧
    ((after (.loadStation [16, 8, 0x24, 0x9F, 0x01]) State.reset).port.reply.map (·.status)) = some .clamped ∧
    (after (.loadStation [3, 9]) State.reset).port.reply = some ⟨.refused, [4]⟩ ∧
    ([0, 3] ++ List.replicate 16 (7 : Byte)).length ∈ [18, 19, 21, 22, 23, 24, 25, 26] ∧
    ((after (.addChannel ([0, 3] ++ List.replicate 16 7)) State.reset).chans.map (fun ch =>
      (ch.part.channel, ch.part.rank, ch.part.beaconPeriod, ch.part.k2))) = [(1, 15, 500, 8)] ∧
    ((after (.addChannel ([0, 3] ++ List.replicate 16 7)) State.reset).port.reply.map (·.status)) = some .clamped ∧
    State.reset.chan? 1 = none ∧ State.reset.chans.length < 16 ∧ loading.chan? 7 ≠ none ∧ loading.station = some sp0 ∧
    loading.chans ≠ [] := by decide +kernel

theorem witness_ReadsAndTransfers : base.locked = true ∧ base.chan? 7 = some chan0 ∧ (1 : Byte).toNat ≤ 1 ∧
    (239 : Byte).toNat < 240 ∧ copied.list[1]?.isSome = true ∧ copied.list.length ≤ (2 : Byte).toNat ∧
    { base.port with reply := some ⟨.done, []⟩ }.reply = some ⟨.done, []⟩ ∧ base.port.reply = none ∧
    (List.replicate 250 (0 : Byte)).length ≤ 250 ∧ commandCheck 22 [] ≠ 0 ∧ 21 < (22 : Byte).toNat ∧
    (∀ i : Fin 12, base.notices[i].pending = false) ∧
    NoticeCode.handedBack 0 false ≠ .handbackNotLive ∧ (NoticeCode.handedBack 0 false).cls = NoticeCode.handbackNotLive.cls ∧
    (let s := (base.raise .channelLost 7 (.channelLost .silence)).raise .handback 7 .handbackNotLive
     s.notices[(3 : Fin 12)].pending = true ∧ ∀ j : Fin 12, j < 3 → s.notices[j].pending = false) := by decide +kernel

theorem witness_NoticeCommands : (12 : Byte).toNat ≤ 12 ∧ 12 < (13 : Byte).toNat ∧ 12 ≤ (12 : Byte).toNat ∧
    base.notices[(11 : Fin 12)] = { pending := false, count := 0, detail := none } ∧ base.AttentionRight ∧ ([] : List Byte).length ≠ 1 :=
  ⟨by decide, by decide, by decide, by decide, by unfold State.AttentionRight; decide, by decide⟩

theorem witness_RefusedCommandsChangeNothing :
    exec (.setFloor []) base = .next (after (.setFloor []) base) ∧
    (after (.setFloor []) base).port.reply = some ⟨.refused, [3]⟩ ∧ base.locked = true ∧ base.chan? 8 = none ∧
    State.reset.locked = false ∧ State.reset.station = none ∧ clampStation sp0 = sp0 ∧ clampChannel part0 = part0 := by
  refine ⟨rfl, ?_⟩
  decide +kernel

end Sys2Proof.Tests
end

section
/-! SUPPORT. The commands of the time base: what a clock cycle, a reference pulse, a missing pulse and a silence do, one equation for
each case, and the statements about them (01_station_time.md). -/

namespace Sys2Proof.Machine

/-! ## The measured STEP (R6, R7) -/

/-- The acceptance test on whole numbers: five thousand times the count lies within one nominal count of five thousand nominal
counts (R6). -/
theorem acceptable_iff (p n : Nat) :
    acceptable p n = true ↔ 4999 * (51200 * p) ≤ 5000 * n ∧ 5000 * n ≤ 5001 * (51200 * p) := by
  unfold acceptable nominalCount
  rw [decide_eq_true_iff]
  omega

/-- The model's acceptance test is the one the statements name. -/
theorem acceptable_iff_accepted (s : State) : acceptable s.refPeriod s.tb.cycles = true ↔ s.Accepted := by
  simp [acceptable, nominalCount, State.Accepted, State.refPeriod]

/-- The clamped STEP of a period and a count, spelled as R7 spells it. -/
theorem stepFor_eq (p n : Nat) :
    stepFor p n = max 21470541 (min 21479131 ((2 * (2 ^ 40 * p) + n) / (2 * n))) := by
  have e : 2 ^ 32 * 256 * p = 2 ^ 40 * p := by omega
  simp only [stepFor, roundedQuotient, Config.stepMin, Config.stepMax, e]

theorem stepFor_inRange (p n : Nat) : 21470541 ≤ stepFor p n ∧ stepFor p n ≤ 21479131 := by
  rw [stepFor_eq]; omega

/-- The period of a rate code (00_scope.md, "Frame rates"). -/
theorem ratePeriod_bounds {r : Nat} (h1 : 1 ≤ r) (h8 : r ≤ 8) : 4000 ≤ Config.ratePeriod r ∧ Config.ratePeriod r ≤ 10010 := by
  interval_cases r <;> decide

/-- A quotient by `n` lies in a range when the dividend does. -/
theorem div_mem_range {a n lo hi : Nat} (hn : 0 < n) (hlo : lo * n ≤ a) (hhi : a < (hi + 1) * n) : lo ≤ a / n ∧ a / n ≤ hi :=
  ⟨(Nat.le_div_iff_mul_le hn).2 hlo, Nat.lt_succ_iff.1 ((Nat.div_lt_iff_lt_mul hn).2 hhi)⟩

/-- The nearest quotient of an accepted count, before the clamp. -/
theorem roundedQuotient_inRange {p n : Nat} (hp : 0 < p) (ha : acceptable p n = true) :
    21470542 ≤ roundedQuotient p n ∧ roundedQuotient p n ≤ 21479132 := by
  obtain ⟨hlo, hhi⟩ := (acceptable_iff p n).1 ha
  unfold roundedQuotient
  exact div_mem_range (by omega) (by omega) (by omega)

/-- Settles O14: the quotient is a floor division, and an accepted count holds it in its range. -/
theorem measuredStepIsNearest : Obligations.MeasuredStepIsNearest := by
  intro r n h1 h8 ha
  have hp := (ratePeriod_bounds h1 h8).1
  generalize Config.ratePeriod r = p at hp ha ⊢
  obtain ⟨hlo, hhi⟩ := roundedQuotient_inRange (by omega) ha
  have hn : 0 < 2 * n := by have := (acceptable_iff p n).1 ha; omega
  have e : 2 * (2 ^ 32 * 256 * p) + n = 2 ^ 41 * p + n := by omega
  refine ⟨roundedQuotient p n, ?_, ?_, hlo, hhi, ?_⟩
  · rw [← e]; exact Nat.mul_div_le _ _
  · rw [← e, Nat.mul_add, Nat.mul_one]; exact Nat.lt_mul_div_succ _ hn
  · simp only [stepFor, Config.stepMin, Config.stepMax]; omega

/-! ## Clock cycles and pulses (R1 to R5) -/

/-- A clock cycle, its carry decided by the sum (R1, R2, R4). -/
theorem exec_clockCycle (s : State) :
    exec .clockCycle s = .next { s with tb := { s.tb with
      acc := if s.tb.acc + s.tb.step < 2 ^ 32 then s.tb.acc + s.tb.step else s.tb.acc + s.tb.step - 2 ^ 32
      now := if s.tb.acc + s.tb.step < 2 ^ 32 then s.tb.now else s.tb.now + 1
      cycles := if s.tb.measuring then s.tb.cycles + 1 else s.tb.cycles } } := by
  show execClockCycle s = _
  unfold execClockCycle
  by_cases h : s.tb.acc + s.tb.step < 2 ^ 32
  · simp only [if_pos h, if_neg (Nat.not_le.2 h)]
  · simp only [if_neg h, if_pos (Nat.not_lt.1 h)]

theorem exec_referencePulse_freeRun {s : State} (h : s.tb.state = .freeRun) : exec .referencePulse s = .next s :=
  congrArg Host.Outcome.next (if_pos h)

/-- A pulse outside FREE_RUN stamps the time base and is then counted (R4). -/
theorem exec_referencePulse {s : State} (h : s.tb.state ≠ .freeRun) :
    exec .referencePulse s = .next s.stampPulse.countPulse :=
  congrArg Host.Outcome.next (if_neg h)

/-- A pulse that closes a measurement judges the count of cycles, with the next measurement open (R6, R8, R9). -/
theorem countPulse_closing {s : State} (hm : s.tb.measuring = true) (hp : 256 ≤ s.tb.periods + 1) :
    s.stampPulse.countPulse =
      if acceptable s.refPeriod s.tb.cycles then State.accept { s with tb := s.pulsed } s.tb.cycles
      else State.suspect { s with tb := s.pulsed } := by
  show (if !s.tb.measuring then _ else if s.tb.periods + 1 < Config.measurementPeriods then _ else _) = _
  rw [hm, if_neg nofun, if_neg (by simp only [Config.measurementPeriods]; omega)]
  rfl

/-- Settles O11, by the equations of a clock cycle and of a pulse, and by the test for the closing pulse. -/
theorem clockAndPulsesCount : Obligations.ClockAndPulsesCount := by
  intro s
  refine ⟨exec_clockCycle s, exec_referencePulse_freeRun, fun h hm => ?_, fun h hm hp => ?_⟩
  · rw [exec_referencePulse h]
    exact congrArg Host.Outcome.next (if_pos (by show (!s.tb.measuring) = true; rw [hm]; rfl))
  · rw [exec_referencePulse h]
    show Host.Outcome.next (if !s.tb.measuring then _ else if s.tb.periods + 1 < Config.measurementPeriods then _ else _) = _
    rw [hm, if_neg nofun]
    exact congrArg Host.Outcome.next (if_pos hp)

/-! ## Accepted, suspect and abandoned measurements (R6 to R12) -/

/-- An accepted measurement in LOCKED sets STEP and nothing else of the state (R8). -/
theorem accept_locked {s : State} (h : s.tb.state = .locked) (n : Nat) :
    s.accept n = { s with tb := { s.tb with step := stepFor s.refPeriod n, state := .locked, suspectRun := 0 } } := by
  simp [State.accept, h]

/-- An accepted measurement outside LOCKED enters it, which changes the time class (R8, R12). -/
theorem accept_enters {s : State} (h : s.tb.state ≠ .locked) (n : Nat) :
    s.accept n = State.timeClassChanged
      { s with tb := { s.tb with step := stepFor s.refPeriod n, state := .locked, suspectRun := 0 } } := by
  simp [State.accept, h]

/-- A suspect measurement outside LOCKED changes nothing (R9). -/
theorem suspect_unlocked {s : State} (h : s.tb.state ≠ .locked) : s.suspect = s := if_neg h

/-- A suspect measurement in LOCKED lengthens a run below 3 (R9). -/
theorem suspect_counts {s : State} (h : s.tb.state = .locked) (hr : s.tb.suspectRun + 1 < 3) :
    s.suspect = { s with tb := { s.tb with suspectRun := s.tb.suspectRun + 1 } } := by
  simp only [State.suspect, if_pos h, if_pos hr]

/-- The third suspect measurement in a row enters HOLDOVER (R9, R11). -/
theorem suspect_third {s : State} (h : s.tb.state = .locked) (hr : 3 ≤ s.tb.suspectRun + 1) : s.suspect = s.enterHoldover := by
  simp only [State.suspect, if_pos h, if_neg (Nat.not_lt.2 hr)]

/-- A pulse that closes an accepted measurement (R6, R8). -/
theorem exec_referencePulse_accepted {s : State} (h : s.tb.state ≠ .freeRun) (hm : s.tb.measuring = true)
    (hp : 256 ≤ s.tb.periods + 1) (ha : s.Accepted) :
    exec .referencePulse s = .next (State.accept { s with tb := s.pulsed } s.tb.cycles) := by
  rw [exec_referencePulse h, countPulse_closing hm hp, if_pos ((acceptable_iff_accepted s).2 ha)]

/-- A pulse that closes a suspect measurement (R6, R9). -/
theorem exec_referencePulse_suspect {s : State} (h : s.tb.state ≠ .freeRun) (hm : s.tb.measuring = true)
    (hp : 256 ≤ s.tb.periods + 1) (ha : ¬ s.Accepted) :
    exec .referencePulse s = .next (State.suspect { s with tb := s.pulsed }) := by
  rw [exec_referencePulse h, countPulse_closing hm hp, if_neg (mt (acceptable_iff_accepted s).1 ha)]

/-- The time base in which an accepted measurement leaves it (R7, R8). -/
def State.measured (s : State) : TimeBase :=
  { s.pulsed with
    step := max 21470541 (min 21479131 ((2 * (2 ^ 40 * Config.ratePeriod s.sp.rate) + s.tb.cycles) / (2 * s.tb.cycles)))
    state := .locked, suspectRun := 0 }

theorem measured_eq (s : State) :
    { s.pulsed with step := stepFor s.refPeriod s.tb.cycles, state := .locked, suspectRun := 0 } = s.measured := by
  rw [stepFor_eq]; rfl

/-- A change of time class leaves the time base as it is (R12). -/
theorem timeClassChanged_tb (s : State) : s.timeClassChanged.tb = s.tb := (claimsOnly_timeClassChanged s).tb

/-- Settles O12: the two ways an accepted measurement ends, in LOCKED and outside it. -/
theorem closingPulseSetsStep : Obligations.ClosingPulseSetsStep := by
  intro s h hm hp ha
  rw [exec_referencePulse_accepted h hm hp ha]
  by_cases hl : s.tb.state = .locked
  · rw [accept_locked (s := { s with tb := s.pulsed }) hl]
    exact ⟨_, rfl, measured_eq s, fun _ => rfl, fun hn => absurd hl hn⟩
  · rw [accept_enters (s := { s with tb := s.pulsed }) hl]
    refine ⟨_, rfl, (timeClassChanged_tb _).trans (measured_eq s), fun hn => absurd hn hl, fun _ => ?_⟩
    rw [timeClassChanged_tb]
    exact ⟨timeClassChanged_rekeyed _, claimsOnly_timeClassChanged _, timeClassChanged_rekeyedTo s _ .locked rfl rfl rfl⟩

/-! ## Missing pulses and silences (R5, R9, R10) -/

theorem exec_missingPulse_early {s : State} (h : due s.tb.missingDl s.tb.now = false) : exec .missingPulse s = .next s :=
  congrArg Host.Outcome.next (if_neg (by show ¬ due s.tb.missingDl s.tb.now = true; rw [h]; nofun))

theorem exec_missingPulse_idle {s : State} (h : due s.tb.missingDl s.tb.now = true) (hm : s.tb.measuring = false) :
    exec .missingPulse s = .next { s with tb := { s.tb with missingDl := none } } :=
  congrArg Host.Outcome.next
    ((if_pos h).trans (if_neg (by show ¬ s.tb.measuring = true; rw [hm]; nofun)))

/-- A missing pulse abandons the measurement in progress, which counts as a suspect one (R5, R9). -/
theorem exec_missingPulse_abandons {s : State} (h : due s.tb.missingDl s.tb.now = true) (hm : s.tb.measuring = true) :
    exec .missingPulse s = .next (State.suspect
      { s with tb := { s.tb with missingDl := none, measuring := false, cycles := 0, periods := 0 } }) :=
  congrArg Host.Outcome.next ((if_pos h).trans (if_pos hm))

theorem exec_referenceSilence_early {s : State} (h : due s.tb.silenceDl s.tb.now = false) : exec .referenceSilence s = .next s :=
  congrArg Host.Outcome.next (if_neg (by show ¬ due s.tb.silenceDl s.tb.now = true; rw [h]; nofun))

theorem exec_referenceSilence_unlocked {s : State} (h : due s.tb.silenceDl s.tb.now = true) (hl : s.tb.state ≠ .locked) :
    exec .referenceSilence s = .next { s with tb := { s.tb with silenceDl := none } } :=
  congrArg Host.Outcome.next ((if_pos h).trans (if_neg hl))

/-- A silence in LOCKED enters HOLDOVER (R10). -/
theorem exec_referenceSilence_locked {s : State} (h : due s.tb.silenceDl s.tb.now = true) (hl : s.tb.state = .locked) :
    exec .referenceSilence s = .next (State.enterHoldover { s with tb := { s.tb with silenceDl := none } }) :=
  congrArg Host.Outcome.next ((if_pos h).trans (if_pos hl))

/-- An entry to HOLDOVER from a state that differs from `s` in the time base alone: TIME_HOLDOVER raised, and then every claim
that contends re-keyed with time class 1 (R11, R12). -/
theorem enterHoldover_rekeys (s : State) (tb : TimeBase) :
    let u := State.raise { s with tb := { tb with state := .holdover, suspectRun := 0 } } .timeOrAsrun 0 .timeHoldover
    u.Rekeyed (State.enterHoldover { s with tb := tb }) ∧ u.ClaimsOnly (State.enterHoldover { s with tb := tb }) ∧
      s.RekeyedTo (State.enterHoldover { s with tb := tb }) 1 :=
  ⟨timeClassChanged_rekeyed _, claimsOnly_timeClassChanged _, timeClassChanged_rekeyedTo s _ .holdover rfl rfl rfl⟩

/-- Settles O13: each failed measurement by the state it is taken in, and each of the three ways into HOLDOVER. -/
theorem failedMeasurementsAndHoldover : Obligations.FailedMeasurementsAndHoldover := by
  intro s
  refine ⟨fun h hm hp ha => ?_, fun hd => ?_, exec_referenceSilence_unlocked, exec_missingPulse_early,
    exec_referenceSilence_early, fun hl => ?_⟩
  · rw [exec_referencePulse_suspect h hm hp ha]
    exact ⟨fun hl => congrArg _ (suspect_unlocked (s := { s with tb := s.pulsed }) hl),
      fun hl hr => congrArg _ (suspect_counts (s := { s with tb := s.pulsed }) hl hr)⟩
  · refine ⟨exec_missingPulse_idle hd, fun hm hl => ?_, fun hm hl hr => ?_⟩
    · rw [exec_missingPulse_abandons hd hm, suspect_unlocked (by exact hl)]
    · rw [exec_missingPulse_abandons hd hm, suspect_counts (by exact hl) (by exact hr)]
  · refine ⟨fun hm hp ha hr => ?_, fun hm hd hr => ?_, fun hd => ?_⟩
    · refine ⟨_, (exec_referencePulse_suspect (by rw [hl]; nofun) hm hp ha).trans ?_, enterHoldover_rekeys s _⟩
      exact congrArg Host.Outcome.next (suspect_third (s := { s with tb := s.pulsed }) hl hr)
    · refine ⟨_, (exec_missingPulse_abandons hd hm).trans ?_, enterHoldover_rekeys s _⟩
      rw [suspect_third (by exact hl) (by exact hr)]
    · exact ⟨_, exec_referenceSilence_locked hd hl, enterHoldover_rekeys s _⟩

/-! ## Pin reset -/

/-- The state after pin reset with some commands waiting. -/
def State.resetWith (l : List Instr) : State := { State.reset with pending := l }

theorem resetWith_poolFree (l : List Instr) : (State.resetWith l).poolFree = List.range 1536 := by
  simp only [State.resetWith, State.reset, Config.poolSize]

theorem resetWith_outlet (l : List Instr) (o : OutletNo) : (State.resetWith l).outlet o = Outlet.reset :=
  Vector.getElem_replicate o.isLt

theorem resetWith_notice (l : List Instr) (i : Fin 12) : (State.resetWith l).notices[i] = Notice.blank :=
  Vector.getElem_replicate i.isLt

theorem resetWith_peer (l : List Instr) (st : Station) : (State.resetWith l).peer st = Peer.blank :=
  Vector.getElem_replicate _

/-- Settles O2: the state after pin reset is `State.reset` but for the commands that wait. -/
theorem pinResetLeaves : Obligations.PinResetLeaves := by
  intro s
  refine ⟨State.resetWith s.pending, rfl, ?_, ?_, ⟨rfl, rfl, rfl⟩, ?_, fun o => ?_, ⟨rfl, rfl, rfl⟩,
    resetWith_notice s.pending, ⟨rfl, rfl, rfl⟩, rfl⟩
  · exact ⟨rfl, rfl, rfl, rfl, rfl, rfl, rfl, rfl, rfl, rfl, rfl⟩
  · exact ⟨rfl, rfl, rfl, rfl, resetWith_poolFree s.pending, rfl⟩
  · exact ⟨rfl, rfl, rfl, rfl, rfl, rfl, rfl, rfl, rfl, rfl, rfl, rfl, rfl, rfl, rfl, rfl, resetWith_peer s.pending⟩
  · rw [resetWith_outlet]
    exact ⟨rfl, rfl, rfl, rfl, rfl, rfl, rfl, rfl, rfl⟩

end Sys2Proof.Machine
end

section
/-! SUPPORT. The body of a STATUS, the deadlines of the bus controller and BUS_RESTART, one equation for each case, and the statement
about them (05_the_site_bus.md). -/

namespace Sys2Proof.Machine

variable {s : State}

/-! ## The body of a STATUS (R93) -/

theorem isFree_eq (x : Outlet) : x.isFree = decide (x.state = .free) := rfl

theorem freeCount_eq (s : State) :
    s.freeCount = ((List.finRange 4).filter (fun o => decide ((s.outlet o).state = .free))).length :=
  List.countP_eq_length_filter

theorem freeCount_pos (s : State) : 0 < s.freeCount ↔ ∃ o : OutletNo, (s.outlet o).state = .free := by
  simp [State.freeCount, List.countP_pos_iff, isFree_eq]

theorem outletNames_iff (s : State) (c : Channel) : s.outletNames c = true ↔
    ∃ o : OutletNo, ((s.outlet o).state = .reserved ∨ (s.outlet o).state = .air) ∧ (s.outlet o).channel = some c := by
  simp [State.outletNames]

theorem holding_iff (st : TakeoverState) : st.holding = true ↔ st = .joining ∨ st = .onAir ∨ st = .handingBack := by
  cases st <;> simp [TakeoverState.holding]

/-- A channel stands in the serve set by its rank, its mark, its copy and the outlets (R93). -/
theorem serves_iff (s : State) (ch : Chan) : s.serves ch = true ↔
    ch.part.rank ≤ 14 ∧ ch.tk.inhibit = false ∧ ch.mirror.condition ≠ .empty ∧ ∃ o : OutletNo, (s.outlet o).state = .free ∨
      (((s.outlet o).state = .reserved ∨ (s.outlet o).state = .air) ∧ (s.outlet o).channel = some ch.part.channel) := by
  simp only [State.serves, Bool.and_eq_true, Bool.or_eq_true, decide_eq_true_eq, freeCount_pos, outletNames_iff,
    Bool.not_eq_true', bne_iff_ne, exists_or, and_assoc]

/-- The bit that a channel sets in the serve set. -/
theorem serveBit (c : Channel) {i : Nat} (hi : i < 64) :
    (BitVec.ofNat 64 (2 ^ c.toNat / 2)).getLsbD i = true ↔ c.toNat = i + 1 := by
  rw [BitVec.getLsbD_ofNat]
  cases hc : c.toNat with
  | zero => simp
  | succ n =>
    rw [Nat.pow_succ, Nat.mul_div_cancel _ (by decide), Nat.testBit_two_pow]
    simp only [hi, decide_true, Bool.true_and, decide_eq_true_eq]
    omega

/-- A bit of a set that a list builds by union. -/
theorem foldl_union_bit {α : Type} (p : α → Bool) (f : α → BitVec 64) (i : Nat) (l : List α) : ∀ acc : BitVec 64,
    (l.foldl (fun acc x => if p x then acc ||| f x else acc) acc).getLsbD i = true ↔
      acc.getLsbD i = true ∨ ∃ x ∈ l, p x = true ∧ (f x).getLsbD i = true := by
  induction l with
  | nil => simp
  | cons x rest ih =>
    intro acc
    rw [List.foldl_cons, ih]
    by_cases hx : p x = true
    · simp [hx, or_assoc]
    · simp [hx]

/-- The serve set lists channel c at bit c − 1 (section 5.2). -/
theorem serveSet_bit (s : State) {i : Nat} (hi : i < 64) :
    s.serveSet.getLsbD i = true ↔ ∃ ch ∈ s.chans, ch.part.channel.toNat = i + 1 ∧ s.serves ch = true := by
  unfold State.serveSet
  rw [foldl_union_bit s.serves (fun ch => BitVec.ofNat 64 (2 ^ ch.part.channel.toNat / 2)) i]
  have h0 : (0 : BitVec 64).getLsbD i = false := BitVec.getLsbD_zero
  simp only [serveBit _ hi, h0, Bool.false_eq_true, false_or]
  exact exists_congr fun ch => and_congr_right fun _ => and_comm

theorem held_count (s : State) : s.statusBody.held =
    (s.chans.filter (fun ch => decide (ch.tk.state = .joining ∨ ch.tk.state = .onAir ∨ ch.tk.state = .handingBack))).length := by
  refine List.countP_eq_length_filter.trans (congrArg (fun p => (s.chans.filter p).length) (funext fun ch => ?_))
  exact Bool.eq_iff_iff.2 ((holding_iff _).trans decide_eq_true_iff.symm)

/-! ## Deadlines (R91 to R93, R97) -/

/-- A STATUS offered changes the bus controller alone, so the status deadline armed with it runs from the same time and period
(R91 to R93). -/
theorem freshStatus_eq (w : State) : w.freshStatus = { w.offerStatus with bus := { w.offerStatus.bus with
    statusDl := some (w.tb.now + BitVec.ofNat 48 (w.sp.statusPeriod * 240)) } } := by
  have e : w.offerStatus = { w with bus := w.offerStatus.bus } := offerFrame_rest _ _
  have hn : w.offerStatus.now = w.tb.now := by rw [e]; rfl
  have hp : w.offerStatus.sp = w.sp := by rw [e]; rfl
  show { w.offerStatus with bus := { w.offerStatus.bus with
    statusDl := some (plus w.offerStatus.now (msGrains w.offerStatus.sp.statusPeriod)) } } = _
  rw [hn, hp]
  rfl

/-- The state in which the end of QUIET leaves the bus controller, before any pass (R91). -/
def State.quietEnded (s : State) (st : BusState) : State :=
  State.freshStatus { s with bus := { s.bus with state := st, faults := 0, quietDl := none } }

/-- The same state, spelled with the STATUS offered and the status deadline armed (R91, R93). -/
theorem quietEnded_eq (s : State) (st : BusState) :
    let w := State.offerStatus { s with bus := { s.bus with state := st, faults := 0, quietDl := none } }
    { w with bus := { w.bus with statusDl := some (s.tb.now + BitVec.ofNat 48 (s.sp.statusPeriod * 240)) } } =
      s.quietEnded st := (freshStatus_eq _).symm

theorem exec_quietDeadline_early (h : s.bus.state ≠ .quiet ∨ due s.bus.quietDl s.tb.now = false) :
    exec .quietDeadline s = .next s := by
  refine congrArg Host.Outcome.next (if_neg fun hc => ?_)
  obtain ⟨hq, hd⟩ : s.bus.state = .quiet ∧ due s.bus.quietDl s.tb.now = true := hc
  rcases h with h | h
  · exact h hq
  · rw [h] at hd; cases hd

/-- The end of QUIET goes back to LISTENING_IN where it came from while that deadline is still to come (R91, R92). -/
theorem exec_quietDeadline_back (hq : s.bus.state = .quiet) (hd : due s.bus.quietDl s.tb.now = true)
    (hl : (s.bus.quietFromListening && s.bus.listeningDl.isSome) = true) :
    exec .quietDeadline s = .next (s.quietEnded .listeningIn) := by
  refine congrArg Host.Outcome.next ((if_pos ⟨hq, hd⟩).trans ?_)
  simp only [hl, if_true]
  rfl

/-- Else it goes on to ACTIVE, and a pass runs (R91, R92). -/
theorem exec_quietDeadline_on (hq : s.bus.state = .quiet) (hd : due s.bus.quietDl s.tb.now = true)
    (hl : (s.bus.quietFromListening && s.bus.listeningDl.isSome) = false) :
    exec .quietDeadline s = .next (s.quietEnded .active).pass := by
  refine congrArg Host.Outcome.next ((if_pos ⟨hq, hd⟩).trans ?_)
  simp only [hl, Bool.false_eq_true, if_false]
  rfl

theorem exec_listeningInDeadline_early (h : due s.bus.listeningDl s.tb.now = false) : exec .listeningInDeadline s = .next s :=
  congrArg Host.Outcome.next (if_neg (by show ¬ due s.bus.listeningDl s.tb.now = true; rw [h]; nofun))

theorem exec_listeningInDeadline_enters (h : due s.bus.listeningDl s.tb.now = true) (hl : s.bus.state = .listeningIn) :
    exec .listeningInDeadline s = .next (State.pass { s with bus := { s.bus with listeningDl := none, state := .active } }) :=
  congrArg Host.Outcome.next ((if_pos h).trans (if_pos hl))

theorem exec_listeningInDeadline_noted (h : due s.bus.listeningDl s.tb.now = true) (hl : s.bus.state ≠ .listeningIn) :
    exec .listeningInDeadline s = .next { s with bus := { s.bus with listeningDl := none } } :=
  congrArg Host.Outcome.next ((if_pos h).trans (if_neg hl))

/-- The status deadline armed again, one status period after station time (R3, R93). -/
def State.statusRearmed (s : State) : State :=
  { s with bus := { s.bus with statusDl := some (s.tb.now + BitVec.ofNat 48 (s.sp.statusPeriod * 240)) } }

theorem exec_statusDeadline_early {d : Time} (hs : s.bus.statusDl = some d) (h : atOrBefore d s.tb.now = false) :
    exec .statusDeadline s = .next s :=
  congrArg Host.Outcome.next (if_neg (by rw [hs]; show ¬ atOrBefore d s.tb.now = true; rw [h]; nofun))

theorem exec_statusDeadline_offers {d : Time} (hs : s.bus.statusDl = some d) (h : atOrBefore d s.tb.now = true)
    (hb : s.bus.state = .listeningIn ∨ s.bus.state = .active) : exec .statusDeadline s = .next s.statusRearmed.offerStatus :=
  congrArg Host.Outcome.next ((if_pos (by rw [hs]; exact h)).trans (if_pos hb))

theorem exec_statusDeadline_silent {d : Time} (hs : s.bus.statusDl = some d) (h : atOrBefore d s.tb.now = true)
    (hb : ¬ (s.bus.state = .listeningIn ∨ s.bus.state = .active)) : exec .statusDeadline s = .next s.statusRearmed :=
  congrArg Host.Outcome.next ((if_pos (by rw [hs]; exact h)).trans (if_neg hb))

theorem exec_peerSilenceDeadline_early {st : Station} (h : due (s.peer st).silenceDl s.tb.now = false) :
    exec (.peerSilenceDeadline st) s = .next s :=
  congrArg Host.Outcome.next (if_neg (by show ¬ due (s.peer st).silenceDl s.tb.now = true; rw [h]; nofun))

/-! ## BUS_RESTART (R99) -/

/-- What no operation of the takeover unit, the transmit queue or a pass changes of the bus controller after BUS_RESTART. -/
theorem restartBus_core (s : State) : s.restartBus.bus.core =
    { s.bus.core with
      state := .listeningIn, rx := .hunt, huntCount := 0, driving := [], faults := 0, losses := 0
      listeningDl := some (s.tb.now + BitVec.ofNat 48 (2 * (s.sp.statusPeriod * 240)))
      quietDl := none
      statusDl := some (s.tb.now + BitVec.ofNat 48 (s.sp.statusPeriod * 240))
      peers := Vector.replicate 16 Peer.blank, heard := 0 } := by
  have restarted : ∀ w : State, (State.freshStatus w).bus.core =
      { w.bus.core with statusDl := some (w.tb.now + BitVec.ofNat 48 (w.sp.statusPeriod * 240)) } := by
    intro w
    rw [freshStatus_eq, ← (keeps_offerStatus (Keeps.refl w)).bus]
    rfl
  unfold State.restartBus
  dsimp only
  split
  · rw [(keeps_busLeftActive (Keeps.refl _)).bus]; exact restarted _
  · exact restarted _

theorem exec_busRestart (h : s.locked = true) : exec (.busRestart []) s = .next (s.restartBus.done []) :=
  congrArg Host.Outcome.next (if_pos h)

/-- Settles O36: the body of a STATUS field by field, then each deadline by its cases, and BUS_RESTART. -/
theorem busDeadlinesAct : Obligations.BusDeadlinesAct := by
  intro s
  simp only [quietEnded_eq]
  refine ⟨⟨s.statusBody, rfl, beq_iff_eq, freeCount_eq s, rfl, held_count s, fun i hi => ?_⟩,
    ⟨fun hq hd => ⟨fun hf hl => ?_, fun hn => ?_⟩, exec_quietDeadline_early⟩,
    fun hd => ⟨fun hl => ⟨_, exec_listeningInDeadline_enters hd hl, pass_passed _, claimsOnly_pass _⟩,
      exec_listeningInDeadline_noted hd⟩,
    exec_listeningInDeadline_early,
    fun d hs => ⟨fun hd => ⟨exec_statusDeadline_offers hs hd,
      fun h1 h2 => exec_statusDeadline_silent hs hd (not_or.2 ⟨h1, h2⟩)⟩, exec_statusDeadline_early hs⟩,
    fun st => ⟨fun hd => congrArg Host.Outcome.next (if_pos hd), exec_peerSilenceDeadline_early⟩,
    fun hl => ⟨s.restartBus, exec_busRestart hl, ?_⟩⟩
  · exact (serveSet_bit s hi).trans (exists_congr fun ch => and_congr_right fun _ => and_congr_right fun _ => serves_iff s ch)
  · exact exec_quietDeadline_back hq hd (by simp [hf, Option.isSome_iff_ne_none, hl])
  · have hb : (s.bus.quietFromListening && s.bus.listeningDl.isSome) = false := by
      rcases hn with hn | hn <;> simp [hn]
    exact ⟨_, exec_quietDeadline_on hq hd hb, pass_passed _, claimsOnly_pass _⟩
  · have hc := restartBus_core s
    exact ⟨congrArg BusCtl.state hc, congrArg BusCtl.listeningDl hc, congrArg BusCtl.statusDl hc, congrArg BusCtl.quietDl hc,
      congrArg BusCtl.driving hc, congrArg BusCtl.faults hc, congrArg BusCtl.losses hc, congrArg BusCtl.rx hc,
      congrArg BusCtl.heard hc, (congrArg BusCtl.malformed hc :), congrArg BusCtl.peers hc⟩

end Sys2Proof.Machine
end

section
/-! SUPPORT. The deadlines of the takeover unit and a RELEASE frame of another station, one equation for each case, and the statement
about them (06_claims_and_takeover.md). -/

namespace Sys2Proof.Machine

variable {s : State} {c : Channel} {ch : Chan}

/-! ## Deadlines (R104 to R107, R117, R119) -/

theorem exec_foreignClaimExpiry (h : s.chan? c = some ch) {f : ForeignClaim} (hb : ch.tk.best = some f) :
    exec (.foreignClaimExpiry c) s =
      .next (if atOrBefore f.expiry s.tb.now then s.modTk c (fun tk => { tk with best := none }) else s) := by
  show execForeignClaimExpiry c s = _
  unfold execForeignClaimExpiry
  rw [h]
  dsimp only
  rw [hb]
  rfl

theorem exec_holderDeadline (h : s.chan? c = some ch) {x : Holder} (hh : ch.tk.holder = some x) :
    exec (.holderDeadline c) s =
      .next (if atOrBefore x.deadline s.tb.now then (s.modTk c (fun tk => { tk with holder := none })).holderGone c else s) := by
  show execHolderDeadline c s = _
  unfold execHolderDeadline
  rw [h]
  dsimp only
  rw [hh]
  rfl

theorem exec_yieldDeadline (h : s.chan? c = some ch) :
    exec (.yieldDeadline c) s = .next
      (if ch.tk.state = .yielded ∧ ch.tk.holder.isNone ∧ due ch.tk.yieldDl s.tb.now then s.leaveYielded c else s) := by
  show execYieldDeadline c s = _
  unfold execYieldDeadline
  rw [h]
  rfl

/-- A held channel's HOLD deadline (R119). -/
theorem exec_holdDeadline (h : s.chan? c = some ch) (hs : ch.tk.state.holding = true) {d : Time} (hd : ch.tk.holdDl = some d) :
    exec (.holdDeadline c) s = .next (if atOrBefore d s.tb.now then s.assertHold c else s) := by
  show execHoldDeadline c s = _
  unfold execHoldDeadline
  rw [h]
  dsimp only
  rw [hs, hd, Bool.true_and]
  rfl

/-- A HOLD as it stands, with the next one a hold period after station time (R95, R119). -/
theorem assertHold_eq (h : s.chan? c = some ch) {k : Key} (hk : ch.tk.ownHold = some k) :
    s.assertHold c = (s.offerFrame ⟨k.merit, s.bus.own,
        .hold c (holdStateOf ch.tk.state) (ch.mirror.version.getD 0) ch.currentEvent⟩).modTk c (fun tk =>
      { tk with holdDl := some (s.tb.now + BitVec.ofNat 48 (s.sp.holdPeriod * 240)) }) := by
  unfold State.assertHold
  rw [h]
  dsimp only
  rw [hk]
  dsimp only
  unfold Chan.holdFrame
  rw [chan?_channel h]
  rfl

/-! ## RELEASE (R106, R118) -/

/-- A good RELEASE of another station is heard and handed on (R83, R106). -/
theorem exec_releaseFrame {m : Byte} {st : Station} (r : ReleaseReason) (hr : s.bus.rx = .free ∨ s.bus.rx = .receiving)
    (hst : st ≠ s.bus.own) (hm : meritOk m = true) (hc : channelOk c = true) :
    exec (.releaseFrame m st c r) s = .next ((s.heard ⟨m, st, .release c r⟩).takeRelease c ⟨m, st⟩ r) := by
  have hf : frameFieldsOk ⟨m, st, .release c r⟩ = true := by
    unfold meritOk at hm
    unfold channelOk at hc
    rw [decide_eq_true_iff] at hm hc
    exact decide_eq_true ⟨hm.1, hm.2, hc.1, hc.2⟩
  exact congrArg Host.Outcome.next (closeFrame_other s ⟨m, st, .release c r⟩ hr hst hf)

/-- A RELEASE that is not the known holder's with its recorded key goes no further (R106). -/
theorem takeRelease_other {k : Key} (h : s.chan? c = some ch) (hk : ch.tk.holder.map (·.key) ≠ some k) (r : ReleaseReason) :
    s.takeRelease c k r = s := by
  unfold State.takeRelease
  rw [h]
  dsimp only
  cases hh : ch.tk.holder with
  | none => rfl
  | some x => exact if_neg (fun e => hk (by rw [hh]; exact congrArg some e))

/-- A channel's record once its known holder has released it: the holder absent, and at a handback the await-live mark set where the
watch is LOST (R106, R118). -/
def Chan.released (r : ReleaseReason) (x : Chan) : Chan :=
  { x with tk := { x.tk with
      holder := none, awaitLive := if r = .handedBack then x.watch.state == .lost else x.tk.awaitLive } }

theorem modChan_modChan (s : State) (c : Channel) (f g : Chan → Chan) (hf : ∀ x, (f x).part.channel = x.part.channel) :
    (s.modChan c f).modChan c g = s.modChan c (fun x => g (f x)) := by
  unfold State.modChan
  simp only [List.map_map]
  congr 1
  refine List.map_congr_left fun x _ => ?_
  simp only [Function.comp]
  by_cases hx : x.part.channel = c
  · simp only [hx, beq_self_eq_true, if_true, hf]
  · simp only [beq_eq_false_iff_ne.2 hx, Bool.false_eq_true, if_false]

/-- A RELEASE of the known holder with its recorded key (R106, R118). -/
theorem takeRelease_holder {k : Key} (h : s.chan? c = some ch) (hk : ch.tk.holder.map (·.key) = some k) (r : ReleaseReason) :
    s.takeRelease c k r = (s.modChan c (Chan.released r)).holderGone c := by
  obtain ⟨x, hx, hxk⟩ := Option.map_eq_some_iff.1 hk
  unfold State.takeRelease
  rw [h]
  dsimp only
  rw [hx]
  dsimp only
  rw [if_pos hxk]
  congr 1
  by_cases hr : r = .handedBack
  · rw [if_pos hr]
    refine (modChan_modChan s c (fun y => { y with tk := { y.tk with holder := none } }) _ (fun _ => rfl)).trans ?_
    congr 1
    funext y
    simp only [Chan.released, if_pos hr]
  · rw [if_neg hr]
    refine congrArg (s.modChan c) (funext fun y => ?_)
    simp only [Chan.released, if_neg hr]

/-- Settles O39: each deadline by whether it is reached, and a RELEASE by whose it is. -/
theorem takeoverDeadlinesAct : Obligations.TakeoverDeadlinesAct := by
  intro s c
  refine ⟨fun hn m st r hr hst hm hc => ?_, fun ch h => ⟨fun f hb => ?_, fun x hh => ?_, fun hs hh hd => ?_, fun hn => ?_,
    fun d k hd hk hs => ?_, fun m st r hr hst hm hc => ?_⟩⟩
  · rw [exec_releaseFrame r hr hst hm hc]
    unfold State.takeRelease
    rw [show (s.heard ⟨m, st, .release c r⟩).chan? c = none from hn]
  · rw [exec_foreignClaimExpiry h hb]
    exact ⟨fun hd => by rw [hd]; rfl, fun hd => by rw [hd]; rfl⟩
  · rw [exec_holderDeadline h hh]
    exact ⟨fun hd => ⟨_, by rw [hd]; rfl, holderGone_checked (modTk_get s h _)⟩, fun hd => by rw [hd]; rfl⟩
  · refine ⟨_, (exec_yieldDeadline h).trans (congrArg _ (if_pos ⟨hs, by rw [hh]; rfl, hd⟩)), ?_⟩
    exact check_checked (modTk_get s h _) rfl
  · rw [exec_yieldDeadline h, if_neg]
    rintro ⟨hs, hh, hd⟩
    rcases hn with hn | hn | hn
    · exact hn hs
    · exact hn (Option.isNone_iff_eq_none.1 hh)
    · rw [hn] at hd; cases hd
  · rw [exec_holdDeadline h hs hd, assertHold_eq h hk]
    exact ⟨fun hd => by rw [hd]; rfl, fun hd => by rw [hd]; rfl⟩
  · have hu : (s.heard ⟨m, st, .release c r⟩).chan? c = some ch := h
    rw [exec_releaseFrame r hr hst hm hc]
    refine ⟨fun hk => ?_, fun hk => by rw [takeRelease_other hu hk]⟩
    rw [takeRelease_holder hu hk]
    exact ⟨_, rfl, holderGone_checked (modChan_get hu _ (fun _ => rfl))⟩

end Sys2Proof.Machine
end

section
/-! SUPPORT. Where the channels stand: the takeover state of a channel, the outlet it names, whether it has handback fields and the
outlet of its run record, with the agreement of channels and outlets that the invariant asks for (R101, R110, R137, R153, R172), said
channel by channel. `SamePlaces` says that an operation leaves all of it, `LeftAt` that one channel leaves its outlet, and
`KeepsPlaces` that an operation keeps the agreement and every held channel's place. -/

namespace Sys2Proof.Machine

/-- Where a channel stands. -/
structure Place where
  state : TakeoverState
  outlet : Option OutletNo
  handback : Bool
  run : Option OutletNo

/-- Where a channel's records put it. -/
def Chan.place (ch : Chan) : Place := ⟨ch.tk.state, ch.tk.outlet, ch.tk.handback.isSome, ch.run.map (·.outlet)⟩

/-- Where a profiled channel stands. -/
def State.place? (s : State) (c : Channel) : Option Place := (s.chan? c).map Chan.place

/-- A place whose parts agree (R110, R137, R172, R176). -/
structure Place.Right (p : Place) : Prop where
  placed : p.outlet ≠ none ↔ p.state.hasOutlet
  running : p.run ≠ none ↔ p.state.holding = true
  runOutlet : ∀ o, p.run = some o → p.outlet = some o
  handingBack : p.handback = true ↔ p.state = .handingBack

/-- A place without an outlet and a run: IDLE, BLOCKED or YIELDED. -/
structure Place.Spare (p : Place) : Prop where
  state : p.state = .idle ∨ (∃ r, p.state = .blocked r) ∨ p.state = .yielded
  outlet : p.outlet = none
  handback : p.handback = false
  run : p.run = none

/-- The agreement of channels and outlets, channel by channel. -/
structure State.Agreed (s : State) : Prop where
  distinct : s.ChannelsDistinct
  serving : ∀ o : OutletNo, (s.outlet o).channel ≠ none ↔ (s.outlet o).state = .reserved ∨ (s.outlet o).state = .air
  served : ∀ (o : OutletNo) (c : Channel), (s.outlet o).channel = some c → ∃ p, s.place? c = some p ∧ p.outlet = some o
  right : ∀ c p, s.place? c = some p → p.Right
  named : ∀ c p o, s.place? c = some p → p.outlet = some o →
    (s.outlet o).channel = some c ∧ ((s.outlet o).state = .air ↔ p.state = .onAir ∨ p.state = .handingBack)
  before : s.locked = false → ∀ c p, s.place? c = some p → p.state = .detached

/-! ## The agreement and the invariant's words for it -/

theorem place?_some {s : State} {c : Channel} {ch : Chan} (h : s.chan? c = some ch) : s.place? c = some ch.place := by
  rw [State.place?, h]; rfl

theorem chan?_of_place? {s : State} {c : Channel} {p : Place} (h : s.place? c = some p) : ∃ ch, s.chan? c = some ch ∧ ch.place = p :=
  Option.map_eq_some_iff.1 h

/-- In a profile of distinct channels every record is the one found for its channel. -/
theorem chan?_of_mem {s : State} (hd : s.ChannelsDistinct) {ch : Chan} (h : ch ∈ s.chans) :
    s.chan? ch.part.channel = some ch := by
  unfold State.ChannelsDistinct at hd
  unfold State.chan?
  revert hd h
  generalize s.chans = l
  induction l with
  | nil => intro _ h; cases h
  | cons d rest ih =>
    intro hd h
    rw [List.map_cons, List.nodup_cons] at hd
    rw [List.find?_cons]
    rcases List.mem_cons.1 h with rfl | h
    · rw [beq_self_eq_true]
    · have hne : d.part.channel ≠ ch.part.channel := fun e => hd.1 (e ▸ List.mem_map.2 ⟨ch, h, rfl⟩)
      rw [beq_eq_false_iff_ne.2 hne]
      exact ih hd.2 h

theorem ne_none_of_map {α β : Type} (f : α → β) (x : Option α) : x.map f ≠ none ↔ x ≠ none := by cases x <;> simp

theorem isSome_iff_ne {α : Type} (x : Option α) : x.isSome = true ↔ x ≠ none := Option.isSome_iff_ne_none

/-- A record's place is right when its outlet is as R110 says and its run as R137 says. -/
theorem place_right_iff (ch : Chan) : ch.place.Right ↔ (ch.tk.outlet ≠ none ↔ ch.tk.state.hasOutlet) ∧ ch.RunRight := by
  have hrun : (∀ o, ch.place.run = some o → ch.place.outlet = some o) ↔ ∀ r, ch.run = some r → ch.tk.outlet = some r.outlet := by
    cases hr : ch.run <;> simp [Chan.place, hr]
  constructor
  · rintro ⟨h1, h2, h3, h4⟩
    exact ⟨h1, (ne_none_of_map _ _).symm.trans (h2.trans (holding_iff _)), hrun.1 h3, (isSome_iff_ne _).symm.trans h4⟩
  · rintro ⟨h1, h2, h3, h4⟩
    exact ⟨h1, (ne_none_of_map _ _).trans (h2.trans (holding_iff _).symm), hrun.2 h3, (isSome_iff_ne _).trans h4⟩

theorem agreed_iff (s : State) :
    s.Agreed ↔ s.ChannelsDistinct ∧ s.PlacesAgree ∧ s.RunsRight ∧ s.DetachedBeforeStart := by
  constructor
  · rintro ⟨hd, hserving, hserved, hright, hnamed, hbefore⟩
    have found : ∀ ch ∈ s.chans, s.place? ch.part.channel = some ch.place := fun ch h => place?_some (chan?_of_mem hd h)
    refine ⟨hd, ⟨hserving, fun o c hc => ?_, fun ch h => ?_, fun ch h o ho => ?_⟩, fun ch h => ?_, fun hl ch h => ?_⟩
    · obtain ⟨p, hp, ho⟩ := hserved o c hc
      obtain ⟨ch, hch, rfl⟩ := chan?_of_place? hp
      exact ⟨ch, hch, ho⟩
    · exact ((place_right_iff ch).1 (hright _ _ (found ch h))).1
    · exact hnamed _ _ o (found ch h) ho
    · exact ((place_right_iff ch).1 (hright _ _ (found ch h))).2
    · exact hbefore hl _ _ (found ch h)
  · rintro ⟨hd, ⟨hserving, hserved, hplaced, hnamed⟩, hruns, hbefore⟩
    refine ⟨hd, hserving, fun o c hc => ?_, fun c p hp => ?_, fun c p o hp ho => ?_, fun hl c p hp => ?_⟩
    · obtain ⟨ch, hch, ho⟩ := hserved o c hc
      exact ⟨_, place?_some hch, ho⟩
    all_goals obtain ⟨ch, hch, rfl⟩ := chan?_of_place? hp
    · exact (place_right_iff ch).2 ⟨hplaced ch (chan?_mem hch), hruns ch (chan?_mem hch)⟩
    · have := hnamed ch (chan?_mem hch) o ho
      rwa [chan?_channel hch] at this
    · exact hbefore hl ch (chan?_mem hch)

/-! ## What the agreement says of one channel -/

section Agreed

variable {s : State} (h : s.Agreed) {c : Channel} {ch : Chan} (hc : s.chan? c = some ch)
include h hc

theorem State.Agreed.rightAt : ch.place.Right := h.right c _ (place?_some hc)

/-- A held channel has its outlet and its run. -/
theorem State.Agreed.outletOf (hs : ch.tk.state.hasOutlet) : ∃ o, ch.tk.outlet = some o :=
  Option.ne_none_iff_exists'.1 ((h.rightAt hc).placed.2 hs)

theorem State.Agreed.namedAt {o : OutletNo} (ho : ch.tk.outlet = some o) :
    (s.outlet o).channel = some c ∧ ((s.outlet o).state = .air ↔ ch.tk.state = .onAir ∨ ch.tk.state = .handingBack) :=
  h.named c _ o (place?_some hc) ho

/-- The outlet a channel names is AIR where the channel is ON_AIR or HANDING_BACK, else RESERVED (R110, R153). -/
theorem State.Agreed.outletState {o : OutletNo} (ho : ch.tk.outlet = some o) :
    (s.outlet o).state = .reserved ∨ (s.outlet o).state = .air :=
  (h.serving o).1 (by rw [(h.namedAt hc ho).1]; nofun)

theorem State.Agreed.outletReserved {o : OutletNo} (ho : ch.tk.outlet = some o) (h1 : ch.tk.state ≠ .onAir)
    (h2 : ch.tk.state ≠ .handingBack) : (s.outlet o).state = .reserved :=
  (h.outletState hc ho).resolve_right fun ha => ((h.namedAt hc ho).2.1 ha).elim h1 h2

theorem State.Agreed.handingBack {x : Handback} (hx : ch.tk.handback = some x) : ch.tk.state = .handingBack :=
  (h.rightAt hc).handingBack.1 (by show ch.tk.handback.isSome = true; rw [hx]; rfl)

theorem State.Agreed.locked (hs : ch.tk.state ≠ .detached) : s.locked = true := by
  cases hl : s.locked with
  | true => rfl
  | false => exact absurd (h.before hl c _ (place?_some hc)) hs

end Agreed

/-! ## A change of one channel and its outlet -/

/-- `t` differs from `s` in the place of channel `c` at most, and in outlets that `c` named or names. -/
structure MovedAt (s t : State) (c : Channel) (p q : Place) : Prop where
  locked : t.locked = s.locked
  channels : t.chans.map (·.part.channel) = s.chans.map (·.part.channel)
  old : s.place? c = some p
  new : t.place? c = some q
  others : ∀ d, d ≠ c → t.place? d = s.place? d
  spared : ∀ o, p.outlet ≠ some o → q.outlet ≠ some o →
    (t.outlet o).channel = (s.outlet o).channel ∧ (t.outlet o).state = (s.outlet o).state
  left : ∀ o, p.outlet = some o → q.outlet ≠ some o →
    (t.outlet o).channel = none ∧ (t.outlet o).state ≠ .reserved ∧ (t.outlet o).state ≠ .air
  taken : ∀ o, q.outlet = some o → (p.outlet = some o ∨ (s.outlet o).channel = none) ∧ (t.outlet o).channel = some c ∧
    ((t.outlet o).state = .reserved ∨ (t.outlet o).state = .air) ∧
    ((t.outlet o).state = .air ↔ q.state = .onAir ∨ q.state = .handingBack)

/-- An outlet that a channel other than `c` names is not one that `c` names or takes. -/
theorem MovedAt.foreign {s t : State} {c : Channel} {p q : Place} (m : MovedAt s t c p q) (h : s.Agreed) {o : OutletNo} {d : Channel}
    (hd : (s.outlet o).channel = some d) (hne : d ≠ c) : p.outlet ≠ some o ∧ q.outlet ≠ some o := by
  have hp : p.outlet ≠ some o := fun ho => by
    have := (h.named c p o m.old ho).1
    rw [hd] at this
    exact hne (Option.some.inj this)
  refine ⟨hp, fun ho => ?_⟩
  rcases (m.taken o ho).1 with ho | ho
  · exact hp ho
  · rw [hd] at ho; cases ho

/-- Moving one channel from one right place to another keeps the agreement. -/
theorem State.Agreed.moved {s t : State} {c : Channel} {p q : Place} (h : s.Agreed) (m : MovedAt s t c p q) (hq : q.Right)
    (hs : p.state ≠ .detached) : t.Agreed where
  distinct := by unfold State.ChannelsDistinct; rw [m.channels]; exact h.distinct
  serving o := by
    by_cases hn : q.outlet = some o
    · obtain ⟨-, hc, hst, -⟩ := m.taken o hn
      exact iff_of_true (by rw [hc]; nofun) hst
    by_cases ho : p.outlet = some o
    · obtain ⟨hc, h1, h2⟩ := m.left o ho hn
      exact iff_of_false (not_not.2 hc) (not_or.2 ⟨h1, h2⟩)
    · obtain ⟨hc, hst⟩ := m.spared o ho hn
      rw [hc, hst]; exact h.serving o
  served o d hd := by
    by_cases hn : q.outlet = some o
    · obtain ⟨-, hc, -, -⟩ := m.taken o hn
      rw [hd] at hc; cases hc
      exact ⟨q, m.new, hn⟩
    by_cases ho : p.outlet = some o
    · rw [(m.left o ho hn).1] at hd; cases hd
    · rw [(m.spared o ho hn).1] at hd
      obtain ⟨x, hx, hxo⟩ := h.served o d hd
      have hne : d ≠ c := fun e => ho (by rw [e, m.old] at hx; cases hx; exact hxo)
      exact ⟨x, (m.others d hne).trans hx, hxo⟩
  right d x hx := by
    by_cases e : d = c
    · rw [e, m.new] at hx; cases hx; exact hq
    · exact h.right d x ((m.others d e).symm.trans hx)
  named d x o hx hxo := by
    by_cases e : d = c
    · rw [e, m.new] at hx; cases hx
      obtain ⟨-, hc, -, ha⟩ := m.taken o hxo
      exact ⟨e ▸ hc, ha⟩
    · have hn := h.named d x o ((m.others d e).symm.trans hx) hxo
      obtain ⟨hp, hq⟩ := m.foreign h hn.1 e
      obtain ⟨hc, hst⟩ := m.spared o hp hq
      rw [hc, hst]; exact hn
  before hl := absurd (h.before (m.locked ▸ hl) c p m.old) hs

/-! ## Operations that move no channel -/

/-- No channel and no outlet moves. -/
structure SamePlaces (s t : State) : Prop where
  locked : t.locked = s.locked
  channels : t.chans.map (·.part.channel) = s.chans.map (·.part.channel)
  place : ∀ c, t.place? c = s.place? c
  outlet : ∀ o, (t.outlet o).channel = (s.outlet o).channel ∧ (t.outlet o).state = (s.outlet o).state

theorem SamePlaces.refl (s : State) : SamePlaces s s := ⟨rfl, rfl, fun _ => rfl, fun _ => ⟨rfl, rfl⟩⟩

theorem SamePlaces.trans {s t u : State} (h : SamePlaces s t) (k : SamePlaces t u) : SamePlaces s u where
  locked := k.locked.trans h.locked
  channels := k.channels.trans h.channels
  place c := (k.place c).trans (h.place c)
  outlet o := ⟨(k.outlet o).1.trans (h.outlet o).1, (k.outlet o).2.trans (h.outlet o).2⟩

theorem State.Agreed.same {s t : State} (h : s.Agreed) (k : SamePlaces s t) : t.Agreed where
  distinct := by unfold State.ChannelsDistinct; rw [k.channels]; exact h.distinct
  serving o := by rw [(k.outlet o).1, (k.outlet o).2]; exact h.serving o
  served o c := by rw [(k.outlet o).1, k.place]; exact h.served o c
  right c p := by rw [k.place]; exact h.right c p
  named c p o := by rw [k.place, (k.outlet o).1, (k.outlet o).2]; exact h.named c p o
  before := by rw [k.locked]; intro hl c p; rw [k.place]; exact h.before hl c p

/-- A change outside the channels and the outlets moves nothing. -/
theorem samePlaces_of_eq {s t : State} (hl : t.locked = s.locked) (hc : t.chans = s.chans) (ho : t.outlets = s.outlets) :
    SamePlaces s t where
  locked := hl
  channels := by rw [hc]
  place c := by unfold State.place? State.chan?; rw [hc]
  outlet o := by unfold State.outlet; rw [ho]; exact ⟨rfl, rfl⟩

theorem modChan_channels (s : State) (c : Channel) (f : Chan → Chan) (hf : ∀ x : Chan, (f x).part.channel = x.part.channel) :
    (s.modChan c f).chans.map (·.part.channel) = s.chans.map (·.part.channel) := by
  unfold State.modChan
  simp only [List.map_map]
  refine List.map_congr_left fun x _ => ?_
  simp only [Function.comp]
  split
  · exact hf x
  · rfl

/-- Where a channel stands once its record is changed. -/
theorem place?_modChan {s : State} {c : Channel} {ch : Chan} (h : s.chan? c = some ch) (f : Chan → Chan)
    (hf : ∀ x : Chan, (f x).part.channel = x.part.channel) : (s.modChan c f).place? c = some (f ch).place := by
  rw [State.place?, chan?_modChan hf, h]; rfl

theorem place?_modChan_ne (s : State) {c d : Channel} (f : Chan → Chan) (hf : ∀ x : Chan, (f x).part.channel = x.part.channel)
    (hd : d ≠ c) : (s.modChan c f).place? d = s.place? d := by
  rw [State.place?, chan?_modChan_ne hf hd]; rfl

theorem same_modChan (s : State) (c : Channel) (f : Chan → Chan) (hf : ∀ x : Chan, (f x).part.channel = x.part.channel)
    (hp : ∀ x : Chan, (f x).place = x.place) : SamePlaces s (s.modChan c f) where
  locked := rfl
  channels := modChan_channels s c f hf
  place d := by
    by_cases e : d = c
    · subst e
      rw [State.place?, State.place?, chan?_modChan hf]
      cases s.chan? d with
      | none => rfl
      | some x => exact congrArg some (hp x)
    · exact place?_modChan_ne s f hf e
  outlet _ := ⟨rfl, rfl⟩

/-- A change of a takeover record but for its state, its outlet and whether it has handback fields. -/
theorem same_modTk (s : State) (c : Channel) (f : TakeoverRec → TakeoverRec)
    (hf : ∀ tk, (f tk).state = tk.state ∧ (f tk).outlet = tk.outlet ∧ (f tk).handback.isSome = tk.handback.isSome) :
    SamePlaces s (s.modTk c f) := by
  refine same_modChan s c _ (fun _ => rfl) fun x => ?_
  obtain ⟨h1, h2, h3⟩ := hf x.tk
  show Place.mk (f x.tk).state (f x.tk).outlet (f x.tk).handback.isSome _ = Place.mk _ _ _ _
  rw [h1, h2, h3]

/-- A change of a run record but for its outlet. -/
theorem same_modRun (s : State) (c : Channel) (f : RunRec → RunRec) (hf : ∀ r, (f r).outlet = r.outlet) :
    SamePlaces s (s.modRun c f) := by
  refine same_modChan s c _ (fun _ => rfl) fun x => ?_
  show Place.mk _ _ _ ((x.run.map f).map (·.outlet)) = Place.mk _ _ _ (x.run.map (·.outlet))
  cases x.run with
  | none => rfl
  | some r => exact congrArg (Place.mk _ _ _ ∘ some) (hf r)

theorem same_modOutlet (s : State) (o : OutletNo) (f : Outlet → Outlet)
    (hf : (f (s.outlet o)).channel = (s.outlet o).channel ∧ (f (s.outlet o)).state = (s.outlet o).state) :
    SamePlaces s (s.modOutlet o f) where
  locked := rfl
  channels := rfl
  place _ := rfl
  outlet p := by
    rw [outlet_modOutlet]
    split
    · rename_i e; rw [e]; exact hf
    · exact ⟨rfl, rfl⟩

theorem settleOrder_locked (s : State) (o : OutletNo) : (s.settleOrder o).locked = s.locked := by
  unfold State.settleOrder; repeat' split
  all_goals rfl

theorem same_settleOrder (s : State) (o : OutletNo) : SamePlaces s (s.settleOrder o) := by
  obtain ⟨-, ho, hc, -⟩ := settleOrder_keeps s o
  exact samePlaces_of_eq (settleOrder_locked s o) hc ho

theorem same_offerFrame (s : State) (f : Frame) : SamePlaces s (s.offerFrame f) := by
  rw [offerFrame_rest]; exact samePlaces_of_eq rfl rfl rfl

theorem same_raise (s : State) (cls : NoticeClass) (b : Byte) (d : NoticeCode) : SamePlaces s (s.raise cls b d) :=
  samePlaces_of_eq rfl rfl rfl

theorem same_offerRelease (s : State) (c : Channel) (k : Key) (r : ReleaseReason) : SamePlaces s (s.offerRelease c k r) := by
  unfold State.offerRelease; split
  · exact .refl s
  · exact same_offerFrame s _

theorem same_assertHold (s : State) (c : Channel) : SamePlaces s (s.assertHold c) := by
  unfold State.assertHold
  split
  · exact .refl s
  · split
    · exact .refl s
    · exact (same_offerFrame s _).trans (same_modTk _ _ _ fun _ => ⟨rfl, rfl, rfl⟩)

theorem same_setAwaitLive (s : State) (c : Channel) : SamePlaces s (s.setAwaitLive c) :=
  same_modChan s c _ (fun _ => rfl) fun _ => rfl

theorem same_writeAsRun (s : State) (a : AsRun) : SamePlaces s (s.writeAsRun a) := by
  obtain ⟨-, ho, -, -, hc, -⟩ := writeAsRun_changes s a
  exact samePlaces_of_eq (keeps_writeAsRun (Keeps.refl s) a).locked hc ho

theorem same_freeRecords (s : State) (rs : List EventRec) : SamePlaces s (s.freeRecords rs) := samePlaces_of_eq rfl rfl rfl

theorem same_resolveChan (s : State) (c : Channel) : SamePlaces s (s.resolveChan c) :=
  same_modChan s c _ (fun _ => rfl) fun _ => rfl

theorem same_pin (s : State) (c : Channel) (n : Nat) : SamePlaces s (s.pin c n) := same_modChan s c _ (fun _ => rfl) fun _ => rfl

theorem same_unpin (s : State) (c : Channel) (n : Nat) : SamePlaces s (s.unpin c n) := by
  unfold State.unpin
  split
  · exact .refl s
  · split
    · exact (same_freeRecords s _).trans (same_modChan _ c _ (fun _ => rfl) fun _ => rfl)
    · exact same_modChan s c _ (fun _ => rfl) fun _ => rfl

theorem same_unpinAll (c : Channel) (l : List Nat) : ∀ s : State, SamePlaces s (s.unpinAll c l) := by
  induction l with
  | nil => exact .refl
  | cons n l ih => exact fun s => (same_unpin s c n).trans (ih _)

theorem same_abandonFilling (s : State) (c : Channel) : SamePlaces s (s.abandonFilling c) := by
  unfold State.abandonFilling
  split
  · exact .refl s
  · exact (same_freeRecords s _).trans (same_modChan _ c _ (fun _ => rfl) fun _ => rfl)

theorem same_sweep (s : State) (c : Channel) : SamePlaces s (s.sweep c) := by
  unfold State.sweep
  split
  · exact .refl s
  · split
    · exact .refl s
    · exact (same_freeRecords s _).trans (same_modChan _ c _ (fun _ => rfl) fun _ => rfl)

theorem same_armYield (s : State) (c : Channel) : SamePlaces s (s.armYield c) := same_modTk s c _ fun _ => ⟨rfl, rfl, rfl⟩

/-! ## One channel leaves its outlet -/

/-- Channel `c` is leaving outlet `o`, which serves no channel any more; everything else is where it was (R154, R168). -/
structure LeftAt (s t : State) (c : Channel) (o : OutletNo) : Prop where
  locked : t.locked = s.locked
  channels : t.chans.map (·.part.channel) = s.chans.map (·.part.channel)
  others : ∀ d, d ≠ c → t.place? d = s.place? d
  spared : ∀ p, p ≠ o → (t.outlet p).channel = (s.outlet p).channel ∧ (t.outlet p).state = (s.outlet p).state
  freed : (t.outlet o).channel = none ∧ (t.outlet o).state ≠ .reserved ∧ (t.outlet o).state ≠ .air

section LeftAt

variable {s t u : State} {c : Channel} {o : OutletNo}

theorem LeftAt.same (h : LeftAt s t c o) (k : SamePlaces t u) : LeftAt s u c o where
  locked := k.locked.trans h.locked
  channels := k.channels.trans h.channels
  others d hd := (k.place d).trans (h.others d hd)
  spared p hp := ⟨(k.outlet p).1.trans (h.spared p hp).1, (k.outlet p).2.trans (h.spared p hp).2⟩
  freed := by rw [(k.outlet o).1, (k.outlet o).2]; exact h.freed

/-- Any change of the channel that leaves is free. -/
theorem LeftAt.modChan (h : LeftAt s t c o) (f : Chan → Chan) (hf : ∀ x : Chan, (f x).part.channel = x.part.channel) :
    LeftAt s (t.modChan c f) c o where
  locked := h.locked
  channels := (modChan_channels t c f hf).trans h.channels
  others d hd := (place?_modChan_ne t f hf hd).trans (h.others d hd)
  spared := h.spared
  freed := h.freed

theorem LeftAt.modTk (h : LeftAt s t c o) (f : TakeoverRec → TakeoverRec) : LeftAt s (t.modTk c f) c o :=
  h.modChan _ fun _ => rfl

/-- A change of the outlet that is left, where it still serves no channel after it. -/
theorem LeftAt.modOutlet (h : LeftAt s t c o) (f : Outlet → Outlet)
    (hf : (f (t.outlet o)).channel = none ∧ (f (t.outlet o)).state ≠ .reserved ∧ (f (t.outlet o)).state ≠ .air) :
    LeftAt s (t.modOutlet o f) c o where
  locked := h.locked
  channels := h.channels
  others := h.others
  spared p hp := by rw [outlet_modOutlet, if_neg hp]; exact h.spared p hp
  freed := by rw [outlet_modOutlet_self]; exact hf

/-- The outlet of a channel stops serving it. -/
theorem leftAt_modOutlet (s : State) (c : Channel) (o : OutletNo) (f : Outlet → Outlet)
    (hf : (f (s.outlet o)).channel = none ∧ (f (s.outlet o)).state ≠ .reserved ∧ (f (s.outlet o)).state ≠ .air) :
    LeftAt s (s.modOutlet o f) c o where
  locked := rfl
  channels := rfl
  others _ _ := rfl
  spared p hp := by rw [outlet_modOutlet, if_neg hp]; exact ⟨rfl, rfl⟩
  freed := by rw [outlet_modOutlet_self]; exact hf

theorem Place.Spare.right {q : Place} (hq : q.Spare) : q.Right := by
  obtain ⟨hs, ho, hb, hr⟩ := hq
  rcases hs with hs | ⟨r, hs⟩ | hs <;>
    exact ⟨by simp [ho, hs, TakeoverState.hasOutlet], by simp [hr, hs, TakeoverState.holding], by simp [hr], by simp [hb, hs]⟩

/-- A channel that has left its outlet for IDLE, BLOCKED or YIELDED keeps the agreement. -/
theorem State.Agreed.leaves (h : s.Agreed) {ch : Chan} (hc : s.chan? c = some ch) (ho : ch.tk.outlet = some o) (k : LeftAt s t c o)
    {q : Place} (hn : t.place? c = some q) (hq : q.Spare) : t.Agreed := by
  have hs : ch.tk.state ≠ .detached := fun e => by
    have := (h.rightAt hc).placed.1 (by show ch.tk.outlet ≠ none; rw [ho]; nofun)
    rw [show ch.place.state = .detached from e] at this
    exact absurd this (by unfold TakeoverState.hasOutlet; simp)
  refine h.moved ⟨k.locked, k.channels, place?_some hc, hn, k.others, fun p hp _ => ?_, fun p hp _ => ?_, fun p hp => ?_⟩ hq.right hs
  · exact k.spared p fun e => hp (by rw [e]; exact ho)
  · have e : p = o := by have := hp.symm.trans ho; exact Option.some.inj this
    rw [e]; exact k.freed
  · rw [hq.outlet] at hp; cases hp

end LeftAt

/-! ## Operations that keep the agreement and the place of what is held -/

/-- An operation keeps the agreement, and the place of every held channel. -/
structure KeepsPlaces (s t : State) : Prop where
  agreed : s.Agreed → t.Agreed
  held : ∀ c p, s.place? c = some p → p.state.holding = true → t.place? c = some p

theorem KeepsPlaces.refl (s : State) : KeepsPlaces s s := ⟨fun h => h, fun _ _ h _ => h⟩

theorem KeepsPlaces.trans {s t u : State} (h : KeepsPlaces s t) (k : KeepsPlaces t u) : KeepsPlaces s u :=
  ⟨fun x => k.agreed (h.agreed x), fun c p hp hh => k.held c p (h.held c p hp hh) hh⟩

theorem SamePlaces.keeps {s t : State} (h : SamePlaces s t) : KeepsPlaces s t :=
  ⟨fun x => x.same h, fun c _ hp _ => (h.place c).trans hp⟩

theorem KeepsPlaces.same {s t u : State} (h : KeepsPlaces s t) (k : SamePlaces t u) : KeepsPlaces s u := h.trans k.keeps

/-- What changes claims alone keeps the place of what is held, so it keeps places once it keeps the agreement (R108 to R115). -/
theorem State.ClaimsOnly.keepsPlaces {s t : State} (h : s.ClaimsOnly t) (ha : s.Agreed → t.Agreed) : KeepsPlaces s t := by
  refine ⟨ha, fun c p hp hh => ?_⟩
  obtain ⟨ch, hc, rfl⟩ := chan?_of_place? hp
  exact place?_some (h.held c ch hc (Or.inl hh))

section Places

variable {s0 s : State} (h : KeepsPlaces s0 s)
include h

theorem places_modTk (c : Channel) (f : TakeoverRec → TakeoverRec)
    (hf : ∀ tk, (f tk).state = tk.state ∧ (f tk).outlet = tk.outlet ∧ (f tk).handback.isSome = tk.handback.isSome := by
      exact fun _ => ⟨rfl, rfl, rfl⟩) :
    KeepsPlaces s0 (s.modTk c f) := h.same (same_modTk s c f hf)

theorem places_modMirror (c : Channel) (f : MirrorRec → MirrorRec) : KeepsPlaces s0 (s.modMirror c f) :=
  h.same (same_modChan s c _ (fun _ => rfl) fun _ => rfl)

theorem places_modWatch (c : Channel) (f : WatchRec → WatchRec) : KeepsPlaces s0 (s.modWatch c f) :=
  h.same (same_modChan s c _ (fun _ => rfl) fun _ => rfl)

theorem places_modRun (c : Channel) (f : RunRec → RunRec) (hf : ∀ r, (f r).outlet = r.outlet := by exact fun _ => rfl) :
    KeepsPlaces s0 (s.modRun c f) := h.same (same_modRun s c f hf)

theorem places_modOutlet (o : OutletNo) (f : Outlet → Outlet)
    (hf : (f (s.outlet o)).channel = (s.outlet o).channel ∧ (f (s.outlet o)).state = (s.outlet o).state := by
      exact ⟨rfl, rfl⟩) :
    KeepsPlaces s0 (s.modOutlet o f) := h.same (same_modOutlet s o f hf)

theorem places_settleOrder (o : OutletNo) : KeepsPlaces s0 (s.settleOrder o) := h.same (same_settleOrder s o)

theorem places_offerFrame (f : Frame) : KeepsPlaces s0 (s.offerFrame f) := h.same (same_offerFrame s f)

theorem places_offerClaim (c : Channel) (k : Key) : KeepsPlaces s0 (s.offerClaim c k) := places_offerFrame h _

theorem places_raise (cls : NoticeClass) (b : Byte) (d : NoticeCode) : KeepsPlaces s0 (s.raise cls b d) :=
  h.same (same_raise s cls b d)

theorem places_assertHold (c : Channel) : KeepsPlaces s0 (s.assertHold c) := h.same (same_assertHold s c)

theorem places_writeAsRun (a : AsRun) : KeepsPlaces s0 (s.writeAsRun a) := h.same (same_writeAsRun s a)

theorem places_abandonFilling (c : Channel) : KeepsPlaces s0 (s.abandonFilling c) := h.same (same_abandonFilling s c)

end Places

end Sys2Proof.Machine
end

section
/-! SUPPORT. The operations of the takeover unit and of the mirror keep the places of channels (R108 to R118, R24). -/

namespace Sys2Proof.Machine

variable {s0 s : State}

/-! ## Leaving and entering CONTENDING -/

/-- A takeover state in which a channel has neither outlet nor run. -/
def TakeoverState.Spare (st : TakeoverState) : Prop := st = .idle ∨ (∃ r, st = .blocked r) ∨ st = .yielded

theorem leftAt_unreserve {o : OutletNo} (hr : (s.outlet o).state = .reserved) (c : Channel) : LeftAt s (s.unreserve o) c o := by
  rw [unreserve_eq, if_pos hr]
  exact leftAt_modOutlet s c o _ ⟨rfl, nofun, nofun⟩

theorem same_withdrawClaim (s : State) (c : Channel) : SamePlaces s (s.withdrawClaim c) := samePlaces_of_eq rfl rfl rfl

/-- The right places of a channel in CONTENDING. -/
theorem State.Agreed.contendingAt (h : s.Agreed) {c : Channel} {ch : Chan} (hc : s.chan? c = some ch)
    (hs : ch.tk.state = .contending) :
    (∃ o, ch.tk.outlet = some o ∧ (s.outlet o).state = .reserved) ∧ ch.run = none ∧ ch.tk.handback = none := by
  obtain ⟨o, ho⟩ := h.outletOf hc (Or.inl hs)
  have hr := h.rightAt hc
  have hp : ch.place.state = .contending := hs
  refine ⟨⟨o, ho, h.outletReserved hc ho (by rw [hs]; nofun) (by rw [hs]; nofun)⟩, ?_, ?_⟩
  · refine not_not.1 fun hn => ?_
    have := hr.running.1 ((ne_none_of_map _ _).2 hn)
    rw [hp] at this; cases this
  · refine not_not.1 fun hn => ?_
    have := hr.handingBack.1 ((isSome_iff_ne _).2 hn)
    rw [hp] at this; cases this

/-- A channel that leaves CONTENDING gives its outlet up (R110, R114, R115). -/
theorem agreed_leaveContending (h : s.Agreed) {c : Channel} {ch : Chan} (hc : s.chan? c = some ch)
    (hs : ch.tk.state = .contending) {n : TakeoverState} (hn : n.Spare) : (s.leaveContending c n).Agreed := by
  obtain ⟨⟨o, ho, hres⟩, hrun, hhb⟩ := h.contendingAt hc hs
  have hl : LeftAt s (s.leaveContending c n) c o := by
    unfold State.leaveContending
    rw [hc]
    dsimp only
    rw [ho]
    have hw := same_withdrawClaim s c
    refine LeftAt.modTk (t := (s.withdrawClaim c).unreserve o) ?_ _
    have hu := leftAt_unreserve (s := s.withdrawClaim c) (o := o) hres c
    exact ⟨hu.locked.trans hw.locked, hu.channels.trans hw.channels, hu.others, hu.spared, hu.freed⟩
  have hnew : (s.leaveContending c n).place? c = some ⟨n, none, ch.tk.handback.isSome, ch.run.map (·.outlet)⟩ := by
    rw [State.place?, leaveContending_chan?, hc]; rfl
  refine h.leaves hc ho hl hnew ⟨hn, rfl, ?_, ?_⟩
  · show ch.tk.handback.isSome = false; rw [hhb]; rfl
  · show ch.run.map (·.outlet) = none; rw [hrun]; rfl

theorem same_offerClaim (s : State) (c : Channel) (k : Key) : SamePlaces s (s.offerClaim c k) := same_offerFrame s _

/-- A channel in IDLE, BLOCKED or YIELDED has neither outlet nor run. -/
theorem State.Agreed.spareAt (h : s.Agreed) {c : Channel} {ch : Chan} (hc : s.chan? c = some ch) (hs : ch.tk.state.Spare) :
    ch.place.Spare := by
  have hr := h.rightAt hc
  have hno : ¬ ch.tk.state.hasOutlet ∧ ch.tk.state.holding = false ∧ ch.tk.state ≠ .handingBack := by
    rcases hs with hs | ⟨r, hs⟩ | hs <;> rw [hs] <;> simp [TakeoverState.hasOutlet, TakeoverState.holding]
  refine ⟨hs, not_not.1 fun hn => hno.1 (hr.placed.1 hn), Bool.eq_false_iff.2 fun hn => hno.2.2 (hr.handingBack.1 hn),
    not_not.1 fun hn => ?_⟩
  have := hr.running.1 hn
  rw [show ch.place.state.holding = false from hno.2.1] at this
  cases this

theorem checked_spare {st : TakeoverState} (h : st.checked = true) : st.Spare := by
  cases st with
  | idle => exact Or.inl rfl
  | blocked r => exact Or.inr (Or.inl ⟨r, rfl⟩)
  | _ => cases h

/-- A channel goes from one of IDLE, BLOCKED and YIELDED to another. -/
theorem State.Agreed.spare (h : s.Agreed) {c : Channel} {ch : Chan} (hc : s.chan? c = some ch) (hs : ch.tk.state.Spare)
    {f : TakeoverRec → TakeoverRec} (hf : (f ch.tk).outlet = ch.tk.outlet ∧ (f ch.tk).handback = ch.tk.handback)
    (hfs : (f ch.tk).state.Spare) : (s.modTk c f).Agreed := by
  have hp := h.spareAt hc hs
  have hq : Place.Spare ⟨(f ch.tk).state, (f ch.tk).outlet, (f ch.tk).handback.isSome, ch.run.map (·.outlet)⟩ :=
    ⟨hfs, hf.1.trans hp.outlet, (congrArg Option.isSome hf.2).trans hp.handback, hp.run⟩
  refine h.moved ⟨rfl, modChan_channels s c _ fun _ => rfl, place?_some hc, place?_modChan hc _ fun _ => rfl,
    fun d hd => place?_modChan_ne s _ (fun _ => rfl) hd, fun _ _ _ => ⟨rfl, rfl⟩, fun o ho => ?_, fun o ho => ?_⟩ hq.right ?_
  · rw [hp.outlet] at ho; cases ho
  · exact absurd (hq.outlet.symm.trans ho) nofun
  · show ch.tk.state ≠ .detached
    rcases hs with hs | ⟨r, hs⟩ | hs <;> rw [hs] <;> nofun

/-- A channel that enters CONTENDING takes a FREE outlet (R110). -/
theorem agreed_reserve (h : s.Agreed) {c : Channel} {ch : Chan} (hc : s.chan? c = some ch) (hs : ch.tk.state.checked = true)
    {o : OutletNo} (ho : (s.outlet o).state = .free) (f : TakeoverRec → TakeoverRec)
    (hf : (f ch.tk).state = .contending ∧ (f ch.tk).outlet = some o ∧ (f ch.tk).handback = ch.tk.handback) :
    ((s.reserveOutlet o c).modTk c f).Agreed := by
  have hp := h.spareAt hc (checked_spare hs)
  have hfree : (s.outlet o).channel = none := not_not.1 fun hn => by
    rcases (h.serving o).1 hn with e | e <;> rw [ho] at e <;> cases e
  have hout : ∀ p, ((s.reserveOutlet o c).modTk c f).outlet p =
      if p = o then { s.outlet o with state := .reserved, channel := some c } else s.outlet p :=
    fun p => outlet_modOutlet s o p (fun x => { x with state := .reserved, channel := some c })
  have hq : (⟨(f ch.tk).state, (f ch.tk).outlet, (f ch.tk).handback.isSome, ch.run.map (·.outlet)⟩ : Place) =
      ⟨.contending, some o, false, none⟩ := by
    rw [hf.1, hf.2.1, hf.2.2]
    exact congrArg₂ (Place.mk _ _) hp.handback hp.run
  refine h.moved (c := c) (p := ch.place) (q := ⟨.contending, some o, false, none⟩) ⟨rfl,
    modChan_channels (s.reserveOutlet o c) c _ fun _ => rfl, place?_some hc, ?_,
    fun d hd => place?_modChan_ne (s.reserveOutlet o c) _ (fun _ => rfl) hd, fun p _ hn => ?_, fun p hpo _ => ?_, fun p hn => ?_⟩ ?_ ?_
  · rw [← hq]
    exact place?_modChan (s := s.reserveOutlet o c) hc _ fun _ => rfl
  · rw [hout, if_neg fun e => hn (congrArg some e.symm)]; exact ⟨rfl, rfl⟩
  · rw [hp.outlet] at hpo; cases hpo
  · cases hn
    rw [hout, if_pos rfl]
    exact ⟨Or.inr hfree, rfl, Or.inl rfl, iff_of_false nofun nofun⟩
  · exact ⟨by simp [TakeoverState.hasOutlet], by simp [TakeoverState.holding], by simp, by simp⟩
  · intro e
    rw [show ch.tk.state = .detached from e] at hs
    cases hs

theorem agreed_enterContending (h : s.Agreed) {ch : Chan} (hc : s.chan? ch.part.channel = some ch)
    (hs : ch.tk.state.checked = true) {o : OutletNo} (ho : (s.outlet o).state = .free) (k : Key) :
    (s.enterContending ch o k).1.Agreed := by
  have ha := agreed_reserve h hc hs ho (fun tk =>
    { tk with state := .contending, outlet := some o, ownClaim := some k, claimSent := false, windowEnd := none }) ⟨rfl, rfl, rfl⟩
  unfold State.enterContending
  dsimp only
  split
  · refine (agreed_leaveContending ha (modTk_get (s.reserveOutlet o ch.part.channel) hc _) rfl (Or.inr (Or.inr rfl))).same ?_
    exact same_armYield _ _
  · exact ha.same (same_offerClaim _ _ _)

/-! ## Checks, passes and re-keying -/

theorem agreed_checkChannel (h : s.Agreed) (c : Channel) : (s.checkChannel c).1.Agreed := by
  cases hc : s.chan? c with
  | none => unfold State.checkChannel; rw [hc]; exact h
  | some ch =>
    cases hk : ch.tk.state.checked with
    | false => unfold State.checkChannel; rw [hc]; dsimp only; rw [hk]; exact h
    | true =>
      have hspare := checked_spare hk
      rw [checkChannel_eq hc (by rw [hk]; nofun)]
      split
      · dsimp only; exact h.spare hc hspare ⟨rfl, rfl⟩ (Or.inl rfl)
      · dsimp only; exact h.spare hc hspare ⟨rfl, rfl⟩ (Or.inr (Or.inl ⟨_, rfl⟩))
      · dsimp only; exact h.spare hc hspare ⟨rfl, rfl⟩ (Or.inr (Or.inr rfl))
      · rename_i ho
        have hcc : s.chan? ch.part.channel = some ch := by rw [chan?_channel hc]; exact hc
        exact agreed_enterContending h hcc hk (freeOutlet_free (checkOutcome_contend ho)) _

theorem keepsPlaces_checkChannel (s : State) (c : Channel) : KeepsPlaces s (s.checkChannel c).1 :=
  (claimsOnly_checkChannel s c).keepsPlaces (fun h => agreed_checkChannel h c)

theorem keepsPlaces_checkAll (l : List Channel) : ∀ s : State, KeepsPlaces s (s.checkAll l).1 := by
  induction l with
  | nil => exact .refl
  | cons c rest ih => exact fun s => (keepsPlaces_checkChannel s c).trans (ih _)

theorem keepsPlaces_passes (n : Nat) : ∀ s : State, KeepsPlaces s (State.passes n s) := by
  induction n with
  | zero => exact .refl
  | succ n ih =>
    intro s
    have h1 := keepsPlaces_checkAll s.passOrder s
    unfold State.passes
    dsimp only
    split
    · exact h1.trans (ih _)
    · exact h1

theorem places_pass (h : KeepsPlaces s0 s) : KeepsPlaces s0 s.pass := h.trans (keepsPlaces_passes _ s)

theorem places_check (h : KeepsPlaces s0 s) (c : Channel) : KeepsPlaces s0 (s.check c) := by
  have h1 := h.trans (keepsPlaces_checkChannel s c)
  unfold State.check
  dsimp only
  split
  · exact places_pass h1
  · exact h1

theorem agreed_yield (h : s.Agreed) {c : Channel} {ch : Chan} (hc : s.chan? c = some ch) (hs : ch.tk.state = .contending) :
    ((s.leaveContending c .yielded).armYield c).Agreed :=
  (agreed_leaveContending h hc hs (Or.inr (Or.inr rfl))).same (same_armYield _ _)

theorem agreed_rekeyOne (h : s.Agreed) (c : Channel) : (s.rekeyOne c).1.Agreed := by
  unfold State.rekeyOne
  split
  · exact h
  · rename_i ch hc
    split
    · exact h
    · rename_i hk
      have hs : ch.tk.state = .contending := (contending_iff ch).1 (by simpa using hk)
      split
      · exact h
      · split
        · exact h
        · split
          · exact agreed_yield h hc hs
          · dsimp only
            exact (places_offerClaim (places_modTk (.refl s) _ _) _ _).agreed h

theorem keepsPlaces_rekeyOne (s : State) (c : Channel) : KeepsPlaces s (s.rekeyOne c).1 :=
  (claimsOnly_rekeyOne s c).keepsPlaces (fun h => agreed_rekeyOne h c)

theorem keepsPlaces_rekeyAll (l : List Channel) : ∀ s : State, KeepsPlaces s (s.rekeyAll l).1 := by
  induction l with
  | nil => exact .refl
  | cons c rest ih => exact fun s => (keepsPlaces_rekeyOne s c).trans (ih _)

theorem places_timeClassChanged (h : KeepsPlaces s0 s) : KeepsPlaces s0 s.timeClassChanged := by
  have h1 := h.trans (keepsPlaces_rekeyAll s.passOrder s)
  unfold State.timeClassChanged
  dsimp only
  split
  · exact places_pass h1
  · exact h1

theorem places_conditionChanged (h : KeepsPlaces s0 s) (c : Channel) : KeepsPlaces s0 (s.conditionChanged c) := by
  have h1 := h.trans (keepsPlaces_rekeyOne s c)
  unfold State.conditionChanged
  split
  · exact h
  · split
    · dsimp only
      split
      · exact places_pass h1
      · exact h1
    · exact places_check h c

theorem agreed_leaveAllContending (l : List Channel) : ∀ {s : State}, s.Agreed → (s.leaveAllContending l).Agreed := by
  induction l with
  | nil => exact fun h => h
  | cons c rest ih =>
    intro s h
    refine ih ?_
    split
    · rename_i ch hc
      split
      · rename_i hk
        exact agreed_leaveContending h hc ((contending_iff ch).1 hk) (Or.inl rfl)
      · exact h
    · exact h

theorem places_busLeftActive (h : KeepsPlaces s0 s) : KeepsPlaces s0 s.busLeftActive :=
  places_pass (h.trans ((claimsOnly_leaveAllContending _ s).keepsPlaces (agreed_leaveAllContending _)))

/-- A YIELDED channel leaves for IDLE and is checked (R117). -/
theorem places_leaveYielded (h : KeepsPlaces s0 s) {c : Channel} {ch : Chan} (hc : s.chan? c = some ch)
    (hs : ch.tk.state = .yielded) : KeepsPlaces s0 (s.leaveYielded c) := by
  refine h.trans ((claimsOnly_leaveYielded s c fun x hx => ?_).keepsPlaces fun ha => ?_)
  · rw [hc] at hx; cases hx; exact hs
  · exact (places_check (.refl _) c).agreed
      (ha.spare hc (Or.inr (Or.inr hs)) ⟨rfl, rfl⟩ (Or.inl rfl))

theorem places_holderGone (h : KeepsPlaces s0 s) (c : Channel) : KeepsPlaces s0 (s.holderGone c) := by
  unfold State.holderGone
  split
  · exact h
  · rename_i ch hc
    split
    · rename_i hs
      exact places_leaveYielded h hc hs
    · exact places_check h c

/-! ## Mirror -/

theorem places_setCondition (h : KeepsPlaces s0 s) (c : Channel) (f : Condition → Condition) :
    KeepsPlaces s0 (s.setCondition c f) := by
  unfold State.setCondition
  split
  · exact h
  · dsimp only
    split
    · exact h
    · refine places_conditionChanged ?_ c
      split
      · exact places_raise (places_modMirror h _ _) _ _ _
      · exact places_modMirror h _ _

theorem places_markStale (h : KeepsPlaces s0 s) (c : Channel) : KeepsPlaces s0 (s.markStale c) := places_setCondition h c _

theorem places_markShort (h : KeepsPlaces s0 s) (c : Channel) : KeepsPlaces s0 (s.markShort c) := places_setCondition h c _

theorem places_makeCurrent (h : KeepsPlaces s0 s) (c : Channel) : KeepsPlaces s0 (s.makeCurrent c) := places_setCondition h c _

theorem places_driftCheck (h : KeepsPlaces s0 s) (c : Channel) (v : Version) (e : EventId) :
    KeepsPlaces s0 (s.driftCheck c v e) := by
  unfold State.driftCheck
  split
  · exact h
  · split
    · exact places_markStale h c
    · exact h

theorem places_serve (h : KeepsPlaces s0 s) (r : MirrorReq) : KeepsPlaces s0 (s.serve r) := by
  cases r with
  | drift c v e => exact places_driftCheck h c v e
  | sweep c => exact h.same (same_sweep s c)

theorem same_reqs (s : State) (l : List MirrorReq) : SamePlaces s { s with mirrorReqs := l } := samePlaces_of_eq rfl rfl rfl

theorem places_serveThrough (p : MirrorReq → Bool) (l : List MirrorReq) :
    ∀ {s : State}, KeepsPlaces s0 s → KeepsPlaces s0 (State.serveThrough p l s) := by
  induction l with
  | nil => exact fun h => h
  | cons r rest ih =>
    intro s h
    have h1 := places_serve (h.same (same_reqs s rest)) r
    unfold State.serveThrough
    dsimp only
    split
    · exact h1
    · exact ih h1

theorem places_serveAll (h : KeepsPlaces s0 s) : KeepsPlaces s0 s.serveAll := places_serveThrough _ _ h

theorem places_mirrorTurn (h : KeepsPlaces s0 s) (c : Channel) : KeepsPlaces s0 (s.mirrorTurn c) := by
  unfold State.mirrorTurn
  split
  · exact places_serveAll h
  · exact h

theorem places_outletTurn (h : KeepsPlaces s0 s) (o : OutletNo) : KeepsPlaces s0 (s.outletTurn o) := by
  unfold State.outletTurn
  split
  · exact h
  · exact places_mirrorTurn h _

/-- Once the mirror has had its turn a held channel is still found, with its takeover record as it was (R18). -/
theorem mirrorTurn_tk {c : Channel} {ch : Chan} (hc : s.chan? c = some ch) (hs : ch.tk.state.holding = true) :
    ∃ x, (s.mirrorTurn c).chan? c = some x ∧ x.tk = ch.tk := by
  unfold State.mirrorTurn
  split
  · exact (serveAll_served s).held c ch hc (Or.inl hs)
  · exact ⟨ch, hc, rfl⟩

end Sys2Proof.Machine
end

section
/-! SUPPORT. The operations of the outlet controller and of the runner keep the places of channels, and what a join failure and the end
of air leave of the agreement (R122, R123, R137, R150, R154, R162, R164, R168). -/

namespace Sys2Proof.Machine

variable {s0 s t : State} {c : Channel} {o : OutletNo}

/-! ## An outlet that serves no channel -/

/-- A change of an outlet that served no channel and serves none after it. -/
theorem State.Agreed.unserved (h : s.Agreed) (hl : t.locked = s.locked) (hc : t.chans = s.chans)
    (hb : (s.outlet o).channel = none)
    (ho : (t.outlet o).channel = none ∧ (t.outlet o).state ≠ .reserved ∧ (t.outlet o).state ≠ .air)
    (hp : ∀ p, p ≠ o → t.outlet p = s.outlet p) : t.Agreed where
  distinct := by unfold State.ChannelsDistinct; rw [hc]; exact h.distinct
  serving p := by
    by_cases e : p = o
    · rw [e]; exact iff_of_false (not_not.2 ho.1) (not_or.2 ho.2)
    · rw [hp p e]; exact h.serving p
  served p d hd := by
    by_cases e : p = o
    · rw [e, ho.1] at hd; cases hd
    · rw [hp p e] at hd
      have := h.served p d hd
      unfold State.place? State.chan? at this ⊢
      rw [hc]; exact this
  right d p := by unfold State.place? State.chan?; rw [hc]; exact h.right d p
  named d p q hd hq := by
    have hs : s.place? d = some p := by unfold State.place? State.chan? at hd ⊢; rw [← hc]; exact hd
    have hn := h.named d p q hs hq
    by_cases e : q = o
    · rw [e, hb] at hn; cases hn.1
    · rw [hp q e]; exact hn
  before := by rw [hl]; intro hf d p; unfold State.place? State.chan?; rw [hc]; exact h.before hf d p

theorem keepsPlaces_unserved (hl : t.locked = s.locked) (hc : t.chans = s.chans)
    (hst : (s.outlet o).state ≠ .reserved ∧ (s.outlet o).state ≠ .air)
    (ho : (s.outlet o).channel = none → (t.outlet o).channel = none ∧ (t.outlet o).state ≠ .reserved ∧ (t.outlet o).state ≠ .air)
    (hp : ∀ p, p ≠ o → t.outlet p = s.outlet p) : KeepsPlaces s t := by
  refine ⟨fun h => ?_, fun d p hd _ => by unfold State.place? State.chan? at hd ⊢; rw [hc]; exact hd⟩
  have hb : (s.outlet o).channel = none := not_not.1 fun hn => not_or.2 hst ((h.serving o).1 hn)
  exact h.unserved hl hc hb (ho hb) hp

/-- The outlets after one is changed and its standing in the send order brought up to date. -/
theorem settled_outlet (s : State) (o p : OutletNo) (f : Outlet → Outlet) :
    ((s.modOutlet o f).settleOrder o).outlet p = if p = o then f (s.outlet o) else s.outlet p := by
  rw [settleOrder_outlet, outlet_modOutlet]

theorem settled_chans (s : State) (o : OutletNo) (f : Outlet → Outlet) : ((s.modOutlet o f).settleOrder o).chans = s.chans :=
  (settleOrder_keeps _ o).2.2.1

theorem faultOutlet_outlet (s : State) (o p : OutletNo) (k : CmdKind) (f : Failure) : (s.faultOutlet o k f).outlet p =
    if p = o then { s.outlet o with
      state := .faulted, channel := none, air := false, queue := [], awaiting := []
      outstanding := orphan (s.outlet o).outstanding, armed := none, fault := some (k, f) } else s.outlet p :=
  settled_outlet s o p _

theorem leftAt_settled (f : Outlet → Outlet)
    (hf : (f (s.outlet o)).channel = none ∧ (f (s.outlet o)).state ≠ .reserved ∧ (f (s.outlet o)).state ≠ .air) :
    LeftAt s ((s.modOutlet o f).settleOrder o) c o := (leftAt_modOutlet s c o f hf).same (same_settleOrder _ _)

theorem leftAt_faultOutlet (k : CmdKind) (f : Failure) : LeftAt s (s.faultOutlet o k f) c o :=
  leftAt_settled _ ⟨rfl, nofun, nofun⟩

theorem leftAt_toStopping (spare : Cmd → Bool) : LeftAt s (s.toStopping o spare) c o :=
  leftAt_settled _ ⟨rfl, nofun, nofun⟩

theorem LeftAt.settled (h : LeftAt s t c o) (f : Outlet → Outlet)
    (hf : (f (t.outlet o)).channel = none ∧ (f (t.outlet o)).state ≠ .reserved ∧ (f (t.outlet o)).state ≠ .air) :
    LeftAt s ((t.modOutlet o f).settleOrder o) c o := (h.modOutlet f hf).same (same_settleOrder _ _)

theorem LeftAt.faultOutlet (h : LeftAt s t c o) (k : CmdKind) (f : Failure) : LeftAt s (t.faultOutlet o k f) c o :=
  h.settled _ ⟨rfl, nofun, nofun⟩

/-! ## Commands -/

/-- A PREP with the join mark: the command whose failure is a join failure (R123, R164). -/
def Cmd.joins : Cmd → Bool
  | .prep p => p.join
  | _ => false

theorem same_setOutcome (s : State) (o : OutletNo) (x : StopOutcome) :
    SamePlaces s (s.modOutlet o (fun y => { y with armed := y.armed.map (fun a => { a with outcome := x }) })) :=
  same_modOutlet s o _ ⟨rfl, rfl⟩

theorem places_stopFailed (h : KeepsPlaces s0 s) (o : OutletNo) (f : Failure) : KeepsPlaces s0 (s.stopFailed o f) := by
  have h1 := h.same (same_setOutcome s o (.failed f))
  unfold State.stopFailed
  dsimp only
  split
  · rename_i hs
    refine h1.trans (keepsPlaces_unserved (o := o) ?_ (settled_chans _ _ _) ?_ (fun _ => ?_) fun p hp => ?_)
    · exact settleOrder_locked _ _
    · rw [hs]; exact ⟨nofun, nofun⟩
    · rw [faultOutlet_outlet, if_pos rfl]; exact ⟨rfl, nofun, nofun⟩
    · rw [faultOutlet_outlet, if_neg hp]
  · exact h1

theorem LeftAt.stopFailed (h : LeftAt s t c o) (f : Failure) : LeftAt s (t.stopFailed o f) c o := by
  have h1 := h.same (same_setOutcome t o (.failed f))
  unfold State.stopFailed
  dsimp only
  split
  · exact h1.faultOutlet _ _
  · exact h1

/-- A failure that is no join failure moves no held channel (R164). -/
theorem places_failCmd (h : KeepsPlaces s0 s) (o : OutletNo) {cmd : Cmd} (hj : cmd.joins = false) (orphaned : Bool) (f : Failure) :
    KeepsPlaces s0 (s.failCmd o cmd orphaned f) := by
  have h1 := places_raise h .cueFault (outletByte o) (.cueFault (cmdKind cmd) f)
  unfold State.failCmd
  dsimp only
  split
  · exact h1
  · split
    · exact h1
    · split
      · exact places_stopFailed h1 _ _
      · exact h1
    · rename_i p
      split
      · exact h1
      · split
        · rename_i hc
          exact absurd (hc.2.symm.trans (show p.join = false from hj)) nofun
        · exact h1.same (samePlaces_of_eq rfl rfl rfl)

theorem places_offerCmd (h : KeepsPlaces s0 s) (o : OutletNo) {cmd : Cmd} (hj : cmd.joins = false) :
    KeepsPlaces s0 (s.offerCmd o cmd) := by
  unfold State.offerCmd
  dsimp only
  split
  · exact h
  · split
    · exact places_settleOrder (places_modOutlet h o _) o
    · exact places_failCmd h o hj _ _

theorem LeftAt.offerStop (h : LeftAt s t c o) (at_ : Time) (d : Bool) : LeftAt s (t.offerCmd o (.stop at_ d)) c o := by
  unfold State.offerCmd
  dsimp only
  split
  · exact h
  · split
    · exact h.same ((same_modOutlet t o (fun x => { x with queue := x.queue ++ [.stop at_ d] }) ⟨rfl, rfl⟩).trans
        (same_settleOrder _ o))
    · have h1 := h.same (same_raise t .cueFault (outletByte o) (.cueFault .stop .missed))
      unfold State.failCmd
      dsimp only
      rw [if_neg nofun]
      split
      · exact h1.stopFailed _
      · exact h1

theorem places_requestStop (h : KeepsPlaces s0 s) (o : OutletNo) (t : Time) : KeepsPlaces s0 (s.requestStop o t) := by
  have h1 := places_modOutlet h o (fun x =>
    { x with armed := some { at_ := t, outcome := .pending }
             outstanding := x.outstanding.map (fun u => { u with cmd := u.cmd.undecide }) })
  unfold State.requestStop
  dsimp only
  split
  · exact places_modOutlet h1 o _
  · exact places_offerCmd h1 o rfl

theorem LeftAt.requestStop (h : LeftAt s t c o) (at_ : Time) : LeftAt s (t.requestStop o at_) c o := by
  have h1 := h.same (same_modOutlet t o (fun x =>
    { x with armed := some { at_ := at_, outcome := .pending }
             outstanding := x.outstanding.map (fun u => { u with cmd := u.cmd.undecide }) }) ⟨rfl, rfl⟩)
  unfold State.requestStop
  dsimp only
  split
  · exact h1.same (same_modOutlet _ o _ ⟨rfl, rfl⟩)
  · exact h1.offerStop _ _

theorem places_withdrawStop (h : KeepsPlaces s0 s) (o : OutletNo) : KeepsPlaces s0 (s.withdrawStop o) :=
  places_settleOrder (places_modOutlet h o _) o

/-- A stop now takes the outlet from its channel (R168). -/
theorem leftAt_stopNow (hs : (s.outlet o).state = .reserved ∨ (s.outlet o).state = .air) : LeftAt s (s.stopNow o) c o := by
  unfold State.stopNow
  rcases hs with hs | hs <;> rw [hs] <;> exact (leftAt_toStopping _).requestStop _

/-- So does an end of air (R168, R178). -/
theorem leftAt_endOfAir (hs : (s.outlet o).state = .air) : LeftAt s (s.endOfAir o).1 c o := by
  have h1 : LeftAt s (s.toStopping o Cmd.isDeciding) c o := leftAt_toStopping _
  unfold State.endOfAir
  rw [if_pos hs]
  dsimp only
  split
  · exact h1.requestStop _
  · split
    · exact h1.faultOutlet _ _
    · exact h1
    · split
      · exact h1.modOutlet (fun x => { x with state := .free, armed := none }) ⟨h1.freed.1, nofun, nofun⟩
      · exact h1

/-- A STOPPING outlet becomes FREE, and a pass runs (R154, R162). -/
theorem places_freeStopped (h : KeepsPlaces s0 s) (hs : (s.outlet o).state = .stopping) : KeepsPlaces s0 (s.freeStopped o) := by
  refine places_pass (h.trans (keepsPlaces_unserved (o := o) rfl rfl (by rw [hs]; exact ⟨nofun, nofun⟩) (fun hb => ?_) fun p hp => ?_))
  · rw [outlet_modOutlet_self]; exact ⟨hb, nofun, nofun⟩
  · rw [outlet_modOutlet, if_neg hp]

/-! ## The end of a run -/

theorem LeftAt.closeRun (h : LeftAt s t c o) (cause : Option (Ending × Time)) : LeftAt s (t.closeRun c cause) c o := by
  unfold State.closeRun
  split
  · exact h
  · split
    · exact h
    · rename_i ch _ _ r _
      have h1 : LeftAt s (match r.onAir, cause with
        | some it, some (e, u) => t.writeAsRun (asRunEnded ch r it u e)
        | _, _ => t) c o := by
        split
        · exact h.same (same_writeAsRun _ _)
        · exact h
      have h2 := (h1.same (same_unpinAll c (r.items.filterMap Item.pins?) _)).modChan (fun x => { x with run := none }) fun _ => rfl
      dsimp only
      split
      · exact h2.same (same_resolveChan _ _)
      · exact h2

/-- After a run is closed its channel is found with no run and its takeover record as it was (R150). -/
theorem closeRun_chan {ch : Chan} (hc : s.chan? c = some ch) (cause : Option (Ending × Time)) :
    ∃ x, (s.closeRun c cause).chan? c = some x ∧ x.run = none ∧ x.tk = ch.tk := by
  obtain ⟨x, hx, hr, ht, -⟩ := (closeRun_closed s c ch hc cause).1.chan
  exact ⟨x, hx, hr, ht⟩

/-- A held channel whose outlet and run are gone goes to a takeover state that holds nothing. -/
theorem State.Agreed.ends (h : s.Agreed) {ch x : Chan} (hc : s.chan? c = some ch) (ho : ch.tk.outlet = some o)
    (k : LeftAt s t c o) (hx : t.chan? c = some x) (hr : x.run = none) (f : TakeoverRec → TakeoverRec)
    (hf : (f x.tk).state.Spare ∧ (f x.tk).outlet = none ∧ (f x.tk).handback = none) : (t.modTk c f).Agreed := by
  refine h.leaves hc ho (k.modTk f) (place?_some (modTk_get t hx f)) ⟨hf.1, hf.2.1, ?_, ?_⟩
  · show (f x.tk).handback.isSome = false; rw [hf.2.2]; rfl
  · show x.run.map (·.outlet) = none; rw [hr]; rfl

/-- A held channel is handing back or has no handback fields. -/
theorem State.Agreed.noHandback (h : s.Agreed) {ch : Chan} (hc : s.chan? c = some ch) (hs : ch.tk.state ≠ .handingBack) :
    ch.tk.handback = none :=
  not_not.1 fun hn => hs ((h.rightAt hc).handingBack.1 ((isSome_iff_ne _).2 hn))

theorem offerRelease_chan? (s : State) (c d : Channel) (k : Key) (r : ReleaseReason) :
    (s.offerRelease c k r).chan? d = s.chan? d := by
  unfold State.chan?; rw [(offerRelease_keeps s c k r).1]

/-- A join failure takes the channel to IDLE with its outlet and its run gone, and checks it (R123). -/
theorem agreed_joinFailed (h : s.Agreed) (ho : (s.outlet o).channel = some c) (f : Failure) : (s.joinFailed c o f).Agreed := by
  unfold State.joinFailed
  split
  · exact h
  · rename_i ch hc
    split
    · exact h
    · rename_i hs
      have hout : ch.tk.outlet = some o := by
        obtain ⟨p, hp, hpo⟩ := h.served o c ho
        rw [place?_some hc] at hp; cases hp; exact hpo
      dsimp only
      have hfault : (s.faultOutlet o .prep f).chan? c = some ch := by
        unfold State.chan?
        rw [show (s.faultOutlet o .prep f).chans = s.chans from settled_chans s o _]
        exact hc
      have hrel : ∃ u, LeftAt s u c o ∧ u.chan? c = some ch ∧ u = (match ch.tk.ownHold with
          | some k => (s.faultOutlet o .prep f).offerRelease c k .joinFailed
          | none => s.faultOutlet o .prep f) := by
        refine ⟨_, ?_, ?_, rfl⟩ <;> split
        · exact (leftAt_faultOutlet _ _).same (same_offerRelease _ _ _ _)
        · exact leftAt_faultOutlet _ _
        · rw [offerRelease_chan?]; exact hfault
        · exact hfault
      obtain ⟨u, hu, huc, rfl⟩ := hrel
      obtain ⟨x, hx, hxr, hxt⟩ := closeRun_chan (s := State.raise _ .joinFailed c (.joinFailed o f)) huc none
      refine (places_check (.refl _) c).agreed (h.ends hc hout ((hu.same (same_raise _ _ _ _)).closeRun none) hx hxr _
        ⟨Or.inl rfl, rfl, ?_⟩)
      rw [hxt]
      exact h.noHandback hc (by rw [not_not.1 hs]; nofun)

theorem agreed_failCmd (h : s.Agreed) (o : OutletNo) (cmd : Cmd) (orphaned : Bool) (f : Failure) :
    (s.failCmd o cmd orphaned f).Agreed := by
  cases hj : cmd.joins with
  | false => exact (places_failCmd (.refl s) o hj _ _).agreed h
  | true =>
    have h1 := h.same (same_raise s .cueFault (outletByte o) (.cueFault (cmdKind cmd) f))
    unfold State.failCmd
    dsimp only
    split
    · exact h1
    · split
      · exact h1
      · cases hj
      · split
        · exact h1
        · rename_i c hc
          split
          · exact agreed_joinFailed h1 hc f
          · exact h1.same (samePlaces_of_eq rfl rfl rfl)

theorem agreed_offerCmd (h : s.Agreed) (o : OutletNo) (cmd : Cmd) : (s.offerCmd o cmd).Agreed := by
  cases hj : cmd.joins with
  | false => exact (places_offerCmd (.refl s) o hj).agreed h
  | true =>
    unfold State.offerCmd
    dsimp only
    split
    · exact h
    · split
      · exact KeepsPlaces.agreed (places_settleOrder (places_modOutlet (.refl s) o _) o) h
      · exact agreed_failCmd h o cmd _ _

/-! ## Items -/

theorem places_setHold (h : KeepsPlaces s0 s) (c : Channel) (x : Option EventId) : KeepsPlaces s0 (s.setHold c x) :=
  places_modRun h c _

theorem places_releaseItem (h : KeepsPlaces s0 s) (c : Channel) (it : Item) : KeepsPlaces s0 (s.releaseItem c it) := by
  unfold State.releaseItem
  split
  · exact h
  · dsimp only
    split
    · exact h
    · exact h.same (same_unpin s c _)

theorem places_pinItem (h : KeepsPlaces s0 s) (c : Channel) (it : Item) : KeepsPlaces s0 (s.pinItem c it) := by
  unfold State.pinItem
  split
  · exact h
  · exact h.same (same_pin s c _)

theorem same_serial (s : State) (n : Nat) : SamePlaces s { s with itemSerial := n } := samePlaces_of_eq rfl rfl rfl

theorem places_setCued (h : KeepsPlaces s0 s) (c : Channel) (it : Item) : KeepsPlaces s0 (s.setCued c it) :=
  places_pinItem (places_modRun (h.same (same_serial s _)) c _) c it

theorem places_setGo (h : KeepsPlaces s0 s) (c : Channel) (it : Item) : KeepsPlaces s0 (s.setGo c it) :=
  places_pinItem (places_modRun (h.same (same_serial s _)) c _) c it

theorem places_dropCued (h : KeepsPlaces s0 s) (c : Channel) : KeepsPlaces s0 (s.dropCued c) := by
  unfold State.dropCued
  split
  · exact h
  · exact places_releaseItem (places_modRun h c _) c _

theorem places_dropGo (h : KeepsPlaces s0 s) (c : Channel) : KeepsPlaces s0 (s.dropGo c) := by
  unfold State.dropGo
  split
  · exact h
  · exact places_releaseItem (places_modRun h c _) c _

theorem modItem_outlet (r : RunRec) (p : ItemPlace) (f : Item → Item) : (r.modItem p f).outlet = r.outlet := by cases p <;> rfl

theorem places_settleSide (h : KeepsPlaces s0 s) (c : Channel) (p : ItemPlace) : KeepsPlaces s0 (s.settleSide c p) := by
  unfold State.settleSide
  split
  · exact h
  · split
    · exact h
    · split
      · exact h
      · dsimp only
        have h1 := places_modRun h c (fun r => r.modItem p (fun i => { i with nextCue := i.nextCue + 1 }))
          fun r => modItem_outlet r p _
        split
        · exact places_offerCmd h1 _ rfl
        · exact h1

theorem places_settleDueSides (c : Channel) (p : ItemPlace) (n : Nat) :
    ∀ {s : State}, KeepsPlaces s0 s → KeepsPlaces s0 (s.settleDueSides c p n) := by
  induction n with
  | zero => exact fun h => h
  | succ n ih =>
    intro s h
    unfold State.settleDueSides
    split
    · exact ih (places_settleSide h c p)
    · exact h

theorem places_lockItem (h : KeepsPlaces s0 s) (c : Channel) (p : ItemPlace) : KeepsPlaces s0 (s.lockItem c p false) := by
  unfold State.lockItem
  split
  · exact h
  · split
    · exact h
    · split
      · exact h
      · dsimp only
        refine places_settleDueSides c p 4 (places_offerCmd (places_modRun h c _ ?_) _ rfl)
        exact fun r => modItem_outlet r p _

/-- The lock of a join item, whose PREP may fail at once (R137, R157). -/
theorem agreed_lockItem (h : s.Agreed) (c : Channel) (p : ItemPlace) (j : Bool) : (s.lockItem c p j).Agreed := by
  unfold State.lockItem
  split
  · exact h
  · split
    · exact h
    · split
      · exact h
      · refine (places_settleDueSides c p 4 (.refl _)).agreed (agreed_offerCmd ?_ _ _)
        exact h.same (same_modRun s c _ fun r => modItem_outlet r p _)

/-! ## Choosing -/

theorem places_cueJoin (h : KeepsPlaces s0 s) (c : Channel) (ch : Chan) (r : RunRec) (j : JoinResult) :
    KeepsPlaces s0 (s.cueJoin c ch r j) := by
  unfold State.cueJoin
  split
  · exact h
  · exact places_lockItem (places_setCued (places_setHold h _ _) _ _) _ _

theorem places_lateCue (h : KeepsPlaces s0 s) (c : Channel) (ch : Chan) (r : RunRec) : KeepsPlaces s0 (s.lateCue c ch r) := by
  unfold State.lateCue
  split
  · split
    · exact places_setHold h _ _
    · exact places_cueJoin h _ _ _ _
  · exact places_cueJoin h _ _ _ _

theorem places_takeChoice (h : KeepsPlaces s0 s) (c : Channel) (ch : Chan) (r : RunRec) (it : Item) (x : Option EventId) :
    KeepsPlaces s0 (s.takeChoice c ch r it x) := by
  have h1 := places_setCued (places_setHold h c x) c it
  unfold State.takeChoice
  split
  · exact h
  · dsimp only
    split
    · exact places_lateCue h _ _ _
    · split
      · exact places_lockItem h1 _ _
      · exact places_modRun h1 c _

theorem places_chooseBehindFiller (h : KeepsPlaces s0 s) (c : Channel) (ch : Chan) (r : RunRec) (e : Time) :
    KeepsPlaces s0 (s.chooseBehindFiller c ch r e) := by
  unfold State.chooseBehindFiller
  split
  · exact places_setHold h _ _
  · exact places_takeChoice h _ _ _ _ _
  · exact places_takeChoice h _ _ _ _ _
  · exact places_lateCue h _ _ _

theorem places_chooseFrom (h : KeepsPlaces s0 s) (c : Channel) (ch : Chan) (r : RunRec) (e : Time) :
    KeepsPlaces s0 (s.chooseFrom c ch r e) := by
  unfold State.chooseFrom
  split
  · exact places_takeChoice h _ _ _ _ _
  · exact places_takeChoice h _ _ _ _ _
  · exact places_takeChoice h _ _ _ _ _
  · exact places_lateCue h _ _ _

theorem places_choose (h : KeepsPlaces s0 s) (c : Channel) (t : Option Time) : KeepsPlaces s0 (s.choose c t) := by
  unfold State.choose
  repeat' split
  · exact h
  · exact h
  · exact h
  · exact places_chooseBehindFiller h _ _ _ _
  · exact h
  · exact places_chooseFrom h _ _ _ _

theorem places_chooseLate (h : KeepsPlaces s0 s) (c : Channel) : KeepsPlaces s0 (s.chooseLate c) := by
  unfold State.chooseLate
  repeat' split
  · exact h
  · exact h
  · exact places_lateCue h _ _ _

theorem places_chooseIfNone (h : KeepsPlaces s0 s) (c : Channel) : KeepsPlaces s0 (s.chooseIfNone c) := by
  unfold State.chooseIfNone
  split
  · exact places_choose (places_serveAll h) _ _
  · exact h

theorem places_dropLostHold (h : KeepsPlaces s0 s) (c : Channel) : KeepsPlaces s0 (s.dropLostHold c) := by
  unfold State.dropLostHold
  repeat' split
  · exact h
  · exact h
  · exact h
  · exact places_setHold h _ _

theorem places_listChanged (h : KeepsPlaces s0 s) (c : Channel) : KeepsPlaces s0 (s.listChanged c) := by
  have h1 := places_dropLostHold h c
  have h2 := places_choose (places_dropCued h1 c) c none
  unfold State.listChanged
  split
  · exact h
  · split
    · exact h
    · dsimp only
      repeat' split
      · exact places_choose h1 _ _
      · exact h1
      · exact h1
      · exact h2
      · exact h2

theorem places_afterChange (h : KeepsPlaces s0 s) (c : Channel) : KeepsPlaces s0 (s.afterChange c) :=
  places_listChanged (h.same (same_resolveChan s c)) c

/-! ## Starts and failures of items -/

theorem places_cuedStarts (h : KeepsPlaces s0 s) (c : Channel) (ch : Chan) (r : RunRec) (it : Item) (t : Time) (u : Bool) :
    KeepsPlaces s0 (s.cuedStarts c ch r it t u) := by
  have sweep : ∀ {w : State}, KeepsPlaces s0 w → KeepsPlaces s0 ((w.askSweep c).chooseIfNone c) :=
    fun hw => places_chooseIfNone (hw.same (same_reqs _ _)) c
  unfold State.cuedStarts
  dsimp only
  split
  · exact sweep (places_modRun h c _)
  · exact sweep (places_releaseItem (places_modRun (places_writeAsRun h _) c _) c _)

theorem places_takeGoReport (h : KeepsPlaces s0 s) (c : Channel) : KeepsPlaces s0 (s.takeGoReport c) := by
  unfold State.takeGoReport
  repeat' split
  · exact h
  · exact h
  · exact places_cuedStarts (places_modRun (places_mirrorTurn h c) c _) _ _ _ _ _ _
  · exact h

theorem places_itemStarted (h : KeepsPlaces s0 s) (c : Channel) (n : Nat) (t : Time) (u : Bool) :
    KeepsPlaces s0 (s.itemStarted c n t u) := by
  unfold State.itemStarted
  repeat' split
  · exact h
  · exact h
  · exact places_takeGoReport (places_cuedStarts h _ _ _ _ _ _) _
  · exact places_modRun h c _
  · exact h

theorem places_replaceItem (h : KeepsPlaces s0 s) (c : Channel) (ch : Chan) (r : RunRec) (it : Item) :
    KeepsPlaces s0 (s.replaceItem c ch r it) := by
  unfold State.replaceItem
  dsimp only
  repeat' split
  · exact h
  · exact places_lockItem (places_setCued h _ _) _ _
  · exact places_chooseLate h _
  · exact h
  · exact places_lockItem (places_setCued h _ _) _ _

theorem places_cuedFails (h : KeepsPlaces s0 s) (c : Channel) (ch : Chan) (r : RunRec) (it : Item) :
    KeepsPlaces s0 (s.cuedFails c ch r it) := by
  have h1 := places_releaseItem (places_modRun (places_writeAsRun h (asRunMissed ch r it)) c (fun r =>
    { r with cued := r.goItem, goItem := none, cueMoment := none, cuedOrigin := r.goOrigin })) c it
  unfold State.cuedFails
  dsimp only
  repeat' split
  · exact places_takeGoReport h1 _
  · exact places_replaceItem h1 _ _ _ _
  · exact places_choose h1 _ _
  · exact h1

theorem places_goFails (h : KeepsPlaces s0 s) (c : Channel) (ch : Chan) (r : RunRec) (it : Item) :
    KeepsPlaces s0 (s.goFails c ch r it) := places_modRun (places_dropGo (places_writeAsRun h _) c) c _

theorem places_itemFailed (h : KeepsPlaces s0 s) (c : Channel) (n : Nat) : KeepsPlaces s0 (s.itemFailed c n) := by
  unfold State.itemFailed
  repeat' split
  · exact h
  · exact h
  · exact places_cuedFails h _ _ _ _
  · exact places_goFails h _ _ _ _
  · exact h

/-! ## Stop requests and reports -/

theorem places_makeStop (h : KeepsPlaces s0 s) (c : Channel) : KeepsPlaces s0 (s.makeStop c) := by
  unfold State.makeStop
  repeat' split
  · exact h
  · exact places_modTk (places_requestStop h _ _) c _ fun tk => ⟨rfl, rfl, Option.isSome_map⟩
  · exact h

theorem places_retryStop (h : KeepsPlaces s0 s) (c : Channel) : KeepsPlaces s0 (s.retryStop c) := by
  unfold State.retryStop
  repeat' split
  · exact h
  · exact h
  · exact places_makeStop h _
  · exact h

theorem places_takeReport (h : KeepsPlaces s0 s) (x : ItemReport) : KeepsPlaces s0 (s.takeReport x) := by
  have h1 := places_mirrorTurn h x.channel
  unfold State.takeReport
  refine places_retryStop ?_ _
  repeat' split
  · exact places_itemStarted h1 _ _ _ _
  · exact h1
  · exact places_itemFailed h1 _ _

theorem same_reports (s : State) (l : List ItemReport) : SamePlaces s { s with reports := l } := samePlaces_of_eq rfl rfl rfl

theorem places_settleReports (n : Nat) : ∀ {s : State}, KeepsPlaces s0 s → KeepsPlaces s0 (State.settleReports n s) := by
  induction n with
  | zero => exact fun h => h.same (same_reports _ _)
  | succ n ih =>
    intro s h
    unfold State.settleReports
    split
    · exact h
    · exact ih (places_takeReport (h.same (same_reports _ _)) _)

theorem places_settle (h : KeepsPlaces s0 s) : KeepsPlaces s0 s.settle := places_settleReports _ h

/-- Once the reports of a step are settled none waits (log 14). -/
theorem settleReports_reports (n : Nat) : ∀ s : State, (State.settleReports n s).reports = [] := by
  induction n with
  | zero => exact fun _ => rfl
  | succ n ih =>
    intro s
    unfold State.settleReports
    split
    · assumption
    · exact ih _

theorem settle_reports (s : State) : s.settle.reports = [] := settleReports_reports _ s

end Sys2Proof.Machine
end

section
/-! SUPPORT. The operations of a handback, of a join and of a stand-down keep the agreement of channels and outlets (R116, R121, R122,
R125, R172 to R180). -/

namespace Sys2Proof.Machine

variable {s0 s t : State} {c : Channel} {o : OutletNo}

/-! ## A channel that keeps its outlet -/

/-- No outlet changes its channel or state, and no channel but `c` moves. -/
structure TurnsAt (s t : State) (c : Channel) : Prop where
  locked : t.locked = s.locked
  channels : t.chans.map (·.part.channel) = s.chans.map (·.part.channel)
  others : ∀ d, d ≠ c → t.place? d = s.place? d
  outlets : ∀ o, (t.outlet o).channel = (s.outlet o).channel ∧ (t.outlet o).state = (s.outlet o).state

theorem TurnsAt.same {u : State} (h : TurnsAt s t c) (k : SamePlaces t u) : TurnsAt s u c where
  locked := k.locked.trans h.locked
  channels := k.channels.trans h.channels
  others d hd := (k.place d).trans (h.others d hd)
  outlets o := ⟨(k.outlet o).1.trans (h.outlets o).1, (k.outlet o).2.trans (h.outlets o).2⟩

theorem TurnsAt.modChan (h : TurnsAt s t c) (f : Chan → Chan) (hf : ∀ x : Chan, (f x).part.channel = x.part.channel) :
    TurnsAt s (t.modChan c f) c where
  locked := h.locked
  channels := (modChan_channels t c f hf).trans h.channels
  others d hd := (place?_modChan_ne t f hf hd).trans (h.others d hd)
  outlets := h.outlets

theorem TurnsAt.refl (s : State) (c : Channel) : TurnsAt s s c := ⟨rfl, rfl, fun _ _ => rfl, fun _ => ⟨rfl, rfl⟩⟩

/-- A channel that keeps its outlet moves to another right place, on air or off it as before. -/
theorem State.Agreed.turns {p q : Place} (h : s.Agreed) (hc : s.place? c = some p) (k : TurnsAt s t c) (hn : t.place? c = some q)
    (hq : q.Right) (ho : q.outlet = p.outlet)
    (ha : (q.state = .onAir ∨ q.state = .handingBack) ↔ (p.state = .onAir ∨ p.state = .handingBack)) (hs : p.state ≠ .detached) :
    t.Agreed := by
  refine h.moved ⟨k.locked, k.channels, hc, hn, k.others, fun x _ _ => k.outlets x, fun x hx hy => ?_, fun x hx => ?_⟩ hq hs
  · rw [ho] at hy; exact absurd hx hy
  · rw [ho] at hx
    have hname := h.named c p x hc hx
    rw [(k.outlets x).1, (k.outlets x).2, ha]
    exact ⟨Or.inl hx, hname.1, (h.serving x).1 (by rw [hname.1]; nofun), hname.2⟩

/-- The places of a channel in ON_AIR and HANDING_BACK. -/
def Place.airs (p : Place) : Prop := p.state = .onAir ∨ p.state = .handingBack

theorem Place.airs.holding {p : Place} (h : p.airs) : p.state.holding = true := by rcases h with e | e <;> rw [e] <;> rfl

/-- A held channel's record and place stay through what keeps places. -/
theorem KeepsPlaces.chan {ch : Chan} (k : KeepsPlaces s t) (hc : s.chan? c = some ch) (hh : ch.tk.state.holding = true) :
    ∃ x, t.chan? c = some x ∧ x.place = ch.place :=
  chan?_of_place? (k.held c _ (place?_some hc) hh)

/-- A channel on air goes to ON_AIR without handback fields or to HANDING_BACK with them (R172, R176). -/
theorem State.Agreed.airs {ch : Chan} (h : s.Agreed) (hc : s.chan? c = some ch) (ha : ch.place.airs) (f : TakeoverRec → TakeoverRec)
    (hf : (f ch.tk).outlet = ch.tk.outlet ∧ (f ch.tk).handback.isSome = ((f ch.tk).state == .handingBack))
    (hs : (f ch.tk).state = .onAir ∨ (f ch.tk).state = .handingBack) : (s.modTk c f).Agreed := by
  have hr := h.rightAt hc
  refine h.turns (place?_some hc) ((TurnsAt.refl s c).modChan _ fun _ => rfl) (place?_some (modTk_get s hc f)) ?_ hf.1
    (iff_of_true hs ha) (by intro e; rcases ha with e' | e' <;> rw [e] at e' <;> cases e')
  have hout : ch.tk.outlet ≠ none := hr.placed.2 (by rcases ha with e | e <;> rw [e] <;> simp [TakeoverState.hasOutlet])
  have hrun : ch.run.map (·.outlet) ≠ none := hr.running.2 ha.holding
  refine ⟨iff_of_true ?_ ?_, iff_of_true hrun ?_, ?_, ?_⟩
  · show (f ch.tk).outlet ≠ none; rw [hf.1]; exact hout
  · show (f ch.tk).state.hasOutlet; rcases hs with e | e <;> rw [e] <;> simp [TakeoverState.hasOutlet]
  · show (f ch.tk).state.holding = true; rcases hs with e | e <;> rw [e] <;> rfl
  · intro o ho; show (f ch.tk).outlet = some o; rw [hf.1]; exact hr.runOutlet o ho
  · show (f ch.tk).handback.isSome = true ↔ (f ch.tk).state = .handingBack
    rw [hf.2, beq_iff_eq]

/-! ## Handback -/

theorem places_limitCued (h : KeepsPlaces s0 s) (c : Channel) : KeepsPlaces s0 (s.limitCued c) := by
  unfold State.limitCued
  repeat' split
  · exact h
  · exact h
  · exact places_dropCued h c
  · exact h

theorem places_restoreCue (h : KeepsPlaces s0 s) (c : Channel) (a b : Time) : KeepsPlaces s0 (s.restoreCue c a b) := by
  have drop : ∀ (p : Prop) [Decidable p] {w : State}, KeepsPlaces s0 w → KeepsPlaces s0 (if p then w.dropGo c else w) := by
    intro p _ w hw; split
    · exact places_dropGo hw c
    · exact hw
  have dropC : ∀ (p : Prop) [Decidable p] {w : State}, KeepsPlaces s0 w → KeepsPlaces s0 (if p then w.dropCued c else w) := by
    intro p _ w hw; split
    · exact places_dropCued hw c
    · exact hw
  unfold State.restoreCue
  split
  · exact h
  · split
    · exact h
    · dsimp only
      rename_i r _
      have h1 := places_modRun (dropC (r.cued.any (fun i => !i.locked || i.lockedAtOrAfter b) = true)
        (drop (r.goItem.any (fun i => i.lockedAtOrAfter b) = true) h)) c (fun x => { x with walkOrigin := r.originAfter b })
      split
      · exact h1
      · split
        · exact h1
        · exact places_lockItem (places_setCued (places_setHold h1 _ _) _ _) _ _

theorem places_undoStop (h : KeepsPlaces s0 s) (c : Channel) (o : OutletNo) (x : Handback) : KeepsPlaces s0 (s.undoStop c o x) := by
  have h1 := places_withdrawStop h o
  unfold State.undoStop
  dsimp only
  split
  · exact places_restoreCue h1 _ _ _
  · exact h1

/-- A channel in ON_AIR enters HANDING_BACK (R172). -/
theorem agreed_enterHandback (h : s.Agreed) {ch : Chan} (hc : s.chan? c = some ch) (hs : ch.tk.state = .onAir) (x : Handback) :
    (s.enterHandback c x).Agreed := by
  have hk := places_mirrorTurn (.refl s) c
  obtain ⟨y, hy, hp⟩ := hk.chan hc (by rw [hs]; rfl)
  have hair : y.place.airs := by rw [hp]; exact Or.inl hs
  have h1 := (hk.agreed h).airs hy hair (fun tk => { tk with state := .handingBack, handback := some x }) ⟨rfl, rfl⟩ (Or.inr rfl)
  exact (places_limitCued (places_assertHold (.refl _) c) c).agreed h1

/-- New handback fields for a channel in HANDING_BACK. -/
theorem agreed_setHandback (h : s.Agreed) {ch : Chan} (hc : s.chan? c = some ch) {old : Handback} (ho : ch.tk.handback = some old)
    (x : Handback) : (s.modTk c (fun tk => { tk with handback := some x })).Agreed := by
  have hs := h.handingBack hc ho
  refine h.airs hc (Or.inr hs) _ ⟨rfl, ?_⟩ (Or.inr hs)
  show true = (ch.tk.state == .handingBack)
  rw [hs]; rfl

theorem agreed_replaceHandback (h : s.Agreed) (c : Channel) (a b : Time) (f : Bool) : (s.replaceHandback c a b f).Agreed := by
  have h1 := (places_mirrorTurn (.refl s) c).agreed h
  unfold State.replaceHandback
  dsimp only
  split
  · exact h1
  · rename_i ch hc
    split
    · rename_i old o r hold _ _
      have h2 := agreed_setHandback h1 hc hold { (handbackFor a b r.offset f ((s.mirrorTurn c).lead ch) (s.mirrorTurn c).now) with
        stopRequested := old.stopRequested && !before old.localSwitch b }
      refine KeepsPlaces.agreed ?_ h2
      have undo : ∀ w : State, KeepsPlaces w
          ((if (old.stopRequested && before old.localSwitch b) = true then w.undoStop c o old else w).limitCued c) := by
        intro w
        refine places_limitCued ?_ c
        split
        · exact places_undoStop (.refl w) _ _ _
        · exact .refl w
      split
      · exact places_chooseIfNone (undo _) c
      · exact undo _
    · exact h1

theorem agreed_cancelHandback (h : s.Agreed) (c : Channel) : (s.cancelHandback c).Agreed := by
  unfold State.cancelHandback
  split
  · exact h
  · rename_i ch hc
    split
    · exact h
    · rename_i x hx
      split
      · exact h
      · dsimp only
        have undo : ∀ w : State, KeepsPlaces w (match ch.tk.outlet with
            | some o => w.undoStop c o x
            | none => w) := by
          intro w; split
          · exact places_undoStop (.refl w) _ _ _
          · exact .refl w
        have hk := (places_mirrorTurn (.refl s) c).trans (undo _)
        have hs := h.handingBack hc hx
        obtain ⟨y, hy, hp⟩ := hk.chan hc (by rw [hs]; rfl)
        have hair : y.place.airs := by rw [hp]; exact Or.inr hs
        exact (places_chooseIfNone (places_assertHold (.refl _) c) c).agreed
          ((hk.agreed h).airs hy hair (fun tk => { tk with state := .onAir, handback := none }) ⟨rfl, rfl⟩ (Or.inl rfl))

theorem agreed_raise (h : s.Agreed) (cls : NoticeClass) (b : Byte) (d : NoticeCode) : (s.raise cls b d).Agreed :=
  h.same (same_raise s cls b d)

theorem agreed_takeOffer (h : s.Agreed) (c : Channel) (m : MainState) : (s.takeOffer c m).Agreed := by
  unfold State.takeOffer
  split
  · exact h
  · rename_i ch hc
    split
    · rename_i hs
      split
      · exact agreed_raise h _ _ _
      · exact agreed_raise h _ _ _
      · exact agreed_enterHandback h hc hs _
      · exact h
    · split
      · exact h
      · split
        · exact agreed_raise h _ _ _
        · exact agreed_raise h _ _ _
        · exact agreed_replaceHandback h _ _ _ _
    · exact agreed_cancelHandback h c
    · exact h

/-! ## Watch reports -/

theorem agreed_watchReport (h : s.Agreed) (c : Channel) (v w : WatchState) : (s.watchReport c v w).Agreed := by
  have h1 : (if w = .lost then s else s.modTk c (fun tk => { tk with awaitLive := false })).Agreed := by
    split
    · exact h
    · exact h.same (same_modTk _ _ _ fun _ => ⟨rfl, rfl, rfl⟩)
  unfold State.watchReport
  dsimp only
  revert h1
  generalize (if w = .lost then s else s.modTk c (fun tk => { tk with awaitLive := false })) = x
  intro h1
  split
  · exact h1
  · rename_i ch hc
    split
    · exact (places_check (.refl _) c).agreed h1
    · exact (places_check (.refl _) c).agreed h1
    · rename_i hs
      split
      · exact (places_pass (places_check (.refl _) c)).agreed (agreed_leaveContending h1 hc hs (Or.inl rfl))
      · exact h1
    · rename_i hs
      split
      · exact (places_leaveYielded (.refl _) hc hs).agreed h1
      · exact h1
    · split
      · exact agreed_cancelHandback h1 c
      · exact h1
    · exact h1

/-! ## Joins -/

/-- The STARTED of a join takes its channel to ON_AIR and its outlet to AIR (R122, R166). -/
theorem agreed_joinStarted (h : s.Agreed) (ho : (s.outlet o).channel = some c) : (s.joinStarted c o).Agreed := by
  unfold State.joinStarted
  split
  · exact h
  · rename_i ch hc
    split
    · rename_i hs
      have hout : ch.tk.outlet = some o := by
        obtain ⟨p, hp, hpo⟩ := h.served o c ho
        rw [place?_some hc] at hp; cases hp; exact hpo
      have hr := h.rightAt hc
      have hall : ∀ p, ((s.modOutlet o (fun x => { x with state := .air, air := true })).modTk c (fun tk =>
          { tk with state := .onAir })).outlet p = if p = o then { s.outlet o with state := .air, air := true } else s.outlet p :=
        fun p => outlet_modOutlet s o p (fun x => { x with state := .air, air := true })
      refine ((h.moved (t := (s.modOutlet o (fun x => { x with state := .air, air := true })).modTk c (fun tk =>
        { tk with state := .onAir })) (p := ch.place) (q := ⟨.onAir, some o, ch.tk.handback.isSome, ch.run.map (·.outlet)⟩)
        ⟨rfl, modChan_channels _ c _ fun _ => rfl, place?_some hc, ?_, fun d hd => ?_, fun p hp _ => ?_, fun p hp hq => ?_,
          fun p hp => ?_⟩ ?_ ?_).same (same_assertHold _ c)).same (same_raise _ _ _ _)
      · rw [← hout]
        exact place?_some (modTk_get (s.modOutlet o (fun x => { x with state := .air, air := true })) hc _)
      · exact place?_modChan_ne (s.modOutlet o (fun x => { x with state := .air, air := true })) _ (fun _ => rfl) hd
      · have hne : p ≠ o := fun e => hp (by rw [e]; exact hout)
        rw [hall, if_neg hne]; exact ⟨rfl, rfl⟩
      · have e : some p = some o := hp.symm.trans hout
        exact absurd e.symm hq
      · cases hp
        rw [hall, if_pos rfl]
        exact ⟨Or.inl hout, ho, Or.inr rfl, iff_of_true rfl (Or.inl rfl)⟩
      · have hhb : ch.tk.handback.isSome = false := by rw [h.noHandback hc (by rw [hs]; nofun)]; rfl
        have hrun : ch.run.map (·.outlet) ≠ none := hr.running.2 (by show ch.tk.state.holding = true; rw [hs]; rfl)
        refine ⟨by simp [TakeoverState.hasOutlet], iff_of_true hrun rfl, fun x hx => ?_, by simp [hhb]⟩
        exact hout.symm.trans (hr.runOutlet x hx)
      · show ch.tk.state ≠ .detached; rw [hs]; nofun
    · exact h

/-- A channel in CONTENDING enters JOINING with its run record on its outlet (R116, R137). -/
theorem agreed_enterJoining (h : s.Agreed) (hw : s.windowReached c = true) : (s.enterJoining c).Agreed := by
  unfold State.enterJoining
  split
  · exact h
  · rename_i ch hc
    split
    · rename_i d o hd ho
      have hs : ch.tk.state = .contending := by
        unfold State.windowReached at hw
        rw [hc] at hw
        exact (contending_iff ch).1 (Bool.and_eq_true_iff.1 hw).1
      obtain ⟨-, hrun, hhb⟩ := h.contendingAt hc hs
      have hsame := same_assertHold (s.modTk c TakeoverRec.joins) c
      have hjoin : ((s.modTk c TakeoverRec.joins).assertHold c).place? c = some ⟨.joining, some o, false, none⟩ := by
        rw [hsame.place, place?_some (modTk_get s hc _)]
        have hrun' : ch.run.map (·.outlet) = none := by rw [hrun]; rfl
        have hhb' : ch.tk.handback.isSome = false := by rw [hhb]; rfl
        show some (Place.mk .joining ch.tk.outlet ch.tk.handback.isSome (ch.run.map (·.outlet))) = _
        rw [ho, hhb', hrun']
      obtain ⟨x, hx, hxp⟩ := chan?_of_place? hjoin
      unfold State.openRun
      rw [hx]
      dsimp only
      refine agreed_lockItem ((places_setCued (places_setHold (.refl _) c _) c _).agreed ?_) c .cued true
      have hk := (((TurnsAt.refl s c).modChan (fun y => { y with tk := y.tk.joins }) fun _ => rfl).same hsame).modChan
        (fun y => { y with run := some (runOf o ch.watch.estimate) }) fun _ => rfl
      refine h.turns (p := ch.place) (q := ⟨.joining, some o, false, some o⟩) (place?_some hc) hk ?_ ?_ ho.symm ?_ ?_
      · refine (place?_modChan hx (fun y => { y with run := some (runOf o ch.watch.estimate) }) fun _ => rfl).trans ?_
        obtain ⟨h1, h2, h3, -⟩ := Place.mk.inj hxp
        show some (Place.mk x.tk.state x.tk.outlet x.tk.handback.isSome _) = _
        rw [h1, h2, h3]; rfl
      · exact ⟨by simp [TakeoverState.hasOutlet], by simp [TakeoverState.holding], by simp, by simp⟩
      · exact iff_of_false nofun (by show ¬ (ch.tk.state = _ ∨ ch.tk.state = _); rw [hs]; nofun)
      · show ch.tk.state ≠ .detached; rw [hs]; nofun
    · exact h

/-! ## Ends of holding -/

/-- What frees the outlet of a held channel and closes its run leaves its record to be put to a state without either. -/
theorem State.Agreed.endsAt (h : s.Agreed) {ch : Chan} (hc : s.chan? c = some ch) (ho : ch.tk.outlet = some o) (k : LeftAt s t c o)
    {x : Chan} (hx : t.chan? c = some x) (cause : Option (Ending × Time)) (cls : NoticeClass) (b : Byte) (d : NoticeCode)
    (f : TakeoverRec → TakeoverRec) (hf : (f x.tk).state.Spare ∧ (f x.tk).outlet = none ∧ (f x.tk).handback = none) :
    (((t.closeRun c cause).raise cls b d).modTk c f).Agreed := by
  obtain ⟨y, hy, hr, ht⟩ := closeRun_chan hx cause
  exact h.ends hc ho ((k.closeRun cause).same (same_raise _ cls b d)) (x := y) hy hr f (by rw [ht]; exact hf)

/-- The record of a channel is found as long as the profile's channels stay. -/
theorem chan?_of_channels (he : t.chans.map (·.part.channel) = s.chans.map (·.part.channel)) {ch : Chan} (hc : s.chan? c = some ch) :
    ∃ x, t.chan? c = some x := by
  have hm : c ∈ t.chans.map (·.part.channel) := by
    rw [he]; exact List.mem_map.2 ⟨ch, chan?_mem hc, chan?_channel hc⟩
  obtain ⟨y, hy, rfl⟩ := List.mem_map.1 hm
  exact Option.isSome_iff_exists.1 (List.find?_isSome.2 ⟨y, hy, beq_self_eq_true _⟩)

/-- The release of a holding key that may be absent. -/
theorem same_releaseHold (s : State) (c : Channel) (x : Option Key) (r : ReleaseReason) :
    SamePlaces s (match x with
      | some k => s.offerRelease c k r
      | none => s) := by
  split
  · exact same_offerRelease _ _ _ _
  · exact .refl s

/-- A stop now leaves every held channel's own record where it is. -/
theorem stopNow_held {p : Place} (hp : s.place? c = some p) (hh : p.state.holding = true) : (s.stopNow o).place? c = some p := by
  have hstop : (s.toStopping o Cmd.isStop).place? c = some p := by
    unfold State.place? State.chan? at hp ⊢
    rw [show (s.toStopping o Cmd.isStop).chans = s.chans from settled_chans s o _]; exact hp
  unfold State.stopNow
  split
  · exact (places_requestStop (.refl _) o 0).held c p hstop hh
  · exact (places_requestStop (.refl _) o 0).held c p hstop hh
  · exact hp

/-- The switch deadline takes the channel to IDLE with its outlet and its run gone, and checks it (R178). -/
theorem agreed_completeHandback (h : s.Agreed) {ch : Chan} (hc : s.chan? c = some ch) (ho : ch.tk.outlet = some o) {x : Handback}
    (hx : ch.tk.handback = some x) : (s.completeHandback c ch.tk x o).Agreed := by
  have hair : (s.outlet o).state = .air := (h.namedAt hc ho).2.2 (Or.inr (h.handingBack hc hx))
  have hk : LeftAt s ((s.endOfAir o).1.modTk c (fun tk => { tk with outlet := none })) c o := (leftAt_endOfAir hair).modTk _
  obtain ⟨y, hy⟩ := chan?_of_channels (leftAt_endOfAir (c := c) hair).channels hc
  have hy' := modTk_get _ hy (fun tk => { tk with outlet := none })
  have hsame := same_releaseHold ((s.endOfAir o).1.modTk c (fun tk => { tk with outlet := none })) c ch.tk.ownHold
    (handbackReason x.forced)
  have hz : ∃ z, (match ch.tk.ownHold with
      | some k => ((s.endOfAir o).1.modTk c (fun tk => { tk with outlet := none })).offerRelease c k (handbackReason x.forced)
      | none => (s.endOfAir o).1.modTk c (fun tk => { tk with outlet := none })).chan? c = some z ∧ z.tk.outlet = none := by
    obtain ⟨z, hz, hp⟩ := chan?_of_place? ((hsame.place c).trans (place?_some hy'))
    exact ⟨z, hz, congrArg Place.outlet hp⟩
  obtain ⟨z, hz, hzo⟩ := hz
  have hend := h.endsAt hc ho (hk.same hsame) hz (some (handbackEnding x.forced, x.localSwitch)) .handback c (.handedBack o x.forced)
    (fun tk => { tk with state := .idle, ownHold := none, holdDl := none, handback := none }) ⟨Or.inl rfl, hzo, rfl⟩
  have hcheck := (places_check (.refl _) c).agreed (hend.same (same_setAwaitLive _ c))
  unfold State.completeHandback
  dsimp only
  split
  · exact (places_pass (.refl _)).agreed hcheck
  · exact hcheck

/-- The host's RELEASE aborts a join (R118, R125). -/
theorem agreed_abortJoin (h : s.Agreed) {ch : Chan} (hc : s.chan? c = some ch) (hs : ch.tk.state = .joining) :
    (s.abortJoin c ch.tk).Agreed := by
  obtain ⟨o, ho⟩ := h.outletOf hc (Or.inr (Or.inl hs))
  have hk : LeftAt s (s.stopNow o) c o := leftAt_stopNow (h.outletState hc ho)
  have hsame := same_releaseHold (s.stopNow o) c ch.tk.ownHold .forced
  obtain ⟨z, hz, hp⟩ := chan?_of_place? ((hsame.place c).trans
    (stopNow_held (o := o) (place?_some hc) (by show ch.tk.state.holding = true; rw [hs]; rfl)))
  obtain ⟨y, hy, hr, ht⟩ := closeRun_chan hz none
  have hend := h.ends hc ho ((hk.same hsame).closeRun none) hy hr
    (fun tk => { tk with state := .idle, ownHold := none, outlet := none, holdDl := none }) ⟨Or.inl rfl, rfl, by
      rw [ht]
      have : z.tk.handback.isSome = ch.tk.handback.isSome := congrArg Place.handback hp
      rw [h.noHandback hc (by rw [hs]; nofun)] at this
      exact Option.isSome_eq_false_iff.1 this |> Option.isNone_iff_eq_none.1⟩
  unfold State.abortJoin
  rw [ho]
  exact (places_check (.refl _) c).agreed (hend.same (same_setAwaitLive _ c))

/-- A stand-down before a better holding key (R121, R180). -/
theorem agreed_standDown (h : s.Agreed) {ch : Chan} (hc : s.chan? c = some ch) (hh : ch.tk.state.holding = true) (own : Key)
    (x : Holder) : (s.standDown c ch own x).Agreed := by
  obtain ⟨o, ho⟩ := h.outletOf hc ((holding_iff _).1 hh |> Or.inr)
  have hk : LeftAt s (s.stopNow o) c o := leftAt_stopNow (h.outletState hc ho)
  have hsame := same_offerRelease (s.stopNow o) c own .stoodDown
  obtain ⟨z, hz⟩ := chan?_of_channels (hk.same hsame).channels hc
  unfold State.standDown
  rw [ho]
  refine h.endsAt hc ho (hk.same hsame) hz _ _ _ _ _ ⟨?_, rfl, rfl⟩
  show (if z.tk.inhibit = true then TakeoverState.blocked .inhibited else .yielded).Spare
  split
  · exact Or.inr (Or.inl ⟨_, rfl⟩)
  · exact Or.inr (Or.inr rfl)

/-! ## Frames at the takeover unit -/

theorem agreed_takeClaim (h : s.Agreed) (c : Channel) (k : Key) : (s.takeClaim c k).Agreed := by
  unfold State.takeClaim
  split
  · exact h
  · rename_i ch hc
    dsimp only
    have same : SamePlaces s (if replacesClaim ch.tk.best k s.now then s.modTk c (fun tk => { tk with best := some (s.freshClaim k) })
        else s) := by
      split
      · exact same_modTk _ _ _ fun _ => ⟨rfl, rfl, rfl⟩
      · exact .refl s
    revert same
    generalize (if replacesClaim ch.tk.best k s.now then s.modTk c (fun tk => { tk with best := some (s.freshClaim k) }) else s) = w
    intro same
    have hw := h.same same
    split
    · rename_i hk
      obtain ⟨y, hy, hp⟩ := chan?_of_place? ((same.place c).trans (place?_some hc))
      have hs : y.tk.state = .contending :=
        (congrArg Place.state hp).trans ((contending_iff ch).1 (Bool.and_eq_true_iff.1 hk).1)
      exact (places_pass (.refl _)).agreed (agreed_yield hw hy hs)
    · exact hw

theorem agreed_recordHold (h : s.Agreed) {ch : Chan} (hc : s.chan? c = some ch) (x : Holder) : (s.recordHold c ch x).Agreed := by
  have same : SamePlaces s (if replacesHolder ch.tk.holder x.key then s.modTk c (fun tk => { tk with holder := some x }) else s) := by
    split
    · exact same_modTk _ _ _ fun _ => ⟨rfl, rfl, rfl⟩
    · exact .refl s
  unfold State.recordHold
  dsimp only
  revert same
  generalize (if replacesHolder ch.tk.holder x.key then s.modTk c (fun tk => { tk with holder := some x }) else s) = w
  intro same
  have hw := h.same same
  split
  · rename_i hs
    obtain ⟨y, hy, hp⟩ := chan?_of_place? ((same.place c).trans (place?_some hc))
    exact (places_pass (.refl _)).agreed
      (agreed_leaveContending hw hy ((congrArg Place.state hp).trans hs) (Or.inr (Or.inr rfl)))
  · split
    · exact (places_modTk (.refl _) c _).agreed hw
    · exact hw
  · split
    · exact (places_check (.refl _) c).agreed hw
    · exact hw

/-! ## The host's control commands -/

theorem agreed_forceHandback (h : s.Agreed) {ch : Chan} (hc : s.chan? c = some ch)
    (hs : ch.tk.state = .onAir ∨ ch.tk.state = .handingBack) : (s.forceHandback c ch).Agreed := by
  unfold State.forceHandback
  dsimp only
  split
  · exact h
  · split
    · rename_i hx
      refine agreed_enterHandback h hc (hs.resolve_right fun e => ?_) _
      have : ch.tk.handback.isSome = true := (h.rightAt hc).handingBack.2 e
      rw [hx] at this; cases this
    · rename_i x hx
      split
      · exact h
      · split
        · exact agreed_setHandback h hc hx _
        · exact agreed_replaceHandback h _ _ _ _

theorem agreed_inhibit (h : s.Agreed) {ch : Chan} (hc : s.chan? c = some ch) : (s.inhibit c ch).Agreed := by
  have h1 : (s.modTk c (fun tk => { tk with inhibit := true })).Agreed := (places_modTk (.refl s) c _).agreed h
  have hc1 := modTk_get s hc (fun tk => { tk with inhibit := true })
  unfold State.inhibit
  dsimp only
  split
  · exact (places_check (.refl _) c).agreed h1
  · exact (places_check (.refl _) c).agreed h1
  · rename_i hs
    exact (places_pass (.refl _)).agreed (agreed_leaveContending h1 hc1 hs (Or.inr (Or.inl ⟨_, rfl⟩)))
  · rename_i hs
    exact h1.spare hc1 (Or.inr (Or.inr hs)) ⟨rfl, rfl⟩ (Or.inr (Or.inl ⟨_, rfl⟩))
  · exact h1

end Sys2Proof.Machine
end

section
/-! SUPPORT. What it is for an operation and for a command to keep the invariant, with station time and STEP. `Sound` says it of all of
the invariant but the reports that wait, `Calm` beside that no report is made, and `Closes` that none is left waiting where none
waited. -/

namespace Sys2Proof.Machine

variable {s0 s t u : State} {c : Channel} {o : OutletNo}

/-! ## The invariant without the reports -/

/-- The invariant but for the reports that wait, the channels and outlets in the words of `State.Agreed`. -/
structure State.Firm (s : State) : Prop where
  stepInRange : s.StepInRange
  attention : s.AttentionRight
  air : s.AirRight
  transmit : s.TransmitRight
  sendOrder : s.SendOrderRight
  outlets : s.OutletsBounded
  queues : s.QueuesBounded
  counts : s.CountsSaturate
  lists : s.ListsRight
  pool : s.PoolWhole
  agreed : s.Agreed

theorem inv_iff (s : State) : s.Inv ↔ s.Firm ∧ s.reports = [] := by
  constructor
  · intro h
    exact ⟨⟨h.stepInRange, h.attention, h.air, h.transmit, h.sendOrder, h.outlets, h.queues, h.counts, h.lists, h.pool,
      (agreed_iff s).2 ⟨h.channels, h.places, h.runs, h.beforeStart⟩⟩, h.settled⟩
  · rintro ⟨h, hr⟩
    obtain ⟨hd, hp, hruns, hb⟩ := (agreed_iff s).1 h.agreed
    exact ⟨h.stepInRange, h.attention, h.air, h.transmit, h.sendOrder, h.outlets, h.queues, h.counts, hd, h.lists, h.pool, hr, hp,
      hruns, hb⟩

/-! ## Three ways of keeping it -/

/-- Station time and STEP stay, and so does the invariant but for the reports that wait. -/
structure Sound (s t : State) : Prop where
  clock : t.tb.now = s.tb.now ∧ t.tb.step = s.tb.step
  firm : s.Firm → t.Firm

theorem Sound.refl (s : State) : Sound s s := ⟨⟨rfl, rfl⟩, id⟩

theorem Sound.trans (h : Sound s t) (k : Sound t u) : Sound s u :=
  ⟨⟨k.clock.1.trans h.clock.1, k.clock.2.trans h.clock.2⟩, fun x => k.firm (h.firm x)⟩

/-- `Sound`, and no report is made or acted on. -/
structure Calm (s t : State) : Prop extends Sound s t where
  reports : t.reports = s.reports

theorem Calm.refl (s : State) : Calm s s := ⟨.refl s, rfl⟩

theorem Calm.trans (h : Calm s t) (k : Calm t u) : Calm s u := ⟨h.toSound.trans k.toSound, k.reports.trans h.reports⟩

theorem Calm.after (k : Calm t u) (h : Calm s t) : Calm s u := h.trans k

/-- `Sound`, and no report is left waiting where none waited. -/
structure Closes (s t : State) : Prop extends Sound s t where
  settled : s.reports = [] → t.reports = []

theorem Closes.refl (s : State) : Closes s s := ⟨.refl s, id⟩

theorem Calm.closes (h : Calm s t) : Closes s t := ⟨h.toSound, fun e => h.reports.trans e⟩

theorem Closes.trans (h : Closes s t) (k : Closes t u) : Closes s u := ⟨h.toSound.trans k.toSound, fun e => k.settled (h.settled e)⟩

theorem Closes.after (k : Closes t u) (h : Closes s t) : Closes s u := h.trans k

theorem Closes.calm (h : Closes s t) (k : Calm t u) : Closes s u := h.trans k.closes

theorem Closes.inv (h : Closes s t) (hs : s.Inv) : t.Inv := by
  obtain ⟨hf, hr⟩ := (inv_iff s).1 hs
  exact (inv_iff t).2 ⟨h.firm hf, h.settled hr⟩

/-! ## From what the shared operations keep -/

theorem Keeps.outer (k : Keeps s t) : KeepsOuter s t := k.toKeepsOuter

theorem Tends.outer (k : Tends s t) : KeepsOuter s t := k.toKeepsOuter

/-- The limits of Safety follow from `KeepsOuter`, the agreement of channels and outlets from `KeepsPlaces` and its like. -/
theorem KeepsOuter.sound (k : KeepsOuter s t) (ha : s.Agreed → t.Agreed) : Sound s t where
  clock := by rw [k.tb]; exact ⟨rfl, rfl⟩
  firm h := by
    have hlosses : t.bus.core.losses = s.bus.core.losses := congrArg BusCtl.losses k.bus
    have hmalformed : t.bus.core.malformed = s.bus.core.malformed := congrArg BusCtl.malformed k.bus
    have hlate : t.cue.core.late = s.cue.core.late := congrArg CueLink.late k.cue
    obtain ⟨hf, hd, hl, hb, hlo, hm, ha', hn⟩ := h.counts
    exact {
      stepInRange := by unfold State.StepInRange; rw [k.tb]; exact h.stepInRange
      attention := k.attention h.attention
      air := k.air h.air
      transmit := k.transmit h.transmit
      sendOrder := k.sendOrder h.sendOrder
      outlets := k.outlets h.outlets
      queues := ⟨by rw [k.feed]; exact h.queues.1, k.asrun h.queues.2⟩
      counts := ⟨by rw [k.feed]; exact hf, by rw [k.feed]; exact hd, hlate.trans_le hl, k.busDrops hb,
        hlosses.trans_le hlo, hmalformed.trans_le hm, k.asrunDrops ha', k.noticeCounts hn⟩
      lists := k.lists h.agreed.distinct h.lists
      pool := k.poolWhole h.agreed.distinct h.pool
      agreed := ha h.agreed }

theorem KeepsOuter.calm (k : KeepsOuter s t) (ha : s.Agreed → t.Agreed) (hr : t.reports = s.reports) : Calm s t := ⟨k.sound ha, hr⟩

theorem Sound.settle (h : Sound s t) : Closes s t.settle :=
  ⟨h.trans ((tends_settle (.refl t)).outer.sound (places_settle (.refl t)).agreed), fun _ => settle_reports t⟩

/-- Served requests make no report (R18). -/
theorem Served.calm (h : Served s t) (k : KeepsPlaces s t) : Calm s t := h.tends.outer.calm k.agreed h.reports

theorem calm_serveAll (s : State) : Calm s s.serveAll := (serveAll_served s).calm (places_serveAll (.refl s))

theorem mirrorTurn_served (s : State) (c : Channel) : Served s (s.mirrorTurn c) := by
  unfold State.mirrorTurn
  split
  · exact serveAll_served s
  · exact .refl s

theorem outletTurn_served (s : State) (o : OutletNo) : Served s (s.outletTurn o) := by
  unfold State.outletTurn
  split
  · exact .refl s
  · exact mirrorTurn_served s _

theorem calm_mirrorTurn (s : State) (c : Channel) : Calm s (s.mirrorTurn c) :=
  (mirrorTurn_served s c).calm (places_mirrorTurn (.refl s) c)

theorem calm_outletTurn (s : State) (o : OutletNo) : Calm s (s.outletTurn o) :=
  (outletTurn_served s o).calm (places_outletTurn (.refl s) o)

/-- A change of one notice class, its count within 255 (R186). -/
theorem calm_modNotice (s : State) (i : Fin 12) (f : Notice → Notice)
    (hf : s.notices[i].count ≤ 255 → (f s.notices[i]).count ≤ 255) :
    Calm s (s.modNotice i f) := by
  refine ⟨⟨⟨rfl, rfl⟩, fun h => ?_⟩, rfl⟩
  obtain ⟨h1, h2, h3, h4, h5, h6, h7, h8⟩ := h.counts
  refine { h with
    attention := modNotice_attention s i f
    counts := ⟨h1, h2, h3, h4, h5, h6, h7, fun j => ?_⟩
    agreed := h.agreed.same (samePlaces_of_eq rfl rfl rfl) }
  rw [modNotice_get]
  split
  · exact hf (h8 i)
  · exact h8 j

theorem calm_raise (s : State) (cls : NoticeClass) (b : Byte) (d : NoticeCode) : Calm s (s.raise cls b d) :=
  calm_modNotice s _ _ fun _ => Nat.min_le_left _ _

theorem calm_offerFrame (s : State) (f : Frame) : Calm s (s.offerFrame f) :=
  (keeps_offerFrame (.refl s) f).outer.calm (places_offerFrame (.refl s) f).agreed (claimsOnly_offerFrame s f).reports

theorem calm_modTk (s : State) (c : Channel) (f : TakeoverRec → TakeoverRec) (ha : s.Agreed → (s.modTk c f).Agreed) :
    Calm s (s.modTk c f) := (keeps_modTk (.refl s) c f).outer.calm ha rfl

theorem calm_check (s : State) (c : Channel) : Calm s (s.check c) :=
  (keeps_check (.refl s) c).outer.calm (places_check (.refl s) c).agreed (claimsOnly_check s c).reports

theorem calm_pass (s : State) : Calm s s.pass :=
  (keeps_pass (.refl s)).outer.calm (places_pass (.refl s)).agreed (claimsOnly_pass s).reports

theorem calm_timeClassChanged (s : State) : Calm s s.timeClassChanged :=
  (keeps_timeClassChanged (.refl s)).outer.calm (places_timeClassChanged (.refl s)).agreed (claimsOnly_timeClassChanged s).reports

theorem calm_busLeftActive (s : State) : Calm s s.busLeftActive :=
  (keeps_busLeftActive (.refl s)).outer.calm (places_busLeftActive (.refl s)).agreed (claimsOnly_busLeftActive s).reports

theorem calm_holderGone (s : State) (c : Channel) : Calm s (s.holderGone c) :=
  (keeps_holderGone (.refl s) c).outer.calm (places_holderGone (.refl s) c).agreed (claimsOnly_holderGone s c).reports

theorem calm_leaveYielded {ch : Chan} (hc : s.chan? c = some ch) (hs : ch.tk.state = .yielded) : Calm s (s.leaveYielded c) :=
  (keeps_leaveYielded (.refl s) c).outer.calm (places_leaveYielded (.refl s) hc hs).agreed (claimsOnly_leaveYielded s c (fun x hx => by
    rw [hc] at hx; cases hx; exact hs)).reports

theorem calm_assertHold (s : State) (c : Channel) : Calm s (s.assertHold c) := by
  refine (keeps_assertHold (.refl s) c).outer.calm (places_assertHold (.refl s) c).agreed ?_
  unfold State.assertHold
  split
  · rfl
  · split
    · rfl
    · exact (claimsOnly_offerFrame s _).reports

theorem conditionChanged_reports (s : State) (c : Channel) : (s.conditionChanged c).reports = s.reports :=
  (claimsOnly_conditionChanged s c).reports

theorem setCondition_reports (s : State) (c : Channel) (f : Condition → Condition) : (s.setCondition c f).reports = s.reports := by
  unfold State.setCondition
  split
  · rfl
  · dsimp only
    split
    · rfl
    · rw [conditionChanged_reports]; split <;> rfl

theorem calm_markStale (s : State) (c : Channel) : Calm s (s.markStale c) :=
  (keepsOuter_markStale (.refl s) c).calm (places_markStale (.refl s) c).agreed (setCondition_reports s c _)

theorem abandonFilling_reports (s : State) (c : Channel) : (s.abandonFilling c).reports = s.reports := by
  unfold State.abandonFilling; split <;> rfl

theorem calm_abandonFilling (s : State) (c : Channel) : Calm s (s.abandonFilling c) :=
  (keepsOuter_abandonFilling (.refl s) c).calm (places_abandonFilling (.refl s) c).agreed (abandonFilling_reports s c)

/-! ## Fields outside the channels and the outlets -/

theorem State.Agreed.elsewhere (h : s.Agreed) (hl : t.locked = s.locked) (hc : t.chans = s.chans) (ho : t.outlets = s.outlets) :
    t.Agreed := h.same (samePlaces_of_eq hl hc ho)

theorem calm_port (s : State) (p : Port) : Calm s { s with port := p } :=
  ⟨⟨⟨rfl, rfl⟩, fun h => { h with agreed := h.agreed.elsewhere rfl rfl rfl }⟩, rfl⟩

theorem calm_done (s : State) (d : List Byte) : Calm s (s.done d) := calm_port s _

theorem calm_clamped (s : State) (d : List Byte) : Calm s (s.clamped d) := calm_port s _

theorem calm_refuse (s : State) (r : RefuseReason) : Calm s (s.refuse r) := calm_port s _

theorem calm_pending (s : State) (l : List Instr) : Calm s { s with pending := l } :=
  ⟨⟨⟨rfl, rfl⟩, fun h => { h with agreed := h.agreed.elsewhere rfl rfl rfl }⟩, rfl⟩

theorem calm_station (s : State) (p : Option StationPart) : Calm s { s with station := p } :=
  ⟨⟨⟨rfl, rfl⟩, fun h => { h with agreed := h.agreed.elsewhere rfl rfl rfl }⟩, rfl⟩

theorem calm_reqs (s : State) (l : List MirrorReq) : Calm s { s with mirrorReqs := l } :=
  ⟨⟨⟨rfl, rfl⟩, fun h => { h with agreed := h.agreed.elsewhere rfl rfl rfl }⟩, rfl⟩

theorem sat16_le (n : Nat) : sat16 n ≤ 65535 := Nat.min_le_left _ _

/-- A change of the time base but for station time and STEP. -/
theorem calm_tb (s : State) (b : TimeBase) (hn : b.now = s.tb.now) (hs : b.step = s.tb.step) : Calm s { s with tb := b } :=
  ⟨⟨⟨hn, hs⟩, fun h => { h with
    agreed := h.agreed.elsewhere rfl rfl rfl
    stepInRange := by unfold State.StepInRange; rw [show b.step = _ from hs]; exact h.stepInRange }⟩, rfl⟩

theorem calm_feed (s : State) (x : FeedRx) (hi : s.feed.ingest.length ≤ 24 → x.ingest.length ≤ 24)
    (hf : s.feed.faults ≤ 65535 → x.faults ≤ 65535) (hd : s.feed.drops ≤ 65535 → x.drops ≤ 65535) :
    Calm s { s with feed := x } :=
  ⟨⟨⟨rfl, rfl⟩, fun h => { h with
    agreed := h.agreed.elsewhere rfl rfl rfl
    queues := ⟨hi h.queues.1, h.queues.2⟩
    counts := ⟨hf h.counts.1, hd h.counts.2.1, h.counts.2.2⟩ }⟩, rfl⟩

/-- A change of the cue link but for the send order. -/
theorem calm_cue (s : State) (x : CueLink) (ho : x.sendOrder = s.cue.sendOrder) (hl : s.cue.late ≤ 65535 → x.late ≤ 65535) :
    Calm s { s with cue := x } :=
  ⟨⟨⟨rfl, rfl⟩, fun h => by
    obtain ⟨h1, h2, h3, h4⟩ := h.counts
    exact { h with
      agreed := h.agreed.elsewhere rfl rfl rfl
      sendOrder := by unfold State.SendOrderRight; rw [show x.sendOrder = _ from ho]; exact h.sendOrder
      counts := ⟨h1, h2, hl h3, h4⟩ }⟩, rfl⟩

theorem calm_bus (s : State) (b : BusCtl) (hq : QueueRight s.bus.queue → QueueRight b.queue)
    (hd : s.bus.drops ≤ 65535 → b.drops ≤ 65535 := by exact id) (hl : s.bus.losses ≤ 65535 → b.losses ≤ 65535 := by exact id)
    (hm : s.bus.malformed ≤ 65535 → b.malformed ≤ 65535 := by exact id) : Calm s { s with bus := b } :=
  ⟨⟨⟨rfl, rfl⟩, fun h => by
    obtain ⟨h1, h2, h3, h4, h5, h6, h7⟩ := h.counts
    exact { h with
      agreed := h.agreed.elsewhere rfl rfl rfl
      transmit := hq h.transmit
      counts := ⟨h1, h2, h3, hd h4, hl h5, hm h6, h7⟩ }⟩, rfl⟩

theorem calm_setRx (s : State) (r : BusRx) (n : Nat) : Calm s (s.setRx r n) := calm_bus s _ id

theorem calm_countMalformed (s : State) : Calm s s.countMalformed := calm_bus s _ id (hm := fun _ => sat16_le _)

theorem calm_setPeer (s : State) (st : Station) (p : Peer) : Calm s (s.setPeer st p) := calm_bus s _ id

theorem calm_hearPeer (s : State) (f : Frame) : Calm s (s.hearPeer f) := Calm.after (calm_bus _ _ id) (calm_setPeer s _ _)

theorem calm_endAttempt (s : State) : Calm s s.endAttempt := calm_bus s _ id

theorem calm_setFraming (s : State) (f : Framing) : Calm s (s.setFraming f) := calm_feed s _ id id id

theorem calm_feedFault (s : State) : Calm s s.feedFault := calm_feed s _ id (fun _ => sat16_le _) id

theorem calm_setCueFraming (s : State) (f : Framing) : Calm s (s.setCueFraming f) := calm_cue s _ rfl id

theorem calm_countLate (s : State) : Calm s s.countLate := calm_cue s _ rfl fun _ => sat16_le _

/-- A change of channel records but for their places, their pool records and what R21 bounds. -/
theorem calm_modChan (s : State) (c : Channel) (f : Chan → Chan) (hf : ∀ x : Chan, (f x).part.channel = x.part.channel)
    (hp : ∀ x : Chan, (f x).place = x.place) (hs : ∀ x : Chan, (f x).slots = x.slots)
    (hl : ∀ x : Chan, x.ListsRight → (f x).ListsRight) : Calm s (s.modChan c f) := by
  refine ⟨⟨⟨rfl, rfl⟩, fun h => { h with lists := ?_, pool := ?_, agreed := h.agreed.same (same_modChan s c f hf hp) }⟩, rfl⟩
  · intro ch hm
    obtain ⟨e, he, rfl⟩ := List.mem_map.1 hm
    split
    · exact hl e (h.lists e he)
    · exact h.lists e he
  · have hpool := h.pool
    unfold State.PoolWhole at hpool ⊢
    rw [List.perm_iff_count] at hpool ⊢
    intro a
    rw [← hpool a, count_poolSlots, count_poolSlots, flatMap_modChan s c f (fun x => by rw [hs])]
    rfl

theorem calm_modWatch (s : State) (c : Channel) (f : WatchRec → WatchRec) : Calm s (s.modWatch c f) :=
  calm_modChan s c _ (fun _ => rfl) (fun _ => rfl) (fun _ => rfl) fun _ h => ⟨h.1, h.2, h.3, h.4, h.5⟩

end Sys2Proof.Machine
end

section
/-! SUPPORT. The commands of the time base, of the takeover unit's deadlines and of the site bus keep the invariant, station time and
STEP (01_station_time.md, 05_the_site_bus.md, 06_claims_and_takeover.md). -/

namespace Sys2Proof.Machine

variable {s t u : State} {c : Channel} {o : OutletNo}

/-- Every next state of a command closes: the invariant is kept, and station time and STEP stay. -/
def Closing (i : Instr) (s : State) : Prop := ∀ t, exec i s = .next t → Closes s t

theorem closing_of {i : Instr} (h : exec i s = .next t) (k : Closes s t) : Closing i s := by
  intro u hu
  cases h.symm.trans hu
  exact k

/-- A change of a takeover record but for its state, its outlet and whether it has handback fields. -/
theorem calm_modTk_same (s : State) (c : Channel) (f : TakeoverRec → TakeoverRec)
    (hf : ∀ tk, (f tk).state = tk.state ∧ (f tk).outlet = tk.outlet ∧ (f tk).handback.isSome = tk.handback.isSome := by
      exact fun _ => ⟨rfl, rfl, rfl⟩) : Calm s (s.modTk c f) :=
  calm_modTk s c f (places_modTk (.refl s) c f hf).agreed

theorem calm_setAwaitLive (s : State) (c : Channel) : Calm s (s.setAwaitLive c) :=
  (keeps_setAwaitLive (.refl s) c).outer.calm (fun h => h.same (same_setAwaitLive s c)) rfl

/-! ## Time base -/

theorem State.Firm.withTb (h : s.Firm) (b : TimeBase) (hb : 21470541 ≤ b.step ∧ b.step ≤ 21479131) : State.Firm { s with tb := b } :=
  { h with agreed := h.agreed.elsewhere rfl rfl rfl, stepInRange := hb }

theorem calm_enterHoldover (s : State) : Calm s s.enterHoldover :=
  (calm_timeClassChanged _).after ((calm_raise _ .timeOrAsrun _ _).after (calm_tb s _ rfl rfl))

theorem calm_suspect (s : State) : Calm s s.suspect := by
  unfold State.suspect
  split
  · split
    · exact calm_tb s _ rfl rfl
    · exact calm_enterHoldover s
  · exact .refl s

theorem closing_missingPulse (s : State) : Closing .missingPulse s := by
  refine closing_of rfl (Calm.closes ?_)
  split
  · dsimp only
    split
    · exact (calm_suspect _).after (calm_tb s _ rfl rfl)
    · exact calm_tb s _ rfl rfl
  · exact .refl s

theorem closing_referenceSilence (s : State) : Closing .referenceSilence s := by
  refine closing_of rfl (Calm.closes ?_)
  split
  · dsimp only
    split
    · exact (calm_enterHoldover _).after (calm_tb s _ rfl rfl)
    · exact calm_tb s _ rfl rfl
  · exact .refl s

/-- A reference pulse that closes no accepted measurement. -/
theorem closing_referencePulse (h : ¬ (s.tb.state ≠ .freeRun ∧ s.tb.measuring = true ∧ 256 ≤ s.tb.periods + 1 ∧ s.Accepted)) :
    Closing .referencePulse s := by
  by_cases hf : s.tb.state = .freeRun
  · exact closing_of (exec_referencePulse_freeRun hf) (.refl s)
  · by_cases hc : s.tb.measuring = true ∧ 256 ≤ s.tb.periods + 1
    · have ha : ¬ s.Accepted := fun ha => h ⟨hf, hc.1, hc.2, ha⟩
      exact closing_of (exec_referencePulse_suspect hf hc.1 hc.2 ha)
        ((calm_tb s s.pulsed rfl rfl).trans (calm_suspect _)).closes
    · refine closing_of (exec_referencePulse hf) (Calm.closes ?_)
      refine Calm.trans (calm_tb s s.stampPulse.tb rfl rfl : Calm s s.stampPulse) ?_
      unfold State.countPulse
      split
      · exact calm_tb _ _ rfl rfl
      · rename_i hm
        split
        · exact calm_tb _ _ rfl rfl
        · rename_i hp
          refine absurd ⟨?_, ?_⟩ hc
          · have : ¬ (!s.tb.measuring) = true := hm
            simpa using this
          · have : ¬ s.tb.periods + 1 < 256 := hp
            omega

/-- An accepted measurement keeps the invariant and station time, and sets STEP (R7). -/
theorem accept_keeps (s : State) (n : Nat) : (s.Firm → (s.accept n).Firm) ∧ (s.accept n).reports = s.reports ∧
    (s.accept n).tb.now = s.tb.now ∧ (s.accept n).tb.step = stepFor s.refPeriod n := by
  have hfirm : s.Firm → State.Firm { s with tb := { s.tb with step := stepFor s.refPeriod n, state := .locked, suspectRun := 0 } } :=
    fun h => h.withTb _ (stepFor_inRange _ _)
  by_cases hl : s.tb.state = .locked
  · rw [accept_locked hl]
    exact ⟨hfirm, rfl, rfl, rfl⟩
  · rw [accept_enters hl]
    have hk := calm_timeClassChanged { s with tb := { s.tb with step := stepFor s.refPeriod n, state := .locked, suspectRun := 0 } }
    exact ⟨fun h => hk.firm (hfirm h), hk.reports, hk.clock.1, hk.clock.2⟩

/-! ## Deadlines of the takeover unit -/

theorem closing_foreignClaimExpiry (s : State) (c : Channel) : Closing (.foreignClaimExpiry c) s := by
  refine closing_of rfl (Calm.closes ?_)
  split
  · exact .refl s
  · split
    · exact calm_modTk_same s c _
    · exact .refl s

theorem closing_holderDeadline (s : State) (c : Channel) : Closing (.holderDeadline c) s := by
  refine closing_of rfl (Calm.closes ?_)
  split
  · exact .refl s
  · split
    · exact (calm_modTk_same s c (fun tk => { tk with holder := none })).trans (calm_holderGone _ c)
    · exact .refl s

theorem closing_yieldDeadline (s : State) (c : Channel) : Closing (.yieldDeadline c) s := by
  refine closing_of rfl (Calm.closes ?_)
  split
  · exact .refl s
  · rename_i ch hc
    split
    · rename_i hy
      exact calm_leaveYielded hc hy.1
    · exact .refl s

theorem closing_holdDeadline (s : State) (c : Channel) : Closing (.holdDeadline c) s := by
  refine closing_of rfl (Calm.closes ?_)
  split
  · exact .refl s
  · split
    · exact calm_assertHold s c
    · exact .refl s

theorem keeps_enterJoining (s : State) (c : Channel) : Keeps s (s.enterJoining c) := by
  unfold State.enterJoining
  split
  · exact .refl s
  · split
    · exact keeps_openRun (keeps_assertHold (keeps_modTk (.refl s) _ _) _) _ _ _ _
    · exact .refl s

theorem closing_claimWindowEnd (s : State) (c : Channel) : Closing (.claimWindowEnd c) s := by
  refine closing_of rfl ?_
  split
  · dsimp only
    split
    · rename_i hw
      exact ((calm_serveAll s).toSound.trans
        ((keeps_enterJoining _ c).outer.sound fun h => agreed_enterJoining h hw)).settle
    · exact (calm_serveAll s).closes
  · exact .refl s

/-! ## Frames heard -/

theorem leaveContending_reports (s : State) (c : Channel) (n : TakeoverState) : (s.leaveContending c n).reports = s.reports := by
  unfold State.leaveContending
  split
  · rfl
  · dsimp only
    split <;> rfl

theorem keeps_modTk_if (s : State) (c : Channel) (f : TakeoverRec → TakeoverRec) (p : Prop) [Decidable p] :
    Keeps s (if p then s.modTk c f else s) ∧ (if p then s.modTk c f else s).reports = s.reports := by
  split
  · exact ⟨keeps_modTk (.refl s) c f, rfl⟩
  · exact ⟨.refl s, rfl⟩

theorem calm_takeClaim (s : State) (c : Channel) (k : Key) : Calm s (s.takeClaim c k) := by
  refine KeepsOuter.calm ?_ (fun h => agreed_takeClaim h c k) ?_ <;> unfold State.takeClaim <;> split
  · exact .refl s
  · dsimp only
    split
    · exact (keeps_pass (keeps_armYield (keeps_leaveContending (keeps_modTk_if s c _ _).1 _ _) _)).outer
    · exact (keeps_modTk_if s c _ _).1.outer
  · rfl
  · dsimp only
    split
    · rw [(claimsOnly_pass _).reports, State.armYield_reports, leaveContending_reports]; exact (keeps_modTk_if s c _ _).2
    · exact (keeps_modTk_if s c _ _).2

theorem calm_recordHold {ch : Chan} (hc : s.chan? c = some ch) (x : Holder) : Calm s (s.recordHold c ch x) := by
  obtain ⟨hk, hr⟩ := keeps_modTk_if s c (fun tk => { tk with holder := some x }) (replacesHolder ch.tk.holder x.key = true)
  refine KeepsOuter.calm ?_ (fun h => agreed_recordHold h hc x) ?_ <;> unfold State.recordHold <;> dsimp only <;> split
  · exact (keeps_pass (keeps_leaveContending hk _ _)).outer
  · split
    · exact (keeps_modTk hk _ _).outer
    · exact hk.outer
  · split
    · exact (keeps_check hk _).outer
    · exact hk.outer
  · rw [(claimsOnly_pass _).reports, leaveContending_reports]; exact hr
  · split
    · exact hr
    · exact hr
  · split
    · rw [(claimsOnly_check _ _).reports]; exact hr
    · exact hr

theorem keeps_standDown (s : State) (c : Channel) (ch : Chan) (own : Key) (x : Holder) : Keeps s (s.standDown c ch own x) := by
  unfold State.standDown
  dsimp only
  refine keeps_modTk (keeps_raise (keeps_closeRun (keeps_offerRelease ?_ _ _ _) _ _) _ _ _) _ _
  split
  · exact keeps_stopNow (.refl s) _
  · exact .refl s

theorem closes_takeHold (s : State) (c : Channel) (k : Key) (st : HoldState) (v : Version) (e : EventId) :
    Closes s (s.takeHold c k st v e) := by
  unfold State.takeHold
  split
  · exact .refl s
  · rename_i ch hc
    dsimp only
    split
    · rename_i hh
      refine Sound.settle ?_
      unfold State.compareHold
      split
      · exact .refl s
      · split
        · exact (keeps_standDown s c ch _ _).outer.sound fun h => agreed_standDown h hc hh _ _
        · exact (calm_assertHold s c).toSound
    · split
      · exact .refl s
      · exact (calm_recordHold hc _).closes

theorem calm_takeRelease (s : State) (c : Channel) (k : Key) (r : ReleaseReason) : Calm s (s.takeRelease c k r) := by
  unfold State.takeRelease
  split
  · exact .refl s
  · split
    · exact .refl s
    · split
      · refine Calm.trans ?_ (calm_holderGone _ c)
        have h1 : Calm s (s.modTk c (fun tk => { tk with holder := none })) := calm_modTk_same s c _
        split
        · exact h1.trans (calm_setAwaitLive _ c)
        · exact h1
      · exact .refl s

theorem closes_handOn (s : State) (f : Frame) : Closes s (s.handOn f) := by
  unfold State.handOn
  dsimp only
  split
  · exact (calm_takeClaim s _ _).closes
  · exact closes_takeHold s _ _ _ _ _
  · exact (calm_takeRelease s _ _ _).closes
  · exact .refl s

theorem closes_goodFrame (s : State) (f : Frame) : Closes s (s.goodFrame f) := by
  unfold State.goodFrame
  split
  · exact (calm_raise s _ _ _).closes
  · exact (calm_hearPeer s f).closes.trans (closes_handOn _ f)

theorem calm_frameTurn (s : State) (f : Frame) : Calm s (s.frameTurn f) := by
  unfold State.frameTurn
  split
  · split
    · exact .refl s
    · exact calm_mirrorTurn s _
  · exact .refl s

theorem closes_closeFrame (s : State) (f : Frame) : Closes s (s.closeFrame f) := by
  unfold State.closeFrame
  split
  · exact .refl s
  · split
    · exact ((calm_frameTurn s f).trans (calm_setRx _ _ _)).closes.trans (closes_goodFrame _ f)
    · exact ((calm_setRx s _ _).trans (calm_countMalformed _)).closes

theorem closing_busFree (s : State) : Closing .busFree s := by
  refine closing_of rfl (Calm.closes ?_)
  split
  · exact calm_setRx s _ _
  · exact .refl s

theorem closing_busHeaderMalformed (s : State) : Closing .busHeaderMalformed s := by
  refine closing_of rfl (Calm.closes ?_)
  split
  · exact (calm_countMalformed s).trans (calm_setRx _ _ _)
  · exact .refl s

theorem closing_malformedFrame (s : State) (raw : RawFrame) : Closing (.malformedFrame raw) s := by
  refine closing_of rfl ?_
  split
  · exact .refl s
  · split
    · exact closes_closeFrame s _
    · exact ((calm_countMalformed s).trans (calm_setRx _ _ _)).closes

/-! ## Sending -/

theorem takeFirst_sublist {α : Type} (p : α → Bool) : ∀ {l : List α} {x : α} {rest : List α},
    takeFirst p l = some (x, rest) → rest.Sublist l := by
  intro l
  induction l with
  | nil => intro _ _ h; cases h
  | cons a l ih =>
    intro x rest h
    unfold takeFirst at h
    split at h
    · cases h; exact List.sublist_cons_self _ _
    · split at h
      · rename_i hr
        cases h; exact (ih hr).cons_cons a
      · cases h

theorem takeForAttempt_sublist {st : BusState} {q rest : List Frame} {f : Frame} (h : takeForAttempt st q = some (f, rest)) :
    rest.Sublist q := by
  unfold takeForAttempt at h
  split at h
  · exact takeFirst_sublist _ h
  · exact takeFirst_sublist _ h
  · cases h
  · cases h

theorem closing_attempt (s : State) : Closing .attempt s := by
  refine closing_of rfl (Calm.closes ?_)
  split
  · split
    · rename_i hq
      exact calm_bus s _ fun h => h.sublist (takeForAttempt_sublist hq)
    · exact .refl s
  · exact .refl s

theorem enqueueBy_reports (s : State) (place : Frame → List Frame → List Frame) (f : Frame) :
    (s.enqueueBy place f).reports = s.reports ∧ SamePlaces s (s.enqueueBy place f) := by
  unfold State.enqueueBy
  dsimp only
  repeat' split
  all_goals exact ⟨rfl, samePlaces_of_eq rfl rfl rfl⟩

/-- A frame returned to the queue keeps the queue's order and its coalescing (R84, R86, R87). -/
theorem calm_returnFrame (s : State) (a : Attempt) : Calm s (s.returnFrame a) := by
  unfold State.returnFrame
  split
  · exact .refl s
  · split
    · exact .refl s
    · rename_i ha
      have hc : ∀ g ∈ s.bus.queue, coalesces a.frame.body g.body = false := by
        intro g hg
        simpa using fun hx => ha (List.any_eq_true.2 ⟨g, hg, hx⟩)
      exact (keeps_enqueueBy (.refl s) insertReturned_good a.frame hc).outer.calm
        (fun h => h.same (enqueueBy_reports s _ _).2) (enqueueBy_reports s _ _).1

theorem closing_arbitrationLoss (s : State) : Closing .arbitrationLoss s := by
  refine closing_of rfl (Calm.closes ?_)
  split
  · exact .refl s
  · exact (calm_returnFrame _ _).after (Calm.after (calm_bus _ _ id (hl := fun _ => sat16_le _)) (calm_endAttempt s))

theorem calm_enterQuiet (s : State) : Calm s s.enterQuiet := by
  have h1 : Calm s (State.raise { s with bus := { s.bus with
      state := .quiet, quietFromListening := s.bus.state == .listeningIn, quietDl := some (plus s.now (msGrains Config.quietMs)) } }
      .busQuiet 0 (.busQuiet (s.bus.state == .listeningIn))) := (calm_raise _ .busQuiet _ _).after (calm_bus s _ id)
  unfold State.enterQuiet
  dsimp only
  split
  · exact h1.trans (calm_busLeftActive _)
  · exact h1

theorem closing_bitFault (s : State) : Closing .bitFault s := by
  refine closing_of rfl (Calm.closes ?_)
  split
  · exact .refl s
  · rename_i a _
    have h1 := ((calm_endAttempt s).trans (calm_bus _ { s.endAttempt.bus with faults := s.endAttempt.bus.faults + 1 } id)).trans
      (calm_returnFrame _ a)
    dsimp only
    split
    · exact h1.trans (calm_enterQuiet _)
    · exact h1

theorem calm_claimSentReport (s : State) (c : Channel) (m : Byte) : Calm s (s.claimSentReport c m) := by
  unfold State.claimSentReport
  split
  · exact .refl s
  · split
    · exact calm_modTk_same s c _
    · exact .refl s

theorem closing_sentWhole (s : State) : Closing .sentWhole s := by
  refine closing_of rfl (Calm.closes ?_)
  split
  · exact .refl s
  · have h1 := ((calm_endAttempt s).trans (calm_bus _ { s.endAttempt.bus with faults := 0 } id)).trans (calm_setRx _ .hunt 1)
    dsimp only
    split
    · exact h1.trans (calm_claimSentReport _ _ _)
    · exact h1

/-! ## Deadlines of the bus controller -/

theorem calm_offerStatus (s : State) : Calm s s.offerStatus := calm_offerFrame s _

theorem calm_freshStatus (s : State) : Calm s s.freshStatus := Calm.after (calm_bus _ _ id) (calm_offerStatus s)

theorem closing_quietDeadline (s : State) : Closing .quietDeadline s := by
  refine closing_of rfl (Calm.closes ?_)
  split
  · dsimp only
    split
    · exact (calm_freshStatus _).after (calm_bus s _ id)
    · exact (calm_pass _).after ((calm_freshStatus _).after (calm_bus s _ id))
  · exact .refl s

theorem closing_listeningInDeadline (s : State) : Closing .listeningInDeadline s := by
  refine closing_of rfl (Calm.closes ?_)
  split
  · dsimp only
    split
    · exact (calm_pass _).after (calm_bus s _ id)
    · exact calm_bus s _ id
  · exact .refl s

theorem closing_statusDeadline (s : State) : Closing .statusDeadline s := by
  refine closing_of rfl (Calm.closes ?_)
  split
  · dsimp only
    split
    · exact (calm_offerStatus _).after (calm_bus s _ id)
    · exact calm_bus s _ id
  · exact .refl s

theorem closing_peerSilenceDeadline (s : State) (st : Station) : Closing (.peerSilenceDeadline st) s := by
  refine closing_of rfl (Calm.closes ?_)
  split
  · exact (calm_raise _ .peerSilent _ _).after (calm_setPeer s _ _)
  · exact .refl s

end Sys2Proof.Machine
end

section
/-! SUPPORT. The commands of the channel watch, of handbacks, of the runner and of the cue port keep the invariant, station time and
STEP (04_channel_watch.md, 08_running_a_taken_channel.md, 09_outlets_and_the_cue_port.md, 10_handback.md). -/

namespace Sys2Proof.Machine

variable {s t u : State} {c : Channel} {o : OutletNo}

/-! ## Channel watch -/

theorem sound_watchReport (s : State) (c : Channel) (v w : WatchState) : Sound s (s.watchReport c v w) :=
  (tends_watchReport (.refl s) c v w).outer.sound fun h => agreed_watchReport h c v w

theorem sound_setWatch (s : State) (c : Channel) (w : WatchState) (cause : LostCause) : Sound s (s.setWatch c w cause) := by
  unfold State.setWatch
  split
  · exact .refl s
  · split
    · exact .refl s
    · refine Sound.trans ?_ (sound_watchReport _ _ _ _)
      split
      · exact ((calm_modWatch s c _).trans (calm_raise _ _ _ _)).toSound
      · exact (calm_modWatch s c _).toSound

theorem closes_takeBeacon (s : State) (b : BeaconMsg) : Closes s (s.takeBeacon b) := by
  unfold State.takeBeacon
  split
  · exact .refl s
  · refine Sound.settle (Sound.trans ?_
      ((tends_takeOffer (.refl _) _ _).outer.sound fun h => agreed_takeOffer h _ _))
    exact ((calm_modWatch s _ _).toSound.trans (sound_setWatch _ _ _ _)).trans (calm_reqs _ _).toSound

theorem closing_beacon (s : State) (b : BeaconMsg) : Closing (.beacon b) s := by
  refine closing_of rfl ?_
  split
  · exact (closes_takeBeacon _ b).after (calm_setFraming s _).closes
  · exact .refl s

theorem closing_doubtfulDeadline (s : State) (c : Channel) : Closing (.doubtfulDeadline c) s := by
  refine closing_of rfl ?_
  split
  · exact .refl s
  · split
    · dsimp only
      split
      · exact ((calm_modWatch s c _).toSound.trans (sound_setWatch _ _ _ _)).settle
      · exact (calm_modWatch s c _).closes
    · exact .refl s

theorem closing_lostDeadline (s : State) (c : Channel) : Closing (.lostDeadline c) s := by
  refine closing_of rfl ?_
  split
  · exact .refl s
  · split
    · dsimp only
      split
      · exact ((calm_modWatch s c _).toSound.trans (sound_setWatch _ _ _ _)).settle
      · exact (calm_modWatch s c _).closes
    · exact .refl s

theorem closing_returnDeadline (s : State) (c : Channel) : Closing (.returnDeadline c) s := by
  refine closing_of rfl ?_
  split
  · exact .refl s
  · split
    · dsimp only
      split
      · exact (((calm_modWatch s c _).trans (calm_modWatch _ c _)).toSound.trans (sound_setWatch _ _ _ _)).settle
      · exact (calm_modWatch s c _).closes
    · exact .refl s

theorem closing_windowEnd (s : State) (c : Channel) : Closing (.windowEnd c) s := by
  refine closing_of rfl ?_
  split
  · exact .refl s
  · split
    · exact .refl s
    · split
      · exact ((calm_modWatch s c _).toSound.trans (sound_setWatch _ _ _ _)).settle
      · exact .refl s

/-! ## Handback -/

theorem sound_makeStop (s : State) (c : Channel) : Sound s (s.makeStop c) :=
  (keeps_makeStop (.refl s) c).outer.sound (places_makeStop (.refl s) c).agreed

theorem closing_stopPoint (s : State) (c : Channel) : Closing (.stopPoint c) s := by
  refine closing_of rfl ?_
  split
  · exact .refl s
  · rename_i ch hc
    split
    · exact .refl s
    · rename_i x hx
      split
      · have h1 : Calm s (s.modTk c (fun tk =>
            { tk with handback := some { x with stopPoint := none, stopWaiting := ch.stopBlocked x } })) :=
          calm_modTk s c _ fun h => agreed_setHandback h hc hx _
        dsimp only
        split
        · exact h1.closes
        · exact (h1.toSound.trans (sound_makeStop _ c)).settle
      · exact .refl s

theorem keeps_releaseHold (h : Keeps u s) (c : Channel) (x : Option Key) (r : ReleaseReason) :
    Keeps u (match x with
      | some k => s.offerRelease c k r
      | none => s) := by
  split
  · exact keeps_offerRelease h _ _ _
  · exact h

theorem keeps_completeHandback (s : State) (c : Channel) (tk : TakeoverRec) (x : Handback) (o : OutletNo) :
    Keeps s (s.completeHandback c tk x o) := by
  have h1 := keeps_check (keeps_setAwaitLive (keeps_modTk (keeps_raise (keeps_closeRun
    (keeps_releaseHold (keeps_modTk (keeps_endOfAir (.refl s) o) c (fun tk => { tk with outlet := none })) c tk.ownHold
      (handbackReason x.forced)) c (some (handbackEnding x.forced, x.localSwitch))) .handback c (.handedBack o x.forced)) c
    (fun tk => { tk with state := .idle, ownHold := none, holdDl := none, handback := none })) c) c
  unfold State.completeHandback
  dsimp only
  split
  · exact keeps_pass h1
  · exact h1

theorem closing_switchDeadline (s : State) (c : Channel) : Closing (.switchDeadline c) s := by
  refine closing_of rfl ?_
  split
  · exact .refl s
  · rename_i ch hc
    split
    · rename_i x o hx ho
      split
      · refine (((tends_mirrorTurn (.refl s) c).keeps (keeps_completeHandback _ c ch.tk x o)).outer.sound fun h => ?_).settle
        obtain ⟨y, hy, ht⟩ := mirrorTurn_tk hc (by rw [h.handingBack hc hx]; rfl)
        rw [← ht]
        exact agreed_completeHandback ((places_mirrorTurn (.refl s) c).agreed h) hy (by rw [ht]; exact ho) (by rw [ht]; exact hx)
      · exact .refl s
    · exact .refl s

theorem keeps_abortJoin (s : State) (c : Channel) (tk : TakeoverRec) : Keeps s (s.abortJoin c tk) := by
  unfold State.abortJoin
  dsimp only
  refine keeps_check (keeps_setAwaitLive (keeps_modTk (keeps_closeRun (keeps_releaseHold ?_ _ _ _) _ _) _ _) _) _
  split
  · exact keeps_stopNow (.refl s) _
  · exact .refl s

theorem tends_forceHandback (s : State) (c : Channel) (ch : Chan) : Tends s (s.forceHandback c ch) := by
  unfold State.forceHandback
  dsimp only
  split
  · exact .refl s
  · split
    · exact tends_enterHandback (.refl s) _ _
    · split
      · exact .refl s
      · split
        · exact (keeps_modTk (.refl s) _ _).tends
        · exact tends_replaceHandback (.refl s) _ _ _ _

/-! ## Runner -/

theorem sound_lockItem (s : State) (c : Channel) (p : ItemPlace) : Sound s (s.lockItem c p false) :=
  (keeps_lockItem (.refl s) c p false).outer.sound (places_lockItem (.refl s) c p).agreed

theorem closing_cueMoment (s : State) (c : Channel) : Closing (.cueMoment c) s := by
  refine closing_of rfl ?_
  split
  · exact .refl s
  · split
    · exact .refl s
    · split
      · exact ((calm_mirrorTurn s c).toSound.trans (sound_lockItem _ c _)).settle
      · exact .refl s

theorem closing_sideCueTime (s : State) (c : Channel) : Closing (.sideCueTime c) s := by
  refine closing_of rfl ?_
  split
  · exact .refl s
  · split
    · exact .refl s
    · split
      · exact .refl s
      · exact ((keeps_settleSide (.refl s) c _).outer.sound (places_settleSide (.refl s) c _).agreed).settle

/-- What GO's steps keep: everything of `Keeps`, and the places of channels. -/
theorem keeps_cueGo (s : State) (c : Channel) (a : Anchor) : Keeps s (s.cueGo c a) ∧ KeepsPlaces s (s.cueGo c a) := by
  unfold State.cueGo
  split
  · exact ⟨.refl s, .refl s⟩
  · split
    · split
      · exact ⟨.refl s, .refl s⟩
      · split
        · exact ⟨.refl s, .refl s⟩
        · exact ⟨keeps_lockItem (keeps_setGo (.refl s) _ _) _ _ _, places_lockItem (places_setGo (.refl s) _ _) _ _⟩
    · exact ⟨.refl s, .refl s⟩

theorem sound_giveGo (s : State) (c : Channel) (ch : Chan) (r : RunRec) (id : EventId) : Sound s (s.giveGo c ch r id) := by
  have anchor : ∀ a : Anchor, Keeps (s.mirrorTurn c) ((s.mirrorTurn c).setAnchor c a) ∧
      KeepsPlaces (s.mirrorTurn c) ((s.mirrorTurn c).setAnchor c a) := fun a =>
    ⟨keeps_setHold (keeps_resolveChan (keeps_modRun (.refl _) c _) c) c none,
      places_setHold ((places_modRun (.refl _) c (fun r => { r with anchor := some a })).same (same_resolveChan _ c)) c none⟩
  have of : ∀ {w}, Keeps (s.mirrorTurn c) w ∧ KeepsPlaces (s.mirrorTurn c) w → Sound s w := fun h =>
    (calm_mirrorTurn s c).toSound.trans (h.1.outer.sound h.2.agreed)
  unfold State.giveGo
  dsimp only
  obtain ⟨h1, h2⟩ := anchor { id := id, main := plus ((s.mirrorTurn c).runNow r) ((s.mirrorTurn c).lead ch) }
  split
  · split
    · obtain ⟨k1, k2⟩ := keeps_cueGo ((s.mirrorTurn c).setAnchor c
        { id := id, main := plus ((s.mirrorTurn c).runNow r) ((s.mirrorTurn c).lead ch) }) c
        { id := id, main := plus ((s.mirrorTurn c).runNow r) ((s.mirrorTurn c).lead ch) }
      exact of ⟨h1.trans k1, h2.trans k2⟩
    · exact of ⟨keeps_choose (keeps_dropCued h1 c) c none, places_choose (places_dropCued h2 c) c none⟩
  · split
    · exact of ⟨keeps_modRun (keeps_choose h1 c none) c _, places_modRun (places_choose h2 c none) c _⟩
    · exact of ⟨keeps_choose h1 c none, places_choose h2 c none⟩

/-! ## Outlets -/

/-- A change of one outlet but for its channel, its state and whether its head command is sendable. -/
theorem calm_modOutlet (s : State) (o : OutletNo) (f : Outlet → Outlet)
    (hb : (s.outlet o).queue.length ≤ 4 ∧ (s.outlet o).awaiting.length ≤ 4 ∧ (s.outlet o).seq < 4 →
      (f (s.outlet o)).queue.length ≤ 4 ∧ (f (s.outlet o)).awaiting.length ≤ 4 ∧ (f (s.outlet o)).seq < 4)
    (hs : (f (s.outlet o)).sendable = (s.outlet o).sendable := by exact rfl)
    (ha : (f (s.outlet o)).air = (s.outlet o).air := by exact rfl)
    (hp : (f (s.outlet o)).channel = (s.outlet o).channel ∧ (f (s.outlet o)).state = (s.outlet o).state := by exact ⟨rfl, rfl⟩) :
    Calm s (s.modOutlet o f) := by
  refine ⟨⟨⟨rfl, rfl⟩, fun h => { h with
    air := fun p => ?_, outlets := fun p => ?_, sendOrder := ⟨h.sendOrder.1, fun p => ?_⟩
    agreed := h.agreed.same (same_modOutlet s o f hp) }⟩, rfl⟩
  all_goals
    rw [outlet_modOutlet]
    split
  · rw [ha, hp.2]; exact h.air o
  · exact h.air p
  · rename_i e; rw [hs, e]; exact h.sendOrder.2 o
  · exact h.sendOrder.2 p
  · exact hb (h.outlets o)
  · exact h.outlets p

theorem calm_complete (s : State) (o : OutletNo) : Calm s (s.complete o) :=
  (keeps_modOutlet_settle (.refl s) o (fun x => { x with outstanding := none })
    ⟨id, id, Nat.le_refl _, id⟩).outer.calm
    (places_settleOrder (places_modOutlet (.refl s) o (fun x => { x with outstanding := none })) o).agreed (settleOrder_reports _ o)

theorem sound_failCmd (s : State) (o : OutletNo) (cmd : Cmd) (orphaned : Bool) (f : Failure) : Sound s (s.failCmd o cmd orphaned f) :=
  (keeps_failCmd (.refl s) o cmd orphaned f).outer.sound fun h => agreed_failCmd h o cmd orphaned f

/-- The mirror's turn leaves every outlet but for reservations (R18). -/
theorem outletTurn_awaiting (s : State) (o p : OutletNo) : ((s.outletTurn o).outlet p).awaiting = (s.outlet p).awaiting :=
  congrArg (·.awaiting) ((outletTurn_served s o).outlets p)

/-- The oldest awaiting PREP fails with a start lapse once it is taken off the list (R160, R167). -/
theorem sound_startLapse (s : State) (o : OutletNo) (p : Prep) {rest : List Awaiting} (hr : rest.length ≤ (s.outlet o).awaiting.length) :
    Sound s (((s.outletTurn o).modOutlet o (fun x => { x with awaiting := rest })).failCmd o (.prep p) false .startLapse) := by
  refine ((calm_outletTurn s o).trans (calm_modOutlet _ o _ fun h => ⟨h.1, ?_, h.2.2⟩)).toSound.trans (sound_failCmd _ _ _ _ _)
  rw [outletTurn_awaiting] at h
  exact hr.trans h.2.1

theorem sound_makeRoom (s : State) (o : OutletNo) : Sound s (s.makeRoom o) := by
  unfold State.makeRoom
  split
  · split
    · exact .refl s
    · rename_i a rest ha
      exact sound_startLapse s o a.prep (by rw [ha]; exact Nat.le_succ _)
  · exact .refl s

/-- A full awaiting list has room once its oldest is gone (R160). -/
theorem makeRoom_awaiting (s : State) (o : OutletNo) (h : (s.outlet o).awaiting.length ≤ 4) :
    ((s.makeRoom o).outlet o).awaiting.length ≤ 3 := by
  unfold State.makeRoom
  split
  · rename_i hl
    split
    · rename_i ha
      rw [ha]; exact Nat.zero_le _
    · rename_i a rest ha
      refine ((keeps_failCmd (.refl ((s.outletTurn o).modOutlet o (fun x => { x with awaiting := rest }))) o (.prep a.prep) false
        .startLapse).awaiting o).trans ?_
      rw [outlet_modOutlet_self]
      rw [ha] at h
      exact Nat.le_of_succ_le_succ h
  · rename_i hl
    exact Nat.lt_succ_iff.1 (Nat.not_le.1 hl)

theorem sound_awaitStart (s : State) (o : OutletNo) (tag : Nat) (p : Prep) : Sound s (s.awaitStart o tag p) := by
  have h1 := sound_makeRoom s o
  unfold State.awaitStart
  dsimp only
  split
  · exact h1
  · refine ⟨h1.clock, fun h => ?_⟩
    have hroom := makeRoom_awaiting s o (h.outlets o).2.1
    refine (calm_modOutlet _ o _ fun hb => ⟨hb.1, ?_, hb.2.2⟩).firm (h1.firm h)
    rw [List.length_append]
    exact Nat.succ_le_succ hroom

theorem calm_freeStopped (hs : (s.outlet o).state = .stopping) : Calm s (s.freeStopped o) :=
  (keeps_freeStopped (.refl s) hs).outer.calm (places_freeStopped (.refl s) hs).agreed (claimsOnly_pass _).reports

theorem calm_stopTaken (s : State) (o : OutletNo) : Calm s (s.stopTaken o) := by
  have h1 := calm_modOutlet s o (fun x => { x with armed := x.armed.map (fun a => { a with outcome := .taken }) }) id
  unfold State.stopTaken
  dsimp only
  split
  · rename_i hs
    exact h1.trans (calm_freeStopped hs.1)
  · exact h1

theorem sound_takenCmd (s : State) (o : OutletNo) (x : Outstanding) : Sound s (s.takenCmd o x) := by
  have h1 := (calm_complete s o).toSound
  unfold State.takenCmd
  dsimp only
  split
  · exact h1
  · split
    · exact h1.trans (sound_awaitStart _ _ _ _)
    · exact h1
    · split
      · exact h1.trans (calm_stopTaken _ o).toSound
      · exact h1

/-! ## Replies -/

theorem closes_takeTaken (s : State) (tag : Byte) : Closes s (s.takeTaken tag) := by
  unfold State.takeTaken
  split
  · exact (calm_countLate s).closes
  · split
    · exact (calm_countLate s).closes
    · exact (sound_takenCmd s _ _).settle

theorem failTurn_served (s : State) (o : OutletNo) (cmd : Cmd) (b : Bool) :
    Served s (s.failTurn o cmd b) ∧ KeepsPlaces s (s.failTurn o cmd b) := by
  unfold State.failTurn
  split
  · exact ⟨outletTurn_served s o, places_outletTurn (.refl s) o⟩
  · exact ⟨.refl s, .refl s⟩

theorem calm_failTurn (s : State) (o : OutletNo) (cmd : Cmd) (b : Bool) : Calm s (s.failTurn o cmd b) :=
  (failTurn_served s o cmd b).1.calm (failTurn_served s o cmd b).2

theorem closes_failOutstanding (s : State) (o : OutletNo) (x : Outstanding) (f : Failure) : Closes s (s.failOutstanding o x f) :=
  (((calm_failTurn s o _ _).trans (calm_complete _ o)).toSound.trans (sound_failCmd _ _ _ _ _)).settle

theorem closes_takeRefused (s : State) (tag : Byte) (r : RefusedReason) : Closes s (s.takeRefused tag r) := by
  unfold State.takeRefused
  split
  · exact (calm_countLate s).closes
  · split
    · exact (calm_countLate s).closes
    · exact closes_failOutstanding s _ _ _

theorem keeps_joinStarted (s : State) (c : Channel) (o : OutletNo) : Keeps s (s.joinStarted c o) := by
  unfold State.joinStarted
  split
  · exact .refl s
  · split
    · exact keeps_raise (keeps_assertHold (keeps_modTk (keeps_modOutlet (.refl s) o _
        ⟨fun _ => iff_of_true rfl rfl, id, Nat.le_refl _, id⟩ rfl) _ _) _) _ _ _
    · exact .refl s

theorem sound_startedPrep (s : State) (o : OutletNo) (p : Prep) (actual : Time) : Sound s (s.startedPrep o p actual) := by
  unfold State.startedPrep
  split
  · exact .refl s
  · rename_i c ho
    have h1 : Sound s (if (s.outlet o).state = .reserved ∧ p.join = true then s.joinStarted c o else s) := by
      split
      · exact (keeps_joinStarted s c o).outer.sound fun h => agreed_joinStarted h ho
      · exact .refl s
    have h2 : ∀ w : State, Sound w ((w.itemStarted c p.serial actual false).retryStop c) := fun w =>
      ((tends_itemStarted (.refl w) c p.serial actual false).keeps (keeps_retryStop (.refl _) c)).outer.sound
        (places_retryStop (places_itemStarted (.refl w) c p.serial actual false) c).agreed
    exact h1.trans (h2 _)

theorem sound_takenFirst (s : State) (o : OutletNo) (tag : Byte) : Sound s (s.takenFirst o tag) := by
  unfold State.takenFirst
  split
  · exact .refl s
  · split
    · exact sound_takenCmd s _ _
    · exact .refl s

theorem calm_startTurn (s : State) (o : OutletNo) (tag : Byte) : Calm s (s.startTurn o tag) := by
  unfold State.startTurn
  split
  · exact calm_outletTurn s o
  · exact .refl s

theorem closes_takeStarted (s : State) (tag : Byte) (actual : Time) : Closes s (s.takeStarted tag actual) := by
  unfold State.takeStarted
  split
  · exact (calm_countLate s).closes
  · rename_i o _
    have h1 := (calm_startTurn s o tag).toSound.trans (sound_takenFirst _ o tag)
    dsimp only
    split
    · exact (h1.trans (calm_countLate _).toSound).settle
    · rename_i a rest hr
      refine (h1.trans (Sound.trans (calm_modOutlet _ o _ fun hb => ⟨hb.1, ?_, hb.2.2⟩).toSound
        (sound_startedPrep _ o a.prep actual))).settle
      exact (takeFirst_sublist _ hr).length_le.trans hb.2.1

theorem closing_taken (s : State) (tag : Byte) : Closing (.taken tag) s := by
  refine closing_of rfl ?_
  split
  · exact (closes_takeTaken _ tag).after (calm_setCueFraming s _).closes
  · exact .refl s

theorem closing_refused (s : State) (tag : Byte) (r : RefusedReason) : Closing (.refused tag r) s := by
  refine closing_of rfl ?_
  split
  · exact (closes_takeRefused _ tag r).after (calm_setCueFraming s _).closes
  · exact .refl s

theorem closing_started (s : State) (tag outlet : Byte) (actual : Time) : Closing (.started tag outlet actual) s := by
  refine closing_of rfl ?_
  split
  · dsimp only
    split
    · exact (closes_takeStarted _ tag actual).after (calm_setCueFraming s _).closes
    · exact ((calm_countLate _).after (calm_setCueFraming s _)).closes
  · exact .refl s

theorem closing_cueMessageDiscard (s : State) (kind tag : Byte) (body : List Byte) (check : BitVec 16) :
    Closing (.cueMessageDiscard kind tag body check) s := by
  refine closing_of rfl ?_
  split
  · unfold State.judgeServer
    split
    · exact ((calm_setCueFraming _ _).after (calm_countLate s)).closes
    · dsimp only
      have h1 := (calm_setCueFraming s .wait)
      split
      · exact (h1.trans (calm_countLate _)).closes
      · exact h1.closes.trans (closes_takeTaken _ _)
      · exact h1.closes.trans (closes_takeRefused _ _ _)
      · exact h1.closes.trans (closes_takeStarted _ _ _)
  · exact .refl s

theorem closing_cueIdleGap (s : State) (begun : Bool) : Closing (.cueIdleGap begun) s := by
  refine closing_of rfl (Calm.closes ?_)
  split
  · exact .refl s
  · split
    · exact calm_setCueFraming s _
    · split
      · exact calm_countLate s
      · exact .refl s
    · exact (calm_setCueFraming _ _).after (calm_countLate s)

theorem closing_cueLengthAbandon (s : State) : Closing .cueLengthAbandon s := by
  refine closing_of rfl (Calm.closes ?_)
  split
  · exact (calm_setCueFraming _ _).after (calm_countLate s)
  · exact .refl s

/-! ## Sending -/

/-- An outlet whose head command is no longer sendable leaves the head of the send order (R158). -/
theorem calm_headLeaves {order : List OutletNo} (ho : s.cue.sendOrder = o :: order) (f : Outlet → Outlet) (q : CueLink)
    (hq : q.sendOrder = order ∧ q.late = s.cue.late)
    (hp : (f (s.outlet o)).channel = (s.outlet o).channel ∧ (f (s.outlet o)).state = (s.outlet o).state)
    (ha : (f (s.outlet o)).air = (s.outlet o).air) (hs : (f (s.outlet o)).sendable = false)
    (hb : (s.outlet o).queue.length ≤ 4 ∧ (s.outlet o).awaiting.length ≤ 4 ∧ (s.outlet o).seq < 4 →
      (f (s.outlet o)).queue.length ≤ 4 ∧ (f (s.outlet o)).awaiting.length ≤ 4 ∧ (f (s.outlet o)).seq < 4) :
    Calm s { s.modOutlet o f with cue := q } := by
  refine ⟨⟨⟨rfl, rfl⟩, fun h => ?_⟩, rfl⟩
  have hout : ∀ p, State.outlet { s.modOutlet o f with cue := q } p = if p = o then f (s.outlet o) else s.outlet p :=
    fun p => outlet_modOutlet s o p f
  have hnodup := h.sendOrder.1
  rw [ho, List.nodup_cons] at hnodup
  obtain ⟨h1, h2, h3, h4⟩ := h.counts
  refine { h with
    air := fun p => ?_, outlets := fun p => ?_
    sendOrder := ⟨by show q.sendOrder.Nodup; rw [hq.1]; exact hnodup.2, fun p => ?_⟩
    counts := ⟨h1, h2, by show q.late ≤ 65535; rw [hq.2]; exact h3, h4⟩
    agreed := (h.agreed.same (same_modOutlet s o f hp)).elsewhere rfl rfl rfl }
  · rw [hout]
    split
    · rw [ha, hp.2]; exact h.air o
    · exact h.air p
  · rw [hout]
    show p ∈ q.sendOrder ↔ _
    rw [hq.1]
    split
    · rename_i e
      rw [hs, e]
      exact iff_of_false hnodup.1 nofun
    · rename_i e
      rw [← h.sendOrder.2 p, ho, List.mem_cons]
      exact (or_iff_right e).symm
  · rw [hout]
    split
    · exact hb (h.outlets o)
    · exact h.outlets p

/-- The head command of the first outlet of the send order leaves the queue and is outstanding (R156, R158). -/
theorem calm_sendHead {cmd : Cmd} {rest : List Cmd} {order : List OutletNo} (ho : s.cue.sendOrder = o :: order)
    (hq : (s.outlet o).queue = cmd :: rest) : Calm s (s.sendHead o cmd rest order) := by
  refine calm_headLeaves ho _ _ ⟨rfl, rfl⟩ ⟨rfl, rfl⟩ rfl (Bool.and_false _) fun hb => ?_
  rw [hq] at hb
  exact ⟨(Nat.le_succ _).trans hb.1, hb.2.1, Nat.mod_lt _ (by decide)⟩

theorem closing_commandSend (s : State) (ready : Bool) : Closing (.commandSend ready) s := by
  refine closing_of rfl (Calm.closes ?_)
  split
  · split
    · exact .refl s
    · rename_i o order ho
      split
      · rename_i hq
        refine ⟨⟨⟨rfl, rfl⟩, fun h => ?_⟩, rfl⟩
        have := (h.sendOrder.2 o).1 (by rw [ho]; exact List.mem_cons_self)
        unfold Outlet.sendable at this
        rw [hq] at this
        cases this
      · rename_i cmd rest hq
        exact calm_sendHead ho hq
  · exact .refl s

/-! ## Deadlines -/

theorem takeSoonest_length {α : Type} (key : α → Option Time) : ∀ {l : List α} {x : α} {rest : List α},
    takeSoonest key l = some (x, rest) → rest.length ≤ l.length := by
  intro l
  induction l with
  | nil => intro _ _ h; cases h
  | cons a l ih =>
    intro x rest h
    unfold takeSoonest at h
    split at h
    · obtain ⟨y, hy, he⟩ := Option.map_eq_some_iff.1 h
      cases he
      exact Nat.succ_le_succ (ih hy)
    · cases h; exact Nat.le_succ _
    · rename_i t y hk hy
      split at h
      · cases h; exact Nat.succ_le_succ (ih hy)
      · cases h; exact Nat.le_succ _

theorem closing_queuedCommandMissed (s : State) (o : OutletNo) : Closing (.queuedCommandMissed o) s := by
  refine closing_of rfl ?_
  split
  · exact .refl s
  · rename_i cmd rest hr
    have hq : ((s.failTurn o cmd false).outlet o).queue = (s.outlet o).queue :=
      congrArg (·.queue) ((failTurn_served s o cmd false).1.outlets o)
    have h1 : Sound (s.failTurn o cmd false)
        (((s.failTurn o cmd false).modOutlet o (fun x => { x with queue := rest })).settleOrder o) := by
      refine (keeps_modOutlet_settle (.refl _) o _ ⟨id, fun hl => ?_, Nat.le_refl _, id⟩).outer.sound
        (places_settleOrder (places_modOutlet (.refl _) o (fun x => { x with queue := rest })) o).agreed
      rw [hq] at hl
      exact (takeSoonest_length _ hr).trans hl
    exact (((calm_failTurn s o cmd false).toSound.trans h1).trans (sound_failCmd _ _ _ _ _)).settle

theorem closing_replyDeadline (s : State) (o : OutletNo) : Closing (.replyDeadline o) s := by
  refine closing_of rfl ?_
  split
  · exact .refl s
  · split
    · exact closes_failOutstanding s _ _ _
    · exact .refl s

theorem closing_startDeadline (s : State) (o : OutletNo) : Closing (.startDeadline o) s := by
  refine closing_of rfl ?_
  split
  · exact .refl s
  · rename_i a rest hr
    exact (sound_startLapse s o a.prep (takeSoonest_length _ hr)).settle

theorem closing_armedStopTime (s : State) (o : OutletNo) : Closing (.armedStopTime o) s := by
  refine closing_of rfl (Calm.closes ?_)
  split
  · rename_i hs
    exact calm_freeStopped hs.1
  · exact .refl s

end Sys2Proof.Machine
end

section
/-! SUPPORT. The commands of the feed receiver and of the mirror keep the invariant, station time and STEP: the pool stays whole and the
lists within their bounds through every snapshot and edit (02_the_schedule_mirror.md). -/

namespace Sys2Proof.Machine

variable {s t u : State} {c : Channel}

/-! ## Feed receiver -/

theorem calm_offerSched (s : State) (m : SchedMsg) : Calm s (s.offerSched m) := by
  unfold State.offerSched
  split
  · rename_i hl
    refine Calm.trans (calm_feed s { s.feed with ingest := s.feed.ingest ++ [m] } (fun _ => ?_) id id) ?_
    · rw [List.length_append]; exact hl
    · exact calm_modChan _ m.channel _ (fun _ => rfl) (fun _ => rfl) (fun _ => rfl) fun _ h => ⟨h.1, h.2, h.3, h.4, h.5⟩
  · exact (calm_abandonFilling _ _).after ((calm_markStale _ _).after (calm_feed s _ id id fun _ => sat16_le _))

theorem closing_feedIdleGap (s : State) (begun : Bool) : Closing (.feedIdleGap begun) s := by
  refine closing_of rfl (Calm.closes ?_)
  split
  · exact .refl s
  · split
    · exact calm_setFraming s _
    · split
      · exact calm_feedFault s
      · exact .refl s
    · exact (calm_setFraming _ _).after (calm_feedFault s)

theorem closing_feedLengthAbandon (s : State) : Closing .feedLengthAbandon s := by
  refine closing_of rfl (Calm.closes ?_)
  split
  · exact (calm_setFraming _ _).after (calm_feedFault s)
  · exact .refl s

theorem closing_feedMessageDiscard (s : State) (kind channel : Byte) (body : List Byte) (check : BitVec 16) :
    Closing (.feedMessageDiscard kind channel body check) s := by
  refine closing_of rfl ?_
  split
  · unfold State.judgeFeed
    have fault : ∀ f, Closes s (s.feedFault.setFraming f) := fun f => ((calm_setFraming _ _).after (calm_feedFault s)).closes
    split
    · exact fault _
    · split
      · exact (calm_setFraming s _).closes
      · split
        · exact fault _
        · exact (closes_takeBeacon _ _).after (calm_setFraming s _).closes
        · exact ((calm_offerSched _ _).after (calm_setFraming s _)).closes
  · exact .refl s

theorem closing_scheduleMessage (s : State) (m : SchedMsg) : Closing (.scheduleMessage m) s := by
  refine closing_of rfl (Calm.closes ?_)
  split
  · exact .refl s
  · split
    · exact calm_setFraming s _
    · split
      · exact (calm_offerSched _ _).after (calm_setFraming s _)
      · exact (calm_setFraming _ _).after (calm_feedFault s)

/-! ## Requests -/

theorem calm_serveThrough (s : State) (p : MirrorReq → Bool) (l : List MirrorReq) : Calm s (State.serveThrough p l s) :=
  (serveThrough_served p l s).calm (places_serveThrough p l (.refl s))

theorem closing_driftCheck (s : State) : Closing .driftCheck s := by
  refine closing_of rfl (Calm.closes ?_)
  split
  · exact calm_serveThrough s _ _
  · exact .refl s

theorem closing_reclaimSweep (s : State) : Closing .reclaimSweep s := by
  refine closing_of rfl (Calm.closes ?_)
  split
  · exact calm_serveThrough s _ _
  · exact .refl s

/-- The mirror takes the oldest message of the ingest queue (R18). -/
theorem calm_takeIngest {m : SchedMsg} {rest : List SchedMsg} (h : s.feed.ingest = m :: rest) : Calm s (s.takeIngest rest) := by
  refine (calm_serveAll s).trans (calm_feed _ _ (fun hl => ?_) id id)
  rw [(tends_serveAll (.refl s)).feed, h] at hl
  exact (Nat.le_succ _).trans hl

/-! ## One channel's lists and the pool (R20, R21) -/

/-- A change of no profiled channel. -/
theorem modChan_of_none (h : s.chan? c = none) (f : Chan → Chan) : s.modChan c f = s := by
  have hne : ∀ ch ∈ s.chans, (ch.part.channel == c) = false := fun ch hm => by
    have := List.find?_eq_none.1 h ch hm
    simpa using this
  unfold State.modChan
  have : s.chans.map (fun ch => if ch.part.channel == c then f ch else ch) = s.chans := by
    conv_rhs => rw [← List.map_id s.chans]
    exact List.map_congr_left fun ch hm => by simp [hne ch hm]
  rw [this]

/-- Records move between the free list and one channel's lists, which stay as R21 bounds them. -/
theorem calm_lists {ch : Chan} (hc : s.chan? c = some ch) (free : List Nat) (f : Chan → Chan)
    (hs : ch.ListsRight → ∀ a, free.count a + (f ch).slots.count a = s.poolFree.count a + ch.slots.count a)
    (hl : ch.ListsRight → (f ch).ListsRight) (hf : ∀ x : Chan, (f x).part.channel = x.part.channel := by exact fun _ => rfl)
    (hp : ∀ x : Chan, (f x).place = x.place := by exact fun _ => rfl) : Calm s (State.modChan { s with poolFree := free } c f) := by
  refine ⟨⟨⟨rfl, rfl⟩, fun h => ?_⟩, rfl⟩
  have hch : ch.ListsRight := h.lists ch (chan?_mem hc)
  refine { h with
    lists := listsRight_modChan h.agreed.distinct hc f hl h.lists, pool := ?_
    agreed := (h.agreed.same (same_modChan s c f hf hp)).elsewhere rfl rfl rfl }
  have hpool := h.pool
  unfold State.PoolWhole at hpool ⊢
  rw [List.perm_iff_count] at hpool ⊢
  intro a
  rw [← hpool a, count_poolSlots, count_poolSlots]
  have h1 := count_modChan h.agreed.distinct hc f a
  have h2 := hs hch a
  show free.count a + ((s.modChan c f).chans.flatMap Chan.slots).count a = _
  omega

/-- A free record is taken. -/
theorem allocSlot_some {n : Nat} (h : s.allocSlot = some (n, t)) :
    ∃ rest, s.poolFree = n :: rest ∧ t = { s with poolFree := rest } := by
  unfold State.allocSlot at h
  split at h
  · cases h
  · rename_i m rest he
    cases h
    exact ⟨rest, he, rfl⟩

/-! ## Snapshots -/

theorem calm_applySnapOpen (s : State) (c : Channel) (v : Version) (n : Nat) : Calm s (s.applySnapOpen c v n) := by
  have h1 := calm_abandonFilling s c
  unfold State.applySnapOpen
  dsimp only
  split
  · rename_i hn
    refine h1.trans ?_
    cases hc : s.chan? c with
    | none =>
      have : s.abandonFilling c = s := by unfold State.abandonFilling; rw [hc]
      rw [this]
      unfold State.modMirror
      rw [modChan_of_none hc]
      exact .refl s
    | some ch =>
      have hx := abandoned_chan? s c ch hc
      rw [← abandonFilling_eq hc] at hx
      refine calm_lists hx (s.abandonFilling c).poolFree _ (fun _ _ => rfl) fun hl => ?_
      exact ⟨hl.1, hl.2, hl.3, hl.4, rfl, hn⟩
  · exact h1.trans (calm_markStale _ c)

/-- What a SNAP_EVENT that passes R28 tells. -/
theorem snapEventFits_iff {f : Filling} {l : List EventRec} {v : Version} {i : Nat} {e : EventData}
    (h : snapEventFits f l v i e = true) : f.next < f.expected ∧ e.id ∉ l.map (·.data.id) := by
  unfold snapEventFits at h
  simp only [Bool.and_eq_true, beq_iff_eq, decide_eq_true_eq, Bool.not_eq_true'] at h
  obtain ⟨⟨⟨⟨-, hi⟩, hlt⟩, -⟩, hid⟩ := h
  exact ⟨hi ▸ hlt, fun hm => by
    rw [(hasId_iff _ _).2 (List.mem_map.1 hm)] at hid; cases hid⟩

theorem calm_applySnapEvent (s : State) (c : Channel) (v : Version) (i : Nat) (e : EventData) :
    Calm s (s.applySnapEvent c v i e) := by
  have fail : Calm s ((s.abandonFilling c).markStale c) := (calm_abandonFilling s c).trans (calm_markStale _ c)
  unfold State.applySnapEvent
  split
  · exact .refl s
  · rename_i ch hc
    split
    · exact calm_markStale s c
    · rename_i f hfill
      split
      · rename_i hfit
        obtain ⟨hlt, hid⟩ := snapEventFits_iff hfit
        split
        · exact fail.trans (calm_raise _ _ _ _)
        · rename_i slot w ha
          obtain ⟨rest, hfree, rfl⟩ := allocSlot_some ha
          refine calm_lists hc rest _ (fun _ a => ?_) fun hl => ?_
          · rw [hfree, count_slots, count_slots]
            simp only [List.map_append, List.count_append, List.map_cons, List.map_nil, newRecord, List.count_cons, List.count_nil]
            omega
          · have hfr := hl.filling
            unfold Chan.FillingRight at hfr
            rw [hfill] at hfr
            obtain ⟨hlen, hmax⟩ := hfr
            refine ⟨hl.1, ?_, hl.3, ?_, ?_, hmax⟩
            · rw [List.length_append, hlen]
              exact (Nat.succ_le_of_lt hlt).trans hmax
            · rw [List.map_append]
              exact List.nodup_append.2 ⟨hl.4, by simp, fun a ha b hb hab => hid (by
                rw [List.mem_singleton.1 hb] at hab; rw [← show a = e.id from hab]; exact ha)⟩
            · rw [List.length_append, hlen]; rfl
      · exact fail

/-- What leaves a channel's list is freed or, while pinned, kept unlinked (R36). -/
theorem unlink_eq (s : State) (c : Channel) (gone : List EventRec) (f : Chan → Chan) :
    (s.unlink c gone).modChan c f =
      State.modChan { s with poolFree := (gone.filter (fun e => !e.pinned)).map (·.slot) ++ s.poolFree } c
        (fun ch => f { ch with unlinked := ch.unlinked ++ gone.filter (·.pinned) }) :=
  modChan_modChan _ _ _ _ (fun _ => rfl)

theorem sound_afterChange (s : State) (c : Channel) : Sound s (s.afterChange c) :=
  (keeps_afterChange (.refl s) c).outer.sound (places_afterChange (.refl s) c).agreed

theorem calm_replaceList {ch : Chan} (hc : s.chan? c = some ch) (v : Version) : Calm s (s.replaceList c ch.list v) := by
  unfold State.replaceList
  rw [unlink_eq]
  refine calm_lists hc _ _ (fun _ a => ?_) fun hl => ?_
  · have := count_filter_split ch.list (·.pinned) a
    rw [count_slots, count_slots]
    simp only [List.count_append, List.map_append, List.map_nil, List.count_nil] at this ⊢
    omega
  · exact ⟨hl.2, Nat.zero_le _, hl.4, List.nodup_nil, rfl⟩

theorem sound_makeCurrent (s : State) (c : Channel) : Sound s (s.makeCurrent c) :=
  (keepsOuter_makeCurrent (.refl s) c).sound (places_makeCurrent (.refl s) c).agreed

theorem sound_applySnapClose (s : State) (c : Channel) (v : Version) (n : Nat) : Sound s (s.applySnapClose c v n) := by
  unfold State.applySnapClose
  split
  · exact .refl s
  · rename_i ch hc
    split
    · exact ((calm_replaceList hc v).toSound.trans (sound_makeCurrent _ c)).trans (sound_afterChange _ c)
    · exact ((calm_abandonFilling s c).trans (calm_markStale _ c)).toSound

/-! ## Edits -/

theorem insertAfter_perm (a : EventId) (r : EventRec) (l : List EventRec) : (insertAfter a r l).Perm (r :: l) := by
  induction l with
  | nil => exact .refl _
  | cons e l ih =>
    unfold insertAfter
    split
    · exact .refl _
    · split
      · exact .swap _ _ _
      · exact (ih.cons e).trans (.swap _ _ _)

/-- A list without repeated ids holds at most one event of an id. -/
theorem filter_id_of_find {l : List EventRec} {i : EventId} {old : EventRec} (hd : (l.map (·.data.id)).Nodup)
    (h : l.find? (fun x => x.data.id == i) = some old) : l.filter (fun x => x.data.id == i) = [old] := by
  induction l with
  | nil => cases h
  | cons e l ih =>
    rw [List.map_cons, List.nodup_cons] at hd
    rw [List.find?_cons] at h
    rw [List.filter_cons]
    cases he : e.data.id == i with
    | true =>
      rw [he] at h
      cases h
      rw [if_pos rfl]
      have : l.filter (fun x => x.data.id == i) = [] := List.filter_eq_nil_iff.2 fun x hx hxi =>
        hd.1 (List.mem_map.2 ⟨x, hx, by rw [beq_iff_eq.1 hxi, ← beq_iff_eq.1 he]⟩)
      rw [this]
    | false =>
      rw [he] at h
      rw [if_neg nofun]
      exact ih hd.2 h

theorem filter_ne_ids {l : List EventRec} {i : EventId} : i ∉ (l.filter (fun x => x.data.id != i)).map (·.data.id) := by
  intro h
  obtain ⟨x, hx, hi⟩ := List.mem_map.1 h
  have := (List.mem_filter.1 hx).2
  rw [hi] at this
  simp at this

/-- The slots of a list split by an id, counted. -/
theorem count_without (l : List EventRec) (i : EventId) (a : Nat) :
    ((l.filter (fun x => x.data.id != i)).map (·.slot)).count a + ((l.filter (fun x => x.data.id == i)).map (·.slot)).count a =
      (l.map (·.slot)).count a := count_filter_split l (fun x => x.data.id == i) a

/-- A list with one event placed in it stays as R21 bounds it. -/
theorem listsRight_insert {ch : Chan} (hl : ch.ListsRight) {l : List EventRec} (hs : l.Sublist ch.list) (hn : l.length < 240)
    {r : EventRec} (hid : r.data.id ∉ l.map (·.data.id)) (a : EventId) (v : Option Version) (gone : List EventRec) :
    Chan.ListsRight { ch with
      unlinked := gone, list := insertAfter a r l, mirror := { ch.mirror with version := v } } where
  listLength := by
    have := (insertAfter_perm a r l).length_eq
    show (insertAfter a r l).length ≤ 240
    rw [this]; exact hn
  incomingLength := hl.2
  listIds := by
    have hp := (insertAfter_perm a r l).map (·.data.id)
    refine (hp.nodup_iff).2 (List.nodup_cons.2 ⟨hid, ?_⟩)
    exact hl.3.sublist (hs.map _)
  incomingIds := hl.4
  filling := hl.5

theorem count_insertAfter (b : EventId) (r : EventRec) (l : List EventRec) (a : Nat) :
    ((insertAfter b r l).map (·.slot)).count a = (r.slot :: l.map (·.slot)).count a :=
  ((insertAfter_perm b r l).map _).count_eq a

theorem calm_editShort (s : State) (c : Channel) (v : Version) : Calm s (s.editShort c v) := by
  have h1 : Calm s (s.modMirror c (fun m => { m with version := some v })) :=
    (keepsOuter_modMirror (.refl s) c (fun m => { m with version := some v }) fun _ => rfl).calm
      (places_modMirror (.refl s) c _).agreed rfl
  have h2 : ∀ w : State, Calm w (w.markShort c) := fun w =>
    (keepsOuter_markShort (.refl w) c).calm (places_markShort (.refl w) c).agreed (setCondition_reports w c _)
  exact (h1.trans (h2 _)).trans (calm_raise _ _ _ _)

theorem sound_newList {l : List EventRec} {v : Version} (h : Calm s (t.modChan c (fun ch =>
    { ch with list := l, mirror := { ch.mirror with version := some v } }))) : Sound s (t.newList c v l) :=
  h.toSound.trans (sound_afterChange _ c)

/-- An EDIT_PUT that passes R30: a new event, one in the place of a pinned one, or one in the record of the old one (R31, R32). -/
theorem sound_placeEdit {ch : Chan} (hc : s.chan? c = some ch) (new : Version) (anchor : EventId) (e : EventData) :
    Sound s (s.placeEdit c ch new anchor e) := by
  have short : Sound s (s.editShort c new) := (calm_editShort s c new).toSound
  unfold State.placeEdit
  dsimp only
  split
  · exact (calm_markStale s c).toSound
  · split
    · rename_i hnone
      split
      · exact short
      · rename_i hlen
        split
        · exact short
        · rename_i slot w ha
          obtain ⟨rest, hfree, rfl⟩ := allocSlot_some ha
          refine sound_newList (calm_lists hc rest _ (fun _ a => ?_) fun hl => ?_)
          · rw [hfree, count_slots, count_slots, count_insertAfter]
            simp only [newRecord, List.count_cons]
            omega
          · refine listsRight_insert hl (.refl _) (Nat.not_le.1 hlen) (fun hm => ?_) anchor (some new) ch.unlinked
            obtain ⟨x, hx, hxi⟩ := List.mem_map.1 hm
            exact List.find?_eq_none.1 hnone x hx (beq_iff_eq.2 hxi)
    · rename_i old hold
      have hsub : (ch.list.filter (fun x => x.data.id != e.id)).Sublist ch.list := List.filter_sublist
      have hlt : ch.ListsRight → (ch.list.filter (fun x => x.data.id != e.id)).length < 240 := fun hl =>
        Nat.lt_of_lt_of_le (List.length_filter_lt_length_iff_exists.2 ⟨old, List.mem_of_find?_eq_some hold, by
          have := List.find?_some hold
          simpa using this⟩) hl.1
      have hcount : ch.ListsRight → ∀ a, ((ch.list.filter (fun x => x.data.id != e.id)).map (·.slot)).count a +
          [old.slot].count a = (ch.list.map (·.slot)).count a := fun hl a => by
        rw [← count_without ch.list e.id a, filter_id_of_find hl.3 hold]
        rfl
      split
      · rename_i hpin
        split
        · exact short
        · rename_i slot w ha
          obtain ⟨rest, hfree, rfl⟩ := allocSlot_some ha
          refine sound_newList ?_
          rw [unlink_eq]
          refine calm_lists hc _ _ (fun hl a => ?_) fun hl =>
            listsRight_insert hl hsub (hlt hl) filter_ne_ids anchor (some new) _
          have h1 := hcount hl a
          rw [hfree, count_slots, count_slots, count_insertAfter]
          simp only [List.count_cons, List.count_nil] at h1
          simp only [newRecord, List.filter_cons, hpin, Bool.not_true, List.filter_nil, List.map_nil, List.nil_append, if_true,
            Bool.false_eq_true, if_false, List.map_append, List.map_cons, List.count_append, List.count_cons, List.count_nil]
          omega
      · refine sound_newList (calm_lists hc s.poolFree _ (fun hl a => ?_) fun hl =>
          listsRight_insert hl hsub (hlt hl) filter_ne_ids anchor (some new) ch.unlinked)
        have h1 := hcount hl a
        rw [count_slots, count_slots, count_insertAfter]
        simp only [newRecord, List.count_cons, List.count_nil] at h1 ⊢
        omega

theorem sound_applyEditPut (s : State) (c : Channel) (base new : Version) (anchor : EventId) (e : EventData) :
    Sound s (s.applyEditPut c base new anchor e) := by
  unfold State.applyEditPut
  split
  · exact .refl s
  · rename_i ch hc
    split
    · exact .refl s
    · split
      · exact (calm_markStale s c).toSound
      · exact sound_placeEdit hc new anchor e

theorem sound_applyEditDrop (s : State) (c : Channel) (base new : Version) (i : EventId) :
    Sound s (s.applyEditDrop c base new i) := by
  unfold State.applyEditDrop
  split
  · exact .refl s
  · rename_i ch hc
    split
    · exact .refl s
    · split
      · exact (calm_markStale s c).toSound
      · refine sound_newList ?_
        rw [unlink_eq]
        refine calm_lists hc _ _ (fun _ a => ?_) fun hl => ?_
        · have h1 := count_without ch.list i a
          have h2 := count_filter_split (ch.list.filter (fun x => x.data.id == i)) (·.pinned) a
          rw [count_slots, count_slots, List.count_append]
          simp only [List.map_append, List.count_append]
          omega
        · have hsub : (ch.list.filter (fun x => x.data.id != i)).Sublist ch.list := List.filter_sublist
          exact ⟨hsub.length_le.trans hl.1, hl.2, hl.3.sublist (hsub.map _), hl.4, hl.5⟩

/-! ## Ingest commands -/

theorem closing_snapOpen (s : State) : Closing .snapOpen s := by
  intro t h
  replace h : execSnapOpen s = .next t := h
  unfold execSnapOpen at h
  split at h
  · rename_i hi
    cases h
    exact ((calm_takeIngest hi).trans (calm_applySnapOpen _ _ _ _)).closes
  · cases h; exact .refl s

theorem closing_snapEvent (s : State) : Closing .snapEvent s := by
  intro t h
  replace h : execSnapEvent s = .next t := h
  unfold execSnapEvent at h
  split at h
  · rename_i hi
    cases h
    exact ((calm_takeIngest hi).trans (calm_applySnapEvent _ _ _ _ _)).closes
  · cases h; exact .refl s

theorem closing_snapClose (s : State) : Closing .snapClose s := by
  intro t h
  replace h : execSnapClose s = .next t := h
  unfold execSnapClose at h
  split at h
  · rename_i hi
    cases h
    exact ((calm_takeIngest hi).toSound.trans (sound_applySnapClose _ _ _ _)).settle
  · cases h; exact .refl s

theorem closing_editPut (s : State) : Closing .editPut s := by
  intro t h
  replace h : execEditPut s = .next t := h
  unfold execEditPut at h
  split at h
  · rename_i hi
    cases h
    exact ((calm_takeIngest hi).toSound.trans (sound_applyEditPut _ _ _ _ _ _)).settle
  · cases h; exact .refl s

theorem closing_editDrop (s : State) : Closing .editDrop s := by
  intro t h
  replace h : execEditDrop s = .next t := h
  unfold execEditDrop at h
  split at h
  · rename_i hi
    cases h
    exact ((calm_takeIngest hi).toSound.trans (sound_applyEditDrop _ _ _ _ _)).settle
  · cases h; exact .refl s

end Sys2Proof.Machine
end

section
/-! SUPPORT. The commands of the local port keep the invariant, station time and STEP, START and ADD_CHANNEL with the channels they make
(11_local_port_profile_and_notices.md). -/

namespace Sys2Proof.Machine

variable {s t u : State} {c : Channel} {o : OutletNo}

/-! ## Judging -/

theorem closes_bare {f : State} (params : List Byte) (h : Closes s f) : Closes s (s.bare params f) := by
  unfold State.bare
  split
  · exact h
  · exact (calm_refuse s _).closes

theorem closes_running {f : State} (h : Closes s f) : Closes s (s.running f) := by
  unfold State.running
  split
  · exact h
  · exact (calm_refuse s _).closes

theorem closes_onChannel {f : Chan → State} (c : Byte) (h : ∀ ch, s.chan? c = some ch → Closes s (f ch)) :
    Closes s (s.onChannel c f) := by
  unfold State.onChannel
  refine closes_running ?_
  split
  · exact (calm_refuse s _).closes
  · rename_i ch hc
    exact h ch hc

theorem closes_byChannel {f : Chan → State} (params : List Byte) (h : ∀ ch, s.chan? ch.part.channel = some ch → Closes s (f ch)) :
    Closes s (s.byChannel params f) := by
  unfold State.byChannel
  split
  · exact closes_onChannel _ fun ch hc => h ch (by rw [chan?_channel hc]; exact hc)
  · exact (calm_refuse s _).closes

/-- A command that does its work and answers DONE. -/
theorem Closes.done (h : Closes s t) (d : List Byte) : Closes s (t.done d) := h.calm (calm_done t d)

/-! ## The profile -/

theorem closes_loadStation (s : State) (params : List Byte) : Closes s (s.loadStation params) := by
  unfold State.loadStation
  split
  · exact (calm_refuse s _).closes
  · split
    · exact (calm_refuse s _).closes
    · split
      · exact (calm_refuse s _).closes
      · split
        · exact (calm_refuse s _).closes
        · dsimp only
          split
          · exact (calm_station s _).closes.done _
          · exact ((calm_station s _).trans (calm_clamped _ _)).closes

/-- A channel just added or started holds no record. -/
theorem added_slots (p : ChannelPart) : (Chan.added p).slots = [] := rfl

theorem added_listsRight (p : ChannelPart) : (Chan.added p).ListsRight :=
  ⟨Nat.zero_le _, Nat.zero_le _, List.nodup_nil, List.nodup_nil, rfl⟩

theorem started_listsRight (ch : Chan) : ch.started.ListsRight :=
  ⟨Nat.zero_le _, Nat.zero_le _, List.nodup_nil, List.nodup_nil, rfl⟩

/-- Where the channels stand once one is added (R184). -/
theorem place?_added (s : State) (p : ChannelPart) (d : Channel) :
    State.place? { s with chans := s.chans ++ [Chan.added p] } d =
      match s.place? d with
      | some x => some x
      | none => if p.channel = d then some ⟨.detached, none, false, none⟩ else none := by
  unfold State.place? State.chan?
  rw [List.find?_append]
  cases s.chans.find? (fun ch => ch.part.channel == d) with
  | some ch => rfl
  | none =>
    rw [Option.none_or]
    show (List.find? (fun ch => ch.part.channel == d) [Chan.added p]).map Chan.place = if p.channel = d then _ else none
    by_cases e : p.channel = d
    · rw [if_pos e, List.find?_cons_of_pos (by exact beq_iff_eq.2 e)]; rfl
    · rw [if_neg e, List.find?_cons_of_neg (by exact fun h => e (beq_iff_eq.1 h))]; rfl

theorem agreed_added (h : s.Agreed) (p : ChannelPart) (hp : s.chan? p.channel = none) :
    State.Agreed { s with chans := s.chans ++ [Chan.added p] } := by
  have old : ∀ d x, s.place? d = some x → State.place? { s with chans := s.chans ++ [Chan.added p] } d = some x :=
    fun d x hx => by rw [place?_added, hx]
  have new : ∀ d x, State.place? { s with chans := s.chans ++ [Chan.added p] } d = some x →
      s.place? d = some x ∨ x = ⟨.detached, none, false, none⟩ := by
    intro d x hx
    rw [place?_added] at hx
    split at hx
    · rename_i y hy; rw [hy]; exact Or.inl hx
    · split at hx
      · exact Or.inr (Option.some.inj hx).symm
      · cases hx
  refine ⟨?_, h.serving, fun o d hd => ?_, fun d x hx => ?_, fun d x o hx ho => ?_, fun hl d x hx => ?_⟩
  · unfold State.ChannelsDistinct
    rw [List.map_append]
    refine List.nodup_append.2 ⟨h.distinct, List.nodup_singleton _, fun a ha b hb hab => ?_⟩
    obtain ⟨ch, hm, rfl⟩ := List.mem_map.1 ha
    have := List.find?_eq_none.1 hp ch hm
    rw [List.mem_singleton.1 hb] at hab
    exact this (beq_iff_eq.2 hab)
  · obtain ⟨x, hx, hxo⟩ := h.served o d hd
    exact ⟨x, old d x hx, hxo⟩
  · rcases new d x hx with hx | rfl
    · exact h.right d x hx
    · exact ⟨by simp [TakeoverState.hasOutlet], by simp [TakeoverState.holding], nofun, by simp⟩
  · rcases new d x hx with hx | rfl
    · exact h.named d x o hx ho
    · cases ho
  · rcases new d x hx with hx | rfl
    · exact h.before hl d x hx
    · rfl

/-- ADD_CHANNEL makes a channel without records, in DETACHED (R184). -/
theorem calm_added (p : ChannelPart) (hp : s.chan? p.channel = none) : Calm s { s with chans := s.chans ++ [Chan.added p] } := by
  refine ⟨⟨⟨rfl, rfl⟩, fun h => { h with lists := fun ch hm => ?_, pool := ?_, agreed := agreed_added h.agreed p hp }⟩, rfl⟩
  · rcases List.mem_append.1 hm with hm | hm
    · exact h.lists ch hm
    · rw [List.mem_singleton.1 hm]; exact added_listsRight p
  · have hpool := h.pool
    unfold State.PoolWhole State.poolSlots at hpool ⊢
    rw [List.flatMap_append, List.flatMap_singleton, added_slots, List.append_nil]
    exact hpool

theorem closes_addChannel (s : State) (params : List Byte) : Closes s (s.addChannel params) := by
  unfold State.addChannel
  split
  · exact (calm_refuse s _).closes
  · split
    · exact (calm_refuse s _).closes
    · split
      · exact (calm_refuse s _).closes
      · dsimp only
        split
        · exact (calm_refuse s _).closes
        · rename_i hok
          have hp : s.chan? (clampChannel (rawChannel ‹_›)).channel = none := by
            by_contra hne
            rw [← ne_eq, ← isSome_iff_ne] at hne
            exact hok (by rw [hne]; simp)
          have h1 := calm_added (s := s) _ hp
          split
          · exact h1.closes.done _
          · exact (h1.trans (calm_clamped _ _)).closes

/-! ## START -/

/-- Before START no outlet serves a channel: every channel is DETACHED (R101, R110). -/
theorem State.Agreed.unservedBefore (h : s.Agreed) (hl : s.locked = false) (o : OutletNo) : (s.outlet o).channel = none := by
  refine not_not.1 fun hn => ?_
  obtain ⟨c, hc⟩ := Option.ne_none_iff_exists'.1 hn
  obtain ⟨p, hp, ho⟩ := h.served o c hc
  have := (h.right c p hp).placed.1 (by rw [ho]; nofun)
  rw [h.before hl c p hp] at this
  exact absurd this (by simp [TakeoverState.hasOutlet])

/-- The state START sets before it enters LISTENING_IN (R185). -/
def State.begun (s : State) (p : StationPart) : State :=
  { s with
    station := some p
    locked := true
    chans := s.chans.map Chan.started
    poolFree := List.range Config.poolSize
    tb := { s.tb with state := .seeking, lastPulse := none, measuring := false, suspectRun := 0 }
    bus := { s.bus with own := BitVec.ofNat 4 p.number, rx := .hunt, huntCount := 0 } }

theorem begin_eq (s : State) (p : StationPart) : s.begin p = (s.begun p).enterListening := rfl

theorem started_channel (ch : Chan) : ch.started.part.channel = ch.part.channel := by
  show (raiseK2 ch.part).channel = _
  unfold raiseK2
  split <;> rfl

/-- After START every channel is IDLE with neither outlet nor run (R101). -/
theorem place?_begun {p : StationPart} {d : Channel} {x : Place} (h : (s.begun p).place? d = some x) :
    x = ⟨.idle, none, false, none⟩ := by
  obtain ⟨ch, hc, rfl⟩ := chan?_of_place? h
  obtain ⟨e, -, rfl⟩ := List.mem_map.1 (chan?_mem hc)
  rfl

theorem begun_poolFree (s : State) (p : StationPart) : (s.begun p).poolFree = List.range 1536 := by
  simp only [State.begun, Config.poolSize]

theorem firm_begun (h : s.Firm) (hl : s.locked = false) (p : StationPart) : (s.begun p).Firm := by
  have hnone := h.agreed.unservedBefore hl
  refine { h with lists := fun ch hm => ?_, pool := ?_, agreed := ?_ }
  · obtain ⟨e, -, rfl⟩ := List.mem_map.1 hm
    exact started_listsRight e
  · unfold State.PoolWhole State.poolSlots
    have : (s.begun p).chans.flatMap Chan.slots = [] :=
      List.flatMap_eq_nil_iff.2 fun ch hm => by obtain ⟨e, -, rfl⟩ := List.mem_map.1 hm; rfl
    rw [this, List.append_nil, begun_poolFree]
  · refine ⟨?_, h.agreed.serving, fun o d hd => ?_, fun d x hx => ?_, fun d x o hx ho => ?_, nofun⟩
    · unfold State.ChannelsDistinct
      show ((s.chans.map Chan.started).map _).Nodup
      rw [List.map_map, show (fun ch : Chan => ch.part.channel) ∘ Chan.started = fun ch => ch.part.channel from
        funext started_channel]
      exact h.agreed.distinct
    · exact absurd ((hnone o).symm.trans hd) nofun
    · rw [place?_begun hx]
      exact ⟨by simp [TakeoverState.hasOutlet], by simp [TakeoverState.holding], nofun, by simp⟩
    · rw [place?_begun hx] at ho; cases ho

theorem calm_enterListening (s : State) : Calm s s.enterListening := (calm_freshStatus _).after (calm_bus s _ id)

theorem calm_begin (hl : s.locked = false) (p : StationPart) : Calm s (s.begin p) := by
  rw [begin_eq]
  exact (calm_enterListening _).after ⟨⟨⟨rfl, rfl⟩, fun h => firm_begun h hl p⟩, rfl⟩

theorem closes_startCmd (s : State) (params : List Byte) : Closes s (s.startCmd params) := by
  unfold State.startCmd
  refine closes_bare params ?_
  split
  · exact (calm_refuse s _).closes
  · split
    · exact (calm_refuse s _).closes
    · rename_i hl
      have hl : s.locked = false := by
        rw [Bool.or_eq_true, not_or] at hl
        exact Bool.eq_false_iff.2 hl.1
      dsimp only
      split
      · exact (calm_begin hl _).closes.done _
      · exact ((calm_begin hl _).trans (calm_clamped _ _)).closes

/-! ## Notices and reads -/

theorem closes_clearNotice (s : State) (params : List Byte) : Closes s (s.clearNotice params) := by
  unfold State.clearNotice
  split
  · split
    · exact (calm_modNotice s _ _ fun _ => Nat.zero_le _).closes.done _
    · exact (calm_refuse s _).closes
  · exact (calm_refuse s _).closes

theorem calm_putFloor (s : State) (n : Nat) : Calm s (s.putFloor n) :=
  ⟨⟨⟨rfl, rfl⟩, fun h => { h with attention := attentionOf_iff _ _, agreed := h.agreed.elsewhere rfl rfl rfl }⟩, rfl⟩

theorem closes_setFloor (s : State) (params : List Byte) : Closes s (s.setFloor params) := by
  unfold State.setFloor
  split
  · split
    · exact ((calm_putFloor s _).trans (calm_clamped _ _)).closes
    · exact (calm_putFloor s _).closes.done _
  · exact (calm_refuse s _).closes

theorem closes_readNotice (s : State) (params : List Byte) : Closes s (s.readNotice params) :=
  closes_bare params ((Closes.refl s).done _)

theorem closes_readChannel (s : State) (params : List Byte) : Closes s (s.readChannel params) := by
  unfold State.readChannel
  split
  · refine closes_onChannel _ fun ch _ => Closes.done ?_ _
    split
    · exact (calm_modWatch s _ _).closes
    · exact .refl s
  · exact (calm_refuse s _).closes

theorem closes_readEvent (s : State) (params : List Byte) : Closes s (s.readEvent params) := by
  unfold State.readEvent
  split
  · split
    · exact (calm_refuse s _).closes
    · exact closes_onChannel _ fun ch _ => (Closes.refl s).done _
  · exact (calm_refuse s _).closes

theorem closes_readPeers (s : State) (params : List Byte) : Closes s (s.readPeers params) := by
  unfold State.readPeers
  split
  · split
    · exact (calm_refuse s _).closes
    · exact (Closes.refl s).done _
  · exact (calm_refuse s _).closes

theorem closes_readTime (s : State) (params : List Byte) : Closes s (s.readTime params) :=
  closes_bare params ((Closes.refl s).done _)

theorem closes_readOutlets (s : State) (params : List Byte) : Closes s (s.readOutlets params) :=
  closes_bare params ((Closes.refl s).done _)

theorem closes_readCounts (s : State) (params : List Byte) : Closes s (s.readCounts params) :=
  closes_bare params ((Closes.refl s).done _)

theorem closes_takeAsRun (s : State) (params : List Byte) : Closes s (s.takeAsRun params) := by
  have h1 : Calm s { s with asrun := s.asrun.drop 8 } :=
    ⟨⟨⟨rfl, rfl⟩, fun h => { h with
      queues := ⟨h.queues.1, (List.drop_sublist 8 s.asrun).length_le.trans h.queues.2⟩
      agreed := h.agreed.elsewhere rfl rfl rfl }⟩, rfl⟩
  exact closes_bare params (h1.closes.done _)

/-! ## Control -/

theorem closes_forceLost (s : State) (c : Channel) (ch : Chan) : Closes s (s.forceLost c ch) := by
  have h1 := calm_modWatch s c (fun w => { w with forced := true })
  unfold State.forceLost
  dsimp only
  split
  · exact h1.closes
  · exact h1.closes
  · exact ((h1.trans (calm_modWatch _ c _)).toSound.trans (sound_setWatch _ _ _ _)).settle

theorem calm_inhibit {ch : Chan} (hc : s.chan? c = some ch) : Calm s (s.inhibit c ch) := by
  have hk := keeps_modTk (.refl s) c (fun tk => { tk with inhibit := true })
  refine KeepsOuter.calm ?_ (fun h => agreed_inhibit h hc) ?_ <;> unfold State.inhibit <;> dsimp only <;> split
  · exact (keeps_check hk c).outer
  · exact (keeps_check hk c).outer
  · exact (keeps_pass (keeps_leaveContending hk c _)).outer
  · exact (keeps_modTk hk c _).outer
  · exact hk.outer
  · exact (claimsOnly_check _ c).reports
  · exact (claimsOnly_check _ c).reports
  · rw [(claimsOnly_pass _).reports, leaveContending_reports]; rfl
  · rfl
  · rfl

theorem calm_allow (s : State) (c : Channel) : Calm s (s.allow c) :=
  (calm_modTk_same s c (fun tk => { tk with inhibit := false })).trans (calm_check _ c)

theorem closes_release {ch : Chan} (hc : s.chan? c = some ch) : Closes s (s.release c ch) := by
  have force : ch.tk.state = .onAir ∨ ch.tk.state = .handingBack → Closes s (s.forceHandback c ch).settle := fun hs =>
    ((tends_forceHandback s c ch).outer.sound fun h => agreed_forceHandback h hc hs).settle
  unfold State.release
  split
  · rename_i hs
    refine Closes.done (Sound.settle (((tends_mirrorTurn (.refl s) c).keeps (keeps_abortJoin _ c ch.tk)).outer.sound fun h => ?_)) _
    obtain ⟨y, hy, ht⟩ := mirrorTurn_tk hc (by rw [hs]; rfl)
    rw [← ht]
    exact agreed_abortJoin ((places_mirrorTurn (.refl s) c).agreed h) hy (by rw [ht]; exact hs)
  · rename_i hs
    exact (force (Or.inl hs)).done _
  · rename_i hs
    exact (force (Or.inr hs)).done _
  · exact (calm_refuse s _).closes

theorem closes_goCmd (s : State) (c : Channel) (ch : Chan) : Closes s (s.goCmd c ch) := by
  unfold State.goCmd
  split
  · exact (calm_refuse s _).closes
  · split
    · exact (sound_giveGo s c ch _ _).settle.done _
    · exact (calm_refuse s _).closes

/-- A FAULTED outlet is emptied and FREE (R169). -/
theorem calm_emptied (hs : (s.outlet o).state = .faulted) :
    Calm s ((s.modOutlet o (fun x =>
      { x with state := .free, fault := none, queue := [], awaiting := [], outstanding := none })).settleOrder o) := by
  have places : KeepsPlaces s ((s.modOutlet o (fun x =>
      { x with state := .free, fault := none, queue := [], awaiting := [], outstanding := none })).settleOrder o) := by
    refine keepsPlaces_unserved (o := o) ?_ (settled_chans s o _) (by rw [hs]; exact ⟨nofun, nofun⟩) (fun hb => ?_) fun p hp => ?_
    · exact settleOrder_locked _ o
    · rw [settled_outlet, if_pos rfl]; exact ⟨hb, nofun, nofun⟩
    · rw [settled_outlet, if_neg hp]
  refine (keeps_modOutlet_settle (.refl s) o _ ⟨fun ha => ?_, fun _ => Nat.zero_le _, Nat.zero_le _, id⟩).outer.calm
    places.agreed (settleOrder_reports _ o)
  have hno : (s.outlet o).air = false := Bool.eq_false_iff.2 fun e => by
    have := ha.1 e
    rw [hs] at this; cases this
  exact iff_of_false (by rw [hno]; nofun) nofun

theorem closes_clearOutlet (s : State) (params : List Byte) : Closes s (s.clearOutlet params) := by
  unfold State.clearOutlet
  split
  · split
    · refine closes_running ?_
      split
      · rename_i hs
        exact ((calm_emptied hs).trans (calm_pass _)).closes.done _
      · exact (calm_refuse s _).closes
    · exact (calm_refuse s _).closes
  · exact (calm_refuse s _).closes

theorem calm_restartBus (s : State) : Calm s s.restartBus := by
  unfold State.restartBus
  dsimp only
  have none_queued : QueueRight s.bus.queue → QueueRight [] := fun _ => ⟨Nat.zero_le _, List.Pairwise.nil, List.Pairwise.nil⟩
  split
  · exact (calm_busLeftActive _).after
      ((calm_enterListening _).after (calm_bus s _ none_queued (hl := fun _ => Nat.zero_le _)))
  · exact (calm_enterListening _).after (calm_bus s _ none_queued (hl := fun _ => Nat.zero_le _))

theorem closes_busRestart (s : State) (params : List Byte) : Closes s (s.busRestart params) :=
  closes_bare params (closes_running ((calm_restartBus s).closes.done _))

theorem closes_byCode (s : State) (code : Nat) (params : List Byte) : Closes s (s.byCode code params) := by
  unfold State.byCode
  split
  · exact closes_loadStation s params
  · exact closes_addChannel s params
  · exact closes_startCmd s params
  · exact closes_readNotice s params
  · exact closes_clearNotice s params
  · exact closes_setFloor s params
  · exact closes_readChannel s params
  · exact closes_readEvent s params
  · exact closes_readPeers s params
  · exact closes_readTime s params
  · exact closes_readOutlets s params
  · exact closes_readCounts s params
  · exact closes_takeAsRun s params
  · exact closes_clearOutlet s params
  · exact closes_byChannel params fun ch _ => (closes_forceLost s _ ch).done _
  · exact closes_byChannel params fun ch _ => (calm_modWatch s _ _).closes.done _
  · exact closes_byChannel params fun ch hc => (calm_inhibit hc).closes.done _
  · exact closes_byChannel params fun ch _ => (calm_allow s _).closes.done _
  · exact closes_byChannel params fun ch hc => closes_release hc
  · exact closes_byChannel params fun ch _ => closes_goCmd s _ ch
  · exact closes_busRestart s params
  · exact (calm_refuse s _).closes

theorem closing_unknownCommand (s : State) (code : Byte) (params : List Byte) (check : BitVec 16) :
    Closing (.unknownCommand code params check) s := by
  refine closing_of rfl ?_
  split
  · exact (calm_port s _).closes
  · split
    · exact (calm_port s _).closes
    · split
      · exact (calm_refuse s _).closes
      · exact closes_byCode s _ params

end Sys2Proof.Machine
end

section
/-! SUPPORT. Every command keeps the invariant, and which commands move station time and write STEP: the statements that need a look at
every command. -/

namespace Sys2Proof.Machine

variable {s t : State}

/-- Every command but a clock cycle, an accepted measurement and pin reset keeps the invariant, station time and STEP. -/
theorem closing (i : Instr) (s : State) (hc : i ≠ .clockCycle) (hr : i ≠ .pinReset)
    (hp : i = .referencePulse → ¬ (s.tb.state ≠ .freeRun ∧ s.tb.measuring = true ∧ 256 ≤ s.tb.periods + 1 ∧ s.Accepted)) :
    Closing i s := by
  cases i with
  | pinReset => exact absurd rfl hr
  | clockCycle => exact absurd rfl hc
  | referencePulse => exact closing_referencePulse (hp rfl)
  | missingPulse => exact closing_missingPulse s
  | referenceSilence => exact closing_referenceSilence s
  | feedIdleGap begun => exact closing_feedIdleGap s begun
  | feedLengthAbandon => exact closing_feedLengthAbandon s
  | feedMessageDiscard kind channel body check => exact closing_feedMessageDiscard s kind channel body check
  | beacon b => exact closing_beacon s b
  | driftCheck => exact closing_driftCheck s
  | reclaimSweep => exact closing_reclaimSweep s
  | scheduleMessage m => exact closing_scheduleMessage s m
  | snapOpen => exact closing_snapOpen s
  | snapEvent => exact closing_snapEvent s
  | snapClose => exact closing_snapClose s
  | editPut => exact closing_editPut s
  | editDrop => exact closing_editDrop s
  | doubtfulDeadline c => exact closing_doubtfulDeadline s c
  | lostDeadline c => exact closing_lostDeadline s c
  | returnDeadline c => exact closing_returnDeadline s c
  | windowEnd c => exact closing_windowEnd s c
  | busHeaderMalformed => exact closing_busHeaderMalformed s
  | malformedFrame raw => exact closing_malformedFrame s raw
  | clashFrame f => exact closing_of rfl (closes_closeFrame s _)
  | claimFrame merit st c => exact closing_of rfl (closes_closeFrame s _)
  | holdFrame merit st c x v e => exact closing_of rfl (closes_closeFrame s _)
  | releaseFrame merit st c r => exact closing_of rfl (closes_closeFrame s _)
  | statusFrame st b => exact closing_of rfl (closes_closeFrame s _)
  | attempt => exact closing_attempt s
  | arbitrationLoss => exact closing_arbitrationLoss s
  | bitFault => exact closing_bitFault s
  | sentWhole => exact closing_sentWhole s
  | quietDeadline => exact closing_quietDeadline s
  | listeningInDeadline => exact closing_listeningInDeadline s
  | statusDeadline => exact closing_statusDeadline s
  | peerSilenceDeadline st => exact closing_peerSilenceDeadline s st
  | foreignClaimExpiry c => exact closing_foreignClaimExpiry s c
  | holderDeadline c => exact closing_holderDeadline s c
  | yieldDeadline c => exact closing_yieldDeadline s c
  | claimWindowEnd c => exact closing_claimWindowEnd s c
  | holdDeadline c => exact closing_holdDeadline s c
  | cueMoment c => exact closing_cueMoment s c
  | sideCueTime c => exact closing_sideCueTime s c
  | commandSend ready => exact closing_commandSend s ready
  | queuedCommandMissed o => exact closing_queuedCommandMissed s o
  | replyDeadline o => exact closing_replyDeadline s o
  | startDeadline o => exact closing_startDeadline s o
  | armedStopTime o => exact closing_armedStopTime s o
  | cueIdleGap begun => exact closing_cueIdleGap s begun
  | cueLengthAbandon => exact closing_cueLengthAbandon s
  | cueMessageDiscard kind tag body check => exact closing_cueMessageDiscard s kind tag body check
  | taken tag => exact closing_taken s tag
  | refused tag reason => exact closing_refused s tag reason
  | started tag outlet actual => exact closing_started s tag outlet actual
  | stopPoint c => exact closing_stopPoint s c
  | switchDeadline c => exact closing_switchDeadline s c
  | replyFetch => exact closing_of rfl (calm_port s _).closes
  | truncatedCommand => exact closing_of rfl (calm_port s _).closes
  | overlongCommand => exact closing_of rfl (calm_port s _).closes
  | unknownCommand code params check => exact closing_unknownCommand s code params check
  | loadStation params => exact closing_of rfl (closes_loadStation s params)
  | addChannel params => exact closing_of rfl (closes_addChannel s params)
  | start params => exact closing_of rfl (closes_startCmd s params)
  | readNotice params => exact closing_of rfl (closes_readNotice s params)
  | clearNotice params => exact closing_of rfl (closes_clearNotice s params)
  | setFloor params => exact closing_of rfl (closes_setFloor s params)
  | readChannel params => exact closing_of rfl (closes_readChannel s params)
  | readEvent params => exact closing_of rfl (closes_readEvent s params)
  | readPeers params => exact closing_of rfl (closes_readPeers s params)
  | readTime params => exact closing_of rfl (closes_readTime s params)
  | readOutlets params => exact closing_of rfl (closes_readOutlets s params)
  | readCounts params => exact closing_of rfl (closes_readCounts s params)
  | takeAsrun params => exact closing_of rfl (closes_takeAsRun s params)
  | forceLost params => exact closing_of rfl (closes_byChannel params fun ch _ => (closes_forceLost s _ ch).done _)
  | unforce params => exact closing_of rfl (closes_byChannel params fun ch _ => (calm_modWatch s _ _).closes.done _)
  | inhibit params => exact closing_of rfl (closes_byChannel params fun ch hc => (calm_inhibit hc).closes.done _)
  | allow params => exact closing_of rfl (closes_byChannel params fun ch _ => (calm_allow s _).closes.done _)
  | release params => exact closing_of rfl (closes_byChannel params fun ch hc => closes_release hc)
  | go params => exact closing_of rfl (closes_byChannel params fun ch _ => closes_goCmd s _ ch)
  | clearOutlet params => exact closing_of rfl (closes_clearOutlet s params)
  | busRestart params => exact closing_of rfl (closes_busRestart s params)
  | busFree => exact closing_busFree s

/-- Each command closes, or is a clock cycle, an accepted measurement or pin reset. -/
theorem closing_or (i : Instr) (s : State) : Closing i s ∨ i = .clockCycle ∨ i = .pinReset ∨
    (i = .referencePulse ∧ s.tb.state ≠ .freeRun ∧ s.tb.measuring = true ∧ 256 ≤ s.tb.periods + 1 ∧ s.Accepted) := by
  by_cases hc : i = .clockCycle
  · exact Or.inr (Or.inl hc)
  · by_cases hr : i = .pinReset
    · exact Or.inr (Or.inr (Or.inl hr))
    · by_cases hp : i = .referencePulse ∧ s.tb.state ≠ .freeRun ∧ s.tb.measuring = true ∧ 256 ≤ s.tb.periods + 1 ∧ s.Accepted
      · exact Or.inr (Or.inr (Or.inr hp))
      · exact Or.inl (closing i s hc hr fun e h => hp ⟨e, h⟩)

/-! ## The commands that move station time or write STEP -/

/-- Station time and STEP after an accepted measurement (R6, R7). -/
theorem accepted_clock (h : s.tb.state ≠ .freeRun) (hm : s.tb.measuring = true) (hp : 256 ≤ s.tb.periods + 1) (ha : s.Accepted)
    (ht : exec .referencePulse s = .next t) : t = State.accept { s with tb := s.pulsed } s.tb.cycles :=
  (Host.Outcome.next.inj ((exec_referencePulse_accepted h hm hp ha).symm.trans ht)).symm

theorem pinReset_eq (ht : exec .pinReset s = .next t) : t = State.resetWith s.pending := (Host.Outcome.next.inj ht).symm

/-- Settles O6, by the three commands that `closing_or` leaves: a clock cycle, pin reset and an accepted measurement. -/
theorem stationTimeMovesOnlyByClock : Obligations.StationTimeMovesOnlyByClock := by
  intro i s t ht
  rcases closing_or i s with h | rfl | rfl | ⟨rfl, h, hm, hp, ha⟩
  · exact Or.inl (h t ht).clock.1
  · rw [exec_clockCycle] at ht
    cases ht
    dsimp only
    split
    · exact Or.inl rfl
    · exact Or.inr (Or.inl ⟨rfl, Nat.not_lt.1 ‹_›, rfl⟩)
  · rw [pinReset_eq ht]
    exact Or.inr (Or.inr ⟨rfl, rfl⟩)
  · rw [accepted_clock h hm hp ha ht]
    exact Or.inl (accept_keeps _ _).2.2.1

/-- Settles O7, by the same three commands: of them an accepted measurement and pin reset write STEP. -/
theorem stepWrittenOnlyByAcceptedMeasurement : Obligations.StepWrittenOnlyByAcceptedMeasurement := by
  intro i s t ht
  rcases closing_or i s with h | rfl | rfl | ⟨rfl, h, hm, hp, ha⟩
  · exact Or.inl (h t ht).clock.2
  · rw [exec_clockCycle] at ht
    cases ht
    exact Or.inl rfl
  · rw [pinReset_eq ht]
    exact Or.inr (Or.inr ⟨rfl, rfl⟩)
  · rw [accepted_clock h hm hp ha ht]
    refine Or.inr (Or.inl ⟨rfl, h, hm, hp, ha, ?_⟩)
    rw [(accept_keeps _ _).2.2.2, stepFor_eq]
    rfl

/-! ## The invariant -/

theorem resetWith_place? (l : List Instr) (c : Channel) : (State.resetWith l).place? c = none := rfl

/-- The state after pin reset meets the invariant (R13, R100, R170, R205). -/
theorem inv_resetWith (l : List Instr) : (State.resetWith l).Inv := by
  refine (inv_iff _).2 ⟨?_, rfl⟩
  exact {
    stepInRange := by show 21470541 ≤ Config.nominalStep ∧ Config.nominalStep ≤ 21479131; decide
    attention := iff_of_false nofun fun ⟨i, hi, _⟩ => by rw [resetWith_notice] at hi; cases hi
    air := fun o => by rw [resetWith_outlet]; exact iff_of_false nofun nofun
    transmit := ⟨Nat.zero_le _, List.Pairwise.nil, List.Pairwise.nil⟩
    sendOrder := ⟨List.nodup_nil, fun o => by rw [resetWith_outlet]; exact iff_of_false nofun nofun⟩
    outlets := fun o => by rw [resetWith_outlet]; decide
    queues := ⟨Nat.zero_le _, Nat.zero_le _⟩
    counts := ⟨Nat.zero_le _, Nat.zero_le _, Nat.zero_le _, Nat.zero_le _, Nat.zero_le _, Nat.zero_le _, Nat.zero_le _,
      fun i => by rw [resetWith_notice]; exact Nat.zero_le _⟩
    lists := fun ch hm => absurd hm List.not_mem_nil
    pool := by
      unfold State.PoolWhole State.poolSlots
      rw [resetWith_poolFree]
      exact .of_eq (List.append_nil _)
    agreed := {
      distinct := List.nodup_nil
      serving := fun o => by rw [resetWith_outlet]; exact iff_of_false (fun h => h rfl) nofun
      served := fun o c hc => by rw [resetWith_outlet] at hc; cases hc
      right := fun c p hp => absurd ((resetWith_place? l c).symm.trans hp) nofun
      named := fun c p _ hp => absurd ((resetWith_place? l c).symm.trans hp) nofun
      before := fun _ c p hp => absurd ((resetWith_place? l c).symm.trans hp) nofun } }

theorem exec_keeps_inv (i : Instr) (hs : s.Inv) (ht : exec i s = .next t) : t.Inv := by
  obtain ⟨hf, hr⟩ := (inv_iff s).1 hs
  rcases closing_or i s with h | rfl | rfl | ⟨rfl, h, hm, hp, ha⟩
  · exact (h t ht).inv hs
  · rw [exec_clockCycle] at ht
    cases ht
    exact (inv_iff _).2 ⟨hf.withTb _ hf.stepInRange, hr⟩
  · rw [pinReset_eq ht]
    exact inv_resetWith _
  · rw [accepted_clock h hm hp ha ht]
    obtain ⟨hfirm, hrep, -⟩ := accept_keeps { s with tb := s.pulsed } s.tb.cycles
    exact (inv_iff _).2 ⟨hfirm (hf.withTb s.pulsed hf.stepInRange), hrep.trans hr⟩

/-- Settles O4: the command at the front of the queue keeps the invariant, and an empty queue changes nothing. -/
theorem everyStepKeepsInvariant : Obligations.EveryStepKeepsInvariant := by
  intro s t hs ht
  unfold step at ht
  split at ht
  · cases ht; exact hs
  · exact exec_keeps_inv _ ((calm_pending s _).closes.inv hs) ht

end Sys2Proof.Machine
end

section
/-! SUPPORT. The commands of the feed receiver: what an idle gap, an over-long length, a message that fails its judgement and a schedule
message do, one equation for each case, and the statements about them (02_the_schedule_mirror.md, sections 2.1 to 2.3). -/

namespace Sys2Proof.Machine
-- Proofs are checked one after another: in parallel they would not fit the memory that the check allows.
set_option Elab.async false

variable {s : State}

/-! ## Framing (R15) -/

/-- No feed message is taken before START or in HUNT. -/
theorem feedFraming_false (h : s.locked = false ∨ s.feed.framing = .hunt) : s.feedFraming = false := by
  rcases h with h | h <;> simp [State.feedFraming, h]

theorem feedFraming_true (hl : s.locked = true) (hf : s.feed.framing ≠ .hunt) : s.feedFraming = true := by
  simp [State.feedFraming, hl, hf]

theorem setFraming_same {f : Framing} (h : s.feed.framing = f) : s.setFraming f = s := by subst h; rfl

/-- A counted fault with the framing state it leaves (R15). -/
theorem feedFault_setFraming (s : State) (f : Framing) :
    s.feedFault.setFraming f = { s with feed := { s.feed with framing := f, faults := min 65535 (s.feed.faults + 1) } } := rfl

theorem exec_feedIdleGap_unlocked (h : s.locked = false) (b : Bool) : exec (.feedIdleGap b) s = .next s :=
  congrArg _ (if_pos (by simp [h]))

/-- After START an idle gap acts by the framing state (R15). -/
theorem exec_feedIdleGap (h : s.locked = true) (b : Bool) : exec (.feedIdleGap b) s = .next (match s.feed.framing with
    | .hunt => s.setFraming .wait
    | .wait => if b then s.feedFault else s
    | .receiving => s.feedFault.setFraming .wait) :=
  congrArg _ (if_neg (by simp [h]))

/-- An idle gap within a message truncates it, whether its first bytes or more of it had come (R15). -/
theorem exec_feedIdleGap_truncates (h : s.locked = true) (hf : s.feed.framing ≠ .hunt) {b : Bool}
    (hb : s.feed.framing = .receiving ∨ b = true) : exec (.feedIdleGap b) s = .next (s.feedFault.setFraming .wait) := by
  rw [exec_feedIdleGap h]
  cases hs : s.feed.framing with
  | hunt => exact absurd hs hf
  | wait =>
    have hb : b = true := hb.resolve_left (by simp [hs])
    rw [hb, setFraming_same (s := s.feedFault) hs]
    rfl
  | receiving => rfl

theorem exec_feedLengthAbandon_unframed (h : s.feedFraming = false) : exec .feedLengthAbandon s = .next s :=
  congrArg _ (if_neg (by simp [h]))

theorem exec_feedLengthAbandon (h : s.feedFraming = true) : exec .feedLengthAbandon s = .next (s.feedFault.setFraming .hunt) :=
  congrArg _ (if_pos h)

/-! ## The judgement of a message (R16) -/

section Judged

variable (kind chan : Byte) (body : List Byte) (check : BitVec 16)

theorem exec_feedMessageDiscard_unframed (h : s.feedFraming = false) :
    exec (.feedMessageDiscard kind chan body check) s = .next s :=
  congrArg _ (if_neg (by simp [h]))

theorem exec_feedMessageDiscard (h : s.feedFraming = true) :
    exec (.feedMessageDiscard kind chan body check) s = .next (s.judgeFeed kind chan body check) :=
  congrArg _ (if_pos h)

variable {kind chan body check}

theorem judgeFeed_badCheck (h : check ≠ messageCheck kind chan body) :
    s.judgeFeed kind chan body check = s.feedFault.setFraming .hunt := if_pos (.inr h)

/-- A message whose length and check pass is judged by its channel and its structure. -/
theorem judgeFeed_checked (hn : body.length ≤ 63) :
    s.judgeFeed kind chan body (messageCheck kind chan body) =
      if (s.chan? chan).isNone then s.setFraming .wait
      else match parseFeed kind.toNat chan body with
        | none => s.feedFault.setFraming .wait
        | some (.beacon b) => (s.setFraming .wait).takeBeacon b
        | some (.sched m) => (s.setFraming .wait).offerSched m :=
  if_neg (by simp [hn])

theorem judgeFeed_unprofiled (hn : body.length ≤ 63) (hc : s.chan? chan = none) :
    s.judgeFeed kind chan body (messageCheck kind chan body) = s.setFraming .wait := by
  rw [judgeFeed_checked hn, hc]
  rfl

theorem judgeFeed_malformed (hn : body.length ≤ 63) (hc : s.chan? chan ≠ none) (hp : parseFeed kind.toNat chan body = none) :
    s.judgeFeed kind chan body (messageCheck kind chan body) = s.feedFault.setFraming .wait := by
  rw [judgeFeed_checked hn, if_neg (by simpa using hc), hp]

end Judged

/-- Settles O15, clause by clause from the equations of the three commands. -/
theorem feedFramingAndDiscards : Obligations.FeedFramingAndDiscards := by
  intro s begun kind chan body check
  refine ⟨fun hl => ?_, fun hl hh => ?_, fun hl hw => ?_, fun hl hf hb => ?_, fun hl hf => ?_, fun hl hf hn => ⟨?_, ?_, ?_⟩⟩
  · have hu : s.feedFraming = false := feedFraming_false (.inl hl)
    exact ⟨exec_feedIdleGap_unlocked hl _, exec_feedLengthAbandon_unframed hu, exec_feedMessageDiscard_unframed _ _ _ _ hu⟩
  · have hu : s.feedFraming = false := feedFraming_false (.inr hh)
    refine ⟨?_, exec_feedLengthAbandon_unframed hu, exec_feedMessageDiscard_unframed _ _ _ _ hu⟩
    rw [exec_feedIdleGap hl, hh]
    rfl
  · rw [exec_feedIdleGap hl, hw]
    rfl
  · rw [exec_feedIdleGap_truncates hl hf hb, feedFault_setFraming]
  · rw [exec_feedLengthAbandon (feedFraming_true hl hf), feedFault_setFraming]
  · intro hc
    rw [exec_feedMessageDiscard _ _ _ _ (feedFraming_true hl hf), judgeFeed_badCheck hc, feedFault_setFraming]
  · rintro rfl hc
    rw [exec_feedMessageDiscard _ _ _ _ (feedFraming_true hl hf), judgeFeed_unprofiled hn hc]
    rfl
  · rintro rfl hc hp
    rw [exec_feedMessageDiscard _ _ _ _ (feedFraming_true hl hf), judgeFeed_malformed hn hc hp, feedFault_setFraming]

/-! ## A schedule message (R16 to R19) -/

section Schedule

variable {m : SchedMsg}

theorem exec_scheduleMessage_unframed (h : s.feedFraming = false) : exec (.scheduleMessage m) s = .next s :=
  congrArg _ (if_pos (by simp [h]))

/-- A schedule message that is taken is judged by its channel, then by its structure. -/
theorem exec_scheduleMessage (h : s.feedFraming = true) : exec (.scheduleMessage m) s = .next
    (if (s.chan? m.channel).isNone then s.setFraming .wait
    else if schedStructure m.body then (s.setFraming .wait).offerSched m else s.feedFault.setFraming .wait) :=
  congrArg _ (if_neg (by simp [h]))

theorem offerSched_room (h : s.feed.ingest.length < 24) :
    s.offerSched m = State.modChan { s with feed := { s.feed with ingest := s.feed.ingest ++ [m] } } m.channel
      (fun x => { x with latestQueued := some (schedVersion m.body) }) := if_pos h

theorem offerSched_full (h : 24 ≤ s.feed.ingest.length) :
    s.offerSched m = (State.markStale { s with feed := { s.feed with drops := min 65535 (s.feed.drops + 1) } } m.channel).abandonFilling
      m.channel := if_neg (by simpa [Config.ingestDepth] using h)

end Schedule

/-- Marking a copy stale and then abandoning its filling: what the mark alone leaves, the filling's records freed, and claims alone
changed beside (R24, R25). -/
theorem markStale_abandonFilling {c : Channel} {ch : Chan} (h : s.chan? c = some ch) :
    ∃ u, s.Conditioned u c ch ch.mirror.condition.markStale ∧ (s.markStale c).abandonFilling c = u.abandoned c ch ∧
      ((s.abandoned c ch).marked c ch ch.mirror.condition.markStale).ClaimsOnly ((s.markStale c).abandonFilling c) := by
  have hclaims : (s.marked c ch ch.mirror.condition.markStale).ClaimsOnly (s.markStale c) :=
    setCondition_claims h Condition.markStale (markStale_ok _)
  have hm := marked_chan? s c ch ch.mirror.condition.markStale h
  obtain ⟨x, hx, hxi⟩ : ∃ x, (s.markStale c).chan? c = some x ∧ x.incoming = ch.incoming := by
    have hb := hclaims.chan c
    rw [hm] at hb
    obtain ⟨x, hx, hxb⟩ := Option.map_eq_some_iff.1 hb
    exact ⟨x, hx, congrArg (·.incoming) hxb⟩
  refine ⟨s.markStale c, setCondition_conditioned h Condition.markStale, ?_, ?_⟩
  · rw [abandonFilling_eq hx]
    unfold State.abandoned
    rw [hxi]
  · rw [marked_abandoned]
    exact abandon_claims hclaims hm rfl

/-- Settles O17: the equations of the row, and at a full queue what marking stale and abandoning do together. -/
theorem scheduleMessageOffered : Obligations.ScheduleMessageOffered := by
  intro s m
  refine ⟨fun h => exec_scheduleMessage_unframed (feedFraming_false h), fun hl hf hc => ?_, fun hl hf hc hs => ?_,
    fun hl hf hc hs hn => ?_, fun ch hl hf hc hs hn => ?_⟩ <;> rw [exec_scheduleMessage (feedFraming_true hl hf)]
  · rw [hc]
    rfl
  · rw [if_neg (by simpa using hc), hs]
    rfl
  · rw [if_neg (by simpa using hc), if_pos hs, offerSched_room (s := s.setFraming .wait) hn]
    rfl
  · obtain ⟨u, hu, ht, hclaims⟩ := markStale_abandonFilling
      (s := { s with feed := { s.feed with framing := .wait, drops := min 65535 (s.feed.drops + 1) } }) hc
    rw [hc, if_neg (by simp), if_pos hs, offerSched_full (s := s.setFraming .wait) hn]
    exact ⟨u, _, rfl, hu, ht, hclaims⟩

end Sys2Proof.Machine
end

section
/-! SUPPORT. The formats read back: schedule messages and bus frames from the bytes of their layouts, the sizes of both, and the bytes of
a cue command, with the statement about them (sections 2.2, 5.2, 9.2). -/

namespace Sys2Proof.Machine
-- Proofs are checked one after another: in parallel they would not fit the memory that the check allows.
set_option Elab.async false

/-! ## Schedule messages (section 2.2) -/

theorem takeNat_word_end {w n : Nat} (x : BitVec w) (h : 2 ^ w = 256 ^ n) : takeNat n (beBytes n x.toNat) = some (x.toNat, []) := by
  have := takeNat_word x h []
  rwa [List.append_nil] at this

theorem parsePair_bytes (v n : BitVec 16) : parsePair (beBytes 2 v.toNat ++ beBytes 2 n.toNat) = some (v.toNat, n.toNat) := by
  simp [parsePair, takeNat_word v (n := 2) (by norm_num), takeNat_word_end n (n := 2) (by norm_num)]

theorem parseSnapEvent_bytes (v : Version) (i : Byte) {e : EventData} (h : e.cues.length ≤ 4) :
    parseSnapEvent (beBytes 2 v.toNat ++ [i] ++ eventBytes e) = some (.snapEvent v i e) := by
  simp [parseSnapEvent, takeNat_word v (n := 2) (by norm_num), takeNat_byte, parseEvent_eventBytes e h]

theorem parseEditPut_bytes (b n : Version) (a : EventId) {e : EventData} (h : e.cues.length ≤ 4) :
    parseEditPut (beBytes 2 b.toNat ++ beBytes 2 n.toNat ++ beBytes 4 a.toNat ++ eventBytes e) = some (.editPut b n a e) := by
  simp [parseEditPut, takeNat_word b (n := 2) (by norm_num), takeNat_word n (n := 2) (by norm_num),
    takeNat_word a (n := 4) (by norm_num), parseEvent_eventBytes e h]

theorem parseEditDrop_bytes (b n : Version) (i : EventId) :
    parseEditDrop (beBytes 2 b.toNat ++ beBytes 2 n.toNat ++ beBytes 4 i.toNat) = some (.editDrop b n i) := by
  simp [parseEditDrop, takeNat_word b (n := 2) (by norm_num), takeNat_word n (n := 2) (by norm_num),
    takeNat_word_end i (n := 4) (by norm_num)]

/-- The range of a schedule message's fields is what its structure test asks: at most four side cues (R16). -/
theorem schedStructure_eq (b : SchedBody) : schedStructure b = schedOk b := by cases b <;> rfl

theorem parseFeed_schedBytes (c : Channel) {b : SchedBody} (h : schedOk b = true) :
    parseFeed (schedKind b) c (schedBytes b) = some (.sched ⟨c, b⟩) := by
  cases b with
  | snapOpen v n => simp [parseFeed, schedKind, schedBytes, parsePair_bytes]
  | snapEvent v i e => exact congrArg (Option.map (fun b => FeedMsg.sched ⟨c, b⟩)) (parseSnapEvent_bytes v i (of_decide_eq_true h))
  | snapClose v n => simp [parseFeed, schedKind, schedBytes, parsePair_bytes]
  | editPut b n a e => exact congrArg (Option.map (fun b => FeedMsg.sched ⟨c, b⟩)) (parseEditPut_bytes b n a (of_decide_eq_true h))
  | editDrop b n i => exact congrArg (Option.map (fun b => FeedMsg.sched ⟨c, b⟩)) (parseEditDrop_bytes b n i)

/-! ## Sizes (section 2.2) -/

theorem length_cueBytes (cs : List SideCue) : ((cs.map cueBytes).flatten).length = 5 * cs.length := by
  induction cs with
  | nil => rfl
  | cons c cs ih => simp [cueBytes, ih]; omega

theorem length_startBytes (st : StartRule) : (startBytes st).length ≤ 7 := by cases st <;> simp [startBytes]

theorem length_eventBytes {e : EventData} (h : e.cues.length ≤ 4) : (eventBytes e).length ≤ 55 := by
  have := length_startBytes e.start
  simp only [eventBytes, List.length_append, length_beBytes, length_cueBytes, List.length_singleton]
  omega

theorem length_schedBytes {b : SchedBody} (h : schedOk b = true) : (schedBytes b).length ≤ 63 := by
  cases b with
  | snapEvent v i e =>
    have := length_eventBytes (of_decide_eq_true h)
    simp [schedBytes]
    omega
  | editPut b n a e =>
    have := length_eventBytes (of_decide_eq_true h)
    simp [schedBytes]
    omega
  | _ => simp [schedBytes]

theorem length_beaconBody (b : BeaconMsg) : (beaconBody b).length ≤ 63 := by
  obtain ⟨_, _, main, _, _⟩ := b
  cases main <;> simp [beaconBody]

/-! ## Bytes that act as their message (R16, R17) -/

/-- The bytes of a beacon do what the beacon does. -/
theorem discard_beaconBody (b : BeaconMsg) (s : State) :
    exec (.feedMessageDiscard 1 b.channel (beaconBody b) (messageCheck 1 b.channel (beaconBody b))) s = exec (.beacon b) s := by
  show _ = Host.Outcome.next _
  cases hf : s.feedFraming with
  | false => exact exec_feedMessageDiscard_unframed _ _ _ _ hf
  | true =>
    rw [exec_feedMessageDiscard _ _ _ _ hf, judgeFeed_checked (length_beaconBody b), if_pos rfl]
    have hp : parseFeed (1 : Byte).toNat b.channel (beaconBody b) = some (.beacon b) :=
      congrArg (Option.map FeedMsg.beacon) (parseBeacon_beaconBody b)
    cases hc : s.chan? b.channel with
    | none =>
      have : (s.setFraming .wait).takeBeacon b = s.setFraming .wait := by
        unfold State.takeBeacon
        rw [show (s.setFraming .wait).chan? b.channel = none from hc]
      rw [this]
      rfl
    | some ch => rw [hp]; rfl

/-- The bytes of a schedule message do what the schedule message does. -/
theorem discard_schedBytes {m : SchedMsg} (h : schedOk m.body = true) (s : State) :
    exec (.feedMessageDiscard (BitVec.ofNat 8 (schedKind m.body)) m.channel (schedBytes m.body)
      (messageCheck (BitVec.ofNat 8 (schedKind m.body)) m.channel (schedBytes m.body))) s = exec (.scheduleMessage m) s := by
  cases hf : s.feedFraming with
  | false => rw [exec_feedMessageDiscard_unframed _ _ _ _ hf, exec_scheduleMessage_unframed hf]
  | true =>
    have hk : (BitVec.ofNat 8 (schedKind m.body)).toNat = schedKind m.body := by cases m.body <;> rfl
    rw [exec_feedMessageDiscard _ _ _ _ hf, exec_scheduleMessage hf, judgeFeed_checked (length_schedBytes h), hk,
      parseFeed_schedBytes _ h, schedStructure_eq, if_pos h]

/-! ## Bus frames (sections 5.2 and 5.3) -/

theorem length_frameBytes (b : FrameBody) : (frameBytes b).length ≤ 12 := by cases b <;> simp [frameBytes, statusBytes]

@[simp] theorem length_beBits (n v : Nat) : (beBits n v).length = n := by
  induction n with
  | zero => rfl
  | succ n ih => simp [beBits, ih]

theorem length_byteBits (l : List Byte) : ((l.map (fun b => beBits 8 b.toNat)).flatten).length = 8 * l.length := by
  induction l with
  | nil => rfl
  | cons b l ih => simp [ih]; omega

theorem length_frameBits (f : Frame) :
    (frameBits f).length = 1 + 15 + 4 + 8 * (frameBytes f.body).length + 16 + 1 := by
  simp only [frameBits, List.length_append, length_beBits, length_byteBits, List.length_singleton]

/-- A number of the width that its field has is read back. -/
theorem beNat_word {w n : Nat} (x : BitVec w) (h : 2 ^ w = 256 ^ n) : beNat (beBytes n x.toNat) = x.toNat := by
  rw [beNat_beBytes, ← h, Nat.mod_eq_of_lt x.isLt]

theorem beBytes_one (v : Nat) : beBytes 1 v = [BitVec.ofNat 8 v] := by simp [beBytes]

theorem parseFrameBody_hold (c : Channel) (h : HoldState) (v : Version) (e : EventId) :
    parseFrameBody 2 (frameBytes (.hold c h v e)) = some (.hold c h v e) := by
  have hv := beNat_word v (n := 2) (by norm_num)
  have he := beNat_word e (n := 4) (by norm_num)
  have hh : parseHoldState (holdStateCode h % 256) = some h := by cases h <;> rfl
  simp [frameBytes, beBytes_one, parseFrameBody, hh, hv, he]

theorem parseFrameBody_release (c : Channel) (r : ReleaseReason) :
    parseFrameBody 3 (frameBytes (.release c r)) = some (.release c r) := by
  have hr : parseReason (BitVec.ofNat 8 (reasonCode r)).toNat = some r := by cases r <;> rfl
  simp only [frameBytes, beBytes_one, List.cons_append, List.nil_append, parseFrameBody, hr]
  rfl

theorem parseFrameBody_status {b : StatusBody} (hf : b.freeOutlets ≤ 4) (hh : b.held ≤ 4) :
    parseFrameBody 4 (frameBytes (.status b)) = some (.status b) := by
  have hs := beNat_word b.serve (n := 8) (by norm_num)
  have ht : parseTimeClass (BitVec.ofNat 8 (timeClassCode b.timeClass)).toNat = some b.timeClass := by
    cases b.timeClass <;> rfl
  have hf : (BitVec.ofNat 8 b.freeOutlets).toNat = b.freeOutlets := by simp; omega
  have hh : (BitVec.ofNat 8 b.held).toNat = b.held := by simp; omega
  have ha : (BitVec.ofNat 8 (if b.active then 2 else 1) = 1 ∨ BitVec.ofNat 8 (if b.active then 2 else 1) = 2) ∧
      (BitVec.ofNat 8 (if b.active then 2 else 1) == (2 : Byte)) = b.active := by cases b.active <;> decide
  simp only [frameBytes, statusBytes, beBytes_one, List.cons_append, List.nil_append, parseFrameBody, length_beBytes, hs, ht, hf,
    hh, ha.1, ha.2, and_self, if_true, Option.map_some, BitVec.ofNat_toNat, BitVec.setWidth_eq]

/-- A frame's body is read back from its bytes, a STATUS with counts in their range (R81). -/
theorem parseFrameBody_frameBytes {f : Frame} (h : frameFieldsOk f = true) :
    parseFrameBody (frameClass f.body) (frameBytes f.body) = some f.body := by
  obtain ⟨m, st, b⟩ := f
  cases b with
  | claim c => rfl
  | hold c hs v e => exact parseFrameBody_hold c hs v e
  | release c r => exact parseFrameBody_release c r
  | status b =>
    obtain ⟨-, hf, hh⟩ := of_decide_eq_true h
    exact parseFrameBody_status hf hh

theorem parseFrame_frameBytes {f : Frame} (h : frameFieldsOk f = true) :
    parseFrame { cls := BitVec.ofNat 3 (frameClass f.body), merit := f.merit, station := f.station, body := frameBytes f.body
                 check := busCheck (frameClass f.body) f.merit f.station (frameBytes f.body), endRecessive := true } = some f := by
  have hk : (BitVec.ofNat 3 (frameClass f.body)).toNat = frameClass f.body := by cases f.body <;> rfl
  simp only [parseFrame, hk, length_frameBytes, and_self, if_true, parseFrameBody_frameBytes h]
  exact if_pos h

/-! ## Cue commands (sections 9.2 and 9.4) -/

theorem cmdBytes_spelled (o : OutletNo) (tag : Nat) (cmd : Cmd) {kind n : Nat} {body : List (Nat × Nat)}
    (hk : cmdKindCode (cmdKind cmd) = kind) (hb : cmdBody o cmd = spelled body) (hn : (cmdBody o cmd).length = n) :
    cmdBytes o tag cmd = spelled ([(1, kind), (1, tag), (2, n)] ++ body ++
      [(2, (messageCheck (BitVec.ofNat 8 kind) (BitVec.ofNat 8 tag) (spelled body)).toNat)]) := by
  subst hk hn
  simp [cmdBytes, ← hb, beBytes_one]

/-- Settles O16: cue commands field by field, and each format read back from its layout. -/
theorem messagesAndFramesReadBack : Obligations.MessagesAndFramesReadBack := by
  refine ⟨fun o tag => ⟨fun p => ?_, fun code t => ?_, fun t deciding => ?_⟩, fun b => ⟨?_, discard_beaconBody b⟩,
    fun m h => ⟨parseFeed_schedBytes _ h, length_schedBytes h, discard_schedBytes h⟩,
    fun f h => ⟨parseFrame_frameBytes h, length_frameBytes _, length_frameBits f⟩⟩
  · exact cmdBytes_spelled o tag _ rfl (by simp [cmdBody]) (by simp [cmdBody])
  · exact cmdBytes_spelled o tag _ rfl (by simp [cmdBody]) (by simp [cmdBody])
  · exact cmdBytes_spelled o tag _ rfl (by simp [cmdBody]) (by simp [cmdBody])
  · exact congrArg (Option.map FeedMsg.beacon) (parseBeacon_beaconBody b)

end Sys2Proof.Machine
end

section
/-! SUPPORT. The requests that wait for the mirror: how DRIFT_CHECK and RECLAIM_SWEEP serve them, what a drift check marks and what a
sweep keeps, and the statement about them (02_the_schedule_mirror.md, sections 2.6 and 2.9). -/

namespace Sys2Proof.Machine
-- Proofs are checked one after another: in parallel they would not fit the memory that the check allows.
set_option Elab.async false

variable {s : State} {c : Channel} {ch : Chan}

/-! ## Serving in order (R18) -/

theorem exec_driftCheck_none (h : s.mirrorReqs.any MirrorReq.isDrift = false) : exec .driftCheck s = .next s :=
  congrArg _ (if_neg (by simp [h]))

theorem exec_driftCheck (h : s.mirrorReqs.any MirrorReq.isDrift = true) :
    exec .driftCheck s = .next (State.serveThrough MirrorReq.isDrift s.mirrorReqs s) := congrArg _ (if_pos h)

theorem exec_reclaimSweep_none (h : s.mirrorReqs.any MirrorReq.isSweep = false) : exec .reclaimSweep s = .next s :=
  congrArg _ (if_neg (by simp [h]))

theorem exec_reclaimSweep (h : s.mirrorReqs.any MirrorReq.isSweep = true) :
    exec .reclaimSweep s = .next (State.serveThrough MirrorReq.isSweep s.mirrorReqs s) := congrArg _ (if_pos h)

/-- A drift check that is the oldest request is served alone. -/
theorem exec_driftCheck_oldest {v : Version} {e : EventId} {rest : List MirrorReq} (h : s.mirrorReqs = .drift c v e :: rest) :
    exec .driftCheck s = .next (State.driftCheck { s with mirrorReqs := rest } c v e) := by
  rw [exec_driftCheck (by rw [h]; rfl), h]
  rfl

/-- A sweep that is the oldest request is served alone. -/
theorem exec_reclaimSweep_oldest {rest : List MirrorReq} (h : s.mirrorReqs = .sweep c :: rest) :
    exec .reclaimSweep s = .next (State.sweep { s with mirrorReqs := rest } c) := by
  rw [exec_reclaimSweep (by rw [h]; rfl), h]
  rfl

/-! ## Marks and drift checks (R24, R26) -/

theorem setCondition_same (h : s.chan? c = some ch) {f : Condition → Condition} (hf : f ch.mirror.condition = ch.mirror.condition) :
    s.setCondition c f = s := by
  unfold State.setCondition
  rw [h]
  exact if_pos hf

theorem markStale_eq_self {n : Condition} (h : n ≠ .current) : n.markStale = n := by
  cases n with
  | current => exact absurd rfl h
  | _ => rfl

/-- The test of a drift check: the beacon's version is not the latest queued one, or the event on air is missing from a CURRENT copy. -/
def Chan.Drifted (ch : Chan) (v : Version) (e : EventId) : Prop :=
  ch.latestQueued ≠ some v ∨ (ch.mirror.condition = .current ∧ e ≠ 0 ∧ hasId e ch.list = false)

theorem hasId_false_iff (id : EventId) (l : List EventRec) : hasId id l = false ↔ ∀ x ∈ l, x.data.id ≠ id := by
  rw [← Bool.not_eq_true, hasId_iff]
  exact ⟨fun h x hx e => h ⟨x, hx, e⟩, fun h ⟨x, hx, e⟩ => h x hx e⟩

theorem driftCheck_drifted (h : s.chan? c = some ch) {v : Version} {e : EventId} (hd : ch.Drifted v e) :
    s.driftCheck c v e = s.markStale c := by
  unfold State.driftCheck
  rw [h]
  exact if_pos hd

theorem driftCheck_agrees (h : s.chan? c = some ch) {v : Version} {e : EventId} (hd : ¬ ch.Drifted v e) :
    s.driftCheck c v e = s := by
  unfold State.driftCheck
  rw [h]
  exact if_neg hd

/-- A copy that is not CURRENT stays as it is under a drift check. -/
theorem driftCheck_notCurrent (h : s.chan? c = some ch) (hn : ch.mirror.condition ≠ .current) (v : Version) (e : EventId) :
    s.driftCheck c v e = s := by
  by_cases hd : ch.Drifted v e
  · rw [driftCheck_drifted h hd]
    exact setCondition_same h (markStale_eq_self hn)
  · exact driftCheck_agrees h hd

/-- A CURRENT copy that has drifted is marked stale, with claims alone changed beside. -/
theorem driftCheck_marks (h : s.chan? c = some ch) (hc : ch.mirror.condition = .current) {v : Version} {e : EventId}
    (hd : ch.Drifted v e) : s.Conditioned (s.driftCheck c v e) c ch .stale ∧ (s.marked c ch .stale).ClaimsOnly (s.driftCheck c v e) := by
  have hm : ch.mirror.condition.markStale = .stale := by rw [hc]; rfl
  have hcond := setCondition_conditioned h Condition.markStale
  have hclaims := setCondition_claims h Condition.markStale (markStale_ok _)
  rw [hm] at hcond hclaims
  rw [driftCheck_drifted h hd]
  exact ⟨hcond, hclaims⟩

/-! ## Reclaim sweeps (R38, R39) -/

/-- A sweep keeps an event: it is pinned, it is not past the cutoff, or `next` says that a FOLLOW event behind it is kept. -/
def EventRec.sweepKeeps (e : EventRec) (cutoff : Time) (next : Bool) : Bool :=
  e.pinned || !e.times.any (fun t => before t.effEnd cutoff) || next

/-- The marks of a sweep, one for each event: it is kept. -/
def sweepMarks (cutoff : Time) : List EventRec → List Bool
  | [] => []
  | e :: rest => e.sweepKeeps cutoff
      ((sweepMarks cutoff rest).headD false && rest.head?.any (fun x => x.data.start == .follow)) :: sweepMarks cutoff rest

theorem sweepFrom_cons (cutoff : Time) (e : EventRec) (rest : List EventRec) :
    sweepFrom cutoff (e :: rest) =
      if e.sweepKeeps cutoff (sweepFrom cutoff rest).2.2 then
        (e :: (sweepFrom cutoff rest).1, (sweepFrom cutoff rest).2.1, e.data.start == .follow)
      else ((sweepFrom cutoff rest).1, e :: (sweepFrom cutoff rest).2.1, false) := by
  obtain ⟨slot, data, times, eclipsed, pinned⟩ := e
  cases times <;> rfl

@[simp] theorem length_sweepMarks (cutoff : Time) (l : List EventRec) : (sweepMarks cutoff l).length = l.length := by
  induction l with
  | nil => rfl
  | cons e l ih => simp [sweepMarks, ih]

/-- Each mark from the event, its times and the event behind it. -/
theorem sweepMarks_get (cutoff : Time) (l : List EventRec) : ∀ (i : Nat) (h : i < l.length), (sweepMarks cutoff l)[i]? = some
    (l[i].pinned || !l[i].times.any (fun t => before t.effEnd cutoff) ||
      ((sweepMarks cutoff l).getD (i + 1) false && l[i + 1]?.any (fun x => x.data.start == .follow))) := by
  induction l with
  | nil => exact fun i h => absurd h (Nat.not_lt_zero i)
  | cons e l ih =>
    intro i h
    cases i with
    | zero => cases l <;> rfl
    | succ i => exact ih i (Nat.lt_of_succ_lt_succ h)

/-- A sweep keeps the events that are marked and frees the others, each in list order. -/
theorem sweepFrom_marks (cutoff : Time) (l : List EventRec) :
    sweepFrom cutoff l = (((l.zip (sweepMarks cutoff l)).filter (·.2)).map (·.1),
      ((l.zip (sweepMarks cutoff l)).filter (fun x => !x.2)).map (·.1),
      ((sweepMarks cutoff l).headD false && l.head?.any (fun x => x.data.start == .follow))) := by
  induction l with
  | nil => rfl
  | cons e l ih =>
    rw [sweepFrom_cons, ih, sweepMarks]
    cases e.sweepKeeps cutoff ((sweepMarks cutoff l).headD false && l.head?.any (fun x => x.data.start == .follow)) <;> simp

theorem sweep_unseeded (h : s.chan? c = some ch) (hs : ch.watch.seeded = false) : s.sweep c = s := by
  unfold State.sweep
  rw [h]
  exact if_pos (by simp [hs])

/-- A sweep of a channel whose estimate is seeded, said by its marks. -/
theorem sweep_seeded (h : s.chan? c = some ch) (hs : ch.watch.seeded = true) :
    let marked := ch.list.zip (sweepMarks (s.cutoff ch) ch.list)
    s.sweep c = State.modChan
      { s with poolFree := (marked.filter (fun x => !x.2)).map (·.1.slot) ++ s.poolFree } c (fun x =>
        { x with
          list := (marked.filter (·.2)).map (·.1)
          mirror := { x.mirror with
            reclaimed := min 65535 (x.mirror.reclaimed + (marked.filter (fun x => !x.2)).length) } }) := by
  unfold State.sweep
  rw [h]
  refine (if_neg (by simp [hs])).trans ?_
  simp only [sweepFrom_marks, State.freeRecords, List.map_map, List.length_map, sat16]
  rfl

/-- Settles O18: the drift check by its test, the sweep by its marks. -/
theorem mirrorRequestsServed : Obligations.MirrorRequestsServed := by
  refine fun s => ⟨exec_driftCheck_none, exec_reclaimSweep_none, fun c v e rest ch hr hc => ?_, fun c rest ch hr hc => ?_⟩
  · rw [exec_driftCheck_oldest hr]
    have hc' : State.chan? { s with mirrorReqs := rest } c = some ch := hc
    refine ⟨fun hd hcur => ⟨_, rfl, driftCheck_marks hc' hcur ?_⟩, fun hn => congrArg _ (driftCheck_notCurrent hc' hn v e),
      fun hv he => congrArg _ (driftCheck_agrees hc' ?_)⟩
    · exact hd.imp id fun ⟨h1, h2, h3⟩ => ⟨h1, h2, (hasId_false_iff _ _).2 h3⟩
    · rintro (h | ⟨-, h0, h1⟩)
      · exact h hv
      · obtain ⟨x, hx, hxe⟩ := he.resolve_left h0
        exact (hasId_false_iff _ _).1 h1 x hx hxe
  · rw [exec_reclaimSweep_oldest hr]
    have hc' : State.chan? { s with mirrorReqs := rest } c = some ch := hc
    refine ⟨fun hs => congrArg _ (sweep_unseeded hc' hs), fun hs => ?_⟩
    refine ⟨sweepMarks (s.cutoff ch) ch.list, length_sweepMarks _ _, sweepMarks_get _ _, congrArg _ (sweep_seeded hc' hs)⟩

end Sys2Proof.Machine
end

section
/-! SUPPORT. The five ingest commands of the mirror: each takes the oldest message of its kind and applies it, how a snapshot fills, and
what a message that does not pass leaves, with the statements about them (02_the_schedule_mirror.md, section 2.6). -/

namespace Sys2Proof.Machine
-- Proofs are checked one after another: in parallel they would not fit the memory that the check allows.
set_option Elab.async false

variable {s t u : State} {c : Channel} {ch : Chan} {rest : List SchedMsg}

/-! ## The oldest message is taken (R18) -/

section Taken

variable (hq : s.mirrorReqs = [])
include hq

theorem exec_snapOpen {v : Version} {n : BitVec 16} (hi : s.feed.ingest = ⟨c, .snapOpen v n⟩ :: rest) :
    exec .snapOpen s = .next ((s.popped rest).applySnapOpen c v n.toNat) := by
  show execSnapOpen s = _
  unfold execSnapOpen
  rw [hi, ← takeIngest_nil hq]

theorem exec_snapEvent {v : Version} {i : Byte} {e : EventData} (hi : s.feed.ingest = ⟨c, .snapEvent v i e⟩ :: rest) :
    exec .snapEvent s = .next ((s.popped rest).applySnapEvent c v i.toNat e) := by
  show execSnapEvent s = _
  unfold execSnapEvent
  rw [hi, ← takeIngest_nil hq]

theorem exec_snapClose {v : Version} {n : BitVec 16} (hi : s.feed.ingest = ⟨c, .snapClose v n⟩ :: rest) :
    exec .snapClose s = .next ((s.popped rest).applySnapClose c v n.toNat).settle := by
  show execSnapClose s = _
  unfold execSnapClose
  rw [hi, ← takeIngest_nil hq]

theorem exec_editPut {b n : Version} {a : EventId} {e : EventData} (hi : s.feed.ingest = ⟨c, .editPut b n a e⟩ :: rest) :
    exec .editPut s = .next ((s.popped rest).applyEditPut c b n a e).settle := by
  show execEditPut s = _
  unfold execEditPut
  rw [hi, ← takeIngest_nil hq]

theorem exec_editDrop {b n : Version} {i : EventId} (hi : s.feed.ingest = ⟨c, .editDrop b n i⟩ :: rest) :
    exec .editDrop s = .next ((s.popped rest).applyEditDrop c b n i).settle := by
  show execEditDrop s = _
  unfold execEditDrop
  rw [hi, ← takeIngest_nil hq]

end Taken

theorem popped_chan? (s : State) (rest : List SchedMsg) (c : Channel) : (s.popped rest).chan? c = s.chan? c := rfl

/-! ## Snapshots that fill (R27, R28) -/

theorem applySnapOpen_opens (h : s.chan? c = some ch) {n : Nat} (hn : n ≤ 240) (v : Version) :
    s.applySnapOpen c v n = (s.abandoned c ch).modMirror c (fun m =>
      { m with filling := some { version := v, expected := n, next := 0 } }) := by
  unfold State.applySnapOpen
  rw [abandonFilling_eq h]
  exact if_pos hn

theorem applySnapOpen_tooMany (h : s.chan? c = some ch) {n : Nat} (hn : 240 < n) (v : Version) :
    s.applySnapOpen c v n = (s.abandoned c ch).markStale c := by
  unfold State.applySnapOpen
  rw [abandonFilling_eq h]
  exact if_neg (Nat.not_le.2 hn)

theorem applySnapEvent_unopened (h : s.chan? c = some ch) (hf : ch.mirror.filling = none) (v : Version) (i : Nat) (e : EventData) :
    s.applySnapEvent c v i e = s.markStale c := by
  unfold State.applySnapEvent
  simp only [h, hf]

/-- A SNAP_EVENT into a filling, by the tests of R28 and the pool. -/
theorem applySnapEvent_filling (h : s.chan? c = some ch) {f : Filling} (hf : ch.mirror.filling = some f) (v : Version) (i : Nat)
    (e : EventData) :
    s.applySnapEvent c v i e =
      if snapEventFits f ch.incoming v i e then
        match s.poolFree with
        | [] => ((s.abandonFilling c).markStale c).raise .poolShort c .poolShortSnapshot
        | slot :: free => State.modChan { s with poolFree := free } c (fun ch =>
            { ch with
              incoming := ch.incoming ++ [newRecord slot e]
              mirror := { ch.mirror with filling := some { f with next := f.next + 1 } } })
      else (s.abandonFilling c).markStale c := by
  unfold State.applySnapEvent State.allocSlot
  simp only [h, hf]
  cases s.poolFree <;> rfl

theorem snapEventFits_tests (f : Filling) (l : List EventRec) (v : Version) (i : Nat) (e : EventData) :
    snapEventFits f l v i e = true ↔
      v = f.version ∧ i = f.next ∧ i < f.expected ∧ validEvent e = true ∧ hasId e.id l = false := by
  simp [snapEventFits, and_assoc]

/-- Settles O19: the two passing cases of a filling snapshot. -/
theorem snapshotFills : Obligations.SnapshotFills := by
  refine fun s c v rest ch hq hc => ⟨fun n hi hn => ?_, fun i e f slot free hi hf hv hx hlt hok hid hp => ?_⟩
  · rw [exec_snapOpen hq hi, applySnapOpen_opens (s := s.popped rest) hc hn]
  · have hfits : snapEventFits f ch.incoming v i.toNat e = true := (snapEventFits_tests _ _ _ _ _).2 ⟨hv, hx, hx ▸ hlt, hok, hid⟩
    rw [exec_snapEvent hq hi, applySnapEvent_filling (s := s.popped rest) hc hf, if_pos hfits,
      show (s.popped rest).poolFree = slot :: free from hp]
    rfl

/-! ## What a rejection tells (R24, R25) -/

/-- The copy of a channel, whose record was `ch`, has been given a condition, with claims alone changed beside (R24). -/
def State.Rejects (base t : State) (c : Channel) (ch : Chan) (n : Condition) : Prop :=
  base.Conditioned t c ch n ∧ (base.marked c ch n).ClaimsOnly t

theorem setCondition_rejects (h : s.chan? c = some ch) (f : Condition → Condition)
    (hf : f ch.mirror.condition ≠ ch.mirror.condition → f ch.mirror.condition = .stale ∨ f ch.mirror.condition = .short) :
    s.Rejects (s.setCondition c f) c ch (f ch.mirror.condition) :=
  ⟨setCondition_conditioned h f, setCondition_claims h f hf⟩

theorem markStale_rejects (h : s.chan? c = some ch) : s.Rejects (s.markStale c) c ch ch.mirror.condition.markStale :=
  setCondition_rejects h _ (markStale_ok _)

/-- Abandoning a filling and marking the copy stale: the takeover unit reads neither the filling nor the incoming list (R24, R25). -/
theorem abandoned_markStale_rejects (h : s.chan? c = some ch) :
    (s.abandoned c ch).Rejects ((s.abandoned c ch).markStale c) c ch ch.mirror.condition.markStale := by
  have hm := markStale_rejects (abandoned_chan? s c ch h)
  exact hm

/-- Marking a copy short once its version has advanced: the takeover unit does not read the version (R24, R32). -/
theorem versioned_markShort_rejects (h : s.chan? c = some ch) (n : Version) :
    let base := s.modMirror c (fun m => { m with version := some n })
    base.Rejects (base.markShort c) c ch ch.mirror.condition.markShort :=
  setCondition_rejects (modChan_get h (fun x => { x with mirror := { x.mirror with version := some n } }) fun _ => rfl)
    Condition.markShort (markShort_ok _)

theorem markStale_reports (s : State) (c : Channel) : (s.markStale c).reports = s.reports := setCondition_reports s c _

theorem markStale_settle (hr : s.ReportsSettled) (c : Channel) : (s.markStale c).settle = s.markStale c :=
  settle_of_nil ((markStale_reports s c).trans hr)

/-! ## Messages that do not pass (R29, R30, R32, R33) -/

theorem applySnapClose_fails (h : s.chan? c = some ch) {v : Version} {n : Nat}
    (hf : ∀ f, ch.mirror.filling = some f → v ≠ f.version ∨ n ≠ f.expected ∨ n ≠ f.next) :
    s.applySnapClose c v n = (s.abandoned c ch).markStale c := by
  have hno : ch.mirror.filling.any (fun f => snapCloseFits f v n) = false := by
    cases hm : ch.mirror.filling with
    | none => rfl
    | some f => simpa [snapCloseFits, or_assoc, imp_iff_not_or] using hf f hm
  unfold State.applySnapClose
  simp only [h, hno, Bool.false_eq_true, if_false, abandonFilling_eq h]

section Edits

variable {b n : Version} {a : EventId} {e : EventData}

theorem applyEditPut_empty (h : s.chan? c = some ch) (he : ch.mirror.condition = .empty) : s.applyEditPut c b n a e = s := by
  unfold State.applyEditPut
  simp only [h, he, if_true]

theorem applyEditPut_fails (h : s.chan? c = some ch) (he : ch.mirror.condition ≠ .empty)
    (hf : ch.mirror.version ≠ some b ∨ validEvent e = false) : s.applyEditPut c b n a e = s.markStale c := by
  unfold State.applyEditPut
  simp only [h, he, hf, if_true, if_false]

/-- An EDIT_PUT of the copy's version and with valid content is placed (R30). -/
theorem applyEditPut_places (h : s.chan? c = some ch) (he : ch.mirror.condition ≠ .empty) (hv : ch.mirror.version = some b)
    (hok : validEvent e = true) : s.applyEditPut c b n a e = s.placeEdit c ch n a e := by
  unfold State.applyEditPut
  simp only [h, he, if_false]
  exact if_neg (by simp [hv, hok])

theorem placeEdit_unanchored (ha : a ≠ 0) (hm : hasId a (ch.list.filter (fun x => x.data.id != e.id)) = false) :
    s.placeEdit c ch n a e = s.markStale c := if_pos ⟨ha, hm⟩

/-- An EDIT_PUT whose anchor stands, by whether the list holds its id, and the record of that id is pinned (R31, R32). -/
theorem placeEdit_anchored (ha : a = 0 ∨ hasId a (ch.list.filter (fun x => x.data.id != e.id)) = true) :
    s.placeEdit c ch n a e = match ch.list.find? (fun x => x.data.id == e.id), s.poolFree with
      | none, free =>
        if 240 ≤ ch.list.length then s.editShort c n
        else match free with
          | [] => s.editShort c n
          | slot :: free => State.newList { s with poolFree := free } c n (insertAfter a (newRecord slot e) ch.list)
      | some old, free =>
        if old.pinned then
          match free with
          | [] => s.editShort c n
          | slot :: free => (State.unlink { s with poolFree := free } c [old]).newList c n
              (insertAfter a (newRecord slot e) (ch.list.filter (fun x => x.data.id != e.id)))
        else s.newList c n (insertAfter a (newRecord old.slot e) (ch.list.filter (fun x => x.data.id != e.id))) := by
  have hno : ¬ (a ≠ 0 ∧ hasId a (ch.list.filter (fun x => x.data.id != e.id)) = false) := by
    rintro ⟨h0, h1⟩
    rcases ha with h | h
    · exact h0 h
    · rw [h] at h1; cases h1
  unfold State.placeEdit State.allocSlot
  refine (if_neg hno).trans ?_
  cases ch.list.find? (fun x => x.data.id == e.id) <;> cases s.poolFree <;> rfl

theorem find?_none_of_hasId {id : EventId} {l : List EventRec} (h : hasId id l = false) :
    l.find? (fun x => x.data.id == id) = none :=
  List.find?_eq_none.2 fun x hx => by simpa using (hasId_false_iff id l).1 h x hx

/-- An EDIT_PUT that cannot be stored: no room in the list or no record of the pool for a new event, or none for one whose record is
pinned (R32). -/
theorem placeEdit_short (ha : a = 0 ∨ hasId a (ch.list.filter (fun x => x.data.id != e.id)) = true)
    (hs : (hasId e.id ch.list = false ∧ (240 ≤ ch.list.length ∨ s.poolFree = [])) ∨
      (s.poolFree = [] ∧ ∃ old, ch.list.find? (fun x => x.data.id == e.id) = some old ∧ old.pinned = true)) :
    s.placeEdit c ch n a e = s.editShort c n := by
  rw [placeEdit_anchored ha]
  rcases hs with ⟨hid, hroom⟩ | ⟨hp, old, ho, hpin⟩
  · rw [find?_none_of_hasId hid]
    rcases hroom with hl | hp
    · exact if_pos hl
    · rw [hp]
      exact ite_self _
  · rw [ho, hp]
    exact if_pos hpin

theorem applyEditDrop_empty {i : EventId} (h : s.chan? c = some ch) (he : ch.mirror.condition = .empty) :
    s.applyEditDrop c b n i = s := by
  unfold State.applyEditDrop
  simp only [h, he, if_true]

theorem applyEditDrop_fails {i : EventId} (h : s.chan? c = some ch) (he : ch.mirror.condition ≠ .empty)
    (hf : ch.mirror.version ≠ some b) : s.applyEditDrop c b n i = s.markStale c := by
  unfold State.applyEditDrop
  simp only [h, he, hf, if_true, if_false, ne_eq, not_false_eq_true]

end Edits

/-- Settles O22: each rejected message ends in one of three marks, on the copy as it was, without its filling, or with its version
advanced. -/
theorem rejectedScheduleMessages : Obligations.RejectedScheduleMessages := by
  intro s c v rest ch hq hr hc told
  have hc' : (s.popped rest).chan? c = some ch := hc
  have hr' : (s.popped rest).ReportsSettled := hr
  have stale : told (s.popped rest) ((s.popped rest).markStale c) ch.mirror.condition.markStale := markStale_rejects hc'
  have abandons : told ((s.popped rest).abandoned c ch) (((s.popped rest).abandoned c ch).markStale c)
      ch.mirror.condition.markStale := abandoned_markStale_rejects hc'
  have short (n : Version) := versioned_markShort_rejects hc' n
  refine ⟨fun n hi hn => ?_, fun i e hi => ⟨fun hf => ?_, fun f hf => ⟨fun hbad => ?_, fun hv hx hlt hok hid hp => ?_⟩⟩,
    fun n hi hf => ?_, fun n a e hi => ⟨fun he => ?_, fun he hbad => ?_, fun he hv hok ha hs => ?_⟩,
    fun n id hi => ⟨fun he => ?_, fun he hv => ?_⟩⟩
  · rw [exec_snapOpen hq hi, applySnapOpen_tooMany hc' hn]
    exact ⟨_, rfl, abandons⟩
  · rw [exec_snapEvent hq hi, applySnapEvent_unopened hc' hf]
    exact ⟨_, rfl, stale⟩
  · have hno : ¬ snapEventFits f ch.incoming v i.toNat e = true := by
      rw [snapEventFits_tests]
      rintro ⟨h1, h2, h3, h4, h5⟩
      simp [h1, h2, h4, h5] at hbad
      omega
    rw [exec_snapEvent hq hi, applySnapEvent_filling hc' hf, if_neg hno, abandonFilling_eq hc']
    exact ⟨_, rfl, abandons⟩
  · rw [exec_snapEvent hq hi, applySnapEvent_filling hc' hf, if_pos ((snapEventFits_tests _ _ _ _ _).2 ⟨hv, hx, hlt, hok, hid⟩),
      show (s.popped rest).poolFree = [] from hp, abandonFilling_eq hc']
    exact ⟨_, rfl, abandons⟩
  · rw [exec_snapClose hq hi, applySnapClose_fails hc' hf, markStale_settle (s := (s.popped rest).abandoned c ch) hr']
    exact ⟨_, rfl, abandons⟩
  · rw [exec_editPut hq hi, applyEditPut_empty hc' he, settle_of_nil hr']
  · have hm : (s.popped rest).applyEditPut c v n a e = (s.popped rest).markStale c := by
      by_cases hpass : ch.mirror.version = some v ∧ validEvent e = true
      · obtain ⟨ha, hmiss⟩ := (hbad.resolve_left (not_not.2 hpass.1)).resolve_left (by simp [hpass.2])
        rw [applyEditPut_places hc' he hpass.1 hpass.2, placeEdit_unanchored ha hmiss]
      · exact applyEditPut_fails hc' he (by simpa [imp_iff_not_or] using hpass)
    rw [exec_editPut hq hi, hm, markStale_settle hr']
    exact ⟨_, rfl, stale⟩
  · rw [exec_editPut hq hi, applyEditPut_places hc' he hv hok, placeEdit_short (s := s.popped rest) ha hs]
    refine ⟨_, congrArg _ (settle_of_nil ?_), short n⟩
    exact (setCondition_reports _ c _).trans hr
  · rw [exec_editDrop hq hi, applyEditDrop_empty hc' he, settle_of_nil hr']
  · rw [exec_editDrop hq hi, applyEditDrop_fails hc' he hv, markStale_settle hr']
    exact ⟨_, rfl, stale⟩

end Sys2Proof.Machine
end

section
/-! SUPPORT. What a message that passes does to a list: the new list, resolved, and the telling of the runner, for an edit and for a
snapshot that closes well, with the statements about them (02_the_schedule_mirror.md, sections 2.6 to 2.8). -/

namespace Sys2Proof.Machine
-- Proofs are checked one after another: in parallel they would not fit the memory that the check allows.
set_option Elab.async false

variable {s t u : State} {c : Channel} {ch : Chan} {rest : List SchedMsg}

/-! ## A change of one channel's record -/

theorem map_modChan {α : Type} (s : State) (c : Channel) (f : Chan → Chan) (g : Chan → α) (hg : ∀ x, g (f x) = g x) :
    (s.modChan c f).chans.map g = s.chans.map g := by
  unfold State.modChan
  rw [List.map_map]
  refine List.map_congr_left fun x _ => ?_
  simp only [Function.comp]
  split
  · exact hg x
  · rfl

/-- With distinct channels, changes that make the same of the record that stands there are one change. -/
theorem modChan_at (hd : s.ChannelsDistinct) (h : s.chan? c = some ch) {f g : Chan → Chan} (hfg : f ch = g ch) :
    s.modChan c f = s.modChan c g := by
  unfold State.modChan
  congr 1
  refine List.map_congr_left fun x hx => ?_
  split
  · rename_i hxc
    have hch : x.part.channel = ch.part.channel := (eq_of_beq hxc).trans (chan?_channel h).symm
    rw [List.inj_on_of_nodup_map hd hx (chan?_mem h) hch, hfg]
  · rfl

theorem sameOutside_modChan (s : State) (free : List Nat) (c : Channel) (f : Chan → Chan)
    (hf : ∀ x, ((f x).part, (f x).latestQueued) = (x.part, x.latestQueued)) :
    s.SameOutside (State.modChan { s with poolFree := free } c f) :=
  ⟨rfl, rfl, rfl, rfl, rfl, rfl, rfl, rfl, rfl, map_modChan { s with poolFree := free } c f _ hf⟩

theorem sameWatches_modChan (s : State) (free : List Nat) (c : Channel) (f : Chan → Chan) (hf : ∀ x, (f x).watch = x.watch) :
    s.SameWatches (State.modChan { s with poolFree := free } c f) := map_modChan { s with poolFree := free } c f _ hf

theorem State.SameWatches.trans (h : s.SameWatches t) (k : t.SameWatches u) : s.SameWatches u := Eq.trans k h

/-- What serving may do to a copy is asked of what it holds, whatever pins and resolution made of its records before. -/
theorem Keeps.mirrorTended_left (h : Keeps s t) (k : s.MirrorTended u) : t.MirrorTended u := by
  intro d b hb
  have hc := h.chanContent d
  rw [hb] at hc
  obtain ⟨a, ha, hab⟩ := Option.map_eq_some_iff.1 hc.symm
  obtain ⟨x, hx, hax⟩ := k d a ha
  exact ⟨x, hx, (Chan.Tended.of_content hab).trans hax⟩

/-! ## The runner is told (R34, R143) -/

theorem listChanged_idle (h : s.chan? c = some ch) (hr : ch.run = none) : s.listChanged c = s := by
  unfold State.listChanged
  simp only [h, hr]

/-- Telling the runner leaves no report where its outlet takes a command. -/
theorem listChanged_settle (h : s.chan? c = some ch) (hs : s.reports = []) (ht : ∀ r, ch.run = some r → s.Takes r.outlet) :
    (s.listChanged c).settle = s.listChanged c := by
  refine settle_of_nil ?_
  cases hr : ch.run with
  | none => rw [listChanged_idle h hr, hs]
  | some r => rw [(listChanged_told h hr (ht r hr)).2, hs]

/-- The runner of a channel has been told that its list changed (R34, R143). -/
theorem listChanged_changeTold (h : s.chan? c = some ch) (hs : s.reports = []) : s.ChangeTold (s.listChanged c).settle c := by
  refine ⟨ch, h, fun hr => ?_, fun r hr ht => ?_⟩
  · rw [listChanged_idle h hr, settle_of_nil hs]
  · have hruns : ∀ r', ch.run = some r' → s.Takes r'.outlet := fun r' hr' => Option.some.inj (hr.symm.trans hr') ▸ ht
    rw [listChanged_settle h hs hruns]
    exact (listChanged_told h hr ht).1

theorem tends_listChanged_settle (s : State) (c : Channel) : Tends s (s.listChanged c).settle :=
  tends_settle (keeps_listChanged (.refl s) c).tends

/-- Telling the runner keeps what the mirror holds, where its outlet takes a command. -/
theorem listChanged_content (h : s.chan? c = some ch) (hs : s.reports = []) (ht : ∀ r, ch.run = some r → s.Takes r.outlet) :
    ∃ x, (s.listChanged c).settle.chan? c = some x ∧ x.mirror = ch.mirror ∧ storedIn x.list = storedIn ch.list ∧
      x.incoming = ch.incoming := by
  have hk := (keeps_listChanged (.refl s) c).chanContent c
  rw [h] at hk
  obtain ⟨x, hx, hxc⟩ := Option.map_eq_some_iff.1 hk
  obtain ⟨hm, hl, hi⟩ : x.mirror = ch.mirror ∧ storedIn x.list = storedIn ch.list ∧ x.incoming = ch.incoming := by
    simpa [Chan.content, storedIn] using hxc
  exact ⟨x, by rw [listChanged_settle h hs ht, hx], hm, hl, hi⟩

/-! ## Edits that pass (R31, R33, R36) -/

/-- Records unlinked and a new list: the state with both, and the runner told of it. -/
theorem unlink_newList (s : State) (c : Channel) (gone : List EventRec) (v : Version) (l : List EventRec) :
    (s.unlink c gone).newList c v l = (s.relisted c l v (gone.filter (·.pinned))
      ((gone.filter (fun e => !e.pinned)).map (·.slot) ++ s.poolFree)).listChanged c := by
  unfold State.newList State.afterChange State.resolveChan
  rw [unlink_eq, modChan_modChan _ _ _ _ (by intro _; rfl)]
  rfl

theorem newList_relisted (s : State) (c : Channel) (v : Version) (l : List EventRec) :
    s.newList c v l = (s.relisted c l v [] s.poolFree).listChanged c := by
  unfold State.newList State.afterChange State.resolveChan State.relisted
  rw [modChan_modChan _ _ _ _ (by intro _; rfl)]
  simp only [List.append_nil]
  rfl

/-- A channel given a new list, and its runner told of it, in the words of Safety. -/
theorem relisted_relists (hr : s.ReportsSettled) (h : s.chan? c = some ch) (rest : List SchedMsg) (l : List EventRec) (v : Version)
    (gone : List EventRec) (free : List Nat) :
    s.Relists (((s.popped rest).relisted c l v gone free).listChanged c).settle c ch rest l v gone free := by
  have hw : ((s.popped rest).relisted c l v gone free).chan? c = some { ch with
      list := resolve ch.period (ch.run.bind (·.anchor)) l, unlinked := ch.unlinked ++ gone
      mirror := { ch.mirror with version := some v } } :=
    modChan_get (s := { s.popped rest with poolFree := free }) h _ fun _ => rfl
  have ht := tends_listChanged_settle ((s.popped rest).relisted c l v gone free) c
  refine ⟨listChanged_changeTold hw hr, (sameOutside_modChan _ _ _ _ (by intro _; rfl)).trans ht.sameOutside,
    State.SameWatches.trans (sameWatches_modChan (s.popped rest) _ _ _ (by intro _; rfl)) ht.sameWatches, ht.tended, fun htakes => ?_⟩
  obtain ⟨x, hx, hm, hl, hi⟩ := listChanged_content hw hr htakes
  exact ⟨x, hx, hl.trans (resolve_data _ _ _), hm, hi⟩

/-- An EDIT_DROP of the copy's version removes the events of its id (R33). -/
theorem applyEditDrop_drops {b n : Version} {i : EventId} (h : s.chan? c = some ch) (he : ch.mirror.condition ≠ .empty)
    (hv : ch.mirror.version = some b) :
    s.applyEditDrop c b n i = (s.unlink c (ch.list.filter (fun x => x.data.id == i))).newList c n
      (ch.list.filter (fun x => x.data.id != i)) := by
  unfold State.applyEditDrop
  simp only [h, he, hv, if_false, ne_eq, not_true_eq_false]

/-- Settles O21: each passing edit is one new list, by whether the event's id stood in the list and its record was pinned. -/
theorem editsChangeTheList : Obligations.EditsChangeTheList := by
  intro s c b n rest ch hq hr hc he hv
  have hc' : (s.popped rest).chan? c = some ch := hc
  refine ⟨fun a e hi hok ha => ?_, fun i hi => ?_⟩
  · have hplace := applyEditPut_places (n := n) (a := a) hc' he hv hok
    have hmem : a = 0 ∨ ∃ x ∈ ch.list.filter (fun x => x.data.id != e.id), x.data.id = a :=
      ha.imp id fun ⟨x, hx, hxa, hne⟩ => ⟨x, List.mem_filter.2 ⟨hx, by simpa [hxa] using hne⟩, hxa⟩
    have hanchor := placeEdit_anchored (s := s.popped rest) (c := c) (n := n) (hmem.imp id (hasId_iff _ _).2)
    have split (r : EventRec) := insertAfter_split a r _ hmem
    rw [exec_editPut hq hi, hplace, hanchor]
    refine ⟨fun slot free hid hlen hp => ?_, fun old ho hpin => ?_, fun old slot free ho hpin hp => ?_⟩
    · obtain ⟨before, after, hl, hpl, hins⟩ := insertAfter_split a (newRecord slot e) ch.list
        (ha.imp id fun ⟨x, hx, hxa, _⟩ => ⟨x, hx, hxa⟩)
      rw [find?_none_of_hasId hid, show (s.popped rest).poolFree = slot :: free from hp]
      refine ⟨_, before, after, congrArg _ (congrArg State.settle ((if_neg (Nat.not_le.2 hlen)).trans (newList_relisted _ _ _ _))),
        hl, hpl, ?_⟩
      rw [hins]
      exact relisted_relists hr hc rest _ n [] free
    · obtain ⟨before, after, hl, hpl, hins⟩ := split (newRecord old.slot e)
      rw [ho]
      refine ⟨_, before, after, congrArg _ (congrArg State.settle ((if_neg (by simp [hpin])).trans (newList_relisted _ _ _ _))),
        hl, hpl, ?_⟩
      rw [hins]
      exact relisted_relists hr hc rest _ n [] s.poolFree
    · obtain ⟨before, after, hl, hpl, hins⟩ := split (newRecord slot e)
      rw [ho, show (s.popped rest).poolFree = slot :: free from hp]
      refine ⟨_, before, after, congrArg _ (congrArg State.settle ((if_pos hpin).trans (unlink_newList _ _ _ _ _))), hl, hpl, ?_⟩
      rw [hins]
      simp only [List.filter_cons, hpin]
      exact relisted_relists hr hc rest _ n [old] free
  · rw [exec_editDrop hq hi, applyEditDrop_drops hc' he hv, unlink_newList, List.filter_filter, List.filter_filter]
    refine ⟨_, rfl, ?_⟩
    simp only [Bool.and_comm]
    exact relisted_relists hr hc rest _ n _ _

end Sys2Proof.Machine
end

section
/-! SUPPORT. What a snapshot that closes well does: the incoming list in place of the channel list, the copy CURRENT, the list resolved and
the runner told, with the statement about it (02_the_schedule_mirror.md, sections 2.6 to 2.8). -/

namespace Sys2Proof.Machine
-- Proofs are checked one after another: in parallel they would not fit the memory that the check allows.
set_option Elab.async false

variable {s t u : State} {c : Channel} {ch : Chan}

/-! ## What a change of condition keeps (R24, R108) -/

/-- An outlet that takes a command takes one after a change of claims. -/
theorem State.ClaimsOnly.takes (h : s.ClaimsOnly t) {o : OutletNo} (ho : s.Takes o) : t.Takes o := by
  obtain ⟨hstop, hfault, hlen⟩ := ho
  have hq : (t.outlet o).queue = (s.outlet o).queue := congrArg (·.queue) (h.outlets o)
  by_cases hs : (s.outlet o).state = .free ∨ (s.outlet o).state = .reserved
  · rcases h.spare o hs with e | e <;> exact ⟨by rw [e]; decide, by rw [e]; decide, by rw [hq]; exact hlen⟩
  · rw [not_or] at hs
    unfold State.Takes
    rw [h.busy o hs.1 hs.2]
    exact ⟨hstop, hfault, hlen⟩

/-- Making a copy CURRENT sets its condition, and then it may tell the takeover unit. -/
theorem makeCurrent_cases (hd : s.ChannelsDistinct) (h : s.chan? c = some ch) :
    let w := s.modMirror c (fun m => { m with condition := .current })
    s.makeCurrent c = w ∨ s.makeCurrent c = w.conditionChanged c := by
  unfold State.makeCurrent State.setCondition
  rw [h]
  dsimp only
  split
  · rename_i hcur
    have hsame : s.modMirror c (fun m => { m with condition := .current }) = s.modMirror c (fun m => m) :=
      modChan_at hd h (by rw [hcur])
    have hid : s.modMirror c (fun m => m) = s := by
      unfold State.modMirror State.modChan
      simp
    exact .inl (hsame.trans hid).symm
  · exact .inr rfl

theorem makeCurrent_claims (hd : s.ChannelsDistinct) (h : s.chan? c = some ch) :
    (s.modMirror c (fun m => { m with condition := .current })).ClaimsOnly (s.makeCurrent c) := by
  rcases makeCurrent_cases hd h with e | e <;> rw [e]
  · exact .refl _
  · exact claimsOnly_conditionChanged _ c

theorem makeCurrent_keeps (hd : s.ChannelsDistinct) (h : s.chan? c = some ch) :
    Keeps (s.modMirror c (fun m => { m with condition := .current })) (s.makeCurrent c) := by
  rcases makeCurrent_cases hd h with e | e <;> rw [e]
  · exact .refl _
  · exact keeps_conditionChanged (.refl _) c

/-- The record of a channel whose copy was made CURRENT, and what it kept. -/
theorem makeCurrent_get (hd : s.ChannelsDistinct) (h : s.chan? c = some ch) :
    ∃ x, (s.makeCurrent c).chan? c = some x ∧
      x.besideClaim = Chan.besideClaim { ch with mirror := { ch.mirror with condition := .current } } := by
  have hw : (s.modMirror c (fun m => { m with condition := .current })).chan? c =
      some { ch with mirror := { ch.mirror with condition := .current } } := modChan_get h _ fun _ => rfl
  have hx := (makeCurrent_claims hd h).chan c
  rw [hw] at hx
  exact Option.map_eq_some_iff.1 hx

/-- Resolution neither reads nor changes a claim. -/
theorem State.ClaimsOnly.resolveChan (h : s.ClaimsOnly t) (c : Channel) : (s.resolveChan c).ClaimsOnly (t.resolveChan c) := by
  have hres := claims_modChan h c (fun ch => { ch with list := resolve ch.period (ch.run.bind (·.anchor)) ch.list })
    (fun x y hxy => by
      simp only [Chan.besideClaim, Chan.mk.injEq] at hxy ⊢
      simp_all [Chan.period]) (fun _ => rfl) (fun _ => rfl) s.poolFree
  have hpool : { t with poolFree := s.poolFree } = t := by rw [← h.poolFree]
  rw [hpool] at hres
  exact hres

/-! ## The incoming list in place of the channel list (R29, R36) -/

/-- Channel `c`, whose record was `ch`, with its incoming list in place of the channel list. -/
def State.replaced (s : State) (c : Channel) (ch : Chan) (v : Version) : State :=
  State.modChan { s with poolFree := (ch.list.filter (fun e => !e.pinned)).map (·.slot) ++ s.poolFree } c (fun y =>
    { y with
      list := y.incoming, incoming := [], unlinked := y.unlinked ++ ch.list.filter (·.pinned)
      mirror := { y.mirror with version := some v, filling := none } })

theorem replaceList_eq (s : State) (c : Channel) (ch : Chan) (v : Version) :
    s.replaceList c ch.list v = s.replaced c ch v := unlink_eq _ _ _ _

theorem replaced_get (h : s.chan? c = some ch) (v : Version) : (s.replaced c ch v).chan? c = some { ch with
    list := ch.incoming, incoming := [], unlinked := ch.unlinked ++ ch.list.filter (·.pinned)
    mirror := { ch.mirror with version := some v, filling := none } } := modChan_get (s := { s with poolFree := _ }) h _ fun _ => rfl

theorem replaced_distinct (hd : s.ChannelsDistinct) (v : Version) : (s.replaced c ch v).ChannelsDistinct := by
  have hsame := map_modChan { s with poolFree := (ch.list.filter (fun e => !e.pinned)).map (·.slot) ++ s.poolFree } c
    (fun y => { y with
      list := y.incoming, incoming := [], unlinked := y.unlinked ++ ch.list.filter (·.pinned)
      mirror := { y.mirror with version := some v, filling := none } }) (·.part.channel) (fun _ => rfl)
  exact (congrArg List.Nodup hsame).mpr hd

/-- A SNAP_CLOSE that matches its filling replaces the list, makes the copy CURRENT, resolves the list and tells the runner (R29). -/
theorem applySnapClose_fits (h : s.chan? c = some ch) {v : Version} {n : Nat} {f : Filling} (hf : ch.mirror.filling = some f)
    (hv : v = f.version) (he : n = f.expected) (hn : n = f.next) :
    s.applySnapClose c v n = ((s.replaced c ch v).makeCurrent c).afterChange c := by
  have hfit : ch.mirror.filling.any (fun f => snapCloseFits f v n) = true := by
    rw [hf, Option.any_some, snapCloseFits, hv, ← he, ← hn]
    simp
  unfold State.applySnapClose
  simp only [h, hfit, if_true, replaceList_eq]

/-- What the list of the snapshot looks like once the copy is CURRENT and resolved, as one change of the channel's record. -/
theorem replaced_resolved (s : State) (c : Channel) (ch : Chan) (v : Version) :
    ((s.replaced c ch v).modMirror c (fun m => { m with condition := .current })).resolveChan c =
      State.modChan { s with poolFree := (ch.list.filter (fun e => !e.pinned)).map (·.slot) ++ s.poolFree } c (fun y =>
        { y with
          list := resolve y.period (y.run.bind (·.anchor)) y.incoming, incoming := []
          unlinked := y.unlinked ++ ch.list.filter (·.pinned)
          mirror := { y.mirror with condition := .current, version := some v, filling := none } }) := by
  unfold State.replaced State.modMirror State.resolveChan
  rw [modChan_modChan _ _ _ _ (by intro _; rfl), modChan_modChan _ _ _ _ (by intro _; rfl)]
  rfl

/-- Settles O20: the list replaced, the copy made CURRENT, the list resolved and the runner told, each by its own lemma. -/
theorem snapshotCloseReplacesList : Obligations.SnapshotCloseReplacesList := by
  intro s c v n rest ch f hq hr hd hc hi hf hv he hn
  have hc' : (s.popped rest).chan? c = some ch := hc
  have hb := replaced_get hc' v
  have hdb : ((s.popped rest).replaced c ch v).ChannelsDistinct := replaced_distinct (s := s.popped rest) hd v
  have hclaims := makeCurrent_claims hdb hb
  have hkeeps := makeCurrent_keeps hdb hb
  obtain ⟨x, hx, hxc⟩ := makeCurrent_get hdb hb
  have hz : (((s.popped rest).replaced c ch v).makeCurrent c |>.resolveChan c).chan? c =
      some { x with list := resolve x.period (x.run.bind (·.anchor)) x.list } := modChan_get hx _ fun _ => rfl
  have hrep : ((((s.popped rest).replaced c ch v).makeCurrent c).resolveChan c).reports = [] :=
    (setCondition_reports _ c _).trans hr
  have ht := tends_listChanged_settle ((((s.popped rest).replaced c ch v).makeCurrent c).resolveChan c) c
  have hu := (keepsOuter_makeCurrent (.refl ((s.popped rest).replaced c ch v)) c).trans (keeps_resolveChan (.refl _) c).outer
  rw [exec_snapClose hq hi, applySnapClose_fits hc' hf hv he hn]
  refine ⟨_, rfl, ?_, ?_, ⟨((s.popped rest).replaced c ch v).makeCurrent c, ?_, listChanged_changeTold hz hrep⟩, ?_, ?_, ?_⟩
  · exact (sameOutside_modChan _ _ _ _ (by intro _; rfl)).trans (hu.sameOutside.trans ht.sameOutside)
  · exact State.SameWatches.trans (sameWatches_modChan (s.popped rest) _ _ _ (by intro _; rfl))
      (hu.sameWatches.trans ht.sameWatches)
  · have hcond := setCondition_conditioned hb (fun _ => .current)
    exact hcond
  · intro htakes
    have hzt : ∀ r, x.run = some r → ((((s.popped rest).replaced c ch v).makeCurrent c).resolveChan c).Takes r.outlet :=
      fun r hxr => hclaims.takes (htakes r ((congrArg Chan.run hxc).symm.trans hxr))
    obtain ⟨y, hy, hm, hl, hin⟩ := listChanged_content hz hrep hzt
    refine ⟨y, hy, hm.trans (congrArg Chan.mirror hxc), hin.trans (congrArg Chan.incoming hxc), hl.trans ?_⟩
    exact (resolve_data _ _ _).trans (congrArg storedIn (congrArg Chan.list hxc))
  · have htend := (keeps_resolveChan (.refl _) c).mirrorTended_left ((keeps_resolveChan hkeeps c).tends.tended.trans ht.tended)
    rw [replaced_resolved] at htend
    exact htend
  · intro hrun
    have hcl := hclaims.resolveChan c
    rw [replaced_resolved] at hcl
    unfold State.afterChange
    rw [listChanged_idle hz ((congrArg Chan.run hxc).trans hrun), settle_of_nil hrep]
    exact hcl

end Sys2Proof.Machine
end

section
/-! SUPPORT. The order in which the mirror serves requests: the oldest first, all of them before the oldest ingest message and before
what the runner asks, with the statement about it (02_the_schedule_mirror.md, sections 2.3, 2.6 and 2.9). -/

namespace Sys2Proof.Machine
-- Proofs are checked one after another: in parallel they would not fit the memory that the check allows.
set_option Elab.async false

variable {s : State} {c : Channel} {ch y : Chan} {r : RunRec} {o : OutletNo}

/-! ## The requests are served one by one (R18) -/

/-- Serving through the first request of a kind serves the oldest one, and goes on behind it when it is of another kind. -/
theorem serveThrough_cons (p : MirrorReq → Bool) {q : MirrorReq} {rest : List MirrorReq} (hq : s.mirrorReqs = q :: rest)
    (hp : p q = false) : State.serveThrough p s.mirrorReqs s =
      State.serveThrough p (State.serve { s with mirrorReqs := rest } q).mirrorReqs (State.serve { s with mirrorReqs := rest } q) := by
  rw [hq, serve_reqs]
  exact if_neg (by simp [hp])

theorem driftCheck_serves_first {q : MirrorReq} {rest : List MirrorReq} (hq : s.mirrorReqs = q :: rest) (hk : q.isDrift = false)
    (hr : rest.any MirrorReq.isDrift = true) :
    exec .driftCheck s = exec .driftCheck (State.serve { s with mirrorReqs := rest } q) := by
  rw [exec_driftCheck (by rw [hq]; simp [hr]), exec_driftCheck (by rw [serve_reqs]; exact hr), serveThrough_cons _ hq hk]

theorem reclaimSweep_serves_first {q : MirrorReq} {rest : List MirrorReq} (hq : s.mirrorReqs = q :: rest) (hk : q.isSweep = false)
    (hr : rest.any MirrorReq.isSweep = true) :
    exec .reclaimSweep s = exec .reclaimSweep (State.serve { s with mirrorReqs := rest } q) := by
  rw [exec_reclaimSweep (by rw [hq]; simp [hr]), exec_reclaimSweep (by rw [serve_reqs]; exact hr), serveThrough_cons _ hq hk]

/-! ## What serving every request leaves -/

@[simp] theorem serveAll_serveAll (s : State) : s.serveAll.serveAll = s.serveAll := serveAll_of_nil (serveAll_reqs s)

@[simp] theorem serveAll_mirrorTurn (s : State) (c : Channel) : s.serveAll.mirrorTurn c = s.serveAll :=
  mirrorTurn_of_nil (serveAll_reqs s) c

@[simp] theorem serveAll_outletTurn (s : State) (o : OutletNo) : s.serveAll.outletTurn o = s.serveAll :=
  outletTurn_of_nil (serveAll_reqs s) o

theorem serveAll_feed (s : State) : s.serveAll.feed = s.feed := (serveAll_served s).tends.feed

theorem serveAll_now (s : State) : s.serveAll.now = s.now := congrArg (·.now) (serveAll_served s).tends.tb

theorem serveAll_locked (s : State) : s.serveAll.locked = s.locked := (serveAll_served s).tends.locked

theorem serveAll_cue (s : State) : s.serveAll.cue = s.cue := (serveAll_served s).cue

theorem serveAll_queue (s : State) (o : OutletNo) : (s.serveAll.outlet o).queue = (s.outlet o).queue :=
  congrArg (·.queue) ((serveAll_served s).outlets o)

theorem serveAll_awaiting (s : State) (o : OutletNo) : (s.serveAll.outlet o).awaiting = (s.outlet o).awaiting :=
  congrArg (·.awaiting) ((serveAll_served s).outlets o)

theorem serveAll_outstanding (s : State) (o : OutletNo) : (s.serveAll.outlet o).outstanding = (s.outlet o).outstanding :=
  congrArg (·.outstanding) ((serveAll_served s).outlets o)

/-- The record of a running channel once the requests are served: its run and its period are as they were, and so is what the
takeover unit knows of a channel that this station holds. -/
theorem serveAll_running (hc : s.chan? c = some ch) (hr : ch.run = some r) :
    ∃ y, s.serveAll.chan? c = some y ∧ y.run = some r ∧ y.period = ch.period ∧ (ch.tk.state.holding = true → y.tk = ch.tk) := by
  have hruns := (serveAll_served s).runs c
  obtain ⟨y, hy, hsame, _, _, _⟩ := (serveAll_served s).tends.tended c ch hc
  rw [hc, hy] at hruns
  refine ⟨y, hy, (Option.some.inj hruns).trans hr, congrArg Config.ratePeriod hsame.2.2.1, fun hh => ?_⟩
  obtain ⟨z, hz, hzt⟩ := (serveAll_served s).held c ch hc (.inl hh)
  rw [Option.some.inj (hy.symm.trans hz), hzt]

theorem serveAll_lead (hp : y.period = ch.period) : s.serveAll.lead y = s.lead ch := by
  unfold State.lead State.sp
  rw [hp, (serveAll_served s).tends.station]

/-- An outlet that serves a running channel gives the mirror its turn. -/
theorem outletTurn_running (ho : (s.outlet o).channel = some c) (hc : s.chan? c = some ch) (hr : ch.run = some r) :
    s.outletTurn o = s.serveAll := by
  unfold State.outletTurn
  rw [ho]
  exact mirrorTurn_run hc hr

/-! ## The ingest commands (R18) -/

theorem takeIngest_serveAll (s : State) (rest : List SchedMsg) : s.serveAll.takeIngest rest = s.takeIngest rest := by
  unfold State.takeIngest
  rw [serveAll_serveAll]

/-- The command that applies a message of the queue, with the kind of the message. -/
def ingestCommand : SchedBody → Instr × Nat
  | .snapOpen .. => (.snapOpen, 2)
  | .snapEvent .. => (.snapEvent, 3)
  | .snapClose .. => (.snapClose, 4)
  | .editPut .. => (.editPut, 5)
  | .editDrop .. => (.editDrop, 6)

/-- What applying a message of the queue does once it is taken. -/
def State.applied (s : State) (c : Channel) : SchedBody → State
  | .snapOpen v n => s.applySnapOpen c v n.toNat
  | .snapEvent v i e => s.applySnapEvent c v i.toNat e
  | .snapClose v n => (s.applySnapClose c v n.toNat).settle
  | .editPut b n a e => (s.applyEditPut c b n a e).settle
  | .editDrop b n i => (s.applyEditDrop c b n i).settle

theorem exec_ingest {b : SchedBody} {rest : List SchedMsg} (hi : s.feed.ingest = ⟨c, b⟩ :: rest) :
    exec (ingestCommand b).1 s = .next ((s.takeIngest rest).applied c b) := by
  cases b with
  | snapOpen => show execSnapOpen s = _; unfold execSnapOpen; rw [hi]; rfl
  | snapEvent => show execSnapEvent s = _; unfold execSnapEvent; rw [hi]; rfl
  | snapClose => show execSnapClose s = _; unfold execSnapClose; rw [hi]; rfl
  | editPut => show execEditPut s = _; unfold execEditPut; rw [hi]; rfl
  | editDrop => show execEditDrop s = _; unfold execEditDrop; rw [hi]; rfl

/-- The five ingest commands, each with the kind of message that it applies. -/
def ingestCommands : List (Instr × Nat) :=
  [(.snapOpen, 2), (.snapEvent, 3), (.snapClose, 4), (.editPut, 5), (.editDrop, 6)]

theorem eq_ingestCommand {p : Instr × Nat} (hp : p ∈ ingestCommands) {b : SchedBody} (hk : schedKind b = p.2) : p = ingestCommand b := by
  simp only [ingestCommands, List.mem_cons, List.not_mem_nil, or_false] at hp
  rcases hp with rfl | rfl | rfl | rfl | rfl <;> cases b <;> simp_all [schedKind, ingestCommand]

/-- An ingest command does nothing where the oldest message is of another kind (log 50). -/
theorem exec_ingest_other {p : Instr × Nat} (hp : p ∈ ingestCommands)
    (hk : s.feed.ingest.head?.map (fun m => schedKind m.body) ≠ some p.2) : exec p.1 s = .next s := by
  have hne {c : Channel} {b : SchedBody} {rest : List SchedMsg} (hi : s.feed.ingest = ⟨c, b⟩ :: rest) : schedKind b ≠ p.2 := by
    simpa [hi] using hk
  simp only [ingestCommands, List.mem_cons, List.not_mem_nil, or_false] at hp
  rcases hp with rfl | rfl | rfl | rfl | rfl
  · show execSnapOpen s = _; unfold execSnapOpen; split <;> [exact absurd rfl (hne ‹_›); rfl]
  · show execSnapEvent s = _; unfold execSnapEvent; split <;> [exact absurd rfl (hne ‹_›); rfl]
  · show execSnapClose s = _; unfold execSnapClose; split <;> [exact absurd rfl (hne ‹_›); rfl]
  · show execEditPut s = _; unfold execEditPut; split <;> [exact absurd rfl (hne ‹_›); rfl]
  · show execEditDrop s = _; unfold execEditDrop; split <;> [exact absurd rfl (hne ‹_›); rfl]

theorem ingest_serves_first {p : Instr × Nat} (hp : p ∈ ingestCommands)
    (hk : s.feed.ingest.head?.map (fun m => schedKind m.body) = some p.2) : exec p.1 s = exec p.1 s.serveAll := by
  obtain ⟨m, hm, hkind⟩ := Option.map_eq_some_iff.1 hk
  obtain ⟨rest, hi⟩ := List.head?_eq_some_iff.1 hm
  rw [eq_ingestCommand hp hkind, exec_ingest hi, exec_ingest ((congrArg (·.ingest) (serveAll_feed s)).trans hi), takeIngest_serveAll]

/-! ## The commands after which the runner asks (R18) -/

theorem claimWindowEnd_serves_first (hw : s.windowReached c = true) :
    exec (.claimWindowEnd c) s = exec (.claimWindowEnd c) s.serveAll := by
  have hexec (v : State) : exec (.claimWindowEnd c) v = .next (
      if v.windowReached c then if v.serveAll.windowReached c then (v.serveAll.enterJoining c).settle else v.serveAll else v) := rfl
  rw [hexec, hexec, if_pos hw, serveAll_serveAll]
  split <;> rfl

theorem exec_cueMoment (hc : s.chan? c = some ch) (hr : ch.run = some r) (hd : due r.cueMoment s.now = true) {it : Item}
    (hi : r.cued = some it) (hl : it.locked = false) :
    exec (.cueMoment c) s = .next (s.serveAll.lockItem c .cued false).settle := by
  show execCueMoment c s = _
  unfold execCueMoment
  simp only [hc, hr, hd, hi, hl, Option.any_some, Bool.not_false, Bool.and_self, if_true, mirrorTurn_run hc hr]

theorem cueMoment_serves_first (hc : s.chan? c = some ch) (hr : ch.run = some r) (hd : due r.cueMoment s.now = true) {it : Item}
    (hi : r.cued = some it) (hl : it.locked = false) : exec (.cueMoment c) s = exec (.cueMoment c) s.serveAll := by
  obtain ⟨y, hy, hyr, _, _⟩ := serveAll_running hc hr
  rw [exec_cueMoment hc hr hd hi hl, exec_cueMoment hy hyr (by rwa [serveAll_now]) hi hl, serveAll_serveAll]

/-- The one channel a command names, once START has been taken. -/
theorem byChannel_eq (hl : s.locked = true) (hc : s.chan? c = some ch) (f : Chan → State) : s.byChannel [c] f = f ch := by
  show s.onChannel c f = _
  unfold State.onChannel State.running
  rw [hl, hc]
  rfl

theorem exec_go (hl : s.locked = true) (hc : s.chan? c = some ch) (hr : ch.run = some r) (hm : r.mode = .awaitingGo) {id : EventId}
    (hh : r.manualHold = some id) : exec (.go [c]) s = .next ((s.giveGo c ch r id).settle.done []) := by
  show Host.Outcome.next (s.byChannel [c] _) = _
  rw [byChannel_eq hl hc, chan?_channel hc]
  unfold State.goCmd
  rw [hr]
  dsimp only
  rw [hm, hh]

theorem giveGo_serves_first (hc : s.chan? c = some ch) (hr : ch.run = some r) (hp : y.period = ch.period) (id : EventId) :
    s.giveGo c ch r id = s.serveAll.giveGo c y r id := by
  have hlead : s.serveAll.lead y = s.serveAll.lead ch := by
    unfold State.lead
    rw [hp]
  unfold State.giveGo
  rw [mirrorTurn_run hc hr, serveAll_mirrorTurn]
  dsimp only
  rw [hlead]

theorem go_serves_first (hl : s.locked = true) (hc : s.chan? c = some ch) (hr : ch.run = some r) (hm : r.mode = .awaitingGo)
    (hh : r.manualHold ≠ none) : exec (.go [c]) s = exec (.go [c]) s.serveAll := by
  obtain ⟨id, hid⟩ := Option.ne_none_iff_exists'.1 hh
  obtain ⟨y, hy, hyr, hp, _⟩ := serveAll_running hc hr
  rw [exec_go hl hc hr hm hid, exec_go ((serveAll_locked s).trans hl) hy hyr hm hid, giveGo_serves_first hc hr hp]

/-! ## Handbacks (R171 to R179) -/

theorem exec_switchDeadline (hc : s.chan? c = some ch) (hr : ch.run = some r) {h : Handback} (hb : ch.tk.handback = some h)
    (ho : ch.tk.outlet = some o) (hd : due h.switchDl s.now = true) :
    exec (.switchDeadline c) s = .next (s.serveAll.completeHandback c ch.tk h o).settle := by
  show execSwitchDeadline c s = _
  unfold execSwitchDeadline
  simp only [hc, hb, ho, hd, if_true, mirrorTurn_run hc hr]

theorem switchDeadline_serves_first (hc : s.chan? c = some ch) (hr : ch.run = some r) (hs : ch.tk.state = .handingBack) {h : Handback}
    (hb : ch.tk.handback = some h) (ho : ch.tk.outlet = some o) (hd : due h.switchDl s.now = true) :
    exec (.switchDeadline c) s = exec (.switchDeadline c) s.serveAll := by
  obtain ⟨y, hy, hyr, _, ht⟩ := serveAll_running hc hr
  have hyt : y.tk = ch.tk := ht (by rw [hs]; rfl)
  rw [exec_switchDeadline hc hr hb ho hd, exec_switchDeadline hy hyr (by rwa [hyt]) (by rwa [hyt]) (by rwa [serveAll_now]),
    serveAll_serveAll, hyt]

theorem enterHandback_serves_first (hc : s.chan? c = some ch) (hr : ch.run = some r) (h : Handback) :
    s.enterHandback c h = s.serveAll.enterHandback c h := by
  unfold State.enterHandback
  rw [mirrorTurn_run hc hr, serveAll_mirrorTurn]

theorem replaceHandback_serves_first (hc : s.chan? c = some ch) (hr : ch.run = some r) (x z : Time) (forced : Bool) :
    s.replaceHandback c x z forced = s.serveAll.replaceHandback c x z forced := by
  unfold State.replaceHandback
  rw [mirrorTurn_run hc hr, serveAll_mirrorTurn]

/-- The host's RELEASE of a channel on air, and of one whose handback is not forced and switches after the earliest time left. -/
def State.ReleaseAsks (s : State) (ch : Chan) : Prop :=
  ch.tk.handback = none ∨
    ∃ h, ch.tk.handback = some h ∧ h.forced = false ∧ atOrBefore h.localSwitch (plus s.now (s.lead ch)) = false

theorem forceHandback_serves_first (hc : s.chan? c = some ch) (hr : ch.run = some r) (hyr : y.run = some r) (hp : y.period = ch.period)
    (hyt : y.tk = ch.tk) (hask : s.ReleaseAsks ch) : s.forceHandback c ch = s.serveAll.forceHandback c y := by
  unfold State.forceHandback
  rw [hr, hyr, hyt, serveAll_now, serveAll_lead hp]
  rcases hask with hb | ⟨h, hb, hf, hlate⟩
  · rw [hb]
    exact enterHandback_serves_first hc hr _
  · simp only [hb, hf, hlate, Bool.false_eq_true, if_false]
    exact replaceHandback_serves_first hc hr _ _ _

theorem release_serves_first (hl : s.locked = true) (hc : s.chan? c = some ch) (hr : ch.run = some r)
    (hs : ch.tk.state = .joining ∨ ((ch.tk.state = .onAir ∨ ch.tk.state = .handingBack) ∧ s.ReleaseAsks ch)) :
    exec (.release [c]) s = exec (.release [c]) s.serveAll := by
  have hexec {v : State} {x : Chan} (hlv : v.locked = true) (hx : v.chan? c = some x) :
      exec (.release [c]) v = .next (v.release c x) := by
    show Host.Outcome.next (v.byChannel [c] _) = _
    rw [byChannel_eq hlv hx, chan?_channel hx]
  obtain ⟨y, hy, hyr, hp, ht⟩ := serveAll_running hc hr
  have hyt : y.tk = ch.tk := ht (by rcases hs with h | ⟨h | h, _⟩ <;> rw [h] <;> rfl)
  rw [hexec hl hc, hexec ((serveAll_locked s).trans hl) hy]
  unfold State.release
  rw [hyt]
  rcases hs with hst | ⟨hst | hst, hask⟩
  · rw [hst, mirrorTurn_run hc hr, serveAll_mirrorTurn]
  · rw [hst, forceHandback_serves_first hc hr hyr hp hyt hask]
  · rw [hst, forceHandback_serves_first hc hr hyr hp hyt hask]

/-! ## A HOLD of another station (R105, R121) -/

theorem holdFrame_serves_first (hc : s.chan? c = some ch) (hr : ch.run = some r) {m : Byte} {st : Station} {hs : HoldState}
    {v : Version} {e : EventId} (hrx : s.bus.rx = .free ∨ s.bus.rx = .receiving) (hst : st ≠ s.bus.own) (hm : meritOk m = true)
    (hch : channelOk c = true) : exec (.holdFrame m st c hs v e) s = exec (.holdFrame m st c hs v e) s.serveAll := by
  have hcore : s.serveAll.bus.core = s.bus.core := (serveAll_served s).tends.bus
  have hrx' : s.serveAll.bus.rx = s.bus.rx := congrArg (·.rx) hcore
  have hown : s.serveAll.bus.own = s.bus.own := congrArg (·.own) hcore
  have hok : frameFieldsOk ⟨m, st, .hold c hs v e⟩ = true := by
    simp only [meritOk, channelOk, decide_eq_true_eq] at hm hch
    simp [frameFieldsOk, hm, hch]
  have hturn : s.frameTurn ⟨m, st, .hold c hs v e⟩ = s.serveAll := (if_neg hst).trans (mirrorTurn_run hc hr)
  show Host.Outcome.next (s.closeFrame _) = .next (s.serveAll.closeFrame _)
  rw [closeFrame_other s _ hrx hst hok, closeFrame_other s.serveAll _ (hrx' ▸ hrx) (hown ▸ hst) hok, hturn,
    frameTurn_of_nil (serveAll_reqs s)]

/-! ## The outlet's deadlines and replies (R159 to R167) -/

theorem takeSoonest_mem {α : Type} (key : α → Option Time) {l : List α} {x : α} {rest : List α}
    (h : takeSoonest key l = some (x, rest)) : x ∈ l ∧ (key x).isSome = true := by
  induction l generalizing x rest with
  | nil => cases h
  | cons a l ih =>
    unfold takeSoonest at h
    split at h
    · obtain ⟨z, hz, he⟩ := Option.map_eq_some_iff.1 h
      cases he
      exact (ih hz).imp_left (List.mem_cons_of_mem _)
    · rename_i hk _
      cases h
      exact ⟨List.mem_cons_self, by rw [hk]; rfl⟩
    · rename_i hk hz
      split at h
      · cases h
        exact (ih hz).imp_left (List.mem_cons_of_mem _)
      · cases h
        exact ⟨List.mem_cons_self, by rw [hk]; rfl⟩

theorem takeSoonest_exists {α : Type} (key : α → Option Time) {l : List α} (h : ∃ x ∈ l, (key x).isSome = true) :
    ∃ z, takeSoonest key l = some z := by
  induction l with
  | nil => simp at h
  | cons a l ih =>
    unfold takeSoonest
    split
    · rename_i hk
      obtain ⟨x, hx, hkx⟩ := h
      rcases List.mem_cons.1 hx with rfl | hx
      · rw [hk] at hkx; cases hkx
      · obtain ⟨z, hz⟩ := ih ⟨x, hx, hkx⟩
        exact ⟨_, by rw [hz]; rfl⟩
    · exact ⟨_, rfl⟩
    · split <;> exact ⟨_, rfl⟩

theorem exec_startDeadline {a : Awaiting} {rest : List Awaiting}
    (ha : takeSoonest (fun a => (some a.startDl).filter (fun t => atOrBefore t s.now)) (s.outlet o).awaiting = some (a, rest)) :
    exec (.startDeadline o) s = .next ((((s.outletTurn o).modOutlet o (fun x => { x with awaiting := rest })).failCmd o
      (.prep a.prep) false .startLapse)).settle := by
  show execStartDeadline o s = _
  unfold execStartDeadline
  rw [ha]

theorem startDeadline_serves_first (ht : s.outletTurn o = s.serveAll)
    (ha : ∃ a ∈ (s.outlet o).awaiting, atOrBefore a.startDl s.now = true) :
    exec (.startDeadline o) s = exec (.startDeadline o) s.serveAll := by
  obtain ⟨⟨a, rest⟩, hz⟩ := takeSoonest_exists (fun a : Awaiting => (some a.startDl).filter (fun t => atOrBefore t s.now))
    (ha.imp fun a h => ⟨h.1, by simp [Option.filter, h.2]⟩)
  rw [exec_startDeadline hz, exec_startDeadline (s := s.serveAll) (by rw [serveAll_awaiting, serveAll_now, hz]), ht, serveAll_outletTurn]

theorem failTurn_prep (s : State) (o : OutletNo) (p : Prep) : s.failTurn o (.prep p) false = s.outletTurn o := if_pos ⟨rfl, rfl⟩

theorem exec_queuedCommandMissed {cmd : Cmd} {rest : List Cmd}
    (h : takeSoonest (fun x => x.missTime.filter (fun t => atOrBefore t s.now)) (s.outlet o).queue = some (cmd, rest)) :
    exec (.queuedCommandMissed o) s = .next ((((s.failTurn o cmd false).modOutlet o (fun x => { x with queue := rest })).settleOrder
      o).failCmd o cmd false .missed).settle := by
  show execQueuedCommandMissed o s = _
  unfold execQueuedCommandMissed
  rw [h]

/-- A queued PREP whose start has come is the command that is missed, where no SIDE's time has. -/
theorem queuedCommandMissed_serves_first (ht : s.outletTurn o = s.serveAll)
    (hp : ∃ p, Cmd.prep p ∈ (s.outlet o).queue ∧ atOrBefore p.start s.now = true)
    (hside : ∀ code x, Cmd.side code x ∈ (s.outlet o).queue → atOrBefore x s.now = false) :
    exec (.queuedCommandMissed o) s = exec (.queuedCommandMissed o) s.serveAll := by
  obtain ⟨p, hpq, hpt⟩ := hp
  obtain ⟨⟨cmd, rest⟩, hz⟩ := takeSoonest_exists (fun x : Cmd => x.missTime.filter (fun t => atOrBefore t s.now))
    ⟨_, hpq, by simp [Cmd.missTime, Option.filter, hpt]⟩
  obtain ⟨hmem, hdue⟩ := takeSoonest_mem _ hz
  rw [exec_queuedCommandMissed hz, exec_queuedCommandMissed (s := s.serveAll) (by rw [serveAll_queue, serveAll_now, hz])]
  cases cmd with
  | prep p => rw [failTurn_prep, failTurn_prep, ht, serveAll_outletTurn]
  | side code x => simp [Cmd.missTime, Option.filter, hside code x hmem] at hdue
  | stop => cases hdue

theorem failOutstanding_serves_first (ht : s.outletTurn o = s.serveAll) {u : Outstanding} {p : Prep} (hu : u.cmd = .prep p)
    (horphan : u.orphaned = false) (f : Failure) : s.failOutstanding o u f = s.serveAll.failOutstanding o u f := by
  unfold State.failOutstanding
  rw [hu, horphan, failTurn_prep, failTurn_prep, ht, serveAll_outletTurn]

theorem replyDeadline_serves_first (ht : s.outletTurn o = s.serveAll) {u : Outstanding} {p : Prep}
    (ho : (s.outlet o).outstanding = some u) (hu : u.cmd = .prep p) (horphan : u.orphaned = false)
    (hd : atOrBefore u.deadline s.now = true) : exec (.replyDeadline o) s = exec (.replyDeadline o) s.serveAll := by
  have hexec {v : State} (hv : (v.outlet o).outstanding = some u) (hdv : due (some u.deadline) v.now = true) :
      exec (.replyDeadline o) v = .next (v.failOutstanding o u .lapsed) := by
    show execReplyDeadline o v = _
    unfold execReplyDeadline
    simp only [hv, hdv, if_true]
  rw [hexec ho hd, hexec ((serveAll_outstanding s o).trans ho) ((congrArg (due (some u.deadline)) (serveAll_now s)).trans hd),
    failOutstanding_serves_first ht hu horphan]

/-! ## Messages of the server (R155, R164, R166) -/

theorem setCueFraming_self {f : Framing} (h : s.cue.framing = f) : s.setCueFraming f = s := by
  subst h
  rfl

theorem cueFraming_of (hl : s.locked = true) (hf : s.cue.framing ≠ .hunt) : s.cueFraming = true := by
  simp [State.cueFraming, hl, hf]

/-- Messages of the server are framed alike once one was taken and the requests are served. -/
theorem serveAll_framed (hl : s.locked = true) :
    (s.setCueFraming .wait).serveAll.cueFraming = true ∧
      (s.setCueFraming .wait).serveAll.setCueFraming .wait = (s.setCueFraming .wait).serveAll := by
  have hcue : (s.setCueFraming .wait).serveAll.cue.framing = .wait := congrArg (·.framing) (serveAll_cue (s.setCueFraming .wait))
  exact ⟨cueFraming_of ((serveAll_locked (s.setCueFraming .wait)).trans hl) (by rw [hcue]; exact nofun), setCueFraming_self hcue⟩

theorem exec_refused (h : s.cueFraming = true) (tag : Byte) (why : RefusedReason) :
    exec (.refused tag why) s = .next ((s.setCueFraming .wait).takeRefused tag why) := congrArg _ (if_pos h)

theorem takeRefused_serves_first (ht : s.outletTurn o = s.serveAll) {tag : Byte} (htag : tagOutlet tag = some o) {u : Outstanding}
    {p : Prep} (ho : (s.outlet o).outstanding = some u) (hm : u.tag = tag.toNat) (hu : u.cmd = .prep p) (horphan : u.orphaned = false)
    (why : RefusedReason) : s.takeRefused tag why = s.serveAll.takeRefused tag why := by
  have htake {v : State} (hv : (v.outlet o).outstanding = some u) : v.takeRefused tag why = v.failOutstanding o u (.refused why) := by
    unfold State.takeRefused State.matched
    simp only [htag, hv, Option.filter, hm, beq_self_eq_true, if_true]
  rw [htake ho, htake ((serveAll_outstanding s o).trans ho), failOutstanding_serves_first ht hu horphan]

theorem exec_started (h : s.cueFraming = true) {tag outlet : Byte} (ho : outlet.toNat = tag.toNat / 4) (x : Time) :
    exec (.started tag outlet x) s = .next ((s.setCueFraming .wait).takeStarted tag x) :=
  congrArg _ ((if_pos h).trans (if_pos ho))

/-- A PREP of the outlet answers to the tag of a STARTED. -/
def Outlet.Answers (x : Outlet) (tag : Byte) : Prop :=
  (∃ u p, x.outstanding = some u ∧ u.tag = tag.toNat ∧ u.cmd = .prep p) ∨ ∃ a ∈ x.awaiting, a.tag = tag.toNat

theorem startTurn_answers {tag : Byte} (h : (s.outlet o).Answers tag) : s.startTurn o tag = s.outletTurn o := by
  unfold State.startTurn State.matched
  refine if_pos ?_
  rw [Bool.or_eq_true]
  rcases h with ⟨u, p, hu, htag, hp⟩ | ⟨a, ha, htag⟩
  · exact .inl (by simp [hu, htag, hp, Option.filter, cmdKind])
  · exact .inr (List.any_eq_true.2 ⟨a, ha, by simp [htag]⟩)

theorem takeStarted_serves_first (ht : s.outletTurn o = s.serveAll) {tag : Byte} (htag : tagOutlet tag = some o)
    (h : (s.outlet o).Answers tag) (x : Time) : s.takeStarted tag x = s.serveAll.takeStarted tag x := by
  have hserved : (s.serveAll.outlet o).Answers tag := by
    unfold Outlet.Answers
    rw [serveAll_outstanding, serveAll_awaiting]
    exact h
  unfold State.takeStarted
  rw [htag]
  dsimp only
  rw [startTurn_answers h, startTurn_answers hserved, ht, serveAll_outletTurn]

/-- Settles O23: what each command does is stated from the state with the requests served, and serving those once more does nothing. -/
theorem mirrorServesRequestsFirst : Obligations.MirrorServesRequestsFirst := by
  intro s
  refine ⟨fun q rest hq => ⟨driftCheck_serves_first hq, reclaimSweep_serves_first hq⟩, fun p hp => ⟨fun hk =>
    ⟨ingest_serves_first hp hk, serveAll_reqs s, serveAll_feed s⟩, exec_ingest_other hp⟩, fun c ch hc => ⟨fun d hs hw hd => ?_,
    fun r hr => ⟨fun it hd hi => cueMoment_serves_first hc hr hd hi, fun hl => go_serves_first hl hc hr, fun h o hs hb ho =>
      switchDeadline_serves_first hc hr hs hb ho, fun hl hs => release_serves_first hl hc hr ?_, fun m st hs v e =>
      holdFrame_serves_first hc hr, fun o ho => ?_⟩⟩⟩
  · exact claimWindowEnd_serves_first (by simp [State.windowReached, hc, Chan.contending, hs, hw, due, State.now, hd])
  · rcases hs with hs | ⟨hs, hb⟩ | ⟨hs, h, hb, hf, hlate⟩
    · exact .inl hs
    · exact .inr ⟨.inl hs, .inl hb⟩
    · exact .inr ⟨.inr hs, .inr ⟨h, hb, hf, decide_eq_false (not_le.2 hlate)⟩⟩
  · have ht := outletTurn_running ho hc hr
    have ht' : (s.setCueFraming .wait).outletTurn o = (s.setCueFraming .wait).serveAll :=
      outletTurn_running (s := s.setCueFraming .wait) ho hc hr
    refine ⟨startDeadline_serves_first ht, queuedCommandMissed_serves_first ht, fun u p hu hcmd horphan =>
      ⟨replyDeadline_serves_first ht hu hcmd horphan, fun tag why hl hf htag hm => ?_⟩, fun tag outlet x hl hf hout htag h => ?_⟩
    · obtain ⟨hframing, hwait⟩ := serveAll_framed hl
      have htake := takeRefused_serves_first (s := s.setCueFraming .wait) ht' htag hu hm hcmd horphan why
      exact (exec_refused (cueFraming_of hl hf) tag why).trans
        ((congrArg _ htake).trans ((exec_refused hframing tag why).trans (by rw [hwait])).symm)
    · obtain ⟨hframing, hwait⟩ := serveAll_framed hl
      have htake := takeStarted_serves_first (s := s.setCueFraming .wait) ht' htag h x
      exact (exec_started (cueFraming_of hl hf) hout x).trans
        ((congrArg _ htake).trans ((exec_started hframing hout x).trans (by rw [hwait])).symm)

end Sys2Proof.Machine
end

section
/-! SUPPORT. What resolution gives each record of a list: its start by pass 1, its limit by pass 2, both as exact offsets from the
reference start, and the record with the times they give, with the three statements about it
(03_event_timing_and_resolution.md, sections 3.2 to 3.4 and 3.7). -/

namespace Sys2Proof.Machine
-- Proofs are checked one after another: in parallel they would not fit the memory that the check allows.
set_option Elab.async false

variable {period : Nat} {anchor : Option Anchor} {ref : Time} {prevEnd : Option Int} {l m p q : List EventRec} {e d f : EventRec}
  {i j k : Nat} {st x : Int} {t : Time}

/-! ## The two passes, event by event -/

/-- An event's own start as a signed offset from the reference start (R43). -/
def ownOffset (anchor : Option Anchor) (ref : Time) (e : EventRec) : Option Int := (ownStart anchor e).map (diff · ref)

/-- The start pass 1 gives an event behind one with the nominal end `prevEnd` (R44 to R46). -/
def startBehind (anchor : Option Anchor) (ref : Time) (prevEnd : Option Int) (e : EventRec) : Option Int :=
  (ownOffset anchor ref e).or (if e.data.start = .follow then prevEnd else none)

/-- The nominal end of an event that starts at `st` (R46). -/
def EventRec.nomEndFrom (e : EventRec) (period : Nat) (st : Int) : Int := st + (e.data.duration.toNat * period : Nat)

/-- The start pass 1 gives the event at a place of the list. -/
def startAt (period : Nat) (anchor : Option Anchor) (ref : Time) : Option Int → List EventRec → Nat → Option Int
  | _, [], _ => none
  | prevEnd, e :: _, 0 => startBehind anchor ref prevEnd e
  | prevEnd, e :: rest, i + 1 => startAt period anchor ref ((startBehind anchor ref prevEnd e).map (e.nomEndFrom period)) rest i

/-- The limit that pass 2 takes past a list: the earliest FIXED or anchored start in it (R48). -/
def limitOf (anchor : Option Anchor) (ref : Time) : List EventRec → Option Int
  | [] => none
  | e :: rest =>
    match ownOffset anchor ref e with
    | some x => some (minLimit x (limitOf anchor ref rest))
    | none => limitOf anchor ref rest

/-- The effective end of an event that starts at `st` before the events `rest` (R49). -/
def EventRec.effEndBefore (e : EventRec) (period : Nat) (anchor : Option Anchor) (ref : Time) (rest : List EventRec) (st : Int) :
    Int := minLimit (e.nomEndFrom period st) (limitOf anchor ref rest)

/-- The record of an event before the events `rest`, with the times and the mark that the start `start` gives it (R42, R49). -/
def EventRec.timed (e : EventRec) (period : Nat) (anchor : Option Anchor) (ref : Time) (rest : List EventRec)
    (start : Option Int) : EventRec :=
  { e with
    times := start.map fun st =>
      { nomStart := ref + BitVec.ofInt 48 st, nomEnd := ref + BitVec.ofInt 48 (e.nomEndFrom period st)
        effEnd := ref + BitVec.ofInt 48 (e.effEndBefore period anchor ref rest st) }
    eclipsed := start.any fun st => wholeFrames period st (e.effEndBefore period anchor ref rest st) == 0 }

/-- The limit that pass 2 hands up does not depend on the starts of pass 1. -/
theorem resolveFrom_limit : (resolveFrom period anchor ref prevEnd l).2 = limitOf anchor ref l := by
  induction l generalizing prevEnd with
  | nil => rfl
  | cons e rest ih =>
    unfold resolveFrom limitOf ownOffset
    cases ownStart anchor e <;> simp [ih]

theorem resolveFrom_cons (e : EventRec) (rest : List EventRec) : (resolveFrom period anchor ref prevEnd (e :: rest)).1 =
    e.timed period anchor ref rest (startBehind anchor ref prevEnd e) ::
      (resolveFrom period anchor ref ((startBehind anchor ref prevEnd e).map (e.nomEndFrom period)) rest).1 := by
  unfold startBehind ownOffset
  simp only [resolveFrom, resolveFrom_limit]
  cases ownStart anchor e with
  | some t => rfl
  | none =>
    by_cases hf : e.data.start = .follow
    · cases prevEnd <;> simp only [Option.map_none, Option.none_or, hf, if_true] <;> rfl
    · simp only [Option.map_none, Option.none_or, hf, if_false]
      rfl

/-- Resolution gives the event at a place the times that its start and the events behind it give. -/
theorem resolveFrom_getElem? (h : l[i]? = some e) : (resolveFrom period anchor ref prevEnd l).1[i]? =
    some (e.timed period anchor ref (l.drop (i + 1)) (startAt period anchor ref prevEnd l i)) := by
  induction l generalizing prevEnd i with
  | nil => cases h
  | cons d rest ih =>
    rw [resolveFrom_cons]
    cases i with
    | zero => cases h; rfl
    | succ i => exact ih h

theorem resolveFrom_length : (resolveFrom period anchor ref prevEnd l).1.length = l.length := by
  simpa using congrArg List.length (resolveFrom_data period anchor ref l prevEnd)

/-! ## Starts (R43 to R47) -/

theorem ownStart_eq_some_iff : ownStart anchor e = some t ↔ e.FixedAt anchor t := by
  unfold ownStart EventRec.FixedAt
  cases e.data.start with
  | fixed u => simp
  | follow => simp
  | manual => cases anchor <;> simp [eq_comm]

theorem ownStart_eq_none_iff : ownStart anchor e = none ↔ ∀ t, ¬ e.FixedAt anchor t := by
  simp only [Option.eq_none_iff_forall_ne_some, ne_eq, ownStart_eq_some_iff]

theorem ownOffset_of_fixedAt (h : e.FixedAt anchor t) : ownOffset anchor ref e = some (diff t ref) := by
  rw [ownOffset, ownStart_eq_some_iff.2 h, Option.map_some]

theorem fixedAt_of_ownOffset (h : ownOffset anchor ref e = some x) : ∃ t, e.FixedAt anchor t ∧ x = diff t ref := by
  obtain ⟨t, ht, rfl⟩ := Option.map_eq_some_iff.1 h
  exact ⟨t, ownStart_eq_some_iff.1 ht, rfl⟩

theorem startBehind_of_fixedAt (h : e.FixedAt anchor t) : startBehind anchor ref prevEnd e = some (diff t ref) := by
  rw [startBehind, ownOffset_of_fixedAt h, Option.some_or]

theorem startBehind_of_follow (h : e.data.start = .follow) : startBehind anchor ref prevEnd e = prevEnd := by
  simp [startBehind, ownOffset, ownStart, h]

theorem startBehind_of_manual (h : e.data.start = .manual) (hn : ∀ t, ¬ e.FixedAt anchor t) :
    startBehind anchor ref prevEnd e = none := by
  simp [startBehind, ownOffset, ownStart_eq_none_iff.2 hn, h]

/-- A start is the event's own, or the nominal end of the event before it: what holds of both holds of it. -/
theorem startBehind_of_both {P : Int → Prop} (hprev : ∀ u, prevEnd = some u → P u) (hown : ∀ t, e.FixedAt anchor t → P (diff t ref))
    (h : startBehind anchor ref prevEnd e = some st) : P st := by
  rcases Option.or_eq_some_iff.1 h with h | ⟨-, h⟩
  · obtain ⟨t, ht, rfl⟩ := fixedAt_of_ownOffset h
    exact hown t ht
  · exact hprev st (Option.ite_none_right_eq_some.1 h).2

theorem startAt_zero (h : l[0]? = some e) : startAt period anchor ref prevEnd l 0 = startBehind anchor ref prevEnd e := by
  cases l with
  | nil => cases h
  | cons d rest => cases h; rfl

theorem startAt_succ (hd : l[k]? = some d) (he : l[k + 1]? = some e) : startAt period anchor ref prevEnd l (k + 1) =
    startBehind anchor ref ((startAt period anchor ref prevEnd l k).map (d.nomEndFrom period)) e := by
  induction l generalizing prevEnd k with
  | nil => cases hd
  | cons c rest ih =>
    cases k with
    | zero => cases hd; exact startAt_zero he
    | succ k => exact ih hd he

theorem startAt_behind (h : l[i]? = some e) : ∃ u, startAt period anchor ref prevEnd l i = startBehind anchor ref u e := by
  cases i with
  | zero => exact ⟨_, startAt_zero h⟩
  | succ k =>
    obtain ⟨hk, -⟩ := List.getElem?_eq_some_iff.1 h
    exact ⟨_, startAt_succ (List.getElem?_eq_getElem (k.lt_succ_self.trans hk)) h⟩

/-- The first FIXED or anchored event of a list gives the reference start. -/
theorem referenceStart_of_first (hp : ∀ x ∈ p, ∀ u, ¬ x.FixedAt anchor u) (h : e.FixedAt anchor t) :
    referenceStart anchor (p ++ e :: q) = t := by
  have hnone : p.findSome? (ownStart anchor) = none :=
    List.findSome?_eq_none_iff.2 fun x hx => ownStart_eq_none_iff.2 (hp x hx)
  simp [referenceStart, List.findSome?_append, hnone, ownStart_eq_some_iff.2 h]

/-! ## Limits and effective ends (R48, R49) -/

theorem minLimit_le (x : Int) (lim : Option Int) : minLimit x lim ≤ x := by
  cases lim with
  | none => exact le_rfl
  | some m => exact min_le_left x m

theorem minLimit_le_limit (x m : Int) : minLimit x (some m) ≤ m := min_le_right x m

theorem minLimit_cases (x : Int) (lim : Option Int) : minLimit x lim = x ∨ lim = some (minLimit x lim) := by
  cases lim with
  | none => exact .inl rfl
  | some m => exact (min_choice x m).imp id fun h => congrArg some h.symm

/-- A limit is at or before every FIXED or anchored start of its list. -/
theorem limitOf_le (hf : f ∈ l) (h : f.FixedAt anchor t) : ∃ m, limitOf anchor ref l = some m ∧ m ≤ diff t ref := by
  induction l with
  | nil => cases hf
  | cons e rest ih =>
    unfold limitOf
    rcases List.mem_cons.1 hf with rfl | hf
    · rw [ownOffset_of_fixedAt h]
      exact ⟨_, rfl, minLimit_le _ _⟩
    · obtain ⟨m, hm, hle⟩ := ih hf
      rw [hm]
      cases ownOffset anchor ref e with
      | none => exact ⟨m, rfl, hle⟩
      | some x => exact ⟨_, rfl, (minLimit_le_limit x m).trans hle⟩

/-- A limit is a FIXED or anchored start of its list. -/
theorem limitOf_attained {m : Int} (h : limitOf anchor ref l = some m) :
    ∃ f ∈ l, ∃ t, f.FixedAt anchor t ∧ m = diff t ref := by
  induction l with
  | nil => cases h
  | cons e rest ih =>
    have hrest (h : limitOf anchor ref rest = some m) : ∃ f ∈ e :: rest, ∃ t, f.FixedAt anchor t ∧ m = diff t ref :=
      (ih h).imp fun f hf => ⟨List.mem_cons_of_mem e hf.1, hf.2⟩
    unfold limitOf at h
    cases ho : ownOffset anchor ref e with
    | none => exact hrest (by rwa [ho] at h)
    | some x =>
      rw [ho] at h
      obtain rfl := Option.some.inj h
      rcases minLimit_cases x (limitOf anchor ref rest) with hx | hx
      · exact ⟨e, List.mem_cons_self, hx.symm ▸ fixedAt_of_ownOffset ho⟩
      · exact hrest hx

theorem effEndBefore_le_nomEnd (e : EventRec) (rest : List EventRec) (st : Int) :
    e.effEndBefore period anchor ref rest st ≤ e.nomEndFrom period st := minLimit_le _ _

theorem effEndBefore_le_fixed (hf : f ∈ l) (h : f.FixedAt anchor t) :
    e.effEndBefore period anchor ref l st ≤ diff t ref := by
  obtain ⟨m, hm, hle⟩ := limitOf_le (ref := ref) hf h
  unfold EventRec.effEndBefore
  rw [hm]
  exact (minLimit_le_limit _ m).trans hle

theorem effEndBefore_cases (e : EventRec) (rest : List EventRec) (st : Int) :
    e.effEndBefore period anchor ref rest st = e.nomEndFrom period st ∨
      ∃ f ∈ rest, ∃ t, f.FixedAt anchor t ∧ e.effEndBefore period anchor ref rest st = diff t ref :=
  (minLimit_cases _ _).imp id limitOf_attained

/-! ## Stored times (R42, R43) -/

/-- Between two stored times stands the difference of their offsets, modulo 2^48. -/
theorem stored_sub (ref : Time) (x y : Int) :
    (ref + BitVec.ofInt 48 x) - (ref + BitVec.ofInt 48 y) = BitVec.ofInt 48 (x - y) := by
  rw [sub_eq_add_neg x, BitVec.ofInt_add, BitVec.ofInt_neg, ← BitVec.sub_eq_add_neg]
  exact add_sub_add_left_eq_sub _ _ ref

/-- Two stored times whose offsets lie within half the range read as their offsets do. -/
theorem diff_stored {y : Int} (hlo : -2 ^ 47 ≤ x - y) (hhi : x - y < 2 ^ 47) :
    diff (ref + BitVec.ofInt 48 x) (ref + BitVec.ofInt 48 y) = x - y := by
  unfold diff
  rw [stored_sub]
  exact BitVec.toInt_ofInt_eq_self (by decide) hlo hhi

theorem le_nomEndFrom (e : EventRec) (period : Nat) (st : Int) : st ≤ e.nomEndFrom period st :=
  Int.le_add_of_nonneg_right (Int.natCast_nonneg _)

/-- The longest event spans 2^24 - 1 frames of 10,010 grains (R46). -/
theorem nomEndFrom_le (hp : period ≤ 10010) (e : EventRec) (st : Int) : e.nomEndFrom period st ≤ st + 167939922150 := by
  have h : e.data.duration.toNat * period ≤ 16777215 * 10010 := Nat.mul_le_mul (Nat.le_of_lt_succ e.data.duration.isLt) hp
  unfold EventRec.nomEndFrom
  omega

theorem effEndBefore_le (hp : period ≤ 10010) (e : EventRec) (rest : List EventRec) (st : Int) :
    e.effEndBefore period anchor ref rest st ≤ st + 167939922150 := (effEndBefore_le_nomEnd e rest st).trans (nomEndFrom_le hp e st)

/-- No whole frame lies in less than one period. -/
theorem wholeFrames_eq_zero (hp : 0 < period) (st ee : Int) : (wholeFrames period st ee == 0) = decide (ee - st < period) := by
  unfold wholeFrames
  rw [Bool.beq_eq_decide_eq, decide_eq_decide, Nat.div_eq_zero_iff]
  omega

/-- The record of an event with a start. -/
theorem timed_some (hp : 0 < period) (e : EventRec) (rest : List EventRec) (st : Int) :
    e.timed period anchor ref rest (some st) = { e with
      times := some { nomStart := ref + BitVec.ofInt 48 st, nomEnd := ref + BitVec.ofInt 48 (e.nomEndFrom period st)
                      effEnd := ref + BitVec.ofInt 48 (e.effEndBefore period anchor ref rest st) }
      eclipsed := decide (e.effEndBefore period anchor ref rest st - st < period) } := by
  rw [← wholeFrames_eq_zero hp]
  rfl

/-- The effective duration counts the whole periods between the offsets of the start and the effective end. -/
theorem effFrames_timed (hp : 0 < period) (hp' : period ≤ 10010) (e : EventRec) (rest : List EventRec) (st : Int) :
    (e.timed period anchor ref rest (some st)).effFrames period =
      some ((e.effEndBefore period anchor ref rest st - st).toNat / period) := by
  have hle : e.effEndBefore period anchor ref rest st - st ≤ 167939922150 := Int.sub_left_le_of_le_add (effEndBefore_le hp' e rest st)
  rw [timed_some hp]
  unfold EventRec.effFrames EventRec.framesOf
  rw [Option.map_some]
  congr 1
  dsimp only
  rw [stored_sub, BitVec.toNat_ofInt]
  generalize e.effEndBefore period anchor ref rest st - st = n at *
  by_cases hn : n < period
  · rw [if_pos (decide_eq_true hn), eq_comm, Nat.div_eq_zero_iff]
    omega
  · rw [if_neg (by simpa using hn), Int.emod_eq_of_lt (by omega) (by omega)]

/-! ## What resolution writes (R42 to R49) -/

theorem resolve_getElem? (h : l[i]? = some e) : (resolve period anchor l)[i]? = some (e.timed period anchor (referenceStart anchor l)
    (l.drop (i + 1)) (startAt period anchor (referenceStart anchor l) none l i)) := resolveFrom_getElem? h

/-- The events behind a place are those at the later places. -/
theorem mem_drop_succ_iff : f ∈ l.drop (i + 1) ↔ ∃ k, i < k ∧ l[k]? = some f := by
  simp only [List.mem_iff_getElem?, List.getElem?_drop]
  exact ⟨fun ⟨n, hn⟩ => ⟨i + 1 + n, by omega, hn⟩, fun ⟨k, hik, hk⟩ => ⟨k - (i + 1), by rwa [Nat.add_sub_cancel' hik]⟩⟩

/-- Settles O24: the starts are those of `startAt`, the effective ends those of `effEndBefore`, from the list's reference start. -/
theorem resolutionWritesTimes : Obligations.ResolutionWritesTimes := by
  intro period anchor l hp hp'
  refine ⟨referenceStart anchor l, startAt period anchor (referenceStart anchor l) none l, ?_, fun i e he => ⟨?_, ?_, ?_, ?_⟩,
    fun i e he => ⟨_, resolve_getElem? he, fun hs => ?_, fun st hs => ?_⟩⟩
  · rintro p q e t rfl hpre ht
    exact referenceStart_of_first hpre ht
  · intro t ht
    obtain ⟨u, hu⟩ := startAt_behind he
    exact hu.trans (startBehind_of_fixedAt ht)
  · intro hm hn
    obtain ⟨u, hu⟩ := startAt_behind he
    exact hu.trans (startBehind_of_manual hm hn)
  · rintro hf rfl
    exact (startAt_zero he).trans (startBehind_of_follow hf)
  · rintro k d hf rfl hd
    exact (startAt_succ hd he).trans (startBehind_of_follow hf)
  · rw [hs]
    exact ⟨rfl, rfl⟩
  · rw [hs]
    refine ⟨_, effEndBefore_le_nomEnd e (l.drop (i + 1)) st,
      fun k f t hik hk ht => effEndBefore_le_fixed (mem_drop_succ_iff.2 ⟨k, hik, hk⟩) ht, ?_, timed_some hp e _ st,
      effFrames_timed hp hp' e _ st⟩
    refine (effEndBefore_cases e (l.drop (i + 1)) st).imp id ?_
    rintro ⟨f, hf, t, ht, hee⟩
    obtain ⟨k, hik, hk⟩ := mem_drop_succ_iff.1 hf
    exact ⟨k, f, t, hik, hk, ht, hee⟩

/-! ## Intervals in list order (R51) -/

/-- What is at or before the nominal end in front of a list and every FIXED or anchored start in it is at or before every start
pass 1 gives in it: a chain only adds durations. -/
theorem le_startAt (hprev : ∀ u, prevEnd = some u → x ≤ u) (hown : ∀ f ∈ l, ∀ t, f.FixedAt anchor t → x ≤ diff t ref)
    (h : startAt period anchor ref prevEnd l i = some st) : x ≤ st := by
  induction l generalizing prevEnd i with
  | nil => cases h
  | cons e rest ih =>
    have hfirst {v : Int} (hv : startBehind anchor ref prevEnd e = some v) : x ≤ v :=
      startBehind_of_both hprev (hown e List.mem_cons_self) hv
    cases i with
    | zero => exact hfirst h
    | succ i =>
      refine ih (fun u hu => ?_) (fun f hf => hown f (List.mem_cons_of_mem e hf)) h
      obtain ⟨v, hv, rfl⟩ := Option.map_eq_some_iff.1 hu
      exact (hfirst hv).trans (le_nomEndFrom e period v)

/-- A start lies past the latest FIXED or anchored start by at most the longest duration of each event before it (R46). -/
theorem startAt_le (hp : period ≤ 10010) (hprev : ∀ u, prevEnd = some u → u ≤ x)
    (hown : ∀ f ∈ l, ∀ t, f.FixedAt anchor t → diff t ref ≤ x) (h : startAt period anchor ref prevEnd l i = some st) :
    st ≤ x + i * 167939922150 := by
  induction l generalizing prevEnd i x with
  | nil => cases h
  | cons e rest ih =>
    have hfirst {v : Int} (hv : startBehind anchor ref prevEnd e = some v) : v ≤ x :=
      startBehind_of_both (P := (· ≤ x)) hprev (hown e List.mem_cons_self) hv
    cases i with
    | zero => simpa using hfirst h
    | succ i =>
      have hle : st ≤ x + 167939922150 + i * 167939922150 := by
        refine ih (fun u hu => ?_) (fun f hf t ht => ?_) h
        · obtain ⟨v, hv, rfl⟩ := Option.map_eq_some_iff.1 hu
          exact (nomEndFrom_le hp e v).trans (Int.add_le_add_right (hfirst hv) _)
        · exact (hown f (List.mem_cons_of_mem e hf) t ht).trans (by omega)
      omega

/-- An effective end is at or before every start behind it in the list. -/
theorem effEndBefore_le_startAt (he : l[i]? = some e) (hi : startAt period anchor ref prevEnd l i = some st) (hij : i < j)
    (hj : startAt period anchor ref prevEnd l j = some x) : e.effEndBefore period anchor ref (l.drop (i + 1)) st ≤ x := by
  induction l generalizing prevEnd i j with
  | nil => cases he
  | cons d rest ih =>
    obtain ⟨j, rfl⟩ := Nat.exists_eq_add_one_of_ne_zero (Nat.ne_zero_of_lt hij)
    cases i with
    | zero =>
      cases he
      refine le_startAt (fun u hu => ?_) (fun f hf t ht => effEndBefore_le_fixed hf ht) hj
      obtain ⟨v, hv, rfl⟩ := Option.map_eq_some_iff.1 hu
      cases hv.symm.trans hi
      exact effEndBefore_le_nomEnd _ rest _
    | succ i => exact ih he hi (Nat.lt_of_succ_lt_succ hij) hj

/-- The times of a resolved record come from a start, and a clear mark says that a whole period lies before the effective end. -/
theorem timed_times {a : Times} (hp : 0 < period) {start : Option Int} (ha : (e.timed period anchor ref q start).times = some a)
    (hm : (e.timed period anchor ref q start).eclipsed = false) : ∃ st, start = some st ∧
      a.nomStart = ref + BitVec.ofInt 48 st ∧ a.effEnd = ref + BitVec.ofInt 48 (e.effEndBefore period anchor ref q st) ∧
      (period : Int) ≤ e.effEndBefore period anchor ref q st - st := by
  cases start with
  | none => cases ha
  | some st =>
    rw [timed_some hp] at ha hm
    cases ha
    exact ⟨st, rfl, rfl, rfl, not_lt.1 (of_decide_eq_false hm)⟩

/-- Every record that resolution leaves is the timed record of the event at its place. -/
theorem resolve_getElem (hi : i < (resolve period anchor l).length) : ∃ e, l[i]? = some e ∧ (resolve period anchor l)[i] =
    e.timed period anchor (referenceStart anchor l) (l.drop (i + 1)) (startAt period anchor (referenceStart anchor l) none l i) := by
  have hl : i < l.length := hi.trans_eq resolveFrom_length
  exact ⟨l[i], List.getElem?_eq_getElem hl, Option.some.inj
    ((List.getElem?_eq_getElem hi).symm.trans (resolve_getElem? (List.getElem?_eq_getElem hl)))⟩

/-- Settles O25: the order of the exact offsets is `effEndBefore_le_startAt`; within the range their differences are read by sign. -/
theorem resolvedIntervalsStayApart : Obligations.ResolvedIntervalsStayApart := by
  intro period anchor l hp hp' hlen hrange
  have hown (f : EventRec) (hf : f ∈ l) (t : Time) (ht : f.FixedAt anchor t) :
      -2 ^ 45 ≤ diff t (referenceStart anchor l) ∧ diff t (referenceStart anchor l) ≤ 2 ^ 45 := by
    have := hrange f hf t (ownStart_eq_some_iff.2 ht)
    omega
  constructor
  · refine List.pairwise_iff_getElem.2 fun i j hi hj hij a b ha hb hx hy => ?_
    obtain ⟨e, he, hxe⟩ := resolve_getElem hi
    obtain ⟨f, -, hyf⟩ := resolve_getElem hj
    obtain ⟨st, hst, -, haEnd, hlong⟩ := timed_times hp (hxe ▸ ha) (hxe ▸ hx)
    obtain ⟨su, hsu, hbStart, -, -⟩ := timed_times hp (hyf ▸ hb) (hyf ▸ hy)
    have horder := effEndBefore_le_startAt he hst hij hsu
    have hlo : -2 ^ 45 ≤ st := le_startAt (by simp) (fun f hf t ht => (hown f hf t ht).1) hst
    have hhi : su ≤ 2 ^ 45 + j * 167939922150 := startAt_le hp' (by simp) (fun f hf t ht => (hown f hf t ht).2) hsu
    have hj : j < l.length := hj.trans_eq resolveFrom_length
    rw [haEnd, hbStart, diff_stored (by omega) (by omega)]
    omega
  · intro x hx a ha hm
    obtain ⟨i, hi, rfl⟩ := List.getElem_of_mem hx
    obtain ⟨e, -, hxe⟩ := resolve_getElem hi
    obtain ⟨st, -, hStart, hEnd, hlong⟩ := timed_times hp (hxe ▸ ha) (hxe ▸ hm)
    have hle := effEndBefore_le (anchor := anchor) (ref := referenceStart anchor l) hp' e (l.drop (i + 1)) st
    rw [hEnd, hStart, diff_stored (by omega) (by omega)]
    exact hlong

/-! ## What resolution reads and keeps (R42, R54) -/

theorem resolveFrom_keeps : (resolveFrom period anchor ref prevEnd l).1.map (fun e => (e.slot, e.data, e.pinned)) =
    l.map (fun e => (e.slot, e.data, e.pinned)) := by
  induction l generalizing prevEnd with
  | nil => rfl
  | cons e rest ih =>
    rw [resolveFrom_cons, List.map_cons, List.map_cons, ih]
    rfl

/-- A list with nothing in its records but what the feed supplied. -/
def feedFields (l : List EventRec) : List EventRec := (l.map (·.data)).map (newRecord 0)

theorem referenceStart_feedFields : referenceStart anchor (feedFields l) = referenceStart anchor l := by
  unfold referenceStart feedFields
  rw [List.map_map, List.findSome?_map]
  rfl

theorem limitOf_feedFields : limitOf anchor ref (feedFields l) = limitOf anchor ref l := by
  induction l with
  | nil => rfl
  | cons e rest ih =>
    show limitOf anchor ref (newRecord 0 e.data :: feedFields rest) = limitOf anchor ref (e :: rest)
    unfold limitOf
    rw [ih]
    rfl

theorem timed_feedFields (start : Option Int) : (e.timed period anchor ref l start).times =
      ((newRecord 0 e.data).timed period anchor ref (feedFields l) start).times ∧
    (e.timed period anchor ref l start).eclipsed =
      ((newRecord 0 e.data).timed period anchor ref (feedFields l) start).eclipsed := by
  unfold EventRec.timed EventRec.effEndBefore
  rw [limitOf_feedFields]
  exact ⟨rfl, rfl⟩

/-- The times and marks come out the same of a list with nothing in its records but what the feed supplied. -/
theorem resolveFrom_feedFields : (resolveFrom period anchor ref prevEnd l).1.map (fun e => (e.times, e.eclipsed)) =
    (resolveFrom period anchor ref prevEnd (feedFields l)).1.map (fun e => (e.times, e.eclipsed)) := by
  induction l generalizing prevEnd with
  | nil => rfl
  | cons e rest ih =>
    show _ = (resolveFrom period anchor ref prevEnd (newRecord 0 e.data :: feedFields rest)).1.map _
    obtain ⟨htimes, hmark⟩ := timed_feedFields (period := period) (anchor := anchor) (ref := ref) (e := e) (l := rest)
      (startBehind anchor ref prevEnd e)
    rw [resolveFrom_cons, resolveFrom_cons, List.map_cons, List.map_cons, ih, htimes, hmark]
    rfl

/-- Settles O26: the marks are those of the list cut down to its feed-supplied fields. -/
theorem resolutionReadsFeedFieldsOnly : Obligations.ResolutionReadsFeedFieldsOnly := by
  intro period anchor l
  refine ⟨resolveFrom_keeps, fun m hm => ?_⟩
  have hsame : feedFields m = feedFields l := congrArg (List.map (newRecord 0)) hm
  have href : referenceStart anchor m = referenceStart anchor l := by
    rw [← referenceStart_feedFields, hsame, referenceStart_feedFields]
  unfold resolve
  rw [resolveFrom_feedFields, href, hsame, ← resolveFrom_feedFields]

end Sys2Proof.Machine
end

section
/-! SUPPORT. The book of watch records: every channel's number with its watch record, in profile order. The shared operations of the
mirror, the takeover unit, the runner and the outlet controller leave it as it is, one lemma for each, and so does every command but
those of the watch (section 4.1). -/

namespace Sys2Proof.Machine
-- Proofs are checked one after another: in parallel they would not fit the memory that the check allows.
set_option Elab.async false

variable {s t : State} {c d : Channel} {o : OutletNo} {i : Instr}

/-- Every channel's number with its watch record. -/
def watchBook (l : List Chan) : List (Channel × WatchRec) := l.map (fun ch => (ch.part.channel, ch.watch))

/-! ## What the book tells -/

theorem sameWatches_of_book (h : watchBook t.chans = watchBook s.chans) : s.SameWatches t := by
  have e : ∀ l : List Chan, l.map (·.watch) = (watchBook l).map (·.2) := fun l => by rw [watchBook, List.map_map]; rfl
  unfold State.SameWatches
  rw [e, h, ← e]

theorem chan?_watch_book (s : State) (c : Channel) :
    (s.chan? c).map (·.watch) = ((watchBook s.chans).find? (fun x => x.1 == c)).map (·.2) := by
  unfold State.chan? watchBook
  rw [List.find?_map, Option.map_map]
  rfl

theorem chan?_watch_of_book (h : watchBook t.chans = watchBook s.chans) (c : Channel) :
    (t.chan? c).map (·.watch) = (s.chan? c).map (·.watch) := by
  rw [chan?_watch_book, h, ← chan?_watch_book]

/-! ## Operations that leave the book -/

theorem KeepsOuter.book (h : KeepsOuter s t) : watchBook t.chans = watchBook s.chans := by
  have e : ∀ l : List Chan, watchBook l = (l.map Chan.fixed).map (fun x => (x.1.channel, x.2.1)) := fun l => by
    rw [watchBook, List.map_map]; rfl
  rw [e, h.fixed, ← e]

theorem book_modChan (s : State) (c : Channel) (f : Chan → Chan)
    (hf : ∀ ch, ((f ch).part.channel, (f ch).watch) = (ch.part.channel, ch.watch) := by exact fun _ => rfl) :
    watchBook (s.modChan c f).chans = watchBook s.chans := by
  unfold watchBook State.modChan
  rw [List.map_map]
  refine List.map_congr_left fun x _ => ?_
  simp only [Function.comp]
  split
  · exact hf x
  · rfl

section Operations

variable (s c o)

@[simp] theorem book_modTk (f : TakeoverRec → TakeoverRec) : watchBook (s.modTk c f).chans = watchBook s.chans := book_modChan s c _

@[simp] theorem book_modRun (f : RunRec → RunRec) : watchBook (s.modRun c f).chans = watchBook s.chans := book_modChan s c _

@[simp] theorem book_modMirror (f : MirrorRec → MirrorRec) : watchBook (s.modMirror c f).chans = watchBook s.chans :=
  book_modChan s c _

@[simp] theorem book_setAwaitLive : watchBook (s.setAwaitLive c).chans = watchBook s.chans := book_modChan s c _

@[simp] theorem book_unlink (gone : List EventRec) : watchBook (s.unlink c gone).chans = watchBook s.chans :=
  book_modChan _ c _

@[simp] theorem book_check : watchBook (s.check c).chans = watchBook s.chans := (keeps_check (.refl s) c).outer.book

@[simp] theorem book_pass : watchBook s.pass.chans = watchBook s.chans := (keeps_pass (.refl s)).outer.book

@[simp] theorem book_leaveContending (n : TakeoverState) : watchBook (s.leaveContending c n).chans = watchBook s.chans :=
  (keeps_leaveContending (.refl s) c n).outer.book

@[simp] theorem book_armYield : watchBook (s.armYield c).chans = watchBook s.chans := (keeps_armYield (.refl s) c).outer.book

@[simp] theorem book_leaveYielded : watchBook (s.leaveYielded c).chans = watchBook s.chans :=
  (keeps_leaveYielded (.refl s) c).outer.book

@[simp] theorem book_holderGone : watchBook (s.holderGone c).chans = watchBook s.chans := (keeps_holderGone (.refl s) c).outer.book

@[simp] theorem book_timeClassChanged : watchBook s.timeClassChanged.chans = watchBook s.chans :=
  (keeps_timeClassChanged (.refl s)).outer.book

@[simp] theorem book_busLeftActive : watchBook s.busLeftActive.chans = watchBook s.chans := (keeps_busLeftActive (.refl s)).outer.book

@[simp] theorem book_assertHold : watchBook (s.assertHold c).chans = watchBook s.chans := (keeps_assertHold (.refl s) c).outer.book

@[simp] theorem book_offerFrame (f : Frame) : watchBook (s.offerFrame f).chans = watchBook s.chans :=
  (keeps_offerFrame (.refl s) f).outer.book

@[simp] theorem book_enterJoining : watchBook (s.enterJoining c).chans = watchBook s.chans := (keeps_enterJoining s c).outer.book

@[simp] theorem book_serveThrough (p : MirrorReq → Bool) (l : List MirrorReq) :
    watchBook (State.serveThrough p l s).chans = watchBook s.chans := (tends_serveThrough p l (.refl s)).outer.book

@[simp] theorem book_serveAll : watchBook s.serveAll.chans = watchBook s.chans := (tends_serveAll (.refl s)).outer.book

@[simp] theorem book_mirrorTurn : watchBook (s.mirrorTurn c).chans = watchBook s.chans := (tends_mirrorTurn (.refl s) c).outer.book

@[simp] theorem book_outletTurn : watchBook (s.outletTurn o).chans = watchBook s.chans := (tends_outletTurn (.refl s) o).outer.book

@[simp] theorem book_markStale : watchBook (s.markStale c).chans = watchBook s.chans := (keepsOuter_markStale (.refl s) c).book

@[simp] theorem book_markShort : watchBook (s.markShort c).chans = watchBook s.chans := (keepsOuter_markShort (.refl s) c).book

@[simp] theorem book_makeCurrent : watchBook (s.makeCurrent c).chans = watchBook s.chans := (keepsOuter_makeCurrent (.refl s) c).book

@[simp] theorem book_abandonFilling : watchBook (s.abandonFilling c).chans = watchBook s.chans :=
  (keepsOuter_abandonFilling (.refl s) c).book

@[simp] theorem book_afterChange : watchBook (s.afterChange c).chans = watchBook s.chans := (keeps_afterChange (.refl s) c).outer.book

@[simp] theorem book_settle : watchBook s.settle.chans = watchBook s.chans := (tends_settle (.refl s)).outer.book

@[simp] theorem book_settleOrder : watchBook (s.settleOrder o).chans = watchBook s.chans :=
  congrArg watchBook (settleOrder_keeps s o).2.2.1

@[simp] theorem book_failCmd (cmd : Cmd) (orphaned : Bool) (f : Failure) :
    watchBook (s.failCmd o cmd orphaned f).chans = watchBook s.chans := (keeps_failCmd (.refl s) o cmd orphaned f).outer.book

@[simp] theorem book_itemStarted (n : Nat) (x : Time) (u : Bool) : watchBook (s.itemStarted c n x u).chans = watchBook s.chans :=
  (tends_itemStarted (.refl s) c n x u).outer.book

@[simp] theorem book_retryStop : watchBook (s.retryStop c).chans = watchBook s.chans := (keeps_retryStop (.refl s) c).outer.book

@[simp] theorem book_makeStop : watchBook (s.makeStop c).chans = watchBook s.chans := (keeps_makeStop (.refl s) c).outer.book

@[simp] theorem book_lockItem (p : ItemPlace) (j : Bool) : watchBook (s.lockItem c p j).chans = watchBook s.chans :=
  (keeps_lockItem (.refl s) c p j).outer.book

@[simp] theorem book_settleSide (p : ItemPlace) : watchBook (s.settleSide c p).chans = watchBook s.chans :=
  (keeps_settleSide (.refl s) c p).outer.book

@[simp] theorem book_choose (x : Option Time) : watchBook (s.choose c x).chans = watchBook s.chans :=
  (keeps_choose (.refl s) c x).outer.book

@[simp] theorem book_dropCued : watchBook (s.dropCued c).chans = watchBook s.chans := (keeps_dropCued (.refl s) c).outer.book

@[simp] theorem book_resolveChan : watchBook (s.resolveChan c).chans = watchBook s.chans := (keeps_resolveChan (.refl s) c).outer.book

@[simp] theorem book_cueGo (a : Anchor) : watchBook (s.cueGo c a).chans = watchBook s.chans := (keeps_cueGo s c a).1.outer.book

@[simp] theorem book_standDown (ch : Chan) (own : Key) (x : Holder) :
    watchBook (s.standDown c ch own x).chans = watchBook s.chans := (keeps_standDown s c ch own x).outer.book

@[simp] theorem book_joinStarted : watchBook (s.joinStarted c o).chans = watchBook s.chans := (keeps_joinStarted s c o).outer.book

@[simp] theorem book_completeHandback (tk : TakeoverRec) (x : Handback) :
    watchBook (s.completeHandback c tk x o).chans = watchBook s.chans := (keeps_completeHandback s c tk x o).outer.book

@[simp] theorem book_abortJoin (tk : TakeoverRec) : watchBook (s.abortJoin c tk).chans = watchBook s.chans :=
  (keeps_abortJoin s c tk).outer.book

@[simp] theorem book_forceHandback (ch : Chan) : watchBook (s.forceHandback c ch).chans = watchBook s.chans :=
  (tends_forceHandback s c ch).outer.book

@[simp] theorem book_returnFrame (a : Attempt) : watchBook (s.returnFrame a).chans = watchBook s.chans := by
  rw [returnFrame_bus]

@[simp] theorem book_freeStopped : watchBook (s.freeStopped o).chans = watchBook s.chans := by
  unfold State.freeStopped
  simp

end Operations

end Sys2Proof.Machine
end

section
/-! SUPPORT. The commands outside the watch leave the book of watch records as it is, command by command, and which commands are the
watch's own. -/

namespace Sys2Proof.Machine
-- Proofs are checked one after another: in parallel they would not fit the memory that the check allows.
set_option Elab.async false

variable {s t : State} {c : Channel} {o : OutletNo} {i : Instr}

/-- Every next state of a command has the watch records of the state before. -/
def LeavesWatches (i : Instr) (s : State) : Prop := ∀ t, exec i s = .next t → watchBook t.chans = watchBook s.chans

theorem leaves_of (h : exec i s = .next t) (k : watchBook t.chans = watchBook s.chans) : LeavesWatches i s := by
  intro u hu
  cases h.symm.trans hu
  exact k

/-! ## Time base -/

@[simp] theorem book_enterHoldover (s : State) : watchBook s.enterHoldover.chans = watchBook s.chans := by
  simp [State.enterHoldover]

@[simp] theorem book_suspect (s : State) : watchBook s.suspect.chans = watchBook s.chans := by
  unfold State.suspect
  split
  · split <;> simp
  · rfl

@[simp] theorem book_accept (s : State) (n : Nat) : watchBook (s.accept n).chans = watchBook s.chans := by
  unfold State.accept
  dsimp only
  split <;> simp

@[simp] theorem book_countPulse (s : State) : watchBook s.countPulse.chans = watchBook s.chans := by
  unfold State.countPulse
  split
  · simp
  · split
    · rfl
    · dsimp only
      split <;> simp

theorem leaves_referencePulse (s : State) : LeavesWatches .referencePulse s :=
  leaves_of rfl (by split <;> simp)

theorem leaves_missingPulse (s : State) : LeavesWatches .missingPulse s := by
  refine leaves_of rfl ?_
  split
  · dsimp only
    split <;> simp
  · rfl

theorem leaves_referenceSilence (s : State) : LeavesWatches .referenceSilence s := by
  refine leaves_of rfl ?_
  split
  · dsimp only
    split <;> simp
  · rfl

/-! ## Feed receiver and mirror -/

@[simp] theorem book_offerSched (s : State) (m : SchedMsg) : watchBook (s.offerSched m).chans = watchBook s.chans := by
  unfold State.offerSched
  split
  · exact book_modChan _ _ _
  · simp

theorem leaves_feedIdleGap (s : State) (begun : Bool) : LeavesWatches (.feedIdleGap begun) s := by
  refine leaves_of rfl ?_
  split
  · rfl
  · split
    · simp
    · split <;> simp
    · simp

theorem leaves_feedLengthAbandon (s : State) : LeavesWatches .feedLengthAbandon s :=
  leaves_of rfl (by split <;> simp)

theorem leaves_scheduleMessage (s : State) (m : SchedMsg) : LeavesWatches (.scheduleMessage m) s := by
  refine leaves_of rfl ?_
  split
  · rfl
  · split
    · simp
    · split <;> simp

theorem leaves_driftCheck (s : State) : LeavesWatches .driftCheck s :=
  leaves_of rfl (by split <;> simp)

theorem leaves_reclaimSweep (s : State) : LeavesWatches .reclaimSweep s :=
  leaves_of rfl (by split <;> simp)

@[simp] theorem book_takeIngest (s : State) (l : List SchedMsg) : watchBook (s.takeIngest l).chans = watchBook s.chans :=
  book_serveAll s

theorem allocSlot_chans {n : Nat} (h : s.allocSlot = some (n, t)) : t.chans = s.chans := by
  obtain ⟨rest, -, rfl⟩ := allocSlot_some h
  rfl

@[simp] theorem book_applySnapOpen (s : State) (c : Channel) (v : Version) (n : Nat) :
    watchBook (s.applySnapOpen c v n).chans = watchBook s.chans := by
  unfold State.applySnapOpen
  dsimp only
  split <;> simp

@[simp] theorem book_applySnapEvent (s : State) (c : Channel) (v : Version) (n : Nat) (e : EventData) :
    watchBook (s.applySnapEvent c v n e).chans = watchBook s.chans := by
  unfold State.applySnapEvent
  split
  · rfl
  · split
    · simp
    · split
      · split
        · simp
        · rename_i ha
          exact (book_modChan _ c _).trans (congrArg watchBook (allocSlot_chans ha))
      · simp

@[simp] theorem book_applySnapClose (s : State) (c : Channel) (v : Version) (n : Nat) :
    watchBook (s.applySnapClose c v n).chans = watchBook s.chans := by
  unfold State.applySnapClose State.replaceList
  split
  · rfl
  · split
    · rw [book_afterChange, book_makeCurrent]
      exact (book_modChan _ c _).trans (book_unlink s c _)
    · simp

@[simp] theorem book_editShort (s : State) (c : Channel) (v : Version) :
    watchBook (s.editShort c v).chans = watchBook s.chans := by simp [State.editShort]

@[simp] theorem book_newList (s : State) (c : Channel) (v : Version) (l : List EventRec) :
    watchBook (s.newList c v l).chans = watchBook s.chans := by
  unfold State.newList
  rw [book_afterChange]
  exact book_modChan s c _

@[simp] theorem book_placeEdit (s : State) (c : Channel) (ch : Chan) (v : Version) (a : EventId) (e : EventData) :
    watchBook (s.placeEdit c ch v a e).chans = watchBook s.chans := by
  unfold State.placeEdit
  dsimp only
  split
  · simp
  · split
    · split
      · simp
      · split
        · simp
        · rename_i ha
          rw [book_newList, allocSlot_chans ha]
    · split
      · split
        · simp
        · rename_i ha
          rw [book_newList, book_unlink, allocSlot_chans ha]
      · simp

@[simp] theorem book_applyEditPut (s : State) (c : Channel) (b n : Version) (a : EventId) (e : EventData) :
    watchBook (s.applyEditPut c b n a e).chans = watchBook s.chans := by
  unfold State.applyEditPut
  split
  · rfl
  · split
    · rfl
    · split <;> simp

@[simp] theorem book_applyEditDrop (s : State) (c : Channel) (b n : Version) (e : EventId) :
    watchBook (s.applyEditDrop c b n e).chans = watchBook s.chans := by
  unfold State.applyEditDrop
  split
  · rfl
  · split
    · rfl
    · split <;> simp

theorem leaves_snapOpen (s : State) : LeavesWatches .snapOpen s := by
  intro t h
  replace h : execSnapOpen s = .next t := h
  unfold execSnapOpen at h
  split at h <;> cases h <;> simp

theorem leaves_snapEvent (s : State) : LeavesWatches .snapEvent s := by
  intro t h
  replace h : execSnapEvent s = .next t := h
  unfold execSnapEvent at h
  split at h <;> cases h <;> simp

theorem leaves_snapClose (s : State) : LeavesWatches .snapClose s := by
  intro t h
  replace h : execSnapClose s = .next t := h
  unfold execSnapClose at h
  split at h <;> cases h <;> simp

theorem leaves_editPut (s : State) : LeavesWatches .editPut s := by
  intro t h
  replace h : execEditPut s = .next t := h
  unfold execEditPut at h
  split at h <;> cases h <;> simp

theorem leaves_editDrop (s : State) : LeavesWatches .editDrop s := by
  intro t h
  replace h : execEditDrop s = .next t := h
  unfold execEditDrop at h
  split at h <;> cases h <;> simp

/-! ## Site bus -/

@[simp] theorem book_takeClaim (s : State) (c : Channel) (k : Key) : watchBook (s.takeClaim c k).chans = watchBook s.chans := by
  unfold State.takeClaim
  split
  · rfl
  · dsimp only
    split <;> split <;> simp

@[simp] theorem book_recordHold (s : State) (c : Channel) (ch : Chan) (x : Holder) :
    watchBook (s.recordHold c ch x).chans = watchBook s.chans := by
  have h := (keeps_modTk_if s c (fun tk => { tk with holder := some x }) (replacesHolder ch.tk.holder x.key = true)).1.outer.book
  unfold State.recordHold
  dsimp only
  split
  · rw [book_pass, book_leaveContending, h]
  · split
    · rw [book_modTk, h]
    · exact h
  · split
    · rw [book_check, h]
    · exact h

@[simp] theorem book_takeHold (s : State) (c : Channel) (k : Key) (x : HoldState) (v : Version) (e : EventId) :
    watchBook (s.takeHold c k x v e).chans = watchBook s.chans := by
  unfold State.takeHold
  split
  · rfl
  · dsimp only
    split
    · unfold State.compareHold
      split
      · simp
      · split <;> simp
    · split <;> simp

@[simp] theorem book_takeRelease (s : State) (c : Channel) (k : Key) (r : ReleaseReason) :
    watchBook (s.takeRelease c k r).chans = watchBook s.chans := by
  unfold State.takeRelease
  split
  · rfl
  · split
    · rfl
    · split
      · dsimp only
        split <;> simp
      · rfl

@[simp] theorem book_goodFrame (s : State) (f : Frame) : watchBook (s.goodFrame f).chans = watchBook s.chans := by
  unfold State.goodFrame
  split
  · simp
  · unfold State.handOn
    dsimp only
    split <;> simp

@[simp] theorem book_closeFrame (s : State) (f : Frame) : watchBook (s.closeFrame f).chans = watchBook s.chans := by
  have h : watchBook (s.frameTurn f).chans = watchBook s.chans := (tends_frameTurn s f).outer.book
  unfold State.closeFrame
  split
  · rfl
  · split <;> simp [h]

theorem leaves_busFree (s : State) : LeavesWatches .busFree s := leaves_of rfl (by split <;> simp)

theorem leaves_busHeaderMalformed (s : State) : LeavesWatches .busHeaderMalformed s := leaves_of rfl (by split <;> simp)

theorem leaves_malformedFrame (s : State) (raw : RawFrame) : LeavesWatches (.malformedFrame raw) s := by
  refine leaves_of rfl ?_
  split
  · rfl
  · split <;> simp

theorem leaves_attempt (s : State) : LeavesWatches .attempt s := by
  refine leaves_of rfl ?_
  split
  · split <;> rfl
  · rfl

theorem leaves_arbitrationLoss (s : State) : LeavesWatches .arbitrationLoss s := leaves_of rfl (by split <;> simp)

@[simp] theorem book_enterQuiet (s : State) : watchBook s.enterQuiet.chans = watchBook s.chans := by
  unfold State.enterQuiet
  dsimp only
  split <;> simp

theorem leaves_bitFault (s : State) : LeavesWatches .bitFault s := by
  refine leaves_of rfl ?_
  split
  · rfl
  · dsimp only
    split <;> simp

@[simp] theorem book_claimSentReport (s : State) (c : Channel) (m : Byte) :
    watchBook (s.claimSentReport c m).chans = watchBook s.chans := by
  unfold State.claimSentReport
  split
  · rfl
  · split <;> simp

theorem leaves_sentWhole (s : State) : LeavesWatches .sentWhole s := by
  refine leaves_of rfl ?_
  split
  · rfl
  · dsimp only
    split <;> simp

@[simp] theorem book_offerStatus (s : State) : watchBook s.offerStatus.chans = watchBook s.chans := book_offerFrame s _

@[simp] theorem book_freshStatus (s : State) : watchBook s.freshStatus.chans = watchBook s.chans := book_offerStatus s

theorem leaves_quietDeadline (s : State) : LeavesWatches .quietDeadline s := by
  refine leaves_of rfl ?_
  split
  · dsimp only
    split <;> simp
  · rfl

theorem leaves_listeningInDeadline (s : State) : LeavesWatches .listeningInDeadline s := by
  refine leaves_of rfl ?_
  split
  · dsimp only
    split <;> simp
  · rfl

theorem leaves_statusDeadline (s : State) : LeavesWatches .statusDeadline s := by
  refine leaves_of rfl ?_
  split
  · dsimp only
    split <;> simp
  · rfl

theorem leaves_peerSilenceDeadline (s : State) (st : Station) : LeavesWatches (.peerSilenceDeadline st) s :=
  leaves_of rfl (by split <;> simp)

/-! ## Takeover -/

theorem leaves_foreignClaimExpiry (s : State) (c : Channel) : LeavesWatches (.foreignClaimExpiry c) s := by
  refine leaves_of rfl ?_
  split
  · rfl
  · split <;> simp

theorem leaves_holderDeadline (s : State) (c : Channel) : LeavesWatches (.holderDeadline c) s := by
  refine leaves_of rfl ?_
  split
  · rfl
  · split <;> simp

theorem leaves_yieldDeadline (s : State) (c : Channel) : LeavesWatches (.yieldDeadline c) s := by
  refine leaves_of rfl ?_
  split
  · rfl
  · split <;> simp

theorem leaves_holdDeadline (s : State) (c : Channel) : LeavesWatches (.holdDeadline c) s := by
  refine leaves_of rfl ?_
  split
  · rfl
  · split <;> simp

theorem leaves_claimWindowEnd (s : State) (c : Channel) : LeavesWatches (.claimWindowEnd c) s := by
  refine leaves_of rfl ?_
  split
  · dsimp only
    split <;> simp
  · rfl

/-! ## Handback and runner -/

theorem leaves_stopPoint (s : State) (c : Channel) : LeavesWatches (.stopPoint c) s := by
  refine leaves_of rfl ?_
  split
  · rfl
  · split
    · rfl
    · split
      · dsimp only
        split <;> simp
      · rfl

theorem leaves_switchDeadline (s : State) (c : Channel) : LeavesWatches (.switchDeadline c) s := by
  refine leaves_of rfl ?_
  split
  · rfl
  · split
    · split <;> simp
    · rfl

theorem leaves_cueMoment (s : State) (c : Channel) : LeavesWatches (.cueMoment c) s := by
  refine leaves_of rfl ?_
  split
  · rfl
  · split
    · rfl
    · split <;> simp

theorem leaves_sideCueTime (s : State) (c : Channel) : LeavesWatches (.sideCueTime c) s := by
  refine leaves_of rfl ?_
  split
  · rfl
  · split
    · rfl
    · split <;> simp

@[simp] theorem book_setAnchor (s : State) (c : Channel) (a : Anchor) : watchBook (s.setAnchor c a).chans = watchBook s.chans := by
  unfold State.setAnchor State.setHold
  simp

@[simp] theorem book_giveGo (s : State) (c : Channel) (ch : Chan) (r : RunRec) (id : EventId) :
    watchBook (s.giveGo c ch r id).chans = watchBook s.chans := by
  unfold State.giveGo State.markGo
  dsimp only
  split <;> split <;> simp

/-! ## Cue port -/

theorem leaves_commandSend (s : State) (ready : Bool) : LeavesWatches (.commandSend ready) s := by
  refine leaves_of rfl ?_
  split
  · split
    · rfl
    · split <;> rfl
  · rfl

@[simp] theorem book_complete (s : State) (o : OutletNo) : watchBook (s.complete o).chans = watchBook s.chans := by
  simp [State.complete]

@[simp] theorem book_awaitStart (s : State) (o : OutletNo) (tag : Nat) (p : Prep) :
    watchBook (s.awaitStart o tag p).chans = watchBook s.chans := by
  have h : watchBook (s.makeRoom o).chans = watchBook s.chans := by
    unfold State.makeRoom
    split
    · split <;> simp
    · rfl
  unfold State.awaitStart
  dsimp only
  split <;> simp [h]

@[simp] theorem book_takenCmd (s : State) (o : OutletNo) (x : Outstanding) : watchBook (s.takenCmd o x).chans = watchBook s.chans := by
  have stop : watchBook ((s.complete o).stopTaken o).chans = watchBook s.chans := by
    unfold State.stopTaken
    dsimp only
    split <;> simp
  unfold State.takenCmd
  dsimp only
  split
  · simp
  · split
    · simp
    · simp
    · split
      · exact stop
      · simp

@[simp] theorem book_takeTaken (s : State) (tag : Byte) : watchBook (s.takeTaken tag).chans = watchBook s.chans := by
  unfold State.takeTaken
  split
  · rfl
  · split <;> simp

@[simp] theorem book_failTurn (s : State) (o : OutletNo) (cmd : Cmd) (b : Bool) :
    watchBook (s.failTurn o cmd b).chans = watchBook s.chans := (failTurn_served s o cmd b).1.tends.outer.book

@[simp] theorem book_failOutstanding (s : State) (o : OutletNo) (x : Outstanding) (f : Failure) :
    watchBook (s.failOutstanding o x f).chans = watchBook s.chans := by simp [State.failOutstanding]

@[simp] theorem book_takeRefused (s : State) (tag : Byte) (r : RefusedReason) :
    watchBook (s.takeRefused tag r).chans = watchBook s.chans := by
  unfold State.takeRefused
  split
  · rfl
  · split <;> simp

@[simp] theorem book_startedPrep (s : State) (o : OutletNo) (p : Prep) (x : Time) :
    watchBook (s.startedPrep o p x).chans = watchBook s.chans := by
  unfold State.startedPrep
  split
  · rfl
  · dsimp only
    split <;> simp

@[simp] theorem book_takeStarted (s : State) (tag : Byte) (x : Time) : watchBook (s.takeStarted tag x).chans = watchBook s.chans := by
  have turn : ∀ o, watchBook (s.startTurn o tag).chans = watchBook s.chans := fun o => by
    unfold State.startTurn
    split <;> simp
  have first : ∀ o, watchBook ((s.startTurn o tag).takenFirst o tag).chans = watchBook s.chans := fun o => by
    unfold State.takenFirst
    split
    · exact turn o
    · split <;> simp [turn]
  unfold State.takeStarted
  split
  · rfl
  · dsimp only
    split <;> simp [first]

theorem leaves_taken (s : State) (tag : Byte) : LeavesWatches (.taken tag) s := leaves_of rfl (by split <;> simp)

theorem leaves_refused (s : State) (tag : Byte) (r : RefusedReason) : LeavesWatches (.refused tag r) s :=
  leaves_of rfl (by split <;> simp)

theorem leaves_started (s : State) (tag outlet : Byte) (x : Time) : LeavesWatches (.started tag outlet x) s := by
  refine leaves_of rfl ?_
  split
  · dsimp only
    split <;> simp
  · rfl

theorem leaves_cueMessageDiscard (s : State) (kind tag : Byte) (body : List Byte) (check : BitVec 16) :
    LeavesWatches (.cueMessageDiscard kind tag body check) s := by
  refine leaves_of rfl ?_
  split
  · unfold State.judgeServer
    split
    · rfl
    · dsimp only
      split <;> simp
  · rfl

theorem leaves_cueIdleGap (s : State) (begun : Bool) : LeavesWatches (.cueIdleGap begun) s := by
  refine leaves_of rfl ?_
  split
  · rfl
  · split
    · rfl
    · split <;> rfl
    · rfl

theorem leaves_cueLengthAbandon (s : State) : LeavesWatches .cueLengthAbandon s := leaves_of rfl (by split <;> rfl)

theorem leaves_queuedCommandMissed (s : State) (o : OutletNo) : LeavesWatches (.queuedCommandMissed o) s :=
  leaves_of rfl (by split <;> simp)

theorem leaves_replyDeadline (s : State) (o : OutletNo) : LeavesWatches (.replyDeadline o) s := by
  refine leaves_of rfl ?_
  split
  · rfl
  · split <;> simp

theorem leaves_startDeadline (s : State) (o : OutletNo) : LeavesWatches (.startDeadline o) s :=
  leaves_of rfl (by split <;> simp)

theorem leaves_armedStopTime (s : State) (o : OutletNo) : LeavesWatches (.armedStopTime o) s :=
  leaves_of rfl (by split <;> simp)

/-! ## Local port -/

theorem book_bare {f : State} (params : List Byte) (h : watchBook f.chans = watchBook s.chans) :
    watchBook (s.bare params f).chans = watchBook s.chans := by
  unfold State.bare
  split
  · exact h
  · rfl

theorem book_running {f : State} (h : watchBook f.chans = watchBook s.chans) : watchBook (s.running f).chans = watchBook s.chans := by
  unfold State.running
  split
  · exact h
  · rfl

theorem book_onChannel {f : Chan → State} (c : Byte) (h : ∀ ch, watchBook (f ch).chans = watchBook s.chans) :
    watchBook (s.onChannel c f).chans = watchBook s.chans := by
  unfold State.onChannel
  refine book_running ?_
  split
  · rfl
  · exact h _

theorem book_byChannel {f : Chan → State} (params : List Byte) (h : ∀ ch, watchBook (f ch).chans = watchBook s.chans) :
    watchBook (s.byChannel params f).chans = watchBook s.chans := by
  unfold State.byChannel
  split
  · exact book_onChannel _ h
  · rfl

@[simp] theorem book_loadStation (s : State) (params : List Byte) : watchBook (s.loadStation params).chans = watchBook s.chans := by
  unfold State.loadStation
  split
  · rfl
  · split
    · rfl
    · split
      · rfl
      · split
        · rfl
        · dsimp only
          split <;> rfl

theorem book_readNotice (s : State) (params : List Byte) : watchBook (s.readNotice params).chans = watchBook s.chans :=
  book_bare params rfl

theorem book_clearNotice (s : State) (params : List Byte) : watchBook (s.clearNotice params).chans = watchBook s.chans := by
  unfold State.clearNotice
  split
  · split <;> rfl
  · rfl

theorem book_setFloor (s : State) (params : List Byte) : watchBook (s.setFloor params).chans = watchBook s.chans := by
  unfold State.setFloor
  split
  · split <;> rfl
  · rfl

theorem book_readEvent (s : State) (params : List Byte) : watchBook (s.readEvent params).chans = watchBook s.chans := by
  unfold State.readEvent
  split
  · split
    · rfl
    · exact book_onChannel _ fun _ => rfl
  · rfl

theorem book_readPeers (s : State) (params : List Byte) : watchBook (s.readPeers params).chans = watchBook s.chans := by
  unfold State.readPeers
  split
  · split <;> rfl
  · rfl

theorem book_readTime (s : State) (params : List Byte) : watchBook (s.readTime params).chans = watchBook s.chans :=
  book_bare params rfl

theorem book_readOutlets (s : State) (params : List Byte) : watchBook (s.readOutlets params).chans = watchBook s.chans :=
  book_bare params rfl

theorem book_readCounts (s : State) (params : List Byte) : watchBook (s.readCounts params).chans = watchBook s.chans :=
  book_bare params rfl

theorem book_takeAsRun (s : State) (params : List Byte) : watchBook (s.takeAsRun params).chans = watchBook s.chans :=
  book_bare params rfl

@[simp] theorem book_inhibit (s : State) (c : Channel) (ch : Chan) : watchBook (s.inhibit c ch).chans = watchBook s.chans := by
  unfold State.inhibit
  dsimp only
  split <;> simp

@[simp] theorem book_allow (s : State) (c : Channel) : watchBook (s.allow c).chans = watchBook s.chans := by simp [State.allow]

@[simp] theorem book_release (s : State) (c : Channel) (ch : Chan) : watchBook (s.release c ch).chans = watchBook s.chans := by
  unfold State.release
  split <;> simp

@[simp] theorem book_goCmd (s : State) (c : Channel) (ch : Chan) : watchBook (s.goCmd c ch).chans = watchBook s.chans := by
  unfold State.goCmd
  split
  · rfl
  · split <;> simp

theorem book_clearOutlet (s : State) (params : List Byte) : watchBook (s.clearOutlet params).chans = watchBook s.chans := by
  unfold State.clearOutlet
  split
  · split
    · refine book_running ?_
      split <;> simp
    · rfl
  · rfl

theorem book_busRestart (s : State) (params : List Byte) : watchBook (s.busRestart params).chans = watchBook s.chans := by
  refine book_bare params (book_running ?_)
  unfold State.restartBus State.enterListening
  dsimp only
  split <;> simp

/-- A command by its code leaves the watch records, unless it is ADD_CHANNEL, START, READ_CHANNEL, FORCE_LOST or UNFORCE. -/
theorem book_byCode (s : State) (code : Nat) (params : List Byte) (h : code ∉ [2, 3, 7, 15, 16]) :
    watchBook (s.byCode code params).chans = watchBook s.chans := by
  unfold State.byCode
  split
  · simp
  · exact absurd (by simp) h
  · exact absurd (by simp) h
  · exact book_readNotice s params
  · exact book_clearNotice s params
  · exact book_setFloor s params
  · exact absurd (by simp) h
  · exact book_readEvent s params
  · exact book_readPeers s params
  · exact book_readTime s params
  · exact book_readOutlets s params
  · exact book_readCounts s params
  · exact book_takeAsRun s params
  · exact book_clearOutlet s params
  · exact absurd (by simp) h
  · exact absurd (by simp) h
  · exact book_byChannel params fun ch => by simp
  · exact book_byChannel params fun ch => by simp
  · exact book_byChannel params fun ch => by simp
  · exact book_byChannel params fun ch => by simp
  · exact book_busRestart s params
  · rfl

end Sys2Proof.Machine
end

section
/-! SUPPORT. Which commands write watch records: the look at every command, and the statement that no other does (04_channel_watch.md). -/

namespace Sys2Proof.Machine
-- Proofs are checked one after another: in parallel they would not fit the memory that the check allows.
set_option Elab.async false

variable {s t : State} {c : Channel} {i : Instr}

/-- The commands that may write a watch record: those of the watch, READ_CHANNEL with its clear flag, the commands that make the
records, and the whole frames that act as one of these (R16, R17, R182). -/
inductive WatchCommand : Instr → Prop
  | beacon (b : BeaconMsg) : WatchCommand (.beacon b)
  | beaconBytes (k : Byte) (body : List Byte) (b : BeaconMsg) (hp : parseFeed k.toNat b.channel body = some (.beacon b)) :
    WatchCommand (.feedMessageDiscard k b.channel body (messageCheck k b.channel body))
  | doubtfulDeadline (c : Channel) : WatchCommand (.doubtfulDeadline c)
  | lostDeadline (c : Channel) : WatchCommand (.lostDeadline c)
  | returnDeadline (c : Channel) : WatchCommand (.returnDeadline c)
  | windowEnd (c : Channel) : WatchCommand (.windowEnd c)
  | forceLost (p : List Byte) : WatchCommand (.forceLost p)
  | unforce (p : List Byte) : WatchCommand (.unforce p)
  | readChannel (p : List Byte) : WatchCommand (.readChannel p)
  | addChannel (p : List Byte) : WatchCommand (.addChannel p)
  | start (p : List Byte) : WatchCommand (.start p)
  | byCode (code : Byte) (p : List Byte) (h : code ∈ [(2 : Byte), 3, 7, 15, 16]) :
    WatchCommand (.unknownCommand code p (commandCheck code p))
  | pinReset : WatchCommand .pinReset

/-- A beacon read from the bytes of a message is for the channel that the message names (section 2.2). -/
theorem channel_of_parseFeed {k : Nat} {body : List Byte} {b : BeaconMsg} (h : parseFeed k c body = some (.beacon b)) :
    b.channel = c := by
  unfold parseFeed at h
  split at h
  · obtain ⟨m, hm, hb⟩ := Option.map_eq_some_iff.1 h
    cases hb
    unfold parseBeacon at hm
    simp only [Option.bind_eq_bind, Option.bind_eq_some_iff] at hm
    obtain ⟨_, _, _, _, _, _, _, _, hm⟩ := hm
    split at hm
    · split at hm <;> cases hm
      rfl
    · split at hm <;> cases hm
      rfl
    · obtain ⟨_, _, hm⟩ := Option.bind_eq_some_iff.1 hm
      split at hm <;> cases hm
      rfl
    · cases hm
  all_goals simp at h

theorem leaves_feedMessageDiscard_or (s : State) (k channel : Byte) (body : List Byte) (check : BitVec 16) :
    LeavesWatches (.feedMessageDiscard k channel body check) s ∨ WatchCommand (.feedMessageDiscard k channel body check) := by
  by_cases hb : check = messageCheck k channel body ∧ ∃ b, parseFeed k.toNat channel body = some (.beacon b)
  · obtain ⟨rfl, b, hp⟩ := hb
    obtain rfl := channel_of_parseFeed hp
    exact Or.inr (.beaconBytes k body b hp)
  · refine Or.inl (leaves_of rfl ?_)
    split
    · unfold State.judgeFeed
      split
      · simp
      · rename_i hc
        split
        · simp
        · split
          · simp
          · rename_i b hp
            exact absurd ⟨not_not.1 (not_or.1 hc).2, b, hp⟩ hb
          · simp
    · rfl

theorem leaves_unknownCommand_or (s : State) (code : Byte) (params : List Byte) (check : BitVec 16) :
    LeavesWatches (.unknownCommand code params check) s ∨ WatchCommand (.unknownCommand code params check) := by
  by_cases hb : check = commandCheck code params ∧ code ∈ [(2 : Byte), 3, 7, 15, 16]
  · obtain ⟨rfl, hm⟩ := hb
    exact Or.inr (.byCode code params hm)
  · refine Or.inl (leaves_of rfl ?_)
    split
    · simp
    · split
      · simp
      · split
        · simp
        · rename_i hc
          refine book_byCode s _ params fun hm => hb ⟨not_not.1 hc, ?_⟩
          simp only [List.mem_cons, List.not_mem_nil, or_false, ← BitVec.toNat_inj] at hm ⊢
          exact hm

/-- Every command leaves the watch records as they are or is one that may write them. -/
theorem leaves_or (i : Instr) (s : State) : LeavesWatches i s ∨ WatchCommand i := by
  cases i with
  | pinReset => exact Or.inr .pinReset
  | clockCycle => exact Or.inl (leaves_of rfl rfl)
  | referencePulse => exact Or.inl (leaves_referencePulse s)
  | missingPulse => exact Or.inl (leaves_missingPulse s)
  | referenceSilence => exact Or.inl (leaves_referenceSilence s)
  | feedIdleGap begun => exact Or.inl (leaves_feedIdleGap s begun)
  | feedLengthAbandon => exact Or.inl (leaves_feedLengthAbandon s)
  | feedMessageDiscard k channel body check => exact leaves_feedMessageDiscard_or s k channel body check
  | beacon b => exact Or.inr (.beacon b)
  | driftCheck => exact Or.inl (leaves_driftCheck s)
  | reclaimSweep => exact Or.inl (leaves_reclaimSweep s)
  | scheduleMessage m => exact Or.inl (leaves_scheduleMessage s m)
  | snapOpen => exact Or.inl (leaves_snapOpen s)
  | snapEvent => exact Or.inl (leaves_snapEvent s)
  | snapClose => exact Or.inl (leaves_snapClose s)
  | editPut => exact Or.inl (leaves_editPut s)
  | editDrop => exact Or.inl (leaves_editDrop s)
  | doubtfulDeadline c => exact Or.inr (.doubtfulDeadline c)
  | lostDeadline c => exact Or.inr (.lostDeadline c)
  | returnDeadline c => exact Or.inr (.returnDeadline c)
  | windowEnd c => exact Or.inr (.windowEnd c)
  | busHeaderMalformed => exact Or.inl (leaves_busHeaderMalformed s)
  | malformedFrame raw => exact Or.inl (leaves_malformedFrame s raw)
  | clashFrame f => exact Or.inl (leaves_of rfl (book_closeFrame s _))
  | claimFrame merit st c => exact Or.inl (leaves_of rfl (book_closeFrame s _))
  | holdFrame merit st c x v e => exact Or.inl (leaves_of rfl (book_closeFrame s _))
  | releaseFrame merit st c r => exact Or.inl (leaves_of rfl (book_closeFrame s _))
  | statusFrame st b => exact Or.inl (leaves_of rfl (book_closeFrame s _))
  | attempt => exact Or.inl (leaves_attempt s)
  | arbitrationLoss => exact Or.inl (leaves_arbitrationLoss s)
  | bitFault => exact Or.inl (leaves_bitFault s)
  | sentWhole => exact Or.inl (leaves_sentWhole s)
  | quietDeadline => exact Or.inl (leaves_quietDeadline s)
  | listeningInDeadline => exact Or.inl (leaves_listeningInDeadline s)
  | statusDeadline => exact Or.inl (leaves_statusDeadline s)
  | peerSilenceDeadline st => exact Or.inl (leaves_peerSilenceDeadline s st)
  | foreignClaimExpiry c => exact Or.inl (leaves_foreignClaimExpiry s c)
  | holderDeadline c => exact Or.inl (leaves_holderDeadline s c)
  | yieldDeadline c => exact Or.inl (leaves_yieldDeadline s c)
  | claimWindowEnd c => exact Or.inl (leaves_claimWindowEnd s c)
  | holdDeadline c => exact Or.inl (leaves_holdDeadline s c)
  | cueMoment c => exact Or.inl (leaves_cueMoment s c)
  | sideCueTime c => exact Or.inl (leaves_sideCueTime s c)
  | commandSend ready => exact Or.inl (leaves_commandSend s ready)
  | queuedCommandMissed o => exact Or.inl (leaves_queuedCommandMissed s o)
  | replyDeadline o => exact Or.inl (leaves_replyDeadline s o)
  | startDeadline o => exact Or.inl (leaves_startDeadline s o)
  | armedStopTime o => exact Or.inl (leaves_armedStopTime s o)
  | cueIdleGap begun => exact Or.inl (leaves_cueIdleGap s begun)
  | cueLengthAbandon => exact Or.inl (leaves_cueLengthAbandon s)
  | cueMessageDiscard kind tag body check => exact Or.inl (leaves_cueMessageDiscard s kind tag body check)
  | taken tag => exact Or.inl (leaves_taken s tag)
  | refused tag r => exact Or.inl (leaves_refused s tag r)
  | started tag outlet x => exact Or.inl (leaves_started s tag outlet x)
  | stopPoint c => exact Or.inl (leaves_stopPoint s c)
  | switchDeadline c => exact Or.inl (leaves_switchDeadline s c)
  | replyFetch => exact Or.inl (leaves_of rfl rfl)
  | truncatedCommand => exact Or.inl (leaves_of rfl rfl)
  | overlongCommand => exact Or.inl (leaves_of rfl rfl)
  | unknownCommand code params check => exact leaves_unknownCommand_or s code params check
  | loadStation p => exact Or.inl (leaves_of rfl (book_loadStation s p))
  | addChannel p => exact Or.inr (.addChannel p)
  | start p => exact Or.inr (.start p)
  | readNotice p => exact Or.inl (leaves_of rfl (book_readNotice s p))
  | clearNotice p => exact Or.inl (leaves_of rfl (book_clearNotice s p))
  | setFloor p => exact Or.inl (leaves_of rfl (book_setFloor s p))
  | readChannel p => exact Or.inr (.readChannel p)
  | readEvent p => exact Or.inl (leaves_of rfl (book_readEvent s p))
  | readPeers p => exact Or.inl (leaves_of rfl (book_readPeers s p))
  | readTime p => exact Or.inl (leaves_of rfl (book_readTime s p))
  | readOutlets p => exact Or.inl (leaves_of rfl (book_readOutlets s p))
  | readCounts p => exact Or.inl (leaves_of rfl (book_readCounts s p))
  | takeAsrun p => exact Or.inl (leaves_of rfl (book_takeAsRun s p))
  | forceLost p => exact Or.inr (.forceLost p)
  | unforce p => exact Or.inr (.unforce p)
  | inhibit p => exact Or.inl (leaves_of rfl (book_byChannel p fun ch => by simp))
  | allow p => exact Or.inl (leaves_of rfl (book_byChannel p fun ch => by simp))
  | release p => exact Or.inl (leaves_of rfl (book_byChannel p fun ch => by simp))
  | go p => exact Or.inl (leaves_of rfl (book_byChannel p fun ch => by simp))
  | clearOutlet p => exact Or.inl (leaves_of rfl (book_clearOutlet s p))
  | busRestart p => exact Or.inl (leaves_of rfl (book_busRestart s p))
  | busFree => exact Or.inl (leaves_busFree s)

/-- Settles O9: `leaves_or` looks at every command, and the statement names those that it sets apart. -/
theorem watchChangesOnlyByItsCommands : Obligations.WatchChangesOnlyByItsCommands := by
  intro i s t ht
  rcases leaves_or i s with h | h
  · exact Or.inl (sameWatches_of_book (h t ht))
  · refine Or.inr ?_
    cases h with
    | beacon b => exact Or.inl ⟨b, rfl⟩
    | beaconBytes k body b hp => exact Or.inr (Or.inl ⟨k, _, body, b, rfl, hp, rfl⟩)
    | byCode code p hm => exact Or.inr (Or.inr (Or.inr (Or.inr (Or.inl ⟨code, p, rfl, hm⟩))))
    | _ => simp

end Sys2Proof.Machine
end

section
/-! SUPPORT. Entries of a watch to LOST: what giving a record a state tells of them, the commands of the watch one by one, and the
statement that each entry is notified with its cause (R75, R186). -/

namespace Sys2Proof.Machine
-- Proofs are checked one after another: in parallel they would not fit the memory that the check allows.
set_option Elab.async false

variable {s t u v : State} {c d : Channel} {ch a b : Chan} {i : Instr}

/-- Between `s` and `t` the watch of channel `d`, whose record was `a` and is `b`, has entered LOST. -/
structure EntersLost (s t : State) (d : Channel) (a b : Chan) : Prop where
  before : s.chan? d = some a
  after : t.chan? d = some b
  was : a.watch.state ≠ .lost
  now : b.watch.state = .lost

/-- The states of the watches tell whether one has entered LOST. -/
theorem EntersLost.moved (h : EntersLost s t d a b) :
    (t.chan? d).map (·.watch.state) ≠ (s.chan? d).map (·.watch.state) := by
  rw [h.before, h.after]
  exact fun e => h.was ((Option.some.inj e).symm.trans h.now)

/-- Where the watch records stay no watch enters LOST. -/
theorem EntersLost.not_of_book (h : watchBook t.chans = watchBook s.chans) : ¬ EntersLost s t d a b := fun e => by
  have := congrArg (Option.map (·.state)) (chan?_watch_of_book h d)
  rw [Option.map_map, Option.map_map] at this
  exact e.moved this

/-- A change of watch records that keeps their states takes none to LOST. -/
theorem EntersLost.not_modWatch {f : WatchRec → WatchRec} (h : EntersLost s (s.modWatch c f) d a b)
    (hf : ∀ w, (f w).state = w.state := by exact fun _ => rfl) : False := h.moved <| by
  by_cases hd : d = c
  · rw [hd, modWatch_chan?, Option.map_map]
    exact congrArg (fun g => Option.map g (s.chan? c)) (funext fun x => hf x.watch)
  · unfold State.modWatch
    rw [chan?_modChan_ne (by intro _; rfl) hd]

/-- A watch state that is told stands in the record with what was changed before, and its entry to LOST has raised CHANNEL_LOST,
whatever the report and what follows it do beside (R75). -/
theorem watches_of_setWatch {f : WatchRec → WatchRec} {new : WatchState} {cause : LostCause} (hc : s.chan? c = some ch)
    (hv : Tends ((s.modWatch c f).setWatch c new cause) v) :
    s.Watches v c { f ch.watch with state := new } ∧ (new = .lost → (f ch.watch).state ≠ .lost → s.LostNoticed v c cause) := by
  rcases setWatch_watches hc f new cause with ⟨u, hu, hk, -, hn⟩ | ⟨he, hw⟩
  · refine ⟨watches_of_tends hc hu (hk.trans hv), fun hl hne => ?_⟩
    show v.notices[3] = _
    rw [(hk.trans hv).lostNotice]
    exact hn hl hne
  · rw [he] at hv
    refine ⟨?_, fun hl hne => absurd (hw.trans hl) hne⟩
    rw [← hw]
    exact watches_of_tends hc (Or.inl rfl) hv

/-- A channel that is told a watch state is the only one that can enter LOST, where that state is LOST, and then CHANNEL_LOST is
raised for it with the cause told (R75). -/
theorem EntersLost.of_setWatch {f : WatchRec → WatchRec} {new : WatchState} {cause : LostCause} (h : EntersLost s v d a b)
    (hc : s.chan? c = some ch) (hv : Tends ((s.modWatch c f).setWatch c new cause) v)
    (hf : ∀ w, (f w).state = w.state := by exact fun _ => rfl) : d = c ∧ new = .lost ∧ s.LostNoticed v c cause := by
  obtain ⟨⟨hw, hother, -, -⟩, hn⟩ := watches_of_setWatch hc hv
  by_cases hd : d = c
  · subst hd
    cases hc.symm.trans h.before
    rw [h.after] at hw
    have hl : new = .lost := (congrArg (·.state) (Option.some.inj hw)).symm.trans h.now
    exact ⟨rfl, hl, hn hl (by rw [hf]; exact h.was)⟩
  · have := congrArg (Option.map (·.state)) (hother d hd)
    rw [Option.map_map, Option.map_map] at this
    exact absurd this h.moved

/-! ## The deadlines and windows -/

/-- A state told by the watch and then settled. -/
theorem EntersLost.of_setWatch_settle {f : WatchRec → WatchRec} {new : WatchState} {cause : LostCause}
    (h : EntersLost s ((s.modWatch c f).setWatch c new cause).settle d a b) (hc : s.chan? c = some ch)
    (hf : ∀ w, (f w).state = w.state := by exact fun _ => rfl) :
    d = c ∧ new = .lost ∧ s.LostNoticed ((s.modWatch c f).setWatch c new cause).settle c cause :=
  h.of_setWatch hc (tends_settle (.refl _)) hf

theorem EntersLost.not_self : ¬ EntersLost s s d a b := not_of_book rfl

theorem EntersLost.not_doubtfulDeadline (ht : exec (.doubtfulDeadline c) s = .next t) : ¬ EntersLost s t d a b := by
  intro h
  obtain rfl := Host.Outcome.next.inj ht
  revert h
  split
  · exact not_self
  · rename_i ch hc
    split
    · dsimp only
      split
      · intro h
        obtain ⟨-, hn, -⟩ := h.of_setWatch_settle hc
        cases hn
      · exact fun h => h.not_modWatch
    · exact not_self

theorem EntersLost.of_lostDeadline (ht : exec (.lostDeadline c) s = .next t) (h : EntersLost s t d a b) :
    d = c ∧ s.LostNoticed t c .silence := by
  obtain rfl := Host.Outcome.next.inj ht
  revert h
  split
  · exact fun h => absurd h not_self
  · rename_i ch hc
    split
    · dsimp only
      split
      · intro h
        obtain ⟨hd, -, hn⟩ := h.of_setWatch_settle hc
        exact ⟨hd, hn⟩
      · exact fun h => h.not_modWatch.elim
    · exact fun h => absurd h not_self

theorem EntersLost.of_returnDeadline (ht : exec (.returnDeadline c) s = .next t) (h : EntersLost s t d a b) :
    d = c ∧ s.LostNoticed t c .returnBroken := by
  obtain rfl := Host.Outcome.next.inj ht
  revert h
  split
  · exact fun h => absurd h not_self
  · rename_i ch hc
    split
    · dsimp only
      split
      · rw [modWatch_modWatch]
        intro h
        obtain ⟨hd, -, hn⟩ := h.of_setWatch_settle hc
        exact ⟨hd, hn⟩
      · exact fun h => h.not_modWatch.elim
    · exact fun h => absurd h not_self

/-- A window's verdict is LOST in LOST alone (R72). -/
theorem windowVerdict_lost {w : WatchRec} {met : Bool} (h : windowVerdict w met = .lost) : w.state = .lost := by
  unfold windowVerdict at h
  split at h
  · split at h <;> cases h
  · split at h <;> cases h
  · exact h

theorem EntersLost.not_windowEnd (ht : exec (.windowEnd c) s = .next t) : ¬ EntersLost s t d a b := by
  intro h
  obtain rfl := Host.Outcome.next.inj ht
  revert h
  split
  · exact not_self
  · rename_i ch hc
    split
    · exact not_self
    · split
      · intro h
        obtain ⟨rfl, hn, -⟩ := h.of_setWatch_settle hc
        cases hc.symm.trans h.before
        exact h.was (windowVerdict_lost hn)
      · exact not_self

/-! ## Beacons -/

/-- A beacon gives LOST in LOST, with the forced mark, and with STANDING_DOWN alone, and names the cause of the last two (R66, R73). -/
theorem beaconEffect_lost {w : WatchRec} {n : Nat} {down : Bool} (h : (beaconEffect w n down).state = .lost) :
    (w.forced = true → (beaconEffect w n down).cause = .forced) ∧
      (w.forced = false → down = true ∧ (beaconEffect w n down).cause = .standingDown) := by
  cases hf : w.forced with
  | true => exact ⟨fun _ => by simp [beaconEffect, hf], nofun⟩
  | false =>
    refine ⟨nofun, fun _ => ?_⟩
    cases down with
    | true => exact ⟨rfl, by simp [beaconEffect, hf]⟩
    | false =>
      simp only [beaconEffect, hf, Bool.false_eq_true, if_false] at h
      split at h
      · cases h
      · cases h
      · dsimp only at h
        split at h <;> cases h
      · split at h <;> cases h
      · split at h <;> cases h

theorem isStandingDown_iff {m : MainState} : isStandingDown m = true ↔ m = .standingDown := by cases m <;> simp [isStandingDown]

/-- What a beacon gives a record before its state is told (R56 to R60, R67, R71). -/
def State.beaconed (s : State) (ch : Chan) (m : BeaconMsg) : WatchRec → WatchRec := fun w =>
  beaconRecord w ch s.sp s.now m (beaconEffect ch.watch ch.part.returnCount (isStandingDown m.main))

/-- The watch record after a beacon, reported, before the beacon is handed on (R56, R75). -/
def State.beaconTold (s : State) (ch : Chan) (m : BeaconMsg) : State :=
  let eff := beaconEffect ch.watch ch.part.returnCount (isStandingDown m.main)
  (s.modWatch m.channel (s.beaconed ch m)).setWatch m.channel eff.state eff.cause

/-- A beacon tells its state, asks the mirror for a drift check and a sweep, and hands the main state on (R26, R38, R56, R171). -/
theorem takeBeacon_eq {m : BeaconMsg} (hc : s.chan? m.channel = some ch) : s.takeBeacon m =
    (State.takeOffer { s.beaconTold ch m with
      mirrorReqs := (s.beaconTold ch m).mirrorReqs ++ [.drift m.channel m.version m.onAir, .sweep m.channel] }
      m.channel m.main).settle := by
  unfold State.takeBeacon
  rw [hc]
  rfl

theorem takeBeacon_tends {m : BeaconMsg} (hc : s.chan? m.channel = some ch) : Tends (s.beaconTold ch m) (s.takeBeacon m) := by
  rw [takeBeacon_eq hc]
  exact tends_settle (tends_takeOffer (tends_reqs (.refl _) _) _ _)

theorem EntersLost.of_takeBeacon {m : BeaconMsg} (h : EntersLost s (s.takeBeacon m) d a b) :
    d = m.channel ∧ ∃ cause, s.LostNoticed (s.takeBeacon m) d cause ∧ (a.watch.forced = true → cause = .forced) ∧
      (a.watch.forced = false → m.main = .standingDown ∧ cause = .standingDown) := by
  cases hc : s.chan? m.channel with
  | none =>
    have : s.takeBeacon m = s := by unfold State.takeBeacon; rw [hc]
    rw [this] at h
    exact absurd h not_self
  | some ch =>
    obtain ⟨rfl, hl, hn⟩ := h.of_setWatch hc (takeBeacon_tends hc)
    cases hc.symm.trans h.before
    obtain ⟨hforced, hdown⟩ := beaconEffect_lost hl
    exact ⟨rfl, _, hn, hforced, fun e => ⟨isStandingDown_iff.1 (hdown e).1, (hdown e).2⟩⟩

/-- The framing state is no matter to the watch. -/
theorem EntersLost.of_framed {f : Framing} (h : EntersLost s t d a b) : EntersLost (s.setFraming f) t d a b :=
  ⟨h.before, h.after, h.was, h.now⟩

/-- What a beacon that enters LOST tells, as such or as bytes. -/
theorem EntersLost.of_framed_takeBeacon {m : BeaconMsg} (h : EntersLost s ((s.setFraming .wait).takeBeacon m) d a b) :
    d = m.channel ∧ ∃ cause, s.LostNoticed ((s.setFraming .wait).takeBeacon m) d cause ∧ (a.watch.forced = true → cause = .forced) ∧
      (a.watch.forced = false → m.main = .standingDown ∧ cause = .standingDown) := h.of_framed.of_takeBeacon

theorem EntersLost.of_beacon {m : BeaconMsg} (ht : exec (.beacon m) s = .next t) (h : EntersLost s t d a b) :
    d = m.channel ∧ ∃ cause, s.LostNoticed t d cause ∧ (a.watch.forced = true → cause = .forced) ∧
      (a.watch.forced = false → m.main = .standingDown ∧ cause = .standingDown) := by
  obtain rfl := Host.Outcome.next.inj ht
  revert h
  split
  · exact of_framed_takeBeacon
  · exact fun h => absurd h not_self

theorem EntersLost.of_beaconBytes {m : BeaconMsg} {k : Byte} {body : List Byte} {check : BitVec 16}
    (hp : parseFeed k.toNat m.channel body = some (.beacon m))
    (ht : exec (.feedMessageDiscard k m.channel body check) s = .next t) (h : EntersLost s t d a b) :
    d = m.channel ∧ ∃ cause, s.LostNoticed t d cause ∧ (a.watch.forced = true → cause = .forced) ∧
      (a.watch.forced = false → m.main = .standingDown ∧ cause = .standingDown) := by
  obtain rfl := Host.Outcome.next.inj ht
  revert h
  split
  · unfold State.judgeFeed
    split
    · exact fun h => absurd h (not_of_book rfl)
    · split
      · exact fun h => absurd h (not_of_book rfl)
      · rw [hp]
        exact of_framed_takeBeacon
  · exact fun h => absurd h not_self

/-! ## The local port -/

theorem EntersLost.of_done {x : List Byte} (h : EntersLost s (t.done x) d a b) : EntersLost s t d a b :=
  ⟨h.before, h.after, h.was, h.now⟩

theorem EntersLost.of_clamped {x : List Byte} (h : EntersLost s (t.clamped x) d a b) : EntersLost s t d a b :=
  ⟨h.before, h.after, h.was, h.now⟩

theorem EntersLost.of_forceLost (hc : s.chan? c = some ch) (h : EntersLost s ((s.forceLost c ch).done []) d a b) :
    d = c ∧ s.LostNoticed ((s.forceLost c ch).done []) c .forced := by
  replace h := h.of_done
  show d = c ∧ s.LostNoticed (s.forceLost c ch) c .forced
  revert h
  unfold State.forceLost
  dsimp only
  split
  · exact fun h => h.not_modWatch.elim
  · exact fun h => h.not_modWatch.elim
  · rw [modWatch_modWatch]
    intro h
    obtain ⟨hd, -, hn⟩ := h.of_setWatch_settle hc
    exact ⟨hd, hn⟩

/-- A command of one channel either changes no watch record or does its work on a profiled channel (R182). -/
theorem byChannel_cases (s : State) (p : List Byte) (f : Chan → State) :
    watchBook (s.byChannel p f).chans = watchBook s.chans ∨
      ∃ c ch, p = [c] ∧ s.chan? c = some ch ∧ s.byChannel p f = f ch := by
  unfold State.byChannel
  split
  · rename_i c
    unfold State.onChannel State.running
    split
    · cases hc : s.chan? c with
      | none => exact Or.inl rfl
      | some ch => exact Or.inr ⟨c, ch, rfl, hc, rfl⟩
    · exact Or.inl rfl
  · exact Or.inl rfl

theorem EntersLost.of_byChannel_forceLost {p : List Byte}
    (h : EntersLost s (s.byChannel p (fun ch => (s.forceLost ch.part.channel ch).done [])) d a b) :
    p = [d] ∧ s.LostNoticed (s.byChannel p (fun ch => (s.forceLost ch.part.channel ch).done [])) d .forced := by
  rcases byChannel_cases s p (fun ch => (s.forceLost ch.part.channel ch).done []) with hb | ⟨c, ch, rfl, hc, he⟩
  · exact absurd h (not_of_book hb)
  · rw [he] at h ⊢
    obtain rfl := chan?_channel hc
    obtain ⟨rfl, hn⟩ := of_forceLost hc h
    exact ⟨rfl, hn⟩

theorem EntersLost.not_byChannel_unforce {p : List Byte} :
    ¬ EntersLost s (s.byChannel p (fun ch => (s.unforce ch.part.channel).done [])) d a b := by
  rcases byChannel_cases s p (fun ch => (s.unforce ch.part.channel).done []) with hb | ⟨c, ch, rfl, hc, he⟩
  · exact not_of_book hb
  · rw [he]
    exact fun h => h.of_done.not_modWatch

theorem EntersLost.not_readChannel {p : List Byte} : ¬ EntersLost s (s.readChannel p) d a b := by
  unfold State.readChannel
  split
  · unfold State.onChannel State.running
    split
    · split
      · exact not_of_book rfl
      · dsimp only
        split
        · exact fun h => h.of_done.not_modWatch
        · exact not_of_book rfl
    · exact not_of_book rfl
  · exact not_of_book rfl

/-- A channel added behind the others changes no record of theirs (R184). -/
theorem EntersLost.not_added {x : Chan} : ¬ EntersLost s { s with chans := s.chans ++ [x] } d a b := fun h => h.moved <| by
  have : State.chan? { s with chans := s.chans ++ [x] } d = s.chan? d := by
    have hb := h.before
    unfold State.chan? at hb ⊢
    rw [List.find?_append, hb, Option.some_or]
  rw [this]

theorem EntersLost.not_addChannel {p : List Byte} : ¬ EntersLost s (s.addChannel p) d a b := by
  unfold State.addChannel
  split
  · exact not_of_book rfl
  · split
    · exact not_of_book rfl
    · split
      · exact not_of_book rfl
      · dsimp only
        split
        · exact not_of_book rfl
        · split
          · exact fun h => not_added h.of_done
          · exact fun h => not_added h.of_clamped

/-- Every watch starts UNSEEN (R77). -/
theorem EntersLost.not_begin {p : StationPart} : ¬ EntersLost s (s.begin p) d a b := fun h => by
  rw [begin_eq] at h
  have hb : watchBook (s.begun p).enterListening.chans = watchBook (s.begun p).chans := book_freshStatus _
  have := chan?_watch_of_book hb d
  rw [h.after] at this
  obtain ⟨x, hx, hw⟩ := Option.map_eq_some_iff.1 this.symm
  obtain ⟨y, -, rfl⟩ := List.mem_map.1 (chan?_mem hx)
  have hl := (congrArg (·.state) hw).trans h.now
  cases hl

theorem EntersLost.not_startCmd {p : List Byte} : ¬ EntersLost s (s.startCmd p) d a b := by
  unfold State.startCmd State.bare
  split
  · split
    · exact not_of_book rfl
    · split
      · exact not_of_book rfl
      · dsimp only
        split
        · exact fun h => not_begin h.of_done
        · exact fun h => not_begin h.of_clamped
  · exact not_of_book rfl

/-- A whole command frame that enters LOST is a FORCE_LOST (R197). -/
theorem EntersLost.of_byCode {code : Byte} {p : List Byte} {check : BitVec 16} (hm : code ∈ [(2 : Byte), 3, 7, 15, 16])
    (ht : exec (.unknownCommand code p check) s = .next t) (h : EntersLost s t d a b) :
    code = 15 ∧ p = [d] ∧ s.LostNoticed t d .forced := by
  obtain rfl := Host.Outcome.next.inj ht
  revert h
  split
  · exact fun h => absurd h (not_of_book rfl)
  · split
    · exact fun h => absurd h (not_of_book rfl)
    · split
      · exact fun h => absurd h (not_of_book rfl)
      · simp only [List.mem_cons, List.not_mem_nil, or_false] at hm
        rcases hm with rfl | rfl | rfl | rfl | rfl
        · exact fun h => absurd h not_addChannel
        · exact fun h => absurd h not_startCmd
        · exact fun h => absurd h not_readChannel
        · exact fun h => ⟨rfl, h.of_byChannel_forceLost⟩
        · exact fun h => absurd h not_byChannel_unforce

/-- Settles O10: a command outside the watch enters no LOST, and of the watch's own each enters it as its lemma says. -/
theorem entryToLostIsNotified : Obligations.EntryToLostIsNotified := by
  intro i s t d a b ht ha hb hna hl
  have h : EntersLost s t d a b := ⟨ha, hb, hna, hl⟩
  rcases leaves_or i s with hq | hw
  · exact absurd h (EntersLost.not_of_book (hq t ht))
  cases hw with
  | beacon m =>
    obtain ⟨hd, cause, hn, hforced, hdown⟩ := h.of_beacon ht
    exact ⟨cause, hn, Or.inr (Or.inr (Or.inr ⟨m, hd.symm, Or.inl rfl, hforced, hdown⟩))⟩
  | beaconBytes k body m hp =>
    obtain ⟨rfl, cause, hn, hforced, hdown⟩ := h.of_beaconBytes hp ht
    exact ⟨cause, hn, Or.inr (Or.inr (Or.inr ⟨m, rfl, Or.inr ⟨k, body, rfl, hp⟩, hforced, hdown⟩))⟩
  | doubtfulDeadline c => exact absurd h (EntersLost.not_doubtfulDeadline ht)
  | lostDeadline c =>
    obtain ⟨rfl, hn⟩ := h.of_lostDeadline ht
    exact ⟨_, hn, Or.inl ⟨rfl, rfl⟩⟩
  | returnDeadline c =>
    obtain ⟨rfl, hn⟩ := h.of_returnDeadline ht
    exact ⟨_, hn, Or.inr (Or.inl ⟨rfl, rfl⟩)⟩
  | windowEnd c => exact absurd h (EntersLost.not_windowEnd ht)
  | forceLost p =>
    obtain rfl := Host.Outcome.next.inj ht
    obtain ⟨rfl, hn⟩ := h.of_byChannel_forceLost
    exact ⟨_, hn, Or.inr (Or.inr (Or.inl ⟨Or.inl rfl, rfl⟩))⟩
  | unforce p =>
    obtain rfl := Host.Outcome.next.inj ht
    exact absurd h EntersLost.not_byChannel_unforce
  | readChannel p =>
    obtain rfl := Host.Outcome.next.inj ht
    exact absurd h EntersLost.not_readChannel
  | addChannel p =>
    obtain rfl := Host.Outcome.next.inj ht
    exact absurd h EntersLost.not_addChannel
  | start p =>
    obtain rfl := Host.Outcome.next.inj ht
    exact absurd h EntersLost.not_startCmd
  | byCode code p hm =>
    obtain ⟨rfl, rfl, hn⟩ := h.of_byCode hm ht
    exact ⟨_, hn, Or.inr (Or.inr (Or.inl ⟨Or.inr rfl, rfl⟩))⟩
  | pinReset =>
    rw [pinReset_eq ht] at hb
    cases hb

end Sys2Proof.Machine
end

section
/-! SUPPORT. The deadlines and the window end of the watch, each said as one change of the record with its report, and the statement
about them (R68 to R72, R75). -/

namespace Sys2Proof.Machine
-- Proofs are checked one after another: in parallel they would not fit the memory that the check allows.
set_option Elab.async false

variable {s t : State} {c : Channel} {ch : Chan}

/-! ## What a report leaves to be settled -/

theorem leaveYielded_reports (s : State) (c : Channel) : (s.leaveYielded c).reports = s.reports := by
  unfold State.leaveYielded
  rw [(claimsOnly_check _ _).reports, State.modTk_reports]

/-- A report of the watch makes no report of an item's failure, but where it cancels a handback (R75, R176). -/
theorem watchReport_reports {new : WatchState} (hc : s.chan? c = some ch) (hk : ch.tk.state = .handingBack → new ≠ .lost)
    (old : WatchState) : (s.watchReport c old new).reports = s.reports := by
  unfold State.watchReport
  dsimp only
  generalize hu : (if new = .lost then s else s.modTk c (fun tk => { tk with awaitLive := false })) = u
  have hr : u.reports = s.reports := by rw [← hu]; split <;> rfl
  have hx : ∃ x, u.chan? c = some x ∧ x.tk.state = ch.tk.state := by
    rw [← hu]
    split
    · exact ⟨ch, hc, rfl⟩
    · exact ⟨_, modTk_get s hc _, rfl⟩
  obtain ⟨x, hx, hs⟩ := hx
  rw [hx, ← hr]
  dsimp only
  split
  · exact (claimsOnly_check _ _).reports
  · exact (claimsOnly_check _ _).reports
  · split
    · rw [(claimsOnly_pass _).reports, (claimsOnly_check _ _).reports, leaveContending_reports]
    · rfl
  · split
    · exact leaveYielded_reports _ _
    · rfl
  · rename_i hst
    rw [if_neg (hk (hs.symm.trans hst))]
  · rfl

theorem setWatch_reports {new : WatchState} (hc : s.chan? c = some ch) (hk : ch.tk.state = .handingBack → new ≠ .lost)
    (cause : LostCause) : (s.setWatch c new cause).reports = s.reports := by
  unfold State.setWatch
  rw [hc]
  dsimp only
  split
  · rfl
  · have hx : (s.modWatch c (fun w => { w with state := new })).chan? c = some { ch with watch := { ch.watch with state := new } } := by
      rw [modWatch_chan?, hc]; rfl
    split
    · exact watchReport_reports (ch := { ch with watch := { ch.watch with state := new } }) (by exact hx) hk _
    · exact watchReport_reports hx hk _

/-- The report that cancels a handback is the one of which `WatchTold` says nothing. -/
theorem watchTold_handingBack (hs : ch.tk.state = .handingBack) (old : WatchState) : s.WatchTold t c ch old .lost := by
  unfold State.WatchTold
  rw [hs]
  exact ⟨nofun, nofun, nofun, by simp⟩

/-- A change of a record with its report, settled, is a change that is told as R75 says. -/
theorem settled_setWatch_moved (hr : s.ReportsSettled) (hd : s.ChannelsDistinct) (hc : s.chan? c = some ch)
    {f : WatchRec → WatchRec} (hf : (f ch.watch).state = ch.watch.state) (new : WatchState) (cause : LostCause) :
    s.WatchMoved ((s.modWatch c f).setWatch c new cause).settle c ch { f ch.watch with state := new } cause := by
  have hm := setWatch_moved hd hc f new cause hf
  have hcf : (s.modWatch c f).chan? c = some { ch with watch := f ch.watch } := by rw [modWatch_chan?, hc]; rfl
  have quiet : ((s.modWatch c f).setWatch c new cause).reports = [] →
      s.WatchMoved ((s.modWatch c f).setWatch c new cause).settle c ch { f ch.watch with state := new } cause :=
    fun h => by rw [settle_of_nil h]; exact hm
  by_cases hk : ch.tk.state = .handingBack ∧ new = .lost
  · obtain ⟨hk, rfl⟩ := hk
    by_cases hw : ch.watch.state = .lost
    · refine quiet ?_
      unfold State.setWatch
      rw [hcf]
      dsimp only
      rw [if_pos (hf.trans hw)]
      exact hr
    · unfold State.WatchMoved
      dsimp only
      rw [if_neg (Ne.symm hw)]
      exact watchTold_handingBack (by exact hk) _
  · exact quiet ((setWatch_reports hcf (fun h e => hk ⟨h, e⟩) cause).trans hr)

/-! ## The deadlines -/

theorem exec_doubtfulDeadline (hc : s.chan? c = some ch) :
    exec (.doubtfulDeadline c) s = .next (if due ch.watch.doubtfulDl s.tb.now = true then
    if ch.watch.state = .live then
      ((s.modWatch c (fun w => { w with doubtfulDl := none, quiet := true })).setWatch c .doubtful .silence).settle
    else s.modWatch c (fun w => { w with doubtfulDl := none, quiet := true })
  else s) := by
  show execDoubtfulDeadline c s = _
  unfold execDoubtfulDeadline
  rw [hc]
  rfl

theorem exec_lostDeadline (hc : s.chan? c = some ch) :
    exec (.lostDeadline c) s = .next (if due ch.watch.lostDl s.tb.now = true then
    if ch.watch.state = .live ∨ ch.watch.state = .doubtful then
      ((s.modWatch c (fun w => { w with lostDl := none })).setWatch c .lost .silence).settle
    else s.modWatch c (fun w => { w with lostDl := none })
  else s) := by
  show execLostDeadline c s = _
  unfold execLostDeadline
  rw [hc]
  rfl

theorem exec_returnDeadline (hc : s.chan? c = some ch) :
    exec (.returnDeadline c) s = .next (if due ch.watch.returnDl s.tb.now = true then
    if ch.watch.state = .returning then
      ((s.modWatch c (fun w => { w with returnDl := none, returns := 0 })).setWatch c .lost .returnBroken).settle
    else s.modWatch c (fun w => { w with returnDl := none })
  else s) := by
  show execReturnDeadline c s = _
  unfold execReturnDeadline
  rw [hc]
  dsimp only
  rw [modWatch_modWatch]
  rfl

/-! ## The window end -/

/-- The judgement of a window, by the count that it closes with (R72). -/
theorem windowVerdict_eq (w : WatchRec) (n : Nat) : windowVerdict w (decide (n ≤ w.windowCount)) =
    if w.state = .live ∧ w.windowCount < n then .doubtful
    else if w.state = .doubtful ∧ n ≤ w.windowCount ∧ w.quiet = false then .live
    else w.state := by
  unfold windowVerdict
  split
  · rename_i hs
    by_cases h : n ≤ w.windowCount <;> simp [hs, h]
  · rename_i hs
    by_cases h : n ≤ w.windowCount <;> cases hq : w.quiet <;> simp [hs, h]
  · rename_i hl hd
    rw [if_neg (fun h => hl h.1), if_neg (fun h => hd h.1)]

theorem exec_windowEnd {x : Time} (hc : s.chan? c = some ch) (hx : ch.watch.windowEnd = some x) :
    exec (.windowEnd c) s = .next (if atOrBefore x s.tb.now = true then
      ((s.modWatch c (fun w => { w with
        met := decide (ch.part.windowMin ≤ ch.watch.windowCount), windowCount := 0
        windowEnd := some (plus x (8 * ch.beaconGrains)) })).setWatch c
          (windowVerdict ch.watch (decide (ch.part.windowMin ≤ ch.watch.windowCount))) .silence).settle
    else s) := by
  show execWindowEnd c s = _
  unfold execWindowEnd
  rw [hc]
  dsimp only
  rw [hx]
  rfl

/-- What a deadline or window end that gives a state leaves behind, in the words of Safety: the record, its report, and the notice
of an entry to LOST. -/
theorem settled_setWatch_acts (hr : s.ReportsSettled) (hd : s.ChannelsDistinct) (hc : s.chan? c = some ch)
    {f : WatchRec → WatchRec} (hf : (f ch.watch).state = ch.watch.state) (new : WatchState) (cause : LostCause) :
    s.Watches ((s.modWatch c f).setWatch c new cause).settle c { f ch.watch with state := new } ∧
      s.WatchMoved ((s.modWatch c f).setWatch c new cause).settle c ch { f ch.watch with state := new } cause ∧
      (new = .lost → ch.watch.state ≠ .lost → s.LostNoticed ((s.modWatch c f).setWatch c new cause).settle c cause) := by
  obtain ⟨hw, hn⟩ := watches_of_setWatch hc (tends_settle (.refl _))
  exact ⟨hw, settled_setWatch_moved hr hd hc hf new cause, fun hl hne => hn hl (by rwa [hf])⟩

/-- Settles O28: each deadline and the window end is one change of the record with its report, or the spent deadline alone. -/
theorem watchDeadlinesAct : Obligations.WatchDeadlinesAct := by
  intro s c ch hr hd hc
  have early : ∀ {p : Bool} {x : State}, p = false → Host.Outcome.next (if p = true then x else s) =
      (.next s : Host.Outcome State Fault Refusal) := fun h => by rw [h, if_neg nofun]
  refine ⟨fun h => ?_, fun h => ?_, fun h => ?_, fun h => (exec_doubtfulDeadline hc).trans (early h),
    fun h => (exec_lostDeadline hc).trans (early h), fun h => (exec_returnDeadline hc).trans (early h),
    fun x hx => ⟨fun h => (exec_windowEnd hc hx).trans (early h), fun h => ?_⟩⟩
  · have he := exec_doubtfulDeadline hc
    rw [if_pos h] at he
    refine ⟨fun hs => ?_, fun hs => by rw [he, if_neg hs]⟩
    obtain ⟨hw, hm, -⟩ := settled_setWatch_acts hr hd hc (f := fun w => { w with doubtfulDl := none, quiet := true }) rfl
      .doubtful .silence
    exact ⟨_, by rw [he, if_pos hs], hw, hm, nofun⟩
  · have he := exec_lostDeadline hc
    rw [if_pos h] at he
    refine ⟨fun hs => ?_, fun h1 h2 => by rw [he, if_neg (not_or.2 ⟨h1, h2⟩)]⟩
    obtain ⟨hw, hm, hn⟩ := settled_setWatch_acts hr hd hc (f := fun w => { w with lostDl := none }) rfl .lost .silence
    exact ⟨_, by rw [he, if_pos hs], hw, hm, fun _ => hn rfl (by rcases hs with e | e <;> rw [e] <;> nofun)⟩
  · have he := exec_returnDeadline hc
    rw [if_pos h] at he
    refine ⟨fun hs => ?_, fun hs => by rw [he, if_neg hs]⟩
    obtain ⟨hw, hm, hn⟩ := settled_setWatch_acts hr hd hc (f := fun w => { w with returnDl := none, returns := 0 }) rfl
      .lost .returnBroken
    exact ⟨_, by rw [he, if_pos hs], hw, hm, fun _ => hn rfl (by rw [hs]; nofun)⟩
  · obtain ⟨hw, hm, -⟩ := settled_setWatch_acts hr hd hc (f := fun w => { w with
      met := decide (ch.part.windowMin ≤ ch.watch.windowCount), windowCount := 0
      windowEnd := some (plus x (8 * ch.beaconGrains)) }) rfl
      (windowVerdict ch.watch (decide (ch.part.windowMin ≤ ch.watch.windowCount))) .silence
    rw [exec_windowEnd hc hx, if_pos h, ← windowVerdict_eq]
    exact ⟨_, rfl, hw, hm⟩

end Sys2Proof.Machine
end

section
/-! SUPPORT. Claims, checks and reports of the watch take no channel to JOINING, ON_AIR or HANDING_BACK, so that a main state finds
there no channel that was not there before (R108 to R115, R171). -/

namespace Sys2Proof.Machine
-- Proofs are checked one after another: in parallel they would not fit the memory that the check allows.
set_option Elab.async false

variable {s t : State} {c d : Channel}

/-! ## Claims take no channel to where it is held -/

/-- Channel `c` is profiled, and where it is held it is in `st`. -/
def State.HeldIn (s : State) (c : Channel) (st : TakeoverState) : Prop :=
  ∃ x, s.chan? c = some x ∧ (x.tk.state.holding = true → x.tk.state = st)

variable {st : TakeoverState}

theorem State.HeldIn.of_chan? (h : s.HeldIn c st) (ht : t.chan? c = s.chan? c) : t.HeldIn c st := by
  obtain ⟨x, hx, hs⟩ := h
  exact ⟨x, ht.trans hx, hs⟩

/-- A change of one takeover record to a state that is not held, or that leaves its state. -/
theorem State.HeldIn.modTk (h : s.HeldIn d st) (c : Channel) {f : TakeoverRec → TakeoverRec}
    (hf : ∀ tk, (f tk).state.holding = false ∨ (f tk).state = tk.state) : (s.modTk c f).HeldIn d st := by
  obtain ⟨x, hx, hs⟩ := h
  by_cases hd : d = c
  · subst hd
    refine ⟨_, modTk_get s hx f, fun hh => ?_⟩
    rcases hf x.tk with e | e
    · cases e.symm.trans hh
    · exact e.trans (hs (by rwa [← e]))
  · exact ⟨x, (modTk_chan?_ne s f hd).trans hx, hs⟩

theorem State.HeldIn.modWatch (h : s.HeldIn c st) (f : WatchRec → WatchRec) : (s.modWatch c f).HeldIn c st := by
  obtain ⟨x, hx, hs⟩ := h
  have hw : (s.modWatch c f).chan? c = some { x with watch := f x.watch } := by rw [modWatch_chan?, hx]; rfl
  exact ⟨_, hw, hs⟩

theorem State.HeldIn.leaveContending (h : s.HeldIn d st) (c : Channel) {n : TakeoverState} (hn : n.holding = false) :
    (s.leaveContending c n).HeldIn d st := by
  by_cases hd : d = c
  · subst hd
    obtain ⟨x, hx, -⟩ := h
    refine ⟨_, by rw [leaveContending_chan?, hx]; rfl, fun hh => ?_⟩
    cases hn.symm.trans (show n.holding = true from hh)
  · exact h.of_chan? (leaveContending_chan?_ne s n hd)

theorem State.HeldIn.enterContending (h : s.HeldIn d st) (ch : Chan) (o : OutletNo) (k : Key) :
    (s.enterContending ch o k).1.HeldIn d st := by
  unfold State.enterContending
  dsimp only
  have hr : (s.reserveOutlet o ch.part.channel).HeldIn d st := h
  have hk := hr.modTk ch.part.channel (f := fun tk =>
    { tk with state := .contending, outlet := some o, ownClaim := some k, claimSent := false, windowEnd := none }) fun _ => Or.inl rfl
  split
  · exact (hk.leaveContending ch.part.channel rfl).modTk _ fun _ => Or.inr rfl
  · exact hk.of_chan? (offerFrame_chan? _ _ _)

theorem State.HeldIn.checkChannel (h : s.HeldIn d st) (c : Channel) : (s.checkChannel c).1.HeldIn d st := by
  unfold State.checkChannel
  split
  · exact h
  · split
    · exact h
    · split
      · exact h.modTk c fun _ => Or.inl rfl
      · exact h.modTk c fun _ => Or.inl rfl
      · exact h.modTk c fun _ => Or.inl rfl
      · exact h.enterContending _ _ _

theorem State.HeldIn.checkAll (l : List Channel) : ∀ {s : State}, s.HeldIn d st → (s.checkAll l).1.HeldIn d st := by
  induction l with
  | nil => exact fun h => h
  | cons c rest ih => exact fun h => ih (h.checkChannel c)

theorem State.HeldIn.passes (n : Nat) : ∀ {s : State}, s.HeldIn d st → (State.passes n s).HeldIn d st := by
  induction n with
  | zero => exact fun h => h
  | succ n ih =>
    intro s h
    unfold State.passes
    dsimp only
    split
    · exact ih (h.checkAll _)
    · exact h.checkAll _

theorem State.HeldIn.check (h : s.HeldIn d st) (c : Channel) : (s.check c).HeldIn d st := by
  unfold State.check
  dsimp only
  split
  · exact (h.checkChannel c).passes _
  · exact h.checkChannel c

/-- Outside HANDING_BACK a report of the watch takes no channel to where it is held (R75). -/
theorem State.HeldIn.watchReport (h : s.HeldIn c st) (hs : st ≠ .handingBack) (old new : WatchState) :
    (s.watchReport c old new).HeldIn c st := by
  unfold State.watchReport
  dsimp only
  have hu : State.HeldIn (if new = .lost then s else s.modTk c (fun tk => { tk with awaitLive := false })) c st := by
    split
    · exact h
    · exact h.modTk c fun _ => Or.inr rfl
  generalize (if new = .lost then s else s.modTk c (fun tk => { tk with awaitLive := false })) = u at hu ⊢
  split
  · exact hu
  · rename_i x hx
    split
    · exact hu.check c
    · exact hu.check c
    · split
      · exact ((hu.leaveContending c rfl).check c).passes _
      · exact hu
    · split
      · exact (hu.modTk c fun _ => Or.inl rfl).check c
      · exact hu
    · rename_i hb
      obtain ⟨y, hy, hst⟩ := hu
      cases hx.symm.trans hy
      exact absurd ((hst (by rw [hb]; rfl)).symm.trans hb) hs
    · exact hu

theorem State.HeldIn.setWatch (h : s.HeldIn c st) (hs : st ≠ .handingBack) (new : WatchState) (cause : LostCause) :
    (s.setWatch c new cause).HeldIn c st := by
  unfold State.setWatch
  split
  · exact h
  · rename_i ch hc
    split
    · exact h
    · have hw : (s.modWatch c (fun w => { w with state := new })).HeldIn c st := h.modWatch _
      dsimp only
      split
      · exact State.HeldIn.watchReport (by exact hw) hs _ _
      · exact hw.watchReport hs _ _

/-- A main state reaches a channel in HANDING_BACK alone, and with an offer in ON_AIR (R171, R175, R176). -/
theorem takeOffer_same {main : MainState} (h : s.HeldIn c st) (hs : st ≠ .handingBack)
    (hm : st = .onAir → ∀ x, main ≠ .resumeOffer x) : s.takeOffer c main = s := by
  obtain ⟨x, hx, hst⟩ := h
  unfold State.takeOffer
  rw [hx]
  dsimp only
  cases hk : x.tk.state with
  | handingBack => exact absurd ((hst (by rw [hk]; rfl)).symm.trans hk) hs
  | onAir =>
    cases main with
    | resumeOffer t => exact absurd rfl (hm ((hst (by rw [hk]; rfl)).symm.trans hk) t)
    | running => rfl
    | standingDown => rfl
  | _ => rfl

end Sys2Proof.Machine
end

section
/-! SUPPORT. What a beacon gives its watch record, and the statement that a beacon does that, reports it, and hands itself on (R56 to
R67, R71, R73, R75). -/

namespace Sys2Proof.Machine
-- Proofs are checked one after another: in parallel they would not fit the memory that the check allows.
set_option Elab.async false

variable {s t : State} {c : Channel} {ch : Chan} {b : BeaconMsg}

/-! ## The state effect -/

/-- With the forced mark, or with STANDING_DOWN, a beacon gives LOST (R66, R73). -/
theorem beaconEffect_down {w : WatchRec} {n : Nat} {down : Bool} (h : w.forced = true ∨ down = true) :
    (beaconEffect w n down).state = .lost ∧ (beaconEffect w n down).returns = 0 := by
  unfold beaconEffect
  split
  · exact ⟨rfl, rfl⟩
  · rename_i hf
    rw [if_pos (h.resolve_left hf)]
    exact ⟨rfl, rfl⟩

/-- Without them the state before decides, in UNSEEN and LIVE (R62), DOUBTFUL (R63), LOST (R64) and RETURNING (R65). -/
theorem beaconEffect_up {w : WatchRec} (n : Nat) (h : w.forced = false) :
    let eff := beaconEffect w n false
    (w.state = .unseen ∨ w.state = .live → eff.state = .live ∧ eff.returns = 0) ∧
    (w.state = .doubtful → eff.state = (if w.met then .live else .doubtful) ∧ eff.returns = 0) ∧
    (w.state = .lost → (n ≤ 1 → eff.state = .live ∧ eff.returns = 0) ∧ (1 < n → eff.state = .returning ∧ eff.returns = 1)) ∧
    (w.state = .returning → (n ≤ w.returns + 1 → eff.state = .live ∧ eff.returns = 0) ∧
      (w.returns + 1 < n → eff.state = .returning ∧ eff.returns = w.returns + 1)) := by
  dsimp only
  unfold beaconEffect
  rw [if_neg (by rw [h]; nofun), if_neg nofun]
  refine ⟨fun hs => ?_, fun hs => ?_, fun hs => ⟨fun hn => ?_, fun hn => ?_⟩, fun hs => ⟨fun hn => ?_, fun hn => ?_⟩⟩
  · rcases hs with hs | hs <;> rw [hs] <;> exact ⟨rfl, rfl⟩
  · simp [hs]
  · simp [hs, hn]
  · simp [hs, Nat.not_le.2 hn]
  · simp [hs, hn]
  · simp [hs, Nat.not_le.2 hn]

/-! ## The report -/

/-- The cause of a move matters at an entry to LOST alone. -/
theorem State.WatchMoved.withCause {w : WatchRec} {x y : LostCause} (h : s.WatchMoved t c ch w x) (e : w.state = .lost → x = y) :
    s.WatchMoved t c ch w y := by
  unfold State.WatchMoved at h ⊢
  by_cases hl : w.state = .lost
  · rwa [← e hl]
  · simp only [if_neg hl] at h ⊢
    exact h

/-- A beacon's change of the record and its report, with the cause that the forced mark decides (R66, R73, R75). -/
theorem beaconTold_moved (hd : s.ChannelsDistinct) (hc : s.chan? b.channel = some ch) :
    s.WatchMoved (s.beaconTold ch b) b.channel ch { s.beaconed ch b ch.watch with
      state := (beaconEffect ch.watch ch.part.returnCount (isStandingDown b.main)).state }
      (if ch.watch.forced then .forced else .standingDown) := by
  refine (setWatch_moved hd hc (s.beaconed ch b) _ _ rfl).withCause fun hl => ?_
  obtain ⟨hforced, hdown⟩ := beaconEffect_lost hl
  cases hf : ch.watch.forced with
  | true => exact hforced hf
  | false => exact (hdown hf).2

/-! ## What the beacon hands on -/

/-- Outside HANDING_BACK a report asks nothing of the mirror (R18). -/
theorem setWatch_mirrorReqs (hc : s.chan? c = some ch) (hs : ch.tk.state ≠ .handingBack) (new : WatchState) (cause : LostCause) :
    (s.setWatch c new cause).mirrorReqs = s.mirrorReqs := by
  rcases setWatch_cases s c new cause with ⟨h, -⟩ | ⟨x, hx, -, -, hk⟩
  · rw [h]
  · cases hc.symm.trans hx
    rw [(hk hs).reqs]
    unfold State.watched
    split <;> rfl

/-- A beacon that finds no channel in HANDING_BACK and brings no offer to a channel on air does nothing behind its report but to ask
the mirror (R26, R38, R171). -/
theorem takeBeacon_quiet (hr : s.ReportsSettled) (hc : s.chan? b.channel = some ch) (hs : ch.tk.state ≠ .handingBack)
    (hm : ch.tk.state = .onAir → ∀ x, b.main ≠ .resumeOffer x) : s.takeBeacon b = { s.beaconTold ch b with
      mirrorReqs := s.mirrorReqs ++ [.drift b.channel b.version b.onAir, .sweep b.channel] } := by
  have hw : (s.modWatch b.channel (s.beaconed ch b)).chan? b.channel = some { ch with watch := s.beaconed ch b ch.watch } := by
    rw [modWatch_chan?, hc]; rfl
  have hheld : (s.beaconTold ch b).HeldIn b.channel ch.tk.state := State.HeldIn.setWatch ⟨_, hw, fun _ => rfl⟩ hs _ _
  have hreqs : (s.beaconTold ch b).mirrorReqs = s.mirrorReqs := setWatch_mirrorReqs hw hs _ _
  have hreps : (s.beaconTold ch b).reports = [] := (setWatch_reports hw (fun e => absurd e hs) _).trans hr
  rw [takeBeacon_eq hc, hreqs]
  refine (congrArg State.settle (takeOffer_same (st := ch.tk.state) ?_ hs hm)).trans (settle_of_nil hreps)
  exact hheld.of_chan? rfl

theorem exec_beacon_framed (hl : s.locked = true) (hf : s.feed.framing ≠ .hunt) (b : BeaconMsg) :
    exec (.beacon b) s = .next ((s.setFraming .wait).takeBeacon b) :=
  congrArg _ (if_pos (feedFraming_true hl hf))

/-- Settles O27: the record by the state effect of its main state, the report by `setWatch`, and the rest by `takeBeacon_quiet`. -/
theorem beaconUpdatesWatchRecord : Obligations.BeaconUpdatesWatchRecord := by
  intro s b ch hl hf hr hd hc
  obtain ⟨hw, -⟩ := watches_of_setWatch (s := s.setFraming .wait) hc (takeBeacon_tends hc)
  refine ⟨_, _, (beaconEffect ch.watch ch.part.returnCount (isStandingDown b.main)).returns, _, exec_beacon_framed hl hf b,
    fun h => beaconEffect_down (h.imp_right isStandingDown_iff.2), fun hforced hdown => ?_, ?_, hw, fun hs hm => ?_⟩
  · rw [Bool.eq_false_iff.2 (mt isStandingDown_iff.1 hdown)]
    exact beaconEffect_up _ hforced
  · rfl
  · exact ⟨_, beaconTold_moved (s := s.setFraming .wait) hd hc, takeBeacon_quiet (s := s.setFraming .wait) hr hc hs hm⟩

end Sys2Proof.Machine
end

section
/-! SUPPORT. The bus receiver: which frames it takes, how it judges them, and what a STATUS and a CLAIM of another station do, one
equation for each case, with the two statements about them (05_the_site_bus.md 5.3 and 5.8, 06_claims_and_takeover.md 6.3 and 6.5). -/

namespace Sys2Proof.Machine
-- Proofs are checked one after another: in parallel they would not fit the memory that the check allows.
set_option Elab.async false

variable {s : State} {f : Frame} {raw : RawFrame} {c : Channel} {ch : Chan} {k : Key} {m : Byte} {st : Station}

/-! ## Framing (R80) -/

theorem takesFrames_iff : s.takesFrames = true ↔ s.bus.rx = .free ∨ s.bus.rx = .receiving := by simp [State.takesFrames]

theorem takesFrames_eq_false (hf : s.bus.rx ≠ .free) (hr : s.bus.rx ≠ .receiving) : s.takesFrames = false :=
  Bool.eq_false_iff.2 fun h => (takesFrames_iff.1 h).elim hf hr

theorem exec_busFree_hunt (h : s.bus.rx = .hunt) :
    exec .busFree s = .next { s with bus := { s.bus with rx := .free, huntCount := 0 } } :=
  congrArg Host.Outcome.next (if_pos h)

theorem exec_busFree_elsewhere (h : s.bus.rx ≠ .hunt) : exec .busFree s = .next s :=
  congrArg Host.Outcome.next (if_neg h)

theorem exec_busHeaderMalformed (s : State) :
    exec .busHeaderMalformed s = .next (if s.takesFrames then s.countMalformed.setRx .hunt 0 else s) := rfl

/-! ## Judgement (R80 to R82) -/

theorem closeFrame_untaken (h : s.takesFrames = false) (f : Frame) : s.closeFrame f = s := if_pos (by rw [h]; rfl)

theorem exec_malformedFrame_untaken (h : s.takesFrames = false) (raw : RawFrame) : exec (.malformedFrame raw) s = .next s :=
  congrArg Host.Outcome.next (if_pos (by rw [h]; rfl))

/-- Bits that make no good frame are counted; the end bit begins the count in HUNT where it was read recessive at its place (R80). -/
theorem exec_malformedFrame_bad (h : s.takesFrames = true) (hp : parseFrame raw = none) :
    exec (.malformedFrame raw) s = .next { s with bus := { s.bus with
      malformed := min 65535 (s.bus.malformed + 1), rx := .hunt
      huntCount := if raw.endRecessive = true ∧ raw.body.length ≤ 12 then 1 else 0 } } := by
  show execMalformedFrame raw s = _
  unfold execMalformedFrame
  rw [h, hp]
  simp only [Bool.not_true, Bool.false_eq_true, if_false, Bool.and_eq_true, decide_eq_true_eq]
  rfl

/-- Bits that make a good frame act as the frame (log 4). -/
theorem exec_malformedFrame_good (h : s.takesFrames = true) (hp : parseFrame raw = some f) :
    exec (.malformedFrame raw) s = exec (.clashFrame f) s := by
  show execMalformedFrame raw s = .next (s.closeFrame f)
  unfold execMalformedFrame
  rw [h, hp]
  rfl

/-- A frame with the own station number gives the mirror no turn. -/
theorem frameTurn_own (h : f.station = s.bus.own) : s.frameTurn f = s := by
  unfold State.frameTurn
  split
  · exact if_pos h
  · rfl

/-- A good frame with the own station number is a clash and goes no further (R82). -/
theorem closeFrame_own (h : s.takesFrames = true) (hf : frameFieldsOk f = true) (hst : f.station = s.bus.own) :
    s.closeFrame f = (s.setRx .hunt 1).raise .stationClash (BitVec.ofNat 8 f.station.toNat)
      (.stationClash (BitVec.ofNat 3 (frameClass f.body))) := by
  unfold State.closeFrame
  rw [h, frameTurn_own hst, if_pos hf]
  exact if_pos hst

/-- Settles O31: each arrival by whether the receiver takes frames, and a whole frame by its judgement. -/
theorem receiverJudgesFrames : Obligations.ReceiverJudgesFrames := by
  intro s
  refine ⟨exec_busFree_hunt, exec_busFree_elsewhere,
    fun m st c => ⟨rfl, fun _ _ _ => rfl, fun _ => rfl, fun _ => rfl⟩, fun hfree hrec => ?untaken, fun hrx => ?taken⟩
  case untaken =>
    have h := takesFrames_eq_false hfree hrec
    have hclose : ∀ f, Host.Outcome.next (s.closeFrame f) = (.next s : Host.Outcome State Fault Refusal) :=
      fun f => congrArg _ (closeFrame_untaken h f)
    refine ⟨?_, exec_malformedFrame_untaken h, hclose,
      fun m st c => ⟨hclose _, fun _ _ _ => hclose _, fun _ => hclose _, fun _ => hclose _⟩⟩
    rw [exec_busHeaderMalformed, h]
    rfl
  case taken =>
    have h := takesFrames_iff.2 hrx
    refine ⟨?_, fun raw => exec_malformedFrame_bad h, fun raw f => exec_malformedFrame_good h,
      fun f hf hst => congrArg Host.Outcome.next (closeFrame_own h hf hst)⟩
    rw [exec_busHeaderMalformed, h]
    rfl

/-! ## A STATUS and a CLAIM of another station (R83, R97, R98) -/

theorem exec_statusFrame_heard (hrx : s.bus.rx = .free ∨ s.bus.rx = .receiving) (hst : st ≠ s.bus.own) {b : StatusBody}
    (hb : statusOk b = true) : exec (.statusFrame st b) s = .next (s.heard ⟨0, st, .status b⟩) := by
  have hf : frameFieldsOk ⟨0, st, .status b⟩ = true := decide_eq_true ⟨rfl, of_decide_eq_true hb⟩
  exact congrArg Host.Outcome.next (closeFrame_other s ⟨0, st, .status b⟩ hrx hst hf)

theorem exec_claimFrame_heard (hrx : s.bus.rx = .free ∨ s.bus.rx = .receiving) (hst : st ≠ s.bus.own) (hm : meritOk m = true)
    (hc : channelOk c = true) :
    exec (.claimFrame m st c) s = .next ((s.heard ⟨m, st, .claim c⟩).takeClaim c ⟨m, st⟩) := by
  have hf : frameFieldsOk ⟨m, st, .claim c⟩ = true := by
    obtain ⟨hlow, hhigh⟩ := of_decide_eq_true hm
    exact decide_eq_true ⟨hlow, hhigh, of_decide_eq_true hc⟩
  exact congrArg Host.Outcome.next (closeFrame_other s ⟨m, st, .claim c⟩ hrx hst hf)

/-! ## A CLAIM at the takeover unit (R104, R114) -/

theorem replacesClaim_eq (best : Option ForeignClaim) (k : Key) (now : Time) :
    replacesClaim best k now = best.all (fun f => k.better f.key || k.station == f.key.station || before f.expiry now) := by
  cases best <;> rfl

/-- The state in which a heard claim has been recorded for channel `c` with the record `ch`, where R104 has it recorded. -/
def State.claimNoted (s : State) (c : Channel) (ch : Chan) (k : Key) : State :=
  if ch.tk.best.all (fun f => k.better f.key || k.station == f.key.station || before f.expiry s.now) then
    s.modTk c (fun tk => { tk with best := some (s.freshClaim k) })
  else s

/-- A profiled channel's claim is recorded, and the channel yields where it contends with a worse key. -/
theorem takeClaim_eq (h : s.chan? c = some ch) (k : Key) : s.takeClaim c k =
    if ch.contending && ch.tk.ownClaim.any (fun own => k.better own) then
      (((s.claimNoted c ch k).leaveContending c .yielded).armYield c).pass
    else s.claimNoted c ch k := by
  unfold State.takeClaim State.claimNoted
  rw [h]
  simp only [replacesClaim_eq]

theorem takeClaim_unprofiled (h : s.chan? c = none) (k : Key) : s.takeClaim c k = s := by
  unfold State.takeClaim
  rw [h]

/-- A recorded claim leaves the channel its record but for the foreign claim. -/
theorem claimNoted_chan? (h : s.chan? c = some ch) (k : Key) :
    ∃ best, (s.claimNoted c ch k).chan? c = some { ch with tk := { ch.tk with best := best } } := by
  unfold State.claimNoted
  split
  · exact ⟨_, modTk_get s h _⟩
  · exact ⟨ch.tk.best, h⟩

/-- Beside a worse key of an own claim nothing but the record changes (R104). -/
theorem takeClaim_noted (h : s.chan? c = some ch)
    (hn : ch.tk.state = .contending → ch.tk.ownClaim.all (fun own => !Key.better k own) = true) :
    s.takeClaim c k = s.claimNoted c ch k := by
  rw [takeClaim_eq h, if_neg]
  rw [Bool.and_eq_true, contending_iff]
  rintro ⟨hs, ho⟩
  obtain ⟨own, hown, hbetter⟩ := (Option.any_eq_true _ _).1 ho
  have hall := hn hs
  simp [hown, hbetter] at hall

/-- A channel that contends with a worse key yields, and a pass runs (R114). -/
theorem takeClaim_yields (h : s.chan? c = some ch) (hs : ch.tk.state = .contending)
    (ho : ch.tk.ownClaim.any (fun own => Key.better k own) = true) :
    s.takeClaim c k = ((s.claimNoted c ch k).yieldedToClaim c ch.tk.outlet).pass := by
  obtain ⟨best, hx⟩ := claimNoted_chan? h k
  rw [takeClaim_eq h, if_pos (by rw [Bool.and_eq_true]; exact ⟨(contending_iff ch).2 hs, ho⟩), yield_left hx]

/-- The record of a channel that has yielded (R104, R114). -/
theorem yieldedToClaim_chan? (h : s.chan? c = some ch) :
    (s.yieldedToClaim c ch.tk.outlet).chan? c = some { ch with tk := { ch.tk with
      state := .yielded, outlet := none, ownClaim := none, claimSent := false, windowEnd := none
      yieldDl := some (s.tb.now + BitVec.ofNat 48 (2 * (s.sp.claimWindow * 240))) } } := by
  have hl := leaveContending_chan? s c .yielded
  rw [h, leaveContending_left h] at hl
  exact modTk_get _ hl _

/-- A yield of a contending channel changes claims alone. -/
theorem claimsOnly_yieldedToClaim (h : s.chan? c = some ch) (hs : ch.tk.state = .contending) :
    s.ClaimsOnly (s.yieldedToClaim c ch.tk.outlet) := by
  rw [← yield_left h]
  refine claimsOnly_yield s c fun d hd => ?_
  cases h.symm.trans hd
  rw [hs]
  exact ⟨rfl, nofun⟩

theorem claimNoted_time (s : State) (c : Channel) (ch : Chan) (k : Key) :
    (s.claimNoted c ch k).tb = s.tb ∧ (s.claimNoted c ch k).sp = s.sp := by
  unfold State.claimNoted
  split <;> exact ⟨rfl, rfl⟩

/-- Settles O32: a STATUS is heard and goes no further; a CLAIM is heard, recorded by R104, and makes the channel yield by R114. -/
theorem statusAndClaimFramesAct : Obligations.StatusAndClaimFramesAct := by
  intro s st hrx hst
  refine ⟨fun b hb => exec_statusFrame_heard hrx hst hb, fun m c hm hc => ⟨fun hn => ?unprofiled, fun ch h => ?profiled⟩⟩
  case unprofiled =>
    rw [exec_claimFrame_heard hrx hst hm hc, takeClaim_unprofiled (s := s.heard ⟨m, st, .claim c⟩) hn]
  case profiled =>
    have hh : (s.heard ⟨m, st, .claim c⟩).chan? c = some ch := h
    rw [exec_claimFrame_heard hrx hst hm hc]
    refine ⟨fun hn => congrArg Host.Outcome.next (takeClaim_noted hh hn), fun hs ho => ?_⟩
    obtain ⟨best, hx⟩ := claimNoted_chan? hh ⟨m, st⟩
    obtain ⟨htb, hsp⟩ := claimNoted_time (s.heard ⟨m, st, .claim c⟩) c ch ⟨m, st⟩
    have hy := yieldedToClaim_chan? hx
    refine ⟨_, _, congrArg Host.Outcome.next (takeClaim_yields hh hs ho), pass_passed _,
      (claimsOnly_yieldedToClaim hx hs).trans (claimsOnly_pass _), pass_other hy rfl, rfl, rfl, rfl, rfl, rfl, ?_⟩
    rw [htb, hsp]
    rfl

end Sys2Proof.Machine
end

section
/-! SUPPORT. The transmit queue: where an offered frame and a returned one are placed, what a full queue drops, and which RELEASE is not
offered, with the statement about it (05_the_site_bus.md 5.4 and 5.5, 06_claims_and_takeover.md 6.7). -/

namespace Sys2Proof.Machine
-- Proofs are checked one after another: in parallel they would not fit the memory that the check allows.
set_option Elab.async false

variable {s : State} {f last : Frame} {front : List Frame} {place : Frame → List Frame → List Frame} {c : Channel}

/-! ## A RELEASE that waits (R124) -/

theorem isReleaseFor_iff {b : FrameBody} : isReleaseFor c b = true ↔ ∃ why, b = .release c why := by
  cases b with
  | release d why => simp [isReleaseFor, eq_comm (a := c)]
  | _ => simp [isReleaseFor]

theorem releaseWaiting_iff : s.releaseWaiting c = true ↔
    (∃ f ∈ s.bus.queue, ∃ why, f.body = .release c why) ∨
      ∃ a why, s.bus.attempt = some a ∧ a.frame.body = .release c why := by
  simp [State.releaseWaiting, List.any_eq_true, Option.any_eq_true, isReleaseFor_iff]

/-! ## A frame that replaces none (R84, R85) -/

theorem enqueueBy_room (h : s.bus.queue.length < 8) (place : Frame → List Frame → List Frame) (f : Frame) :
    s.enqueueBy place f = s.setQueue (place f s.bus.queue) := if_pos h

/-- At 8 frames the last one is judged by its field against the new one's (R85). -/
theorem enqueueBy_full (hq : s.bus.queue = front ++ [last]) (hl : s.bus.queue.length = 8)
    (place : Frame → List Frame → List Frame) (f : Frame) : s.enqueueBy place f =
      if frameField f < frameField last then (s.setQueue (place f front)).countDrop else s.countDrop := by
  have hfull : ¬ s.bus.queue.length < Config.transmitDepth := by rw [hl]; decide
  have hlast : s.bus.queue.getLast? = some last := by rw [hq, List.getLast?_concat]
  have hfront : s.bus.queue.dropLast = front := by rw [hq, List.dropLast_concat]
  unfold State.enqueueBy
  simp only [if_neg hfull, hlast, hfront]

/-! ## Offered and returned (R84 to R87) -/

theorem offerFrame_replaces (h : s.bus.queue.any (fun g => coalesces f.body g.body) = true) :
    s.offerFrame f = s.setQueue (insertOffered f (s.bus.queue.filter (fun g => !coalesces f.body g.body))) := if_pos h

theorem offerFrame_new (h : s.bus.queue.any (fun g => coalesces f.body g.body) = false) :
    s.offerFrame f = s.enqueueBy insertOffered f := if_neg (by rw [h]; nofun)

/-- A newer frame of the kind replaced the one under attempt (R87). -/
theorem returnFrame_replaced (h : s.bus.queue.any (fun g => coalesces f.body g.body) = true) (w : Bool) :
    s.returnFrame ⟨f, w⟩ = s := by
  cases w with
  | true => rfl
  | false => exact if_pos h

theorem returnFrame_new (h : s.bus.queue.any (fun g => coalesces f.body g.body) = false) :
    s.returnFrame ⟨f, false⟩ = s.enqueueBy insertReturned f :=
  (if_neg nofun).trans (if_neg (by rw [h]; nofun))

/-- Settles O34: the RELEASE that waits, then the queue by whether the frame replaces one, finds room, or finds the queue full. -/
theorem offeredFrameIsPlaced : Obligations.OfferedFrameIsPlaced := by
  refine ⟨fun s c k why => ⟨fun h => if_pos (releaseWaiting_iff.2 h), fun h => if_neg (mt releaseWaiting_iff.1 h)⟩,
    fun s f hsorted _ => ⟨fun hany => ?replaces, fun hany => ⟨rfl, fun hroom => ?room, fun front last hq hl => ?full⟩⟩⟩
  case replaces =>
    obtain ⟨p, q, hpq, hp, hq, hins⟩ := insertOffered_split f _ (hsorted.filter (fun g => !coalesces f.body g.body))
    refine ⟨p, q, hpq, hp, hq, ?_, returnFrame_replaced hany⟩
    rw [offerFrame_replaces hany, hins]
    rfl
  case room =>
    obtain ⟨p, q, hpq, hp, hq, hins⟩ := insertOffered_split f _ hsorted
    obtain ⟨p', q', hpq', hp', hq', hins'⟩ := insertReturned_split f _ hsorted
    refine ⟨p, q, p', q', hpq, hpq', hp, hq, hp', hq', ?_, ?_⟩
    · rw [offerFrame_new hany, enqueueBy_room hroom, hins]
      rfl
    · rw [returnFrame_new hany, enqueueBy_room hroom, hins']
      rfl
  case full =>
    rw [offerFrame_new hany, returnFrame_new hany, enqueueBy_full hq hl, enqueueBy_full hq hl]
    refine ⟨fun hlt => ?_, fun hle => ?_⟩
    · have hfront : front.Pairwise (fun x y => frameField x ≤ frameField y) :=
        (hq ▸ hsorted).sublist (List.sublist_append_left front [last])
      obtain ⟨p, q, hpq, hp, hq, hins⟩ := insertOffered_split f _ hfront
      obtain ⟨p', q', hpq', hp', hq', hins'⟩ := insertReturned_split f _ hfront
      rw [if_pos hlt, if_pos hlt, hins, hins']
      exact ⟨p, q, p', q', hpq, hpq', hp, hq, hp', hq', rfl, rfl⟩
    · rw [if_neg hle.not_gt, if_neg hle.not_gt]
      exact ⟨rfl, rfl⟩

end Sys2Proof.Machine
end

section
/-! SUPPORT. An attempt and its ends: the frame it takes, an arbitration loss, a bit fault and a frame sent whole, with the statement
about them (05_the_site_bus.md 5.5, 06_claims_and_takeover.md 6.5). -/

namespace Sys2Proof.Machine
-- Proofs are checked one after another: in parallel they would not fit the memory that the check allows.
set_option Elab.async false

variable {s : State} {f : Frame} {p q : List Frame} {a : Attempt} {c : Channel} {ch : Chan}

/-! ## The frame taken (R87) -/

/-- The first element that passes the test, by what stands before it. -/
theorem takeFirst_append {α : Type} {test : α → Bool} {x : α} {before rest : List α} (hb : ∀ y ∈ before, test y = false)
    (hx : test x = true) : takeFirst test (before ++ x :: rest) = some (x, before ++ rest) := by
  induction before with
  | nil => exact if_pos hx
  | cons y before ih =>
    have hy : ¬ test y = true := by rw [hb y List.mem_cons_self]; nofun
    rw [List.cons_append, takeFirst, if_neg hy, ih fun z hz => hb z (List.mem_cons_of_mem y hz)]
    rfl

theorem takeFirst_eq_none {α : Type} {test : α → Bool} {l : List α} (h : ∀ y ∈ l, test y = false) : takeFirst test l = none := by
  cases ht : takeFirst test l with
  | none => rfl
  | some r =>
    obtain ⟨before, rest, rfl, -, hx, -⟩ := takeFirst_some ht
    rw [h r.1 (List.mem_append_right before List.mem_cons_self)] at hx
    cases hx

theorem takeForAttempt_active (f : Frame) (q : List Frame) : takeForAttempt .active (f :: q) = some (f, q) := rfl

theorem takeForAttempt_listeningIn (hf : isClaim f.body = false) (hp : ∀ g ∈ p, isClaim g.body = true) :
    takeForAttempt .listeningIn (p ++ f :: q) = some (f, p ++ q) :=
  takeFirst_append (fun g hg => by rw [hp g hg]; rfl) (by rw [hf]; rfl)

theorem takeForAttempt_listeningIn_none (hq : ∀ g ∈ q, isClaim g.body = true) : takeForAttempt .listeningIn q = none :=
  takeFirst_eq_none fun g hg => by rw [hq g hg]; rfl

theorem takeForAttempt_nil (st : BusState) : takeForAttempt st [] = none := by cases st <;> rfl

/-! ## The attempt (R78, R87) -/

theorem exec_attempt_takes (hrx : s.bus.rx = .free) (ha : s.bus.attempt = none)
    (ht : takeForAttempt s.bus.state s.bus.queue = some (f, q)) :
    exec .attempt s = .next { s with bus := { s.bus with
      queue := q, attempt := some ⟨f, false⟩, driving := frameBits f, rx := .receiving, huntCount := 0 } } := by
  show execAttempt s = _
  unfold execAttempt
  rw [if_pos ⟨hrx, by rw [ha]; rfl⟩, ht]

theorem exec_attempt_busy (h : s.bus.rx ≠ .free ∨ s.bus.attempt ≠ none) : exec .attempt s = .next s := by
  refine congrArg Host.Outcome.next (if_neg fun hc => ?_)
  obtain ⟨hrx, ha⟩ := hc
  exact h.elim (· hrx) (· (Option.isNone_iff_eq_none.1 ha))

theorem exec_attempt_none (ht : takeForAttempt s.bus.state s.bus.queue = none) : exec .attempt s = .next s := by
  show execAttempt s = _
  unfold execAttempt
  rw [ht]
  exact congrArg Host.Outcome.next (ite_self s)

/-! ## Its ends (R88 to R90, R112) -/

theorem exec_noAttempt (h : s.bus.attempt = none) :
    exec .arbitrationLoss s = .next s ∧ exec .bitFault s = .next s ∧ exec .sentWhole s = .next s := by
  show execArbitrationLoss s = .next s ∧ execBitFault s = .next s ∧ execSentWhole s = .next s
  unfold execArbitrationLoss execBitFault execSentWhole
  rw [h]
  exact ⟨rfl, rfl, rfl⟩

theorem exec_arbitrationLoss (h : s.bus.attempt = some a) :
    exec .arbitrationLoss s = .next (State.returnFrame { s with bus := { s.bus with
      attempt := none, driving := [], losses := min 65535 (s.bus.losses + 1) } } a) := by
  show execArbitrationLoss s = _
  unfold execArbitrationLoss
  rw [h]
  rfl

/-- Fewer than sixteen bit faults in a row leave the bus state as it is (R89, R91). -/
theorem exec_bitFault_counted (h : s.bus.attempt = some a) (hn : s.bus.faults + 1 < 16) :
    exec .bitFault s = .next (State.returnFrame { s with bus := { s.bus with
      attempt := none, driving := [], faults := s.bus.faults + 1 } } a) := by
  have hfaults : (State.returnFrame { s with bus := { s.bus with
      attempt := none, driving := [], faults := s.bus.faults + 1 } } a).bus.faults = s.bus.faults + 1 := by
    rw [returnFrame_bus]
  show execBitFault s = _
  unfold execBitFault
  rw [h]
  refine congrArg Host.Outcome.next (if_neg ?_)
  exact fun hq => absurd (hfaults ▸ hq : 16 ≤ s.bus.faults + 1) hn.not_ge

/-- The bus controller after its frame was sent whole (R80, R90). -/
def State.sent (s : State) : State :=
  { s with bus := { s.bus with attempt := none, driving := [], faults := 0, rx := .hunt, huntCount := 1 } }

theorem exec_sentWhole_claim (h : s.bus.attempt = some a) (hb : a.frame.body = .claim c) :
    exec .sentWhole s = .next (s.sent.claimSentReport c a.frame.merit) := by
  show execSentWhole s = _
  unfold execSentWhole
  simp only [h, hb]
  rfl

theorem exec_sentWhole_other (h : s.bus.attempt = some a) (hb : isClaim a.frame.body = false) :
    exec .sentWhole s = .next s.sent := by
  show execSentWhole s = _
  unfold execSentWhole
  rw [h]
  cases hbody : a.frame.body with
  | claim c => rw [hbody] at hb; cases hb
  | _ => simp only [hbody]; rfl

theorem claimSentReport_unprofiled (h : s.chan? c = none) (m : Byte) : s.claimSentReport c m = s := by
  unfold State.claimSentReport
  rw [h]

/-- The report counts for a contending channel with the merit that was sent (R112). -/
theorem claimSentReport_eq (h : s.chan? c = some ch) (m : Byte) : s.claimSentReport c m =
    if ch.tk.state = .contending ∧ ch.tk.ownClaim.map (·.merit) = some m then
      s.modTk c (fun tk => { tk with claimSent := true, windowEnd := some (plus s.now (s.windowGrains c)) })
    else s := by
  have hown : ch.tk.ownClaim.any (fun k => k.merit == m) = true ↔ ch.tk.ownClaim.map (·.merit) = some m := by
    cases ch.tk.ownClaim <;> simp
  unfold State.claimSentReport
  rw [h]
  simp only [Bool.and_eq_true, contending_iff, hown]

/-- Settles O35: the attempt by the frame there is to take, then each of its ends. -/
theorem attemptsAndTheirEnds : Obligations.AttemptsAndTheirEnds := by
  intro s
  refine ⟨fun p q f hrx ha hq htakes => ?takes, fun hno => ?idle, exec_noAttempt,
    fun a ha => ⟨exec_arbitrationLoss ha, exec_bitFault_counted ha, exec_sentWhole_other ha, fun c hb => ?claim⟩⟩
  case takes =>
    refine exec_attempt_takes hrx ha ?_
    rw [hq]
    rcases htakes with ⟨hst, rfl⟩ | ⟨hst, hf, hp⟩
    · rw [hst]
      exact takeForAttempt_active f q
    · rw [hst]
      exact takeForAttempt_listeningIn hf hp
  case idle =>
    rcases hno with h | h | hst | hst | hq | ⟨hst, hq⟩
    · exact exec_attempt_busy (.inl h)
    · exact exec_attempt_busy (.inr h)
    · exact exec_attempt_none (by rw [hst]; rfl)
    · exact exec_attempt_none (by rw [hst]; rfl)
    · exact exec_attempt_none (by rw [hq]; exact takeForAttempt_nil _)
    · exact exec_attempt_none (by rw [hst]; exact takeForAttempt_listeningIn_none hq)
  case claim =>
    rw [exec_sentWhole_claim ha hb]
    refine ⟨fun hn => congrArg Host.Outcome.next (claimSentReport_unprofiled (s := s.sent) hn _), fun ch h => ?_⟩
    rw [claimSentReport_eq (s := s.sent) h]
    exact ⟨fun hs hm => congrArg Host.Outcome.next (if_pos ⟨hs, hm⟩),
      fun hn => congrArg Host.Outcome.next (if_neg (not_and_or.2 hn))⟩

end Sys2Proof.Machine
end

section
/-! SUPPORT. FORCE_LOST: the watch record forced, with its report where the channel was not LOST before, and the statement about it
(R73, R75, R197). -/

namespace Sys2Proof.Machine
-- Proofs are checked one after another: in parallel they would not fit the memory that the check allows.
set_option Elab.async false

variable {s : State} {c : Channel} {ch : Chan}

theorem exec_forceLost (hl : s.locked = true) (hc : s.chan? c = some ch) :
    exec (.forceLost [c]) s = .next ((s.forceLost c ch).done []) := by
  show Host.Outcome.next (s.byChannel [c] _) = _
  rw [byChannel_eq hl hc, chan?_channel hc]

/-- LIVE, DOUBTFUL and RETURNING are taken to LOST in one change of the record with its report (R73). -/
theorem forceLost_loses (hw : ch.watch.state = .live ∨ ch.watch.state = .doubtful ∨ ch.watch.state = .returning) :
    s.forceLost c ch = ((s.modWatch c (fun w => { w with forced := true, returns := 0 })).setWatch c .lost .forced).settle := by
  unfold State.forceLost
  rcases hw with h | h | h <;> simp only [h, modWatch_modWatch]

theorem forceLost_marks (hw : ch.watch.state = .unseen ∨ ch.watch.state = .lost) :
    s.forceLost c ch = s.modWatch c (fun w => { w with forced := true }) := by
  unfold State.forceLost
  rcases hw with h | h <;> simp only [h]

/-- Settles O29: the forced record with its report in the states that FORCE_LOST leaves, and the mark alone in the others. -/
theorem forceLostActs : Obligations.ForceLostActs := by
  intro s c ch hl hr hd hc
  refine ⟨fun hw => ?_, fun hw => by rw [exec_forceLost hl hc, forceLost_marks hw]⟩
  have hne : ch.watch.state ≠ .lost := by rcases hw with h | h | h <;> rw [h] <;> nofun
  obtain ⟨hwatch, hmoved, hnoticed⟩ := settled_setWatch_acts hr hd hc (f := fun w => { w with forced := true, returns := 0 })
    rfl .lost .forced
  exact ⟨_, by rw [exec_forceLost hl hc, forceLost_loses hw], hwatch, hnoticed rfl hne, hmoved⟩

end Sys2Proof.Machine
end

section
/-! SUPPORT. ALLOW and INHIBIT in every takeover state, and what leaving CONTENDING leaves of the channel, with the statement about them
(R108 to R111, R115, R125). -/

namespace Sys2Proof.Machine
-- Proofs are checked one after another: in parallel they would not fit the memory that the check allows.
set_option Elab.async false

variable {s : State} {c : Channel} {ch : Chan}

/-! ## Leaving CONTENDING (R110, R115) -/

/-- The record of a channel that has left CONTENDING (R110, R115). -/
theorem leftContending_chan? (h : s.chan? c = some ch) (next : TakeoverState) :
    (s.leftContending c ch.tk.outlet next).chan? c = some { ch with tk := { ch.tk with
      state := next, outlet := none, ownClaim := none, claimSent := false, windowEnd := none } } := by
  have hl := leaveContending_chan? s c next
  rwa [h, leaveContending_left h] at hl

theorem claimsOnly_leftContending (h : s.chan? c = some ch) (hs : ch.tk.state = .contending) (next : TakeoverState) :
    s.ClaimsOnly (s.leftContending c ch.tk.outlet next) := by
  rw [← leaveContending_left h]
  refine claimsOnly_leaveContending s c next fun d hd => ?_
  cases h.symm.trans hd
  rw [hs]
  exact ⟨rfl, nofun⟩

/-! ## ALLOW and INHIBIT (R125, R199, R200) -/

theorem exec_allow (hl : s.locked = true) (h : s.chan? c = some ch) :
    exec (.allow [c]) s = .next (((s.modTk c (fun tk => { tk with inhibit := false })).check c).done []) := by
  show Host.Outcome.next (s.byChannel [c] _) = _
  rw [byChannel_eq hl h, chan?_channel h]
  rfl

theorem exec_inhibit (hl : s.locked = true) (h : s.chan? c = some ch) :
    exec (.inhibit [c]) s = .next ((s.inhibit c ch).done []) := by
  show Host.Outcome.next (s.byChannel [c] _) = _
  rw [byChannel_eq hl h, chan?_channel h]

theorem inhibit_checked (hk : ch.tk.state.checked = true) :
    s.inhibit c ch = (s.modTk c (fun tk => { tk with inhibit := true })).check c := by
  unfold State.inhibit
  cases hs : ch.tk.state with
  | idle => rfl
  | blocked => rfl
  | _ => rw [hs] at hk; cases hk

theorem inhibit_contending (h : s.chan? c = some ch) (hs : ch.tk.state = .contending) :
    s.inhibit c ch = ((s.modTk c (fun tk => { tk with inhibit := true })).leftContending c ch.tk.outlet (.blocked .inhibited)).pass := by
  have hu := modTk_get s h (fun tk => { tk with inhibit := true })
  unfold State.inhibit
  rw [hs]
  exact congrArg State.pass (leaveContending_left hu _)

theorem inhibit_yielded (hs : ch.tk.state = .yielded) : s.inhibit c ch =
    (s.modTk c (fun tk => { tk with inhibit := true })).modTk c (fun tk =>
      { tk with state := .blocked .inhibited, yieldDl := none }) := by
  unfold State.inhibit
  rw [hs]

theorem inhibit_elsewhere (hs : ch.tk.state.holding = true ∨ ch.tk.state = .detached) :
    s.inhibit c ch = s.modTk c (fun tk => { tk with inhibit := true }) := by
  unfold State.inhibit
  cases hst : ch.tk.state with
  | detached => rfl
  | joining => rfl
  | onAir => rfl
  | handingBack => rfl
  | _ => rw [hst] at hs; rcases hs with hs | hs <;> cases hs

/-- Settles O38: ALLOW is the check, and INHIBIT one of its four effects by the takeover state. -/
theorem takeoverCheckFollowsTable : Obligations.TakeoverCheckFollowsTable := by
  intro s c ch hl h
  have allowed := modTk_get s h (fun tk => { tk with inhibit := false })
  have inhibited := modTk_get s h (fun tk => { tk with inhibit := true })
  refine ⟨⟨fun hk => ⟨_, exec_allow hl h, check_checked allowed hk⟩, fun hk => ?_⟩,
    ⟨fun hk => ⟨_, by rw [exec_inhibit hl h, inhibit_checked hk], check_checked inhibited hk⟩, fun hs => ?_,
      fun hs => by rw [exec_inhibit hl h, inhibit_yielded hs], fun hs => by rw [exec_inhibit hl h, inhibit_elsewhere hs]⟩⟩
  · rw [exec_allow hl h, check_unchecked allowed hk]
  · have hleft := leftContending_chan? inhibited (.blocked .inhibited)
    have hclaims := claimsOnly_leftContending inhibited hs (.blocked .inhibited)
    obtain ⟨x, hx, hun⟩ := pass_uncontending _ c _ hleft (.inl rfl) nofun
    exact ⟨_, x, by rw [exec_inhibit hl h, inhibit_contending h hs], pass_passed _, hclaims.trans (claimsOnly_pass _), hx,
      hun.outlet, hun.ownClaim, hun.claimSent, hun.windowEnd, hun.notContending, fun hrank hlost hawait hactive =>
        hun.stays rfl rfl hrank hlost hawait ((claimsOnly_busState hclaims).trans hactive)⟩

end Sys2Proof.Machine
end

section
/-! SUPPORT. Leaving ACTIVE: what ends the claims of every contending channel, the entry to QUIET and BUS_RESTART each as one change of
the bus controller before it, and the statement about them (R91, R92, R99, R110, R115). -/

namespace Sys2Proof.Machine
-- Proofs are checked one after another: in parallel they would not fit the memory that the check allows.
set_option Elab.async false

variable {s t q : State} {a : Attempt}

/-! ## The claims that end (R115) -/

/-- No channel of `t` contends, and each that contended in `s` is out of CONTENDING with its claim fields absent (R110, R115). -/
def State.ClaimsEnded (s t : State) : Prop :=
  (∀ c x, t.chan? c = some x → x.tk.state ≠ .contending) ∧
  ∀ c ch, s.chan? c = some ch → ch.tk.state = .contending → ∃ x, t.chan? c = some x ∧
    (x.tk.state = .idle ∨ x.tk.state = .blocked .awaitLive) ∧ x.tk.ownClaim = none ∧ x.tk.claimSent = false ∧
    x.tk.windowEnd = none ∧ x.tk.outlet = none

theorem State.ClaimsEnded.of_chans (hq : q.chans = s.chans) (h : q.ClaimsEnded t) : s.ClaimsEnded t := by
  have hchan : ∀ c, q.chan? c = s.chan? c := fun c => by unfold State.chan?; rw [hq]
  exact ⟨h.1, fun c ch hc => h.2 c ch ((hchan c).trans hc)⟩

/-- Channel by channel, the claims have ended before the pass (R115). -/
theorem leaveAllContending_ended (s : State) : s.ClaimsEnded (s.leaveAllContending s.passOrder) := by
  have left := leaveAllContending_chan s.passOrder s
  refine ⟨fun c x hx => ?_, fun c ch hc hk => ⟨_, (left c ch hc).2 hk (mem_passOrder hc), .inl rfl, rfl, rfl, rfl, rfl⟩⟩
  have hs := (claimsOnly_leaveAllContending s.passOrder s).chan c
  cases hc : s.chan? c with
  | none => rw [hx, hc] at hs; cases hs
  | some ch =>
    by_cases hk : ch.tk.state = .contending
    · rw [(left c ch hc).2 hk (mem_passOrder hc)] at hx
      cases hx
      nofun
    · rw [(left c ch hc).1 hk] at hx
      cases hx
      exact hk

/-- Off ACTIVE, the claims end one after another, and a pass takes no channel back to CONTENDING (R108, R115). -/
theorem busLeftActive_leaves (hb : q.bus.state ≠ .active) (hq : q.chans = s.chans) :
    q.ClaimsOnly q.busLeftActive ∧ s.ClaimsEnded q.busLeftActive ∧
      ∃ (u : State) (freed : Bool), q.InRankOrder State.LeaveStep u freed ∧ q.ClaimsOnly u ∧ s.ClaimsEnded u ∧
        u.Passed q.busLeftActive := by
  obtain ⟨freed, hrank⟩ := leaveAll_ranked q
  exact ⟨claimsOnly_busLeftActive q, .of_chans hq (busLeftActive_ends q hb), _, freed, hrank, claimsOnly_leaveAllContending _ q,
    .of_chans hq (leaveAllContending_ended q), pass_passed _⟩

/-! ## Entering QUIET (R91) -/

/-- The state after the bit fault that ends attempt `a`, its frame back in the queue (R87, R89). -/
def State.faulted (s : State) (a : Attempt) : State :=
  State.returnFrame { s with bus := { s.bus with attempt := none, driving := [], faults := s.bus.faults + 1 } } a

/-- QUIET entered from there, before any claim ends (R91). -/
def State.quieted (s : State) (a : Attempt) : State :=
  State.raise { s.faulted a with bus := { (s.faulted a).bus with
    state := .quiet, quietFromListening := s.bus.state == .listeningIn, quietDl := some (s.tb.now + 240000) } } .busQuiet 0
    (.busQuiet (s.bus.state == .listeningIn))

theorem faulted_rest (s : State) (a : Attempt) : s.faulted a = { s with bus := { s.bus with
    attempt := none, driving := [], faults := s.bus.faults + 1
    queue := (s.faulted a).bus.queue, drops := (s.faulted a).bus.drops } } := returnFrame_bus _ a

theorem enterQuiet_faulted (s : State) (a : Attempt) :
    (s.faulted a).enterQuiet = if s.bus.state = .active then (s.quieted a).busLeftActive else s.quieted a := by
  have hbus : (s.faulted a).bus.state = s.bus.state := by rw [faulted_rest]
  have hnow : (s.faulted a).now = s.tb.now := by rw [faulted_rest]; rfl
  unfold State.enterQuiet
  dsimp only
  rw [hbus, hnow]
  exact if_congr beq_iff_eq rfl rfl

/-- The sixteenth bit fault in a row enters QUIET (R91). -/
theorem exec_bitFault_quiets (h : s.bus.attempt = some a) (hn : 16 ≤ s.bus.faults + 1) :
    exec .bitFault s = .next (if s.bus.state = .active then (s.quieted a).busLeftActive else s.quieted a) := by
  have hfaults : (s.faulted a).bus.faults = s.bus.faults + 1 := by rw [faulted_rest]
  show execBitFault s = _
  unfold execBitFault
  rw [h, ← enterQuiet_faulted]
  exact congrArg Host.Outcome.next (if_pos (show 16 ≤ (s.faulted a).bus.faults from hfaults ▸ hn))

/-! ## BUS_RESTART (R99) -/

/-- The bus controller cleared and in LISTENING_IN, before a STATUS is offered (R92, R99). -/
def State.cleared (s : State) : State :=
  { s with bus := { s.bus with
    state := .listeningIn, listeningDl := some (s.tb.now + BitVec.ofNat 48 (2 * (s.sp.statusPeriod * 240)))
    attempt := none, driving := [], queue := [], faults := 0, losses := 0, quietDl := none, rx := .hunt, huntCount := 0
    peers := Vector.replicate 16 { presence := .absent, lastFrame := none, silenceDl := none, status := none }
    heard := 0 } }

theorem restartBus_eq (s : State) :
    s.restartBus = if s.bus.state = .active then s.cleared.freshStatus.busLeftActive else s.cleared.freshStatus :=
  if_congr beq_iff_eq rfl rfl

theorem freshStatus_chans (s : State) : s.freshStatus.chans = s.chans := by
  have h := congrArg State.chans (offerFrame_rest s { merit := 0, station := s.bus.own, body := .status s.statusBody })
  rw [freshStatus_eq]
  exact h

theorem freshStatus_busState (s : State) : s.freshStatus.bus.state = s.bus.state := by
  have h := congrArg BusCtl.state (keeps_offerStatus (Keeps.refl s)).bus
  rw [freshStatus_eq]
  exact h

/-- Settles O37: both ways out of ACTIVE change the bus controller first and then end the claims in the one way of R115. -/
theorem leavingActiveEndsEveryClaim : Obligations.LeavingActiveEndsEveryClaim := by
  intro s
  refine ⟨fun a ha hn => ?_, fun hl => ?_⟩
  · have he := exec_bitFault_quiets ha hn
    have hchans := congrArg State.chans (faulted_rest s a)
    refine ⟨fun hs => by rw [he, if_neg hs]; rfl, fun hs => ⟨_, he.trans (congrArg _ (if_pos hs)), ?_⟩⟩
    exact busLeftActive_leaves (q := s.quieted a) nofun hchans
  · have he := exec_busRestart hl
    rw [restartBus_eq] at he
    have hoff : s.cleared.freshStatus.bus.state ≠ .active := by rw [freshStatus_busState]; nofun
    have hleaves := busLeftActive_leaves hoff (freshStatus_chans s.cleared)
    rw [freshStatus_eq] at he hleaves
    exact ⟨fun hs => by rw [he, if_neg hs]; rfl, fun hs => ⟨_, by rw [he, if_pos hs], hleaves⟩⟩

end Sys2Proof.Machine
end

section
/-! SUPPORT. A hold that ends: what a stop now, a RELEASE and the closing of the run leave, each said once of the state the hold stood in
(R121, R123 to R125, R150, R168). -/

namespace Sys2Proof.Machine
-- Proofs are checked one after another: in parallel they would not fit the memory that the check allows.
set_option Elab.async false

variable {s t u : State} {c : Channel} {ch : Chan} {o : OutletNo}

/-! ## What the closing of a run reads (R37, R150, R152) -/

/-- What the closing of a run reads and writes is as it was: every channel, the free list, the as-run queue with its drop count and
its notice, the reports and the time base. -/
structure SameRuns (s t : State) : Prop where
  chans : t.chans = s.chans
  poolFree : t.poolFree = s.poolFree
  asrun : t.asrun = s.asrun
  asrunDrops : t.asrunDrops = s.asrunDrops
  watermark : t.notices[(11 : Fin 12)] = s.notices[(11 : Fin 12)]
  reports : t.reports = s.reports
  tb : t.tb = s.tb

theorem SameRuns.refl (s : State) : SameRuns s s := ⟨rfl, rfl, rfl, rfl, rfl, rfl, rfl⟩

theorem SameRuns.trans (h : SameRuns s t) (k : SameRuns t u) : SameRuns s u :=
  ⟨k.chans.trans h.chans, k.poolFree.trans h.poolFree, k.asrun.trans h.asrun, k.asrunDrops.trans h.asrunDrops,
    k.watermark.trans h.watermark, k.reports.trans h.reports, k.tb.trans h.tb⟩

theorem SameRuns.chan? (h : SameRuns s t) (c : Channel) : t.chan? c = s.chan? c := by
  unfold State.chan?
  rw [h.chans]

theorem SameRuns.records (h : SameRuns s t) : s.Records t none := ⟨h.asrun, h.asrunDrops, h.watermark⟩

theorem sameRuns_offerFrame (s : State) (f : Frame) : SameRuns s (s.offerFrame f) := by
  rw [offerFrame_rest]
  exact ⟨rfl, rfl, rfl, rfl, rfl, rfl, rfl⟩

theorem sameRuns_offerRelease (s : State) (c : Channel) (k : Key) (why : ReleaseReason) : SameRuns s (s.offerRelease c k why) := by
  unfold State.offerRelease
  split
  · exact .refl s
  · exact sameRuns_offerFrame s _

theorem number_watermark (cls : NoticeClass) : cls.number = 11 ↔ cls = .timeOrAsrun := by
  cases cls <;> decide

theorem sameRuns_raise (s : State) {cls : NoticeClass} (h : cls ≠ .timeOrAsrun) (b : Byte) (d : NoticeCode) :
    SameRuns s (s.raise cls b d) :=
  ⟨rfl, rfl, rfl, rfl, raise_other s cls b d 11 (fun e => h ((number_watermark cls).1 e.symm)), rfl, rfl⟩

theorem sameRuns_settleOrder (s : State) (o : OutletNo) : SameRuns s (s.settleOrder o) := by
  obtain ⟨-, -, hchans, hnotices, hasrun, hreports, htb, -, -, hdrops, hpool⟩ := settleOrder_keeps s o
  exact ⟨hchans, hpool, hasrun, hdrops, by rw [hnotices], hreports, htb⟩

theorem sameRuns_modOutlet (s : State) (o : OutletNo) (f : Outlet → Outlet) : SameRuns s (s.modOutlet o f) :=
  ⟨rfl, rfl, rfl, rfl, rfl, rfl, rfl⟩

/-- A changed outlet with its place in the send order. -/
theorem sameRuns_settled (s : State) (o : OutletNo) (f : Outlet → Outlet) : SameRuns s ((s.modOutlet o f).settleOrder o) :=
  (sameRuns_modOutlet s o f).trans (sameRuns_settleOrder _ o)

theorem offerRelease_outlet (s : State) (c : Channel) (k : Key) (why : ReleaseReason) (p : OutletNo) :
    (s.offerRelease c k why).outlet p = s.outlet p := by
  obtain ⟨-, houtlets, -⟩ := offerRelease_keeps s c k why
  unfold State.outlet
  rw [houtlets]

theorem offerRelease_notices (s : State) (c : Channel) (k : Key) (why : ReleaseReason) :
    (s.offerRelease c k why).notices = s.notices := (offerRelease_keeps s c k why).2.2.1

/-- A notice raised is one raised since a state in which its class stood the same. -/
theorem State.Noticed.since {i : Fin 12} {b : Byte} {d : NoticeCode} (h : t.Noticed u i b d) (k : t.notices[i] = s.notices[i]) :
    s.Noticed u i b d := by
  unfold State.Noticed at h ⊢
  rwa [k] at h

/-! ## A stop now (R168) -/

theorem stopNow_elsewhere (h : ¬ ((s.outlet o).state = .reserved ∨ (s.outlet o).state = .air)) : s.stopNow o = s := by
  unfold State.stopNow
  cases hs : (s.outlet o).state with
  | reserved => exact absurd (.inl hs) h
  | air => exact absurd (.inr hs) h
  | _ => rfl

/-- The STOP of a stop now finds its outlet's queue empty, so it is never dropped (R157, R168). -/
theorem stopNow_eq (h : (s.outlet o).state = .reserved ∨ (s.outlet o).state = .air) :
    ∃ f g : Outlet → Outlet, s.stopNow o = ((((s.toStopping o Cmd.isStop).modOutlet o f).modOutlet o g).settleOrder o) := by
  have hq : ((s.toStopping o Cmd.isStop).outlet o).queue = [] := by
    unfold State.toStopping
    rw [settleOrder_outlet, outlet_modOutlet_self]
  refine ⟨fun x => { x with armed := some { at_ := 0, outcome := .pending }
                            outstanding := x.outstanding.map (fun u => { u with cmd := u.cmd.undecide }) },
    fun x => { x with queue := x.queue ++ [.stop 0 true] }, ?_⟩
  unfold State.stopNow
  rcases h with h | h <;>
    simp [h, State.requestStop, State.offerCmd, hq, cmdKind, Config.commandDepth]

theorem sameRuns_stopNow (s : State) (o : OutletNo) : SameRuns s (s.stopNow o) := by
  by_cases h : (s.outlet o).state = .reserved ∨ (s.outlet o).state = .air
  · obtain ⟨f, g, e⟩ := stopNow_eq h
    rw [e]
    exact (sameRuns_settled s o _).trans ((sameRuns_modOutlet _ o f).trans (sameRuns_settled _ o g))
  · rw [stopNow_elsewhere h]
    exact .refl s

theorem stopNow_rest (s : State) (o : OutletNo) : (s.stopNow o).bus = s.bus ∧ (s.stopNow o).notices = s.notices := by
  by_cases h : (s.outlet o).state = .reserved ∨ (s.outlet o).state = .air
  · exact ⟨(stopNow_stopped s o h).bus, (stopNow_stopped s o h).notices⟩
  · rw [stopNow_elsewhere h]
    exact ⟨rfl, rfl⟩

theorem stopNow_others (s : State) {o p : OutletNo} (hp : p ≠ o) : (s.stopNow o).outlet p = s.outlet p := by
  by_cases h : (s.outlet o).state = .reserved ∨ (s.outlet o).state = .air
  · exact (stopNow_stopped s o h).others p hp
  · rw [stopNow_elsewhere h]

/-! ## The closing of the run (R150) -/

/-- A run closed in `t`, told of the state `s` before a RELEASE, notices and an outlet's changes (R37, R41, R150). -/
structure HoldClosed (s t u : State) (c : Channel) (ch : Chan) : Prop where
  bus : u.bus = t.bus
  outlet : ∀ p, u.outlet p = t.outlet p
  notices : ∀ i : Fin 12, i ≠ 11 → u.notices[i] = t.notices[i]
  reports : u.reports = s.reports
  chan : ∃ x, u.chan? c = some x ∧ x.run = none ∧ x.tk = ch.tk ∧ x.part = ch.part ∧ x.watch = ch.watch ∧ s.RunEnded u ch x

theorem closeRun_holdClosed (h : SameRuns s t) (hc : s.chan? c = some ch) (cause : Option (Ending × Time)) :
    HoldClosed s t (t.closeRun c cause) c ch := by
  obtain ⟨hclosed, -, -⟩ := closeRun_closed t c ch ((h.chan? c).trans hc) cause
  obtain ⟨x, hx, hrun, htk, hpart, hwatch, -, hended⟩ := hclosed.chan
  have hended : s.RunEnded (t.closeRun c cause) ch x := by
    unfold State.RunEnded at hended ⊢
    rwa [h.poolFree] at hended
  have houtlet (p : OutletNo) : (t.closeRun c cause).outlet p = t.outlet p := by
    unfold State.outlet
    rw [hclosed.outlets]
  exact ⟨hclosed.bus, houtlet, hclosed.notices, hclosed.reports.trans h.reports, x, hx, hrun, htk, hpart, hwatch, hended⟩

theorem closeRun_recordsOnAir (h : SameRuns s t) (hc : s.chan? c = some ch) (e : Ending) (stop : Time) :
    s.RecordsOnAir (t.closeRun c (some (e, stop))) ch stop e :=
  Records.before h.records ((closeRun_closed t c ch ((h.chan? c).trans hc) _).2.2 e stop rfl)

theorem closeRun_recordsNone (h : SameRuns s t) (hc : s.chan? c = some ch) : s.Records (t.closeRun c none) none :=
  Records.before h.records ((closeRun_closed t c ch ((h.chan? c).trans hc) none).2.1 rfl).1

end Sys2Proof.Machine
end

section
/-! SUPPORT. A HOLD of another station in every takeover state, and the stand-down of a held channel, with the statement about them
(R105, R114, R117, R119 to R121, R150, R180). -/

namespace Sys2Proof.Machine
-- Proofs are checked one after another: in parallel they would not fit the memory that the check allows.
set_option Elab.async false

variable {s : State} {c : Channel} {ch : Chan} {own : Key} {h : Holder} {m : Byte} {st : Station}

theorem exec_holdFrame_heard (hrx : s.bus.rx = .free ∨ s.bus.rx = .receiving) (hst : st ≠ s.bus.own) (hm : meritOk m = true)
    (hc : channelOk c = true) (hq : s.mirrorReqs = []) (hs : HoldState) (v : Version) (e : EventId) :
    exec (.holdFrame m st c hs v e) s = .next ((s.heard ⟨m, st, .hold c hs v e⟩).takeHold c ⟨m, st⟩ hs v e) := by
  have hf : frameFieldsOk ⟨m, st, .hold c hs v e⟩ = true := by
    obtain ⟨hlow, hhigh⟩ := of_decide_eq_true hm
    exact decide_eq_true ⟨hlow, hhigh, of_decide_eq_true hc⟩
  have hclose := closeFrame_other s ⟨m, st, .hold c hs v e⟩ hrx hst hf
  rw [frameTurn_of_nil hq] at hclose
  exact congrArg Host.Outcome.next hclose

/-! ## A channel not held (R105, R114, R117) -/

/-- The state in which a HOLD's sender has been recorded as the holder of channel `c` with the record `ch`, where R105 has it
recorded. -/
def State.holderNoted (s : State) (c : Channel) (ch : Chan) (h : Holder) : State :=
  if ch.tk.holder.all (fun g => g.key.station == h.key.station || h.key.better g.key) then
    s.modTk c (fun tk => { tk with holder := some h })
  else s

theorem holderNoted_eq (s : State) (c : Channel) (ch : Chan) (h : Holder) :
    (if replacesHolder ch.tk.holder h.key then s.modTk c (fun tk => { tk with holder := some h }) else s) = s.holderNoted c ch h := by
  have hall : replacesHolder ch.tk.holder h.key =
      ch.tk.holder.all (fun g => g.key.station == h.key.station || h.key.better g.key) := by
    cases ch.tk.holder <;> rfl
  rw [hall]
  rfl

theorem holderNoted_none (hn : ch.tk.holder = none) : s.holderNoted c ch h = s.modTk c (fun tk => { tk with holder := some h }) := by
  unfold State.holderNoted
  rw [hn]
  rfl

theorem holderNoted_chan? (hc : s.chan? c = some ch) :
    ∃ holder, (s.holderNoted c ch h).chan? c = some { ch with tk := { ch.tk with holder := holder } } := by
  unfold State.holderNoted
  split
  · exact ⟨_, modTk_get s hc _⟩
  · exact ⟨_, hc⟩

theorem recordHold_contending (hc : s.chan? c = some ch) (hs : ch.tk.state = .contending) :
    s.recordHold c ch h = ((s.holderNoted c ch h).leftContending c ch.tk.outlet .yielded).pass := by
  obtain ⟨holder, hx⟩ := holderNoted_chan? (h := h) hc
  unfold State.recordHold
  rw [holderNoted_eq, hs]
  exact congrArg State.pass (leaveContending_left hx _)

theorem recordHold_yielded (hs : ch.tk.state = .yielded) : s.recordHold c ch h =
    if ch.tk.holder = none then (s.holderNoted c ch h).modTk c (fun tk => { tk with yieldDl := none })
    else s.holderNoted c ch h := by
  unfold State.recordHold
  rw [holderNoted_eq, hs]
  exact if_congr Option.isNone_iff_eq_none rfl rfl

theorem recordHold_checked (hs : ch.tk.state.checked = true) : s.recordHold c ch h =
    if ch.tk.holder = none then (s.holderNoted c ch h).check c else s.holderNoted c ch h := by
  unfold State.recordHold
  rw [holderNoted_eq]
  cases hst : ch.tk.state with
  | idle => exact if_congr Option.isNone_iff_eq_none rfl rfl
  | blocked => exact if_congr Option.isNone_iff_eq_none rfl rfl
  | _ => rw [hst] at hs; cases hs

/-! ## A held channel (R119 to R121) -/

/-- The outlet of a channel that stands down, if it has one, is stopped now (R121, R168). -/
def State.standStopped (s : State) (tk : TakeoverRec) : State :=
  match tk.outlet with
  | some o => s.stopNow o
  | none => s

theorem standStopped_same (s : State) (tk : TakeoverRec) : SameRuns s (s.standStopped tk) ∧ (s.standStopped tk).bus = s.bus ∧
    (s.standStopped tk).notices = s.notices := by
  unfold State.standStopped
  split
  · exact ⟨sameRuns_stopNow s _, stopNow_rest s _⟩
  · exact ⟨.refl s, rfl, rfl⟩

theorem standStopped_outlet {o : OutletNo} (ho : ch.tk.outlet = some o)
    (hs : (s.outlet o).state = .reserved ∨ (s.outlet o).state = .air) :
    (s.standStopped ch.tk).outlet o = (s.outlet o).stoppedNow := by
  unfold State.standStopped
  rw [ho]
  exact (stopNow_stopped s o hs).outlet

theorem standStopped_others {p : OutletNo} (hp : ch.tk.outlet ≠ some p) : (s.standStopped ch.tk).outlet p = s.outlet p := by
  unfold State.standStopped
  split
  · rename_i o ho
    exact stopNow_others s (fun e => hp (e ▸ ho))
  · rfl

/-- A stand-down: the outlet stopped now, the RELEASE offered, the run closed, DUAL_HOLDER raised and the record left to the better
holder (R121, R180). -/
structure StoodDown (s t : State) (c : Channel) (ch : Chan) (own : Key) (h : Holder) : Prop where
  chan : ∃ x, t.chan? c = some x ∧ x.run = none ∧
    x.tk = { ch.tk with
      state := if ch.tk.inhibit then .blocked .inhibited else .yielded
      handback := none, ownHold := none, outlet := none, holdDl := none, yieldDl := none, holder := some h } ∧ s.RunEnded t ch x
  bus : t.bus = (s.offerRelease c own .stoodDown).bus
  noticed : s.Noticed t 0 c (.dualHolder h.key.station (holdStateOf ch.tk.state))
  outlet : ∀ o, ch.tk.outlet = some o → (s.outlet o).state = .reserved ∨ (s.outlet o).state = .air →
    t.outlet o = (s.outlet o).stoppedNow
  others : ∀ p, ch.tk.outlet ≠ some p → t.outlet p = s.outlet p
  records : s.RecordsOnAir t ch s.tb.now .stoodDown
  reports : t.reports = s.reports

theorem standDown_stoodDown (hc : s.chan? c = some ch) : StoodDown s (s.standDown c ch own h) c ch own h := by
  obtain ⟨hstop, hbus, hnotices⟩ := standStopped_same s ch.tk
  have hsame := hstop.trans (sameRuns_offerRelease (s.standStopped ch.tk) c own .stoodDown)
  have e : s.standDown c ch own h =
      ((((s.standStopped ch.tk).offerRelease c own .stoodDown).closeRun c (some (.stoodDown, s.tb.now))).raise .dualHolder c
        (.dualHolder h.key.station (holdStateOf ch.tk.state))).modTk c (fun tk => { tk with
          state := if tk.inhibit then .blocked .inhibited else .yielded
          handback := none, ownHold := none, outlet := none, holdDl := none, yieldDl := none, holder := some h }) := by
    rw [← hsame.tb]
    rfl
  have hrecords := closeRun_recordsOnAir hsame hc .stoodDown s.tb.now
  obtain ⟨rbus, routlet, rnotices, rreports, x, hx, hrun, htk, -, -, hended⟩ :=
    closeRun_holdClosed hsame hc (some (.stoodDown, s.tb.now))
  have houtlet : ∀ p, _ := fun p => (routlet p).trans (offerRelease_outlet (s.standStopped ch.tk) c own .stoodDown p)
  have hclass := (rnotices 0 nofun).trans (congrArg (·[(0 : Fin 12)])
    ((offerRelease_notices (s.standStopped ch.tk) c own .stoodDown).trans hnotices))
  rw [e]
  generalize ((s.standStopped ch.tk).offerRelease c own .stoodDown).closeRun c (some (.stoodDown, s.tb.now)) = w at *
  have hraise := sameRuns_raise w (cls := .dualHolder) nofun c (.dualHolder h.key.station (holdStateOf ch.tk.state))
  exact ⟨⟨_, modTk_get _ ((hraise.chan? c).trans hx) _, hrun, by rw [htk], hended⟩, rbus.trans (offerRelease_bus _ _ hbus ..),
    (raise_noticed w .dualHolder c _).since hclass, fun o ho hs => (houtlet o).trans (standStopped_outlet ho hs),
    fun p hp => (houtlet p).trans (standStopped_others hp), Records.after hrecords hraise.records, rreports⟩

/-! ## Every takeover state -/

/-- The holder that a HOLD heard now would be recorded as (R105). -/
theorem freshHolder_eq (s : State) (k : Key) (hs : HoldState) (v : Version) (e : EventId) : s.freshHolder k hs v e =
    { key := k, state := hs, version := v, event := e, lastHold := s.tb.now
      deadline := s.tb.now + BitVec.ofNat 48 (3 * (s.sp.holdPeriod * 240)) } := rfl

theorem takeHold_unprofiled (hc : s.chan? c = none) (k : Key) (hs : HoldState) (v : Version) (e : EventId) :
    s.takeHold c k hs v e = s := by
  unfold State.takeHold
  rw [hc]

theorem takeHold_detached (hc : s.chan? c = some ch) (hst : ch.tk.state = .detached) (k : Key) (hs : HoldState) (v : Version)
    (e : EventId) : s.takeHold c k hs v e = s := by
  unfold State.takeHold
  rw [hc]
  simp [hst, TakeoverState.holding]

theorem takeHold_records (hc : s.chan? c = some ch) (hn : ch.tk.state.holding = false) (hd : ch.tk.state ≠ .detached) (k : Key)
    (hs : HoldState) (v : Version) (e : EventId) : s.takeHold c k hs v e = s.recordHold c ch (s.freshHolder k hs v e) := by
  unfold State.takeHold
  rw [hc]
  dsimp only
  rw [hn, if_neg nofun, if_neg hd]

theorem takeHold_compares (hc : s.chan? c = some ch) (hh : ch.tk.state.holding = true) (ho : ch.tk.ownHold = some own) (k : Key)
    (hs : HoldState) (v : Version) (e : EventId) : s.takeHold c k hs v e =
      (if k.better own = true then s.standDown c ch own (s.freshHolder k hs v e) else s.assertHold c).settle := by
  unfold State.takeHold
  rw [hc]
  dsimp only
  rw [if_pos hh]
  unfold State.compareHold
  rw [ho]
  rfl

/-- Settles O33: what a HOLD does by whether the channel is held, and then by its takeover state or by the two keys. -/
theorem holdFrameActs : Obligations.HoldFrameActs := by
  intro s m st c hs v e hrx hst hm hc hr hq
  have he := exec_holdFrame_heard (s := s) hrx hst hm hc hq hs v e
  refine ⟨fun hn => by rw [he, takeHold_unprofiled (s := s.heard _) hn], fun ch h => ?_⟩
  have hh : (s.heard ⟨m, st, .hold c hs v e⟩).chan? c = some ch := h
  have recorded (hn : ch.tk.state.holding = false) (hd : ch.tk.state ≠ .detached) := he.trans (congrArg Host.Outcome.next
    (takeHold_records hh hn hd ⟨m, st⟩ hs v e))
  have compared (own : Key) (hhold : ch.tk.state.holding = true) (ho : ch.tk.ownHold = some own) := he.trans
    (congrArg Host.Outcome.next (takeHold_compares hh hhold ho ⟨m, st⟩ hs v e))
  refine ⟨fun hd => by rw [he, takeHold_detached hh hd], fun hcon => ?contending, fun hy => ?yielded,
    fun hk => ⟨fun hn => ?first, fun hn => ?later⟩, fun own hhold ho => ⟨fun hb => ?answered, fun hb => ?stoodDown⟩⟩
  case contending =>
    obtain ⟨holder, hx⟩ := holderNoted_chan? (h := (s.heard ⟨m, st, .hold c hs v e⟩).freshHolder ⟨m, st⟩ hs v e) hh
    have hleft := leftContending_chan? hx .yielded
    refine ⟨_, _, ?_, pass_passed _, (claimsOnly_leftContending hx hcon .yielded).trans (claimsOnly_pass _), pass_other hleft rfl,
      rfl, rfl, rfl, rfl, rfl, rfl⟩
    rw [recorded (by rw [hcon]; rfl) (by rw [hcon]; nofun), recordHold_contending hh hcon]
    rfl
  case yielded =>
    rw [recorded (by rw [hy]; rfl) (by rw [hy]; nofun), recordHold_yielded hy]
    rfl
  case first =>
    obtain ⟨hnot, hdet⟩ := checked_not_held hk
    have hx := modTk_get _ hh (fun tk =>
      { tk with holder := some ((s.heard ⟨m, st, .hold c hs v e⟩).freshHolder ⟨m, st⟩ hs v e) })
    have hchecked := check_checked hx hk
    rw [← holderNoted_none hn] at hchecked
    exact ⟨_, by rw [recorded hnot hdet, recordHold_checked hk, if_pos hn], hchecked⟩
  case later =>
    obtain ⟨hnot, hdet⟩ := checked_not_held hk
    rw [recorded hnot hdet, recordHold_checked hk, if_neg hn]
    rfl
  case answered =>
    have hreports : (s.heard ⟨m, st, .hold c hs v e⟩).reports = [] := hr
    rw [compared own hhold ho, if_neg (by rw [hb]; nofun), assertHold_eq hh ho, settle_of_nil]
    · rfl
    · exact (sameRuns_offerFrame _ _).reports.trans hreports
  case stoodDown =>
    have hd := standDown_stoodDown (own := own) (h := (s.heard ⟨m, st, .hold c hs v e⟩).freshHolder ⟨m, st⟩ hs v e) hh
    have hkeeps := keeps_standDown (s.heard ⟨m, st, .hold c hs v e⟩) c ch own
      ((s.heard ⟨m, st, .hold c hs v e⟩).freshHolder ⟨m, st⟩ hs v e)
    obtain ⟨⟨x, hx, hrun, htk, hended⟩, hbus, hnoticed, houtlet, hothers, hrecords, hreports⟩ := hd
    exact ⟨_, x, by rw [compared own hhold ho, if_pos hb, settle_of_nil (hreports.trans hr)], hx, hrun, htk, hbus, hnoticed, houtlet,
      hothers, hrecords, hended, hkeeps.outer.sameWatches, hkeeps.sameMirror⟩

end Sys2Proof.Machine
end

section
/-! SUPPORT. The failure of a join PREP: what its four causes take from the outlet, and what the join's end does from there, with the
statement about it (R123, R150, R159, R164, R165, R167). -/

namespace Sys2Proof.Machine
-- Proofs are checked one after another: in parallel they would not fit the memory that the check allows.
set_option Elab.async false

variable {s t : State} {c : Channel} {ch : Chan} {o : OutletNo} {k : Key} {p : Prep} {f : Failure} {u : Outstanding}

/-! ## A command taken from its outlet -/

/-- Between `s` and `t` a command was taken from outlet `o`, which serves its channel as before; the send order and the receiver's
framing may have changed beside. -/
structure CommandGone (s t : State) (o : OutletNo) : Prop where
  same : SameRuns s t
  bus : t.bus = s.bus
  notices : t.notices = s.notices
  others : ∀ p, p ≠ o → t.outlet p = s.outlet p
  state : (t.outlet o).state = (s.outlet o).state
  channel : (t.outlet o).channel = (s.outlet o).channel
  seq : (t.outlet o).seq = (s.outlet o).seq

theorem commandGone_modOutlet (s : State) (o : OutletNo) {g : Outlet → Outlet} (hs : ∀ x, (g x).state = x.state)
    (hc : ∀ x, (g x).channel = x.channel) (hq : ∀ x, (g x).seq = x.seq) : CommandGone s (s.modOutlet o g) o where
  same := sameRuns_modOutlet s o g
  bus := rfl
  notices := rfl
  others := fun p hp => by rw [outlet_modOutlet, if_neg hp]
  state := by rw [outlet_modOutlet_self, hs]
  channel := by rw [outlet_modOutlet_self, hc]
  seq := by rw [outlet_modOutlet_self, hq]

theorem CommandGone.settled (h : CommandGone s t o) : CommandGone s (t.settleOrder o) o where
  same := h.same.trans (sameRuns_settleOrder t o)
  bus := (settleOrder_keeps t o).1.trans h.bus
  notices := (settleOrder_keeps t o).2.2.2.1.trans h.notices
  others := fun p hp => (settleOrder_outlet t o p).trans (h.others p hp)
  state := by rw [settleOrder_outlet, h.state]
  channel := by rw [settleOrder_outlet, h.channel]
  seq := by rw [settleOrder_outlet, h.seq]

theorem commandGone_complete (s : State) (o : OutletNo) : CommandGone s (s.complete o) o :=
  (commandGone_modOutlet s o (g := fun x => { x with outstanding := none }) (fun _ => rfl) (fun _ => rfl) (fun _ => rfl)).settled

theorem CommandGone.trans {v : State} (h : CommandGone s t o) (k : CommandGone t v o) : CommandGone s v o where
  same := h.same.trans k.same
  bus := k.bus.trans h.bus
  notices := k.notices.trans h.notices
  others := fun p hp => (k.others p hp).trans (h.others p hp)
  state := k.state.trans h.state
  channel := k.channel.trans h.channel
  seq := k.seq.trans h.seq

/-- The framing of the cue receiver is no matter of any outlet. -/
theorem commandGone_setCueFraming (s : State) (x : Framing) (o : OutletNo) : CommandGone s (s.setCueFraming x) o :=
  ⟨⟨rfl, rfl, rfl, rfl, rfl, rfl, rfl⟩, rfl, rfl, fun _ _ => rfl, rfl, rfl, rfl⟩

/-! ## The command of least time at the head of its list (R159, R167) -/

theorem takeSoonest_none {α : Type} {key : α → Option Time} {l : List α} (h : ∀ x ∈ l, key x = none) :
    takeSoonest key l = none := by
  induction l with
  | nil => rfl
  | cons x l ih =>
    unfold takeSoonest
    rw [h x List.mem_cons_self, ih fun y hy => h y (List.mem_cons_of_mem x hy)]
    rfl

/-- Where the head alone has a time, it is the one taken. -/
theorem takeSoonest_head {α : Type} {key : α → Option Time} {x : α} {l : List α} (hx : (key x).isSome = true)
    (h : ∀ y ∈ l, key y = none) : takeSoonest key (x :: l) = some (x, l) := by
  obtain ⟨a, ha⟩ := Option.isSome_iff_exists.1 hx
  unfold takeSoonest
  rw [ha, takeSoonest_none h]

/-! ## The join's end (R123, R164) -/

/-- The join of channel `c` on outlet `o` has ended, before the takeover check: the outlet FAULTED, the RELEASE offered, JOIN_FAILED
raised, the run closed without an as-run record, and the channel IDLE (R123). -/
def State.joinEnded (s : State) (c : Channel) (o : OutletNo) (k : Key) (f : Failure) : State :=
  (((((s.faultOutlet o .prep f).offerRelease c k .joinFailed).raise .joinFailed c (.joinFailed o f)).closeRun c none).modTk c
    (fun tk => { tk with state := .idle, outlet := none, ownHold := none, holdDl := none }))

theorem joinFailed_eq (hc : s.chan? c = some ch) (hs : ch.tk.state = .joining) (hk : ch.tk.ownHold = some k) (f : Failure) :
    s.joinFailed c o f = (s.joinEnded c o k f).check c := by
  unfold State.joinFailed
  rw [hc]
  dsimp only
  rw [if_neg (not_not.2 hs), hk]
  rfl

theorem failCmd_joinPrep (hs : (s.outlet o).state = .reserved) (hc : (s.outlet o).channel = some c) (hj : p.join = true) (f : Failure) :
    s.failCmd o (.prep p) false f = (s.raise .cueFault (outletByte o) (.cueFault .prep f)).joinFailed c o f := by
  have houtlet : (s.raise .cueFault (outletByte o) (.cueFault .prep f)).outlet o = s.outlet o := rfl
  unfold State.failCmd
  simp [houtlet, hs, hc, hj, cmdKind]

theorem faultOutlet_same (s : State) (o : OutletNo) (kind : CmdKind) (f : Failure) : SameRuns s (s.faultOutlet o kind f) ∧
    (s.faultOutlet o kind f).bus = s.bus ∧ (s.faultOutlet o kind f).notices = s.notices := by
  have hsettle := settleOrder_keeps (s.modOutlet o (fun x =>
    { x with state := .faulted, channel := none, air := false, queue := [], awaiting := []
             outstanding := orphan x.outstanding, armed := none, fault := some (kind, f) })) o
  exact ⟨sameRuns_settled s o _, hsettle.1, hsettle.2.2.2.1⟩

/-- What the end of a join leaves (R123, R150). -/
structure JoinEnded (s t : State) (c : Channel) (ch : Chan) (o : OutletNo) (k : Key) (f : Failure) : Prop where
  chan : ∃ y, t.chan? c = some y ∧ y.run = none ∧
    y.tk = { ch.tk with state := .idle, outlet := none, ownHold := none, holdDl := none } ∧ s.RunEnded t ch y
  outlet : t.outlet o = { s.outlet o with
    state := .faulted, channel := none, air := false, queue := [], awaiting := []
    outstanding := orphan (s.outlet o).outstanding, armed := none, fault := some (.prep, f) }
  others : ∀ p, p ≠ o → t.outlet p = s.outlet p
  bus : t.bus = (s.offerRelease c k .joinFailed).bus
  noticed : s.Noticed t 1 c (.joinFailed o f)
  notices : ∀ i : Fin 12, i ≠ 1 → i ≠ 11 → t.notices[i] = s.notices[i]
  records : s.Records t none
  reports : t.reports = s.reports
  keeps : Keeps s t

theorem joinEnded_ended (hc : s.chan? c = some ch) (o : OutletNo) (k : Key) (f : Failure) :
    JoinEnded s (s.joinEnded c o k f) c ch o k f := by
  obtain ⟨hfaulted, hbus, hnotices⟩ := faultOutlet_same s o .prep f
  have hrelease := sameRuns_offerRelease (s.faultOutlet o .prep f) c k .joinFailed
  have hraise := sameRuns_raise ((s.faultOutlet o .prep f).offerRelease c k .joinFailed) (cls := .joinFailed) nofun c (.joinFailed o f)
  have hsame := hfaulted.trans (hrelease.trans hraise)
  obtain ⟨rbus, routlet, rnotices, rreports, x, hx, hrun, htk, -, -, hended⟩ := closeRun_holdClosed hsame hc none
  have hrecords := closeRun_recordsNone hsame hc
  have houtlet (p : OutletNo) := (routlet p).trans
    ((offerRelease_outlet (s.faultOutlet o .prep f) c k .joinFailed p).trans (faultOutlet_outlet s o p .prep f))
  have hbefore (i : Fin 12) : ((s.faultOutlet o .prep f).offerRelease c k .joinFailed).notices[i] = s.notices[i] := by
    rw [offerRelease_notices, hnotices]
  unfold State.joinEnded
  refine ⟨⟨_, modTk_get _ hx _, hrun, by rw [htk], hended⟩, (houtlet o).trans (if_pos rfl), fun p hp => (houtlet p).trans (if_neg hp),
    rbus.trans (offerRelease_bus _ _ hbus ..), ?_, fun i h1 h11 => ?_, hrecords, rreports,
    keeps_modTk (keeps_closeRun (keeps_raise (keeps_offerRelease (keeps_faultOutlet (.refl s) ..) ..) ..) ..) ..⟩
  · have hn := (raise_noticed ((s.faultOutlet o .prep f).offerRelease c k .joinFailed) .joinFailed c (.joinFailed o f)).since
      (hbefore 1)
    unfold State.Noticed at hn ⊢
    exact (rnotices 1 nofun).trans hn
  · have hraised := raise_other ((s.faultOutlet o .prep f).offerRelease c k .joinFailed) .joinFailed c (.joinFailed o f) i h1
    exact (rnotices i h11).trans (hraised.trans (hbefore i))

/-- A join PREP that fails ends the join, whatever took it from its outlet (R123, R164). -/
theorem failCmd_joinFailure (hg : CommandGone s t o) (hr : s.ReportsSettled) (hs : (s.outlet o).state = .reserved)
    (ho : (s.outlet o).channel = some c) (hc : s.chan? c = some ch) (hst : ch.tk.state = .joining) (hk : ch.tk.ownHold = some k)
    (hj : p.join = true) (f : Failure) : s.JoinFailure (t.failCmd o (.prep p) false f).settle c ch o k f := by
  have hraise := sameRuns_raise t (cls := .cueFault) nofun (outletByte o) (.cueFault .prep f)
  have hsame := hg.same.trans hraise
  have hcr := (hsame.chan? c).trans hc
  have hnoticed := raise_noticed t .cueFault (outletByte o) (.cueFault .prep f)
  have hother (i : Fin 12) (hi : i ≠ 5) : (t.raise .cueFault (outletByte o) (.cueFault .prep f)).notices[i] = s.notices[i] := by
    rw [raise_other t .cueFault _ _ i hi, hg.notices]
  have hout (p : OutletNo) : (t.raise .cueFault (outletByte o) (.cueFault .prep f)).outlet p = t.outlet p := rfl
  have hbus : (t.raise .cueFault (outletByte o) (.cueFault .prep f)).bus = s.bus := hg.bus
  rw [failCmd_joinPrep (hg.state.trans hs) (hg.channel.trans ho) hj, joinFailed_eq hcr hst hk]
  generalize t.raise .cueFault (outletByte o) (.cueFault .prep f) = u at *
  obtain ⟨⟨y, hy, hrun, htk, hended⟩, houtlet, hothers, hvbus, hjoin, hkept, hrecords, hreports, hkeeps⟩ :=
    joinEnded_ended hcr o k f
  have hchecked := check_checked hy (by rw [htk]; rfl)
  rw [settle_of_nil ((claimsOnly_check _ c).reports.trans (hreports.trans (hsame.reports.trans hr)))]
  refine ⟨_, y, hchecked, hy, hrun, htk, ?_, ?_, ?_, ?_, ?_, ?_, ?_, ?_, ?_, ?_, ?_, ?_, ?_, ?_, ?_⟩
  iterate 6 · rw [houtlet]
  · rw [houtlet]
    exact (congrArg Outlet.seq (hout o)).trans hg.seq
  · exact fun q hq => (hothers q hq).trans ((hout q).trans (hg.others q hq))
  · exact hvbus.trans (offerRelease_bus _ _ hbus ..)
  · exact hjoin.since (hother 1 nofun)
  · have h5 := hnoticed.since (s := s) (by rw [hg.notices])
    unfold State.Noticed at h5 ⊢
    exact (hkept 5 nofun nofun).trans h5
  · exact Records.before hsame.records hrecords
  · unfold State.RunEnded at hended ⊢
    rwa [hsame.poolFree] at hended
  · have h := hkeeps.outer.sameWatches
    unfold State.SameWatches at h ⊢
    rwa [hsame.chans] at h
  · have h := hkeeps.sameMirror
    unfold State.SameMirror at h ⊢
    rwa [hsame.chans] at h

/-! ## The four causes (R159, R164, R165, R167) -/

theorem failOutstanding_prep (hq : s.mirrorReqs = []) (hu : u.cmd = .prep p) (horphan : u.orphaned = false) (f : Failure) :
    s.failOutstanding o u f = ((s.complete o).failCmd o (.prep p) false f).settle := by
  unfold State.failOutstanding
  rw [hu, horphan, failTurn_prep, outletTurn_of_nil hq]

theorem exec_refused_outstanding (hl : s.locked = true) (hf : s.cue.framing ≠ .hunt) {tag : Byte} (htag : tagOutlet tag = some o)
    (ho : (s.outlet o).outstanding = some u) (hm : u.tag = tag.toNat) (why : RefusedReason) :
    exec (.refused tag why) s = .next ((s.setCueFraming .wait).failOutstanding o u (.refused why)) := by
  have hmatched : (s.setCueFraming .wait).matched o tag = some u :=
    (congrArg (Option.filter _) ho).trans (by simp [Option.filter, hm])
  rw [exec_refused (cueFraming_of hl hf)]
  unfold State.takeRefused
  simp only [htag, hmatched]

theorem exec_replyDeadline_outstanding (ho : (s.outlet o).outstanding = some u) (hd : atOrBefore u.deadline s.tb.now = true) :
    exec (.replyDeadline o) s = .next (s.failOutstanding o u .lapsed) := by
  have hdue : due (some u.deadline) s.now = true := hd
  show execReplyDeadline o s = _
  unfold execReplyDeadline
  simp only [ho, hdue, if_true]

/-- Settles O51: each cause takes the join PREP from its outlet, and its failure is the end of the join (R123, R164). -/
theorem joinCueFailureReleases : Obligations.JoinCueFailureReleases := by
  intro s o c ch k r p hr hq hs ho hc hst hk _ _ hj
  have hfails {t : State} (hg : CommandGone s t o) (f : Failure) := failCmd_joinFailure hg hr hs ho hc hst hk hj f
  refine ⟨fun u hu hcmd horphan => ⟨fun tag why hl hf htag hm => ?_, fun hd => ?_⟩, fun rest hqueue hdue hrest => ?_,
    fun a hawait hp hdue => ?_⟩
  · have hq' : (s.setCueFraming .wait).mirrorReqs = [] := hq
    refine ⟨_, exec_refused_outstanding hl hf htag hu hm why, ?_⟩
    rw [failOutstanding_prep hq' hcmd horphan]
    exact hfails ((commandGone_setCueFraming s .wait o).trans (commandGone_complete _ o)) _
  · refine ⟨_, exec_replyDeadline_outstanding hu hd, ?_⟩
    rw [failOutstanding_prep hq hcmd horphan]
    exact hfails (commandGone_complete s o) .lapsed
  · have htaken : takeSoonest (fun x : Cmd => x.missTime.filter (fun y => atOrBefore y s.now)) (s.outlet o).queue =
        some (.prep p, rest) := by
      have hdue : atOrBefore p.start s.now = true := hdue
      rw [hqueue]
      refine takeSoonest_head (by simp [Cmd.missTime, Option.filter, hdue]) fun x hx => ?_
      exact Option.filter_eq_none_iff.2 fun y hy => by rw [show atOrBefore y s.now = false from hrest x hx y hy]; nofun
    refine ⟨_, exec_queuedCommandMissed htaken, ?_⟩
    rw [failTurn_prep, outletTurn_of_nil hq]
    have hgone := commandGone_modOutlet s o (g := fun x => { x with queue := rest }) (fun _ => rfl) (fun _ => rfl) (fun _ => rfl)
    exact hfails hgone.settled .missed
  · have htaken : takeSoonest (fun a : Awaiting => (some a.startDl).filter (fun y => atOrBefore y s.now)) (s.outlet o).awaiting =
        some (a, []) := by
      have hdue : atOrBefore a.startDl s.now = true := hdue
      rw [hawait]
      exact takeSoonest_head (by simp [Option.filter, hdue]) nofun
    refine ⟨_, exec_startDeadline htaken, ?_⟩
    rw [outletTurn_of_nil hq, hp]
    have hgone := commandGone_modOutlet s o (g := fun x => { x with awaiting := [] }) (fun _ => rfl) (fun _ => rfl) (fun _ => rfl)
    exact hfails hgone .startLapse

end Sys2Proof.Machine
end

section
/-! SUPPORT. The host's RELEASE and CLEAR_OUTLET: a join aborted, a handback forced, an outlet cleared, with the statement about them
(R118, R125, R169, R179, R201, R203). -/

namespace Sys2Proof.Machine
-- Proofs are checked one after another: in parallel they would not fit the memory that the check allows.
set_option Elab.async false

variable {s t : State} {c : Channel} {ch y : Chan} {r : RunRec} {k : Key} {o : OutletNo} {h : Handback}

theorem exec_release (hl : s.locked = true) (hc : s.chan? c = some ch) : exec (.release [c]) s = .next (s.release c ch) := by
  show Host.Outcome.next (s.byChannel [c] _) = _
  rw [byChannel_eq hl hc, chan?_channel hc]

theorem release_elsewhere (hs : ch.tk.state.holding = false) : s.release c ch = s.refuse .notHolding := by
  unfold State.release
  cases hst : ch.tk.state with
  | joining => rw [hst] at hs; cases hs
  | onAir => rw [hst] at hs; cases hs
  | handingBack => rw [hst] at hs; cases hs
  | _ => rfl

/-! ## A join aborted (R118, R125) -/

/-- The join of channel `c` on outlet `o` aborted, before the takeover check (R125). -/
def State.joinAborted (s : State) (c : Channel) (o : OutletNo) (k : Key) : State :=
  ((((s.stopNow o).offerRelease c k .forced).closeRun c none).modTk c (fun tk =>
    { tk with state := .idle, ownHold := none, outlet := none, holdDl := none })).setAwaitLive c

theorem abortJoin_eq (ho : ch.tk.outlet = some o) (hk : ch.tk.ownHold = some k) :
    s.abortJoin c ch.tk = (s.joinAborted c o k).check c := by
  unfold State.abortJoin
  rw [ho, hk]
  rfl

/-- What the abort of a join leaves (R125, R150, R168). -/
structure JoinAborted (s t : State) (c : Channel) (ch : Chan) (o : OutletNo) (k : Key) : Prop where
  chan : ∃ y, t.chan? c = some y ∧ y.run = none ∧
    y.tk = { ch.tk with
      state := .idle, ownHold := none, outlet := none, holdDl := none, awaitLive := ch.watch.state == .lost } ∧ s.RunEnded t ch y
  outlet : (s.outlet o).state = .reserved ∨ (s.outlet o).state = .air → t.outlet o = (s.outlet o).stoppedNow
  others : ∀ p, p ≠ o → t.outlet p = s.outlet p
  bus : t.bus = (s.offerRelease c k .forced).bus
  notices : t.notices = s.notices
  records : s.Records t none
  reports : t.reports = s.reports
  keeps : Keeps s t

theorem joinAborted_aborted (hc : s.chan? c = some ch) (o : OutletNo) (k : Key) : JoinAborted s (s.joinAborted c o k) c ch o k := by
  obtain ⟨hbus, hnotices⟩ := stopNow_rest s o
  have hsame := (sameRuns_stopNow s o).trans (sameRuns_offerRelease (s.stopNow o) c k .forced)
  have hquiet := ((closeRun_closed _ c ch ((hsame.chan? c).trans hc) none).2.1 rfl).2
  obtain ⟨rbus, routlet, -, rreports, x, hx, hrun, htk, -, hwatch, hended⟩ := closeRun_holdClosed hsame hc none
  have houtlet (p : OutletNo) := (routlet p).trans (offerRelease_outlet (s.stopNow o) c k .forced p)
  unfold State.joinAborted
  refine ⟨⟨_, modChan_get (modTk_get _ hx _) _ fun _ => rfl, hrun, by rw [htk, hwatch], hended⟩,
    fun ho => (houtlet o).trans (stopNow_stopped s o ho).outlet, fun p hp => (houtlet p).trans (stopNow_others s hp),
    rbus.trans (offerRelease_bus _ _ hbus ..), hquiet.trans ((offerRelease_notices ..).trans hnotices),
    closeRun_recordsNone hsame hc, rreports,
    keeps_setAwaitLive (keeps_modTk (keeps_closeRun (keeps_offerRelease (keeps_stopNow (.refl s) o) ..) ..) ..) c⟩

theorem release_joining (hr : s.ReportsSettled) (hq : s.mirrorReqs = []) (hs : ch.tk.state = .joining) (hc : s.chan? c = some ch)
    (ho : ch.tk.outlet = some o) (hk : ch.tk.ownHold = some k) :
    s.release c ch = ((s.joinAborted c o k).check c).done [] := by
  have hreports := (claimsOnly_check (s.joinAborted c o k) c).reports.trans ((joinAborted_aborted hc o k).reports.trans hr)
  unfold State.release
  rw [hs, mirrorTurn_of_nil hq, abortJoin_eq ho hk]
  exact congrArg (·.done []) (settle_of_nil hreports)

/-! ## A forced handback (R179) -/

/-- The fields of a handback read the time, the station part and the period alone, so serving requests does not change them. -/
theorem serveAll_handbackTo (hp : y.period = ch.period) (r : RunRec) (switch localSwitch : Time) (forced : Bool) :
    s.serveAll.handbackTo y r switch localSwitch forced = s.handbackTo ch r switch localSwitch forced := by
  have hnow : s.serveAll.tb.now = s.tb.now := serveAll_now s
  have hlead : s.serveAll.sp.cueLead * y.period = s.sp.cueLead * ch.period := serveAll_lead hp
  unfold State.handbackTo
  rw [hnow, hlead]

theorem handbackFor_eq (s : State) (ch : Chan) (r : RunRec) (switch localSwitch : Time) (forced : Bool) :
    handbackFor switch localSwitch r.offset forced (s.lead ch) s.now = s.handbackTo ch r switch localSwitch forced := by
  unfold handbackFor State.handbackTo stopPointFor State.lead minus atOrBefore
  simp only [decide_eq_true_eq]
  rfl

theorem release_forces (hs : ch.tk.state = .onAir ∨ ch.tk.state = .handingBack) :
    s.release c ch = (s.forceHandback c ch).settle.done [] := by
  unfold State.release
  rcases hs with hs | hs <;> rw [hs]

/-- On air the forced handback is entered (R172, R179). -/
theorem forceHandback_enters (hr : ch.run = some r) (hb : ch.tk.handback = none) : s.forceHandback c ch =
    s.enterHandback c (s.handbackTo ch r (plus s.now (s.lead ch) - r.offset) (plus s.now (s.lead ch)) true) := by
  unfold State.forceHandback
  rw [hr, hb]
  exact congrArg (s.enterHandback c) (handbackFor_eq ..)

theorem forceHandback_forced (hr : ch.run = some r) (hb : ch.tk.handback = some h) (hf : h.forced = true) :
    s.forceHandback c ch = s := by
  unfold State.forceHandback
  simp only [hr, hb, hf, if_true]

/-- A local switch time no later than the forced one is kept (R179; log 55). -/
theorem forceHandback_keeps (hr : ch.run = some r) (hb : ch.tk.handback = some h) (hf : h.forced = false)
    (hl : atOrBefore h.localSwitch (plus s.now (s.lead ch)) = true) :
    s.forceHandback c ch = s.modTk c (fun tk => { tk with handback := some { h with forced := true } }) := by
  unfold State.forceHandback
  simp only [hr, hb, hf, hl, if_true, Bool.false_eq_true, if_false]

theorem forceHandback_replaces (hr : ch.run = some r) (hb : ch.tk.handback = some h) (hf : h.forced = false)
    (hl : atOrBefore h.localSwitch (plus s.now (s.lead ch)) = false) :
    s.forceHandback c ch = s.replaceHandback c (plus s.now (s.lead ch) - r.offset) (plus s.now (s.lead ch)) true := by
  unfold State.forceHandback
  simp only [hr, hb, hf, hl, Bool.false_eq_true, if_false]

/-! ## CLEAR_OUTLET (R169, R203) -/

/-- A FAULTED outlet cleared, before the pass (R169). -/
def State.outletCleared (s : State) (o : OutletNo) : State :=
  (s.modOutlet o (fun x => { x with state := .free, fault := none, queue := [], awaiting := [], outstanding := none })).settleOrder o

theorem exec_clearOutlet (hl : s.locked = true) (o : OutletNo) : exec (.clearOutlet [BitVec.ofNat 8 o.val]) s =
    .next (if (s.outlet o).state = .faulted then (s.outletCleared o).pass.done [] else s.refuse .notFaulted) := by
  have hval : (BitVec.ofNat 8 o.val).toNat = o.val := by
    rw [BitVec.toNat_ofNat]
    exact Nat.mod_eq_of_lt (by omega)
  have hlt : (BitVec.ofNat 8 o.val).toNat < 4 := by rw [hval]; exact o.isLt
  have ho : (⟨(BitVec.ofNat 8 o.val).toNat, hlt⟩ : OutletNo) = o := Fin.ext hval
  show Host.Outcome.next (s.clearOutlet [BitVec.ofNat 8 o.val]) = _
  unfold State.clearOutlet State.running
  simp only [dif_pos hlt, ho, hl, if_true]
  rfl

/-- Settles O55: the abort of a join, the four ways a forced handback goes, and the cleared outlet with its pass. -/
theorem hostReleaseActs : Obligations.HostReleaseActs := by
  intro s hl hr
  refine ⟨fun c ch hc => ⟨fun hs => by rw [exec_release hl hc, release_elsewhere hs], fun r k o hrun hk ho => ?_⟩, fun o =>
    ⟨fun hs => ⟨_, (exec_clearOutlet hl o).trans (congrArg _ (if_pos hs)), pass_passed (s.outletCleared o), claimsOnly_pass _⟩,
      fun hs => by rw [exec_clearOutlet hl, if_neg hs]⟩⟩
  have hsettled {v : State} (hv : v.reports = s.reports) : v.settle = v := settle_of_nil (hv.trans hr)
  refine ⟨fun hs hq hstate => ?_, fun hs hb => ?_, fun h hs hb => ⟨fun hf => ?_, fun hf hle => ?_, fun hf hlt hout htakes => ?_⟩⟩
  · obtain ⟨⟨y, hy, hrun, htk, hended⟩, houtlet, hothers, hbus, hnotices, hrecords, -, hkeeps⟩ := joinAborted_aborted hc o k
    exact ⟨_, _, y, by rw [exec_release hl hc, release_joining hr hq hs hc ho hk], check_checked hy (by rw [htk]; rfl), hy, hrun, htk,
      houtlet hstate, hothers, hbus, hrecords, hnotices, hended, hkeeps.outer.sameWatches, hkeeps.sameMirror⟩
  · obtain ⟨y, hy, hyr, -, hentered, hreports⟩ := enterHandback_entered
      (h := s.handbackTo ch r (plus s.now (s.lead ch) - r.offset) (plus s.now (s.lead ch)) true) hc hrun (by rw [hs]; rfl) hk
    exact ⟨_, y, by rw [exec_release hl hc, release_forces (.inl hs), forceHandback_enters hrun hb, hsettled hreports],
      hy, hyr, hentered⟩
  · rw [exec_release hl hc, release_forces (.inr hs), forceHandback_forced hrun hb hf, hsettled rfl]
  · have hkept : atOrBefore h.localSwitch (plus s.now (s.lead ch)) = true := decide_eq_true hle
    rw [exec_release hl hc, release_forces (.inr hs), forceHandback_keeps hrun hb hf hkept]
    exact congrArg (fun v => Host.Outcome.next (State.done v [])) (hsettled rfl)
  · have hlater : atOrBefore h.localSwitch (plus s.now (s.lead ch)) = false := decide_eq_false (Int.not_le.2 hlt)
    obtain ⟨z, hz, -, hp, -⟩ := serveAll_running hc hrun
    obtain ⟨y, hy, hyr, -, hreplaced, hreports⟩ := replaceHandback_replaced (switch := plus s.now (s.lead ch) - r.offset)
      (localSwitch := plus s.now (s.lead ch)) (forced := true) hc hrun (by rw [hs]; rfl) ho hb (hout ▸ htakes)
    obtain rfl : y = z := Option.some.inj (hy.symm.trans hz)
    rw [serveAll_handbackTo hp] at hreplaced
    exact ⟨_, y, by rw [exec_release hl hc, release_forces (.inr hs), forceHandback_replaces hrun hb hf hlater, hsettled hreports],
      hy, hyr, hreplaced⟩

end Sys2Proof.Machine
end

section
/-! SUPPORT. A channel on air while its runner chooses: what every choice, every failure of a later item and the settling of reports leave
of the item on air and of its outlet, whether commands still fit the outlet's queue or not (R139 to R146, R157). -/

namespace Sys2Proof.Machine
-- Proofs are checked one after another: in parallel they would not fit the memory that the check allows.
set_option Elab.async false

variable {v s t : State} {c : Channel} {o : OutletNo} {tk : TakeoverRec} {it : Item} {rest : List Awaiting}

/-! ## What stays (R144) -/

/-- The run has `it` on air on outlet `o`, and neither a go item nor a start report that waits for one. -/
structure RunRec.AirsOn (r : RunRec) (o : OutletNo) (it : Item) : Prop where
  onAir : r.onAir = some it
  outlet : r.outlet = o
  goItem : r.goItem = none
  goReport : r.goReport = none

/-- Channel `c`, with the takeover record `tk`, has `it` on air on outlet `o`, whose awaiting list is `rest`; bus and TAKEN are as in
`v`, no request waits, and every report is of a failed item of `c`. -/
structure Airing (v t : State) (c : Channel) (o : OutletNo) (tk : TakeoverRec) (it : Item) (rest : List Awaiting) : Prop where
  chan : ∃ x r, t.chan? c = some x ∧ x.tk = tk ∧ x.run = some r ∧ r.AirsOn o it
  state : (t.outlet o).state = .air
  air : (t.outlet o).air = true
  channel : (t.outlet o).channel = some c
  awaiting : (t.outlet o).awaiting = rest
  bus : t.bus = v.bus
  taken : t.notices[(4 : Fin 12)] = v.notices[(4 : Fin 12)]
  reqs : t.mirrorReqs = []
  reports : ∀ x ∈ t.reports, x.channel = c ∧ x.lapse = false

section Airing

variable (h : Airing v s c o tk it rest)
include h

/-! ## Changes of the state's parts -/

/-- A change of what the channel's list holds, of the pool, of the as-run queue and the like. -/
theorem Airing.of_same (hc : (t.chan? c).map (fun x => (x.tk, x.run)) = (s.chan? c).map (fun x => (x.tk, x.run)))
    (ho : t.outlets = s.outlets) (hb : t.bus = s.bus) (hn : t.notices[(4 : Fin 12)] = s.notices[(4 : Fin 12)])
    (hq : t.mirrorReqs = s.mirrorReqs) (hr : t.reports = s.reports) : Airing v t c o tk it rest := by
  obtain ⟨x, r, hx, hk, hrun, ha⟩ := h.chan
  rw [hx] at hc
  obtain ⟨y, hy, hxy⟩ := Option.map_eq_some_iff.1 hc
  obtain ⟨htk, hyr⟩ := Prod.mk.injEq .. ▸ hxy
  have houtlet : t.outlet o = s.outlet o := by
    unfold State.outlet
    rw [ho]
  exact ⟨⟨y, r, hy, htk.trans hk, hyr.trans hrun, ha⟩, by rw [houtlet, h.state], by rw [houtlet, h.air], by rw [houtlet, h.channel],
    by rw [houtlet, h.awaiting], hb.trans h.bus, hn.trans h.taken, hq.trans h.reqs, hr ▸ h.reports⟩

theorem airing_modRun (f : RunRec → RunRec) (hf : ∀ r : RunRec, r.AirsOn o it → (f r).AirsOn o it) :
    Airing v (s.modRun c f) c o tk it rest := by
  obtain ⟨x, r, hx, hk, hrun, ha⟩ := h.chan
  exact { h with chan := ⟨_, f r, modRun_get hx f, hk, by rw [hrun]; rfl, hf r ha⟩ }

theorem airing_unpin (n : Nat) : Airing v (s.unpin c n) c o tk it rest := by
  obtain ⟨hb, ho, hn, -, -, hr, hq, -, -, -, hc⟩ := unpin_keeps s c n
  have hc := congrArg (Option.map fun x => (x.1, x.2.1)) (hc c)
  rw [Option.map_map, Option.map_map] at hc
  exact h.of_same hc ho hb (by rw [hn]) hq hr

theorem airing_pin (n : Nat) : Airing v (s.pin c n) c o tk it rest := by
  obtain ⟨x, r, hx, hk, hrun, ha⟩ := h.chan
  exact { h with chan := ⟨_, r, pin_get hx n, hk, hrun, ha⟩ }

theorem airing_writeAsRun (a : AsRun) : Airing v (s.writeAsRun a) c o tk it rest := by
  obtain ⟨hb, ho, hn, -, hc, -, hr, hq, -⟩ := writeAsRun_changes s a
  exact h.of_same (by unfold State.chan?; rw [hc]) ho hb (hn 4 nofun) hq hr

theorem airing_sweep : Airing v (s.sweep c) c o tk it rest := by
  obtain ⟨x, r, hx, hk, hrun, ha⟩ := h.chan
  cases hs : x.watch.seeded with
  | false =>
    rw [sweep_unseeded hx hs]
    exact h
  | true =>
    rw [sweep_seeded hx hs]
    exact { h with chan := ⟨_, r, modChan_get hx _ (fun _ => rfl), hk, hrun, ha⟩ }

theorem airing_settleOrder : Airing v (s.settleOrder o) c o tk it rest := by
  obtain ⟨hb, ho, hc, hn, -, hr, -, -, hq, -⟩ := settleOrder_keeps s o
  exact h.of_same (by unfold State.chan?; rw [hc]) ho hb (by rw [hn]) hq hr

/-- A PREP of a later item, or a SIDE, that goes by unsent: the PREP's item is reported (R164). -/
theorem airing_goesBy {cmd : Cmd} (hj : cmd.joins = false) (hstop : cmd.isStop = false) :
    Airing v (s.failCmd o cmd false .missed) c o tk it rest := by
  have hraised : Airing v (s.raise .cueFault (outletByte o) (.cueFault (cmdKind cmd) .missed)) c o tk it rest :=
    h.of_same rfl rfl rfl (raise_other s .cueFault _ _ 4 nofun) rfl rfl
  unfold State.failCmd
  generalize s.raise .cueFault (outletByte o) (.cueFault (cmdKind cmd) .missed) = w at hraised
  cases cmd with
  | side => exact hraised
  | stop => cases hstop
  | prep p =>
    have hnojoin : ¬ ((w.outlet o).state = .reserved ∧ p.join = true) := fun e => Bool.false_ne_true (hj.symm.trans e.2)
    dsimp only
    rw [if_neg Bool.false_ne_true, hraised.channel]
    dsimp only
    rw [if_neg hnojoin]
    refine { hraised with reports := fun x hx => ?_ }
    rcases List.mem_append.1 hx with hx | hx
    · exact hraised.reports x hx
    · rw [List.mem_singleton.1 hx]
      exact ⟨rfl, rfl⟩

/-- A PREP of a later item, or a SIDE, offered to the outlet: queued, or failed at once at a full queue (R157). -/
theorem airing_offerCmd {cmd : Cmd} (hj : cmd.joins = false) (hstop : cmd.isStop = false) :
    Airing v (s.offerCmd o cmd) c o tk it rest := by
  have hqueued : Airing v (s.modOutlet o (fun x => { x with queue := x.queue ++ [cmd] })) c o tk it rest :=
    { h with
      state := by rw [outlet_modOutlet_self]; exact h.state
      air := by rw [outlet_modOutlet_self]; exact h.air
      channel := by rw [outlet_modOutlet_self]; exact h.channel
      awaiting := by rw [outlet_modOutlet_self]; exact h.awaiting }
  unfold State.offerCmd
  dsimp only
  split
  · exact h
  split
  · exact airing_settleOrder hqueued
  · exact airing_goesBy h hj hstop

/-! ## Items (R137, R142, R146) -/

theorem airing_setHold (x : Option EventId) : Airing v (s.setHold c x) c o tk it rest :=
  airing_modRun h _ fun _ ha => ⟨ha.1, ha.2, ha.3, ha.4⟩

theorem airing_releaseItem (i : Item) : Airing v (s.releaseItem c i) c o tk it rest := by
  unfold State.releaseItem
  dsimp only
  repeat' split
  · exact h
  · exact h
  · exact airing_unpin h _

theorem airing_setCued (i : Item) : Airing v (s.setCued c i) c o tk it rest := by
  have hserial : Airing v { s with itemSerial := s.itemSerial + 1 } c o tk it rest := h.of_same rfl rfl rfl rfl rfl rfl
  have hcued := airing_modRun hserial (fun r => { r with cued := some i, cueMoment := none }) fun _ ha => ⟨ha.1, ha.2, ha.3, ha.4⟩
  unfold State.setCued State.pinItem
  split
  · exact hcued
  · exact airing_pin hcued _

theorem airing_settleSide : Airing v (s.settleSide c .cued) c o tk it rest := by
  have hnext := airing_modRun h (fun r => r.modItem .cued (fun i => { i with nextCue := i.nextCue + 1 }))
    fun _ ha => ⟨ha.1, ha.2, ha.3, ha.4⟩
  obtain ⟨x, r, hx, -, hrun, ha⟩ := h.chan
  unfold State.settleSide
  rw [hx]
  dsimp only
  rw [hrun]
  dsimp only
  split
  · exact h
  split
  · rw [ha.outlet]
    exact airing_offerCmd hnext rfl rfl
  · exact hnext

omit h in
theorem airing_settleDueSides (n : Nat) : ∀ {s : State}, Airing v s c o tk it rest →
    Airing v (s.settleDueSides c .cued n) c o tk it rest := by
  induction n with
  | zero => exact fun h => h
  | succ n ih =>
    intro s h
    unfold State.settleDueSides
    split
    · exact ih (airing_settleSide h)
    · exact h

theorem airing_lockItem : Airing v (s.lockItem c .cued false) c o tk it rest := by
  obtain ⟨x, r, hx, -, hrun, ha⟩ := h.chan
  unfold State.lockItem
  rw [hx]
  dsimp only
  rw [hrun]
  dsimp only
  split
  · exact h
  · rw [ha.outlet]
    refine airing_settleDueSides 4 (airing_offerCmd (airing_modRun h _ fun _ ha => ?_) rfl rfl)
    exact ⟨ha.1, ha.2, ha.3, ha.4⟩

/-! ## Choosing (R139 to R142) -/

theorem airing_cueJoin (ch : Chan) (r : RunRec) (j : JoinResult) : Airing v (s.cueJoin c ch r j) c o tk it rest := by
  unfold State.cueJoin
  split
  · exact h
  · exact airing_lockItem (airing_setCued (airing_setHold h _) _)

theorem airing_lateCue (ch : Chan) (r : RunRec) : Airing v (s.lateCue c ch r) c o tk it rest := by
  unfold State.lateCue
  split
  · split
    · exact airing_setHold h _
    · exact airing_cueJoin h ..
  · exact airing_cueJoin h ..

theorem airing_takeChoice (ch : Chan) (r : RunRec) (i : Item) (x : Option EventId) :
    Airing v (s.takeChoice c ch r i x) c o tk it rest := by
  have hcued := airing_setCued (airing_setHold h x) i
  unfold State.takeChoice
  dsimp only
  split
  · exact h
  split
  · exact airing_lateCue h ..
  split
  · exact airing_lockItem hcued
  · exact airing_modRun hcued _ fun _ ha => ⟨ha.1, ha.2, ha.3, ha.4⟩

theorem airing_chooseBehindFiller (ch : Chan) (r : RunRec) (e : Time) :
    Airing v (s.chooseBehindFiller c ch r e) c o tk it rest := by
  unfold State.chooseBehindFiller
  split
  · exact airing_setHold h _
  · exact airing_takeChoice h ..
  · exact airing_takeChoice h ..
  · exact airing_lateCue h ..

theorem airing_chooseFrom (ch : Chan) (r : RunRec) (e : Time) : Airing v (s.chooseFrom c ch r e) c o tk it rest := by
  unfold State.chooseFrom
  split
  · exact airing_takeChoice h ..
  · exact airing_takeChoice h ..
  · exact airing_takeChoice h ..
  · exact airing_lateCue h ..

theorem airing_choose (stop : Option Time) : Airing v (s.choose c stop) c o tk it rest := by
  unfold State.choose
  repeat' split
  · exact h
  · exact h
  · exact h
  · exact airing_chooseBehindFiller h ..
  · exact h
  · exact airing_chooseFrom h ..

theorem airing_chooseLate : Airing v (s.chooseLate c) c o tk it rest := by
  unfold State.chooseLate
  repeat' split
  · exact h
  · exact h
  · exact airing_lateCue h ..

/-- The choice where nothing is cued, behind a sweep of the channel (R38, R144). -/
theorem airing_sweepThenChoose {x : Chan} {r : RunRec} (hx : s.chan? c = some x) (hrun : x.run = some r) (hcued : r.cued = none) :
    Airing v ((s.askSweep c).chooseIfNone c) c o tk it rest := by
  have hserved : (s.askSweep c).serveAll = s.sweep c := by
    have hnone : { s with mirrorReqs := [] } = s := by rw [← h.reqs]
    unfold State.serveAll State.askSweep
    dsimp only
    rw [h.reqs]
    exact congrArg (State.sweep · c) hnone
  have hnone : ((s.askSweep c).chan? c).any (fun ch => ch.run.any (fun r => r.cued.isNone)) = true := by
    rw [show (s.askSweep c).chan? c = some x from hx, Option.any_some, hrun, Option.any_some, hcued]
    rfl
  unfold State.chooseIfNone
  rw [if_pos hnone, hserved]
  exact airing_choose (airing_sweep h) none

/-! ## Failures of later items and their reports (R145, R174) -/

theorem Airing.takeGoReport_eq : s.takeGoReport c = s := by
  obtain ⟨x, r, hx, -, hrun, ha⟩ := h.chan
  unfold State.takeGoReport
  rw [hx]
  dsimp only
  rw [hrun]
  dsimp only
  rw [ha.goReport]

theorem Airing.retryStop_eq (hb : tk.handback = none) : s.retryStop c = s := by
  obtain ⟨x, r, hx, hk, -⟩ := h.chan
  unfold State.retryStop
  rw [hx]
  dsimp only
  rw [hk, hb]

theorem airing_replaceItem (ch : Chan) (r : RunRec) (i : Item) : Airing v (s.replaceItem c ch r i) c o tk it rest := by
  unfold State.replaceItem
  dsimp only
  repeat' split
  · exact h
  · exact airing_lockItem (airing_setCued h _)
  · exact airing_chooseLate h
  · exact h
  · exact airing_lockItem (airing_setCued h _)

theorem airing_cuedFails (ch : Chan) {r : RunRec} (hr : r.goItem = none) (i : Item) :
    Airing v (s.cuedFails c ch r i) c o tk it rest := by
  have hgone := airing_releaseItem (airing_modRun (airing_writeAsRun h (asRunMissed ch r i)) (fun r =>
    { r with cued := r.goItem, goItem := none, cueMoment := none, cuedOrigin := r.goOrigin })
      fun _ ha => ⟨ha.1, ha.2, rfl, ha.4⟩) i
  unfold State.cuedFails
  dsimp only
  rw [hr, Option.isSome_none, if_neg Bool.false_ne_true]
  split
  · exact airing_replaceItem hgone ..
  · split
    · exact airing_choose hgone _
    · exact hgone

theorem airing_itemFailed (n : Nat) : Airing v (s.itemFailed c n) c o tk it rest := by
  obtain ⟨x, r, hx, -, hrun, ha⟩ := h.chan
  unfold State.itemFailed
  rw [hx]
  dsimp only
  rw [hrun]
  dsimp only
  split
  · exact airing_cuedFails h x ha.goItem _
  · rw [ha.goItem]
    exact h

theorem airing_takeReport (hb : tk.handback = none) {x : ItemReport} (hx : x.channel = c) (hl : x.lapse = false) :
    Airing v (s.takeReport x) c o tk it rest := by
  have hfailed := airing_itemFailed h x.serial
  unfold State.takeReport
  dsimp only
  rw [mirrorTurn_of_nil h.reqs, hl, if_neg Bool.false_ne_true, hx, hfailed.retryStop_eq hb]
  exact hfailed

end Airing

theorem airing_settleReports (hb : tk.handback = none) (n : Nat) : ∀ {s : State}, Airing v s c o tk it rest →
    Airing v (State.settleReports n s) c o tk it rest := by
  induction n with
  | zero => exact fun h => { h with reports := nofun }
  | succ n ih =>
    intro s h
    unfold State.settleReports
    split
    · exact h
    · rename_i x l hx
      have hreports := h.reports
      rw [hx] at hreports
      obtain ⟨hc, hl⟩ := hreports x List.mem_cons_self
      have hrest : Airing v { s with reports := l } c o tk it rest :=
        { h with reports := fun y hy => hreports y (List.mem_cons_of_mem x hy) }
      exact ih (airing_takeReport hrest hb hc hl)

theorem airing_settle (h : Airing v s c o tk it rest) (hb : tk.handback = none) : Airing v s.settle c o tk it rest :=
  airing_settleReports hb 1024 h

end Sys2Proof.Machine
end

section
/-! SUPPORT. The STARTED of a join PREP: the channel taken to ON_AIR, its join item started, and the statement about it
(R119, R122, R144, R166). -/

namespace Sys2Proof.Machine
-- Proofs are checked one after another: in parallel they would not fit the memory that the check allows.
set_option Elab.async false

variable {s : State} {c : Channel} {ch : Chan} {o : OutletNo} {k : Key} {r : RunRec} {it : Item} {a : Awaiting} {rest : List Awaiting}
  {tag : Byte} {actual : Time}

/-! ## ON_AIR (R119, R122) -/

/-- The channel record of a join that is on air (R119, R122). -/
def State.joinedChan (s : State) (ch : Chan) : Chan :=
  { ch with tk := { ch.tk with
    state := .onAir, holdDl := some (s.tb.now + BitVec.ofNat 48 (s.sp.holdPeriod * 240)) } }

/-- The outlet on air and the channel ON_AIR, before the HOLD (R122, R153). -/
def State.wentOnAir (s : State) (c : Channel) (o : OutletNo) : State :=
  (s.modOutlet o (fun x => { x with state := .air, air := true })).modTk c (fun tk => { tk with state := .onAir })

/-- A join whose item has started, before the runner is told: the outlet on air, the channel ON_AIR, a HOLD offered and TAKEN raised
(R119, R122, R153). -/
structure JoinOnAir (s t : State) (c : Channel) (ch : Chan) (o : OutletNo) (k : Key) : Prop where
  chan : t.chan? c = some (s.joinedChan ch)
  outlet : t.outlet o = { s.outlet o with state := .air, air := true }
  others : ∀ p, p ≠ o → t.outlet p = s.outlet p
  bus : t.bus = (s.offerFrame ⟨k.merit, s.bus.own, .hold c .onAir (ch.mirror.version.getD 0) 0⟩).bus
  noticed : s.Noticed t 4 c (.taken o)
  records : s.Records t none
  poolFree : t.poolFree = s.poolFree
  reqs : t.mirrorReqs = s.mirrorReqs
  reports : t.reports = s.reports

theorem currentEvent_offAir (hr : ch.run = some r) (ha : r.onAir = none) : ch.currentEvent = 0 := by
  unfold Chan.currentEvent
  rw [hr, Option.bind_some, ha]

theorem wentOnAir_chan? (hc : s.chan? c = some ch) (o : OutletNo) :
    (s.wentOnAir c o).chan? c = some { ch with tk := { ch.tk with state := .onAir } } :=
  modTk_get (s.modOutlet o (fun x => { x with state := .air, air := true })) hc _

theorem joinStarted_onAir (hc : s.chan? c = some ch) (hs : ch.tk.state = .joining) (hk : ch.tk.ownHold = some k) (hr : ch.run = some r)
    (ha : r.onAir = none) (o : OutletNo) : JoinOnAir s (s.joinStarted c o) c ch o k := by
  have hon := wentOnAir_chan? hc o
  have hjoin : s.joinStarted c o = ((s.wentOnAir c o).held c ch k .onAir).raise .taken c (.taken o) := by
    unfold State.joinStarted
    rw [hc]
    refine (if_pos hs).trans (congrArg (State.raise · .taken c (.taken o)) ?_)
    exact (assertHold_held hon hk rfl).trans (held_congr rfl rfl)
  have hheld : (s.wentOnAir c o).held c ch k .onAir = State.modTk { s.wentOnAir c o with
      bus := (s.offerFrame ⟨k.merit, s.bus.own, .hold c .onAir (ch.mirror.version.getD 0) 0⟩).bus } c (fun tk =>
        { tk with holdDl := some (s.tb.now + BitVec.ofNat 48 (s.sp.holdPeriod * 240)) }) := by
    unfold State.held
    rw [currentEvent_offAir hr ha, offerFrame_rest, offerFrame_bus (s.wentOnAir c o) s _ rfl]
    rfl
  rw [hjoin, hheld]
  refine ⟨?_, ?_, fun p hp => ?_, rfl, raise_noticed _ .taken c (.taken o), ⟨rfl, rfl, raise_other _ .taken c (.taken o) 11 nofun⟩,
    rfl, rfl, rfl⟩
  · generalize State.bus _ = b
    exact modTk_get { s.wentOnAir c o with bus := b } hon fun tk =>
      { tk with holdDl := some (s.tb.now + BitVec.ofNat 48 (s.sp.holdPeriod * 240)) }
  · exact outlet_modOutlet_self s o (fun x => { x with state := .air, air := true })
  · exact (outlet_modOutlet s o p (fun x => { x with state := .air, air := true })).trans (if_neg hp)

/-! ## The join item starts (R144) -/

/-- The first item of a run, once started, airs while the runner chooses the next one behind its sweep (R38, R144). -/
theorem cuedStarts_airing (hc : s.chan? c = some ch) (hr : ch.run = some r) (hair : r.onAir = none) (hgo : r.goItem = none)
    (hgr : r.goReport = none) (ho : (s.outlet r.outlet).state = .air ∧ (s.outlet r.outlet).air = true ∧
      (s.outlet r.outlet).channel = some c) (hq : s.mirrorReqs = []) (hrep : s.ReportsSettled) (it : Item) (start : Time) :
    Airing s (s.cuedStarts c ch r it start false) c r.outlet ch.tk { it with runStart := some start, unconfirmed := false }
      (s.outlet r.outlet).awaiting := by
  have hmoved := modRun_get hc (fun r => { r with
    onAir := some { it with runStart := some start, unconfirmed := false }
    cued := r.goItem, goItem := none, cueMoment := none, cuedOrigin := r.goOrigin })
  rw [hr] at hmoved
  have hstarted : Airing s (s.modRun c (fun r => { r with
      onAir := some { it with runStart := some start, unconfirmed := false }
      cued := r.goItem, goItem := none, cueMoment := none, cuedOrigin := r.goOrigin })) c r.outlet ch.tk
      { it with runStart := some start, unconfirmed := false } (s.outlet r.outlet).awaiting :=
    ⟨⟨_, _, hmoved, rfl, rfl, rfl, rfl, rfl, hgr⟩, ho.1, ho.2.1, ho.2.2, rfl, rfl, rfl, hq, fun x hx => by
      rw [show (s.modRun c _).reports = [] from hrep] at hx
      cases hx⟩
  unfold State.cuedStarts
  rw [hair]
  exact airing_sweepThenChoose hstarted hmoved rfl hgo

theorem itemStarted_cued (hc : s.chan? c = some ch) (hr : ch.run = some r) (hcued : r.cued = some it) (hl : it.locked = true)
    (start : Time) (unconfirmed : Bool) :
    s.itemStarted c it.serial start unconfirmed = (s.cuedStarts c ch r it start unconfirmed).takeGoReport c := by
  have his : r.cuedIs it.serial = some it := by
    unfold RunRec.cuedIs
    rw [hcued]
    simp [Option.filter, hl]
  unfold State.itemStarted
  rw [hc]
  dsimp only
  rw [hr]
  dsimp only
  rw [his]

/-! ## The STARTED (R166) -/

/-- The state in which the STARTED of the first awaiting PREP acts: the message taken and the PREP off the list (R155, R166). -/
def State.startTaken (s : State) (o : OutletNo) (rest : List Awaiting) : State :=
  (s.setCueFraming .wait).modOutlet o (fun x => { x with awaiting := rest })

theorem exec_started_awaiting (hl : s.locked = true) (hf : s.cue.framing ≠ .hunt) (hq : s.mirrorReqs = []) {outlet : Byte}
    (hout : outlet.toNat = tag.toNat / 4) (htag : tagOutlet tag = some o) (hnone : (s.outlet o).outstanding = none)
    (hawait : (s.outlet o).awaiting = a :: rest) (ha : a.tag = tag.toNat) (actual : Time) :
    exec (.started tag outlet actual) s = .next ((s.startTaken o rest).startedPrep o a.prep actual).settle := by
  have hq' : (s.setCueFraming .wait).mirrorReqs = [] := hq
  have hnone' : ((s.setCueFraming .wait).outlet o).outstanding = none := hnone
  have hawait' : ((s.setCueFraming .wait).outlet o).awaiting = a :: rest := hawait
  have hturn : (s.setCueFraming .wait).startTurn o tag = s.setCueFraming .wait := by
    rw [startTurn_answers (.inr ⟨a, hawait' ▸ List.mem_cons_self, ha⟩), outletTurn_of_nil hq']
  have hfirst : (s.setCueFraming .wait).takenFirst o tag = s.setCueFraming .wait := by
    unfold State.takenFirst State.matched
    rw [hnone']
    rfl
  have htaken : takeFirst (fun a : Awaiting => a.tag == tag.toNat) (a :: rest) = some (a, rest) := if_pos (beq_iff_eq.2 ha)
  rw [exec_started (cueFraming_of hl hf) hout]
  unfold State.takeStarted
  simp only [htag, hturn, hfirst, hawait', htaken]
  rfl

theorem startTaken_outlet (s : State) (o : OutletNo) (rest : List Awaiting) :
    (s.startTaken o rest).outlet o = { s.outlet o with awaiting := rest } :=
  outlet_modOutlet_self (s.setCueFraming .wait) o (fun x => { x with awaiting := rest })

theorem startTaken_others (s : State) {o p : OutletNo} (hp : p ≠ o) (rest : List Awaiting) :
    (s.startTaken o rest).outlet p = s.outlet p :=
  (outlet_modOutlet (s.setCueFraming .wait) o p (fun x => { x with awaiting := rest })).trans (if_neg hp)

/-- The STARTED of a join PREP takes the channel on air before its item starts (R122, R166). -/
theorem startedPrep_join {p : Prep} (ho : (s.outlet o).channel = some c) (hs : (s.outlet o).state = .reserved) (hj : p.join = true)
    (actual : Time) :
    s.startedPrep o p actual = ((s.joinStarted c o).itemStarted c p.serial actual false).retryStop c := by
  unfold State.startedPrep
  rw [ho]
  dsimp only
  rw [if_pos ⟨hs, hj⟩]

/-- Settles O43: the channel goes on air, and then its item starts and airs whatever the choice and its failures bring. -/
theorem joinStartedGoesOnAir : Obligations.JoinStartedGoesOnAir := by
  intro s tag outlet actual o c ch a rest k r it hl hf hrep hq hout htag hs ho hnone hawait ha hj hc hst hk hb hr hro hair hgo hgr
    hcued hlocked hserial
  subst hro
  have hexec := exec_started_awaiting hl hf hq hout htag hnone hawait ha actual
  have houtlet := startTaken_outlet s r.outlet rest
  rw [startedPrep_join (by rw [houtlet]; exact ho) (by rw [houtlet]; exact hs) hj] at hexec
  obtain ⟨hchan, hself, hothers, hbus, hnoticed, hrecords, hpool, hreqs, hreports⟩ :=
    joinStarted_onAir (s := s.startTaken r.outlet rest) hc hst hk hr hair r.outlet
  have hkeeps := keeps_joinStarted (s.startTaken r.outlet rest) c r.outlet
  rw [houtlet] at hself
  generalize (s.startTaken r.outlet rest).joinStarted c r.outlet = v at *
  have hairing := cuedStarts_airing hchan hr hair hgo hgr ⟨by rw [hself], by rw [hself], by rw [hself]; exact ho⟩ (hreqs.trans hq)
    (hreports.trans hrep) it actual
  have hb' : ((s.startTaken r.outlet rest).joinedChan ch).tk.handback = none := hb
  have hitem := itemStarted_cued hchan hr hcued hlocked actual false
  rw [hairing.takeGoReport_eq] at hitem
  rw [← hserial, hitem, hairing.retryStop_eq hb'] at hexec
  obtain ⟨⟨x, r', hx, htk, hrun, hairs⟩, hstate, hon, hchannel, hawaiting, htbus, htaken, -, -⟩ := airing_settle hairing hb'
  have htends : Tends (s.startTaken r.outlet rest)
      (v.cuedStarts c ((s.startTaken r.outlet rest).joinedChan ch) r it actual false).settle :=
    tends_settle (tends_cuedStarts hkeeps.tends ..)
  refine ⟨_, v, x, _, r', hexec, ⟨hchan, rfl, hself, fun p hp => (hothers p hp).trans (startTaken_others s hp rest),
    hbus.trans (offerFrame_bus (s.startTaken r.outlet rest) s _ rfl), hnoticed,
    hrecords, hpool, hreqs.trans hq, hkeeps.outer.sameWatches, hkeeps.sameMirror⟩, hx, htk, hrun, hairs.onAir, hstate, hon, hchannel,
    hawaiting.trans (by rw [hself]), htbus, htaken, htends.outer.sameWatches, htends.tended, fun hroom => ?_⟩
  have htakes : v.Takes r.outlet := by
    unfold State.Takes
    rw [hself]
    exact ⟨nofun, nofun, hroom⟩
  obtain ⟨hmoved, hsettled⟩ := cuedStarts_moved hchan hr htakes it actual false
  rwa [settle_of_nil (hsettled.trans (hreports.trans hrep))]

end Sys2Proof.Machine
end

section
/-! SUPPORT. The claim-window end: the channel taken to JOINING with its HOLD, the run record opened on the join result, its item cued
and locked with the join PREP, and the statement about them (R35, R116, R119, R126, R134, R135, R137). -/

namespace Sys2Proof.Machine
-- Proofs are checked one after another: in parallel they would not fit the memory that the check allows.
set_option Elab.async false

variable {s : State} {c : Channel} {ch : Chan} {r : RunRec} {it : Item} {o : OutletNo} {k : Key}

/-! ## Cueing and locking move no outlet (R142, R146, R157) -/

theorem queued_state (s : State) (o p : OutletNo) (cmd : Cmd) :
    (((s.modOutlet o (fun x => { x with queue := x.queue ++ [cmd] })).settleOrder o).outlet p).state = (s.outlet p).state := by
  rw [settled_outlet]
  split
  next h => rw [h]
  next => rfl

/-- A SIDE is queued, or goes by unsent and is only noticed (R164). -/
theorem offerSide_state (s : State) (o p : OutletNo) (code : BitVec 16) (x : Time) :
    ((s.offerCmd o (.side code x)).outlet p).state = (s.outlet p).state := by
  unfold State.offerCmd
  dsimp only
  split
  · rfl
  split
  · exact queued_state s o p _
  · rfl

theorem settleSide_state (s : State) (c : Channel) (place : ItemPlace) (p : OutletNo) :
    ((s.settleSide c place).outlet p).state = (s.outlet p).state := by
  unfold State.settleSide
  split
  · rfl
  split
  · rfl
  split
  · rfl
  dsimp only
  split
  · exact offerSide_state _ _ p _ _
  · rfl

theorem settleDueSides_state (c : Channel) (place : ItemPlace) (p : OutletNo) (n : Nat) (s : State) :
    ((s.settleDueSides c place n).outlet p).state = (s.outlet p).state := by
  induction n generalizing s with
  | zero => rfl
  | succ n ih =>
    unfold State.settleDueSides
    split
    · exact (ih _).trans (settleSide_state s c place p)
    · rfl

theorem offerTaken_state (ho : s.Takes o) (cmd : Cmd) (p : OutletNo) : ((s.offerCmd o cmd).outlet p).state = (s.outlet p).state := by
  rw [offerCmd_takes s o cmd ho.1 ho.2.1 ho.2.2]
  exact queued_state s o p cmd

theorem lockCued_state (h : s.chan? c = some ch) (hr : ch.run = some r) (hi : r.cued = some it) (ho : s.Takes r.outlet) (joinMark : Bool)
    (p : OutletNo) : ((s.lockItem c .cued joinMark).outlet p).state = (s.outlet p).state := by
  have hitem : r.item .cued = some it := hi
  unfold State.lockItem
  rw [h]
  dsimp only
  rw [hr]
  dsimp only
  rw [hitem]
  exact (settleDueSides_state c .cued p 4 _).trans (offerTaken_state (s := s.modRun c _) ho _ p)

/-! ## The run record opens (R126, R134, R135, R137) -/

/-- The run record of a join result whose item is cued and locked, the next side cue to settle being number `n` (R137, R142). -/
def JoinResult.openedRun (j : JoinResult) (o : OutletNo) (offset : Time) (serial n : Nat) : RunRec :=
  { (runOf o offset).holding j.hold with
    cued := some { j.item offset serial with locked := true, nextCue := n }
    walkOrigin := (j.item offset serial).event? }

/-- A list with the record pinned that an item holds (R35; log 60). -/
def pinnedFor (it : Item) (l : List EventRec) : List EventRec :=
  l.map (fun e => match it.source with
    | .event slot _ => if e.slot = slot then { e with pinned := true } else e
    | .filler => if it.upTo = some e.slot then { e with pinned := true } else e)

/-- The join result `j` is in place as the run of channel `c`, whose record was `ch`: its item cued with its record pinned, and locked
with the join PREP at the tail of the outlet's queue, before the side cues due by then (R35, R134, R137, R142). -/
structure JoinCued (s t : State) (c : Channel) (ch : Chan) (o : OutletNo) (offset : Time) (j : JoinResult) : Prop where
  chan : ∃ n, t.chan? c = some { ch with
    list := pinnedFor (j.item offset s.itemSerial) ch.list, run := some (j.openedRun o offset s.itemSerial n) }
  state : (t.outlet o).state = (s.outlet o).state
  prep : (s.outlet o).queue ++ [.prep (ch.prepFor (j.item offset s.itemSerial) true)] <+: (t.outlet o).queue
  bus : t.bus = s.bus
  records : s.Records t none
  reports : t.reports = s.reports
  poolFree : t.poolFree = s.poolFree

/-- The state in which the run record of a join result stands with its item cued, before the lock (R137). -/
def State.joinRun (s : State) (c : Channel) (o : OutletNo) (offset : Time) (j : JoinResult) : State :=
  ((s.modChan c (fun x => { x with run := some (runOf o offset) })).setHold c j.hold).setCued c (j.item offset s.itemSerial)

theorem openRun_eq (hc : s.chan? c = some ch) (o : OutletNo) (d offset : Time) : s.openRun c o d offset =
    (s.joinRun c o offset (join (s.joinInput ch (runOf o offset) d) ch.list)).lockItem c .cued true := by
  unfold State.openRun
  rw [hc]
  rfl

/-- A join result in place is locked at once (R134, R142). -/
theorem lockItem_joinCued (hc : s.chan? c = some ch) (ho : s.Takes o) (offset : Time) (j : JoinResult) :
    JoinCued s ((s.joinRun c o offset j).lockItem c .cued true) c ch o offset j := by
  have hopen := modChan_get hc (fun x => { x with run := some (runOf o offset) }) fun _ => rfl
  obtain ⟨l, hcued, -, hdata, houtlets, hbus, hrecords, -, hreports, hpool, hl⟩ :=
    setCued_get (setHold_get hopen rfl j.hold) rfl (j.item offset s.itemSerial)
  change (s.joinRun c o offset j).chan? c = _ at hcued
  change (s.joinRun c o offset j).outlets = s.outlets at houtlets
  change s.Records (s.joinRun c o offset j) none at hrecords
  have houtlet (p : OutletNo) : (s.joinRun c o offset j).outlet p = s.outlet p := by
    unfold State.outlet
    rw [houtlets]
  have htakes : (s.joinRun c o offset j).Takes o := by
    unfold State.Takes
    rwa [houtlet]
  obtain ⟨n, hlocked, hprep, -, hlbus, hlrecords, -, hlreports, hlpool⟩ :=
    lockCued_locks hcued rfl rfl htakes.1 htakes.2.1 htakes.2.2 true
  refine ⟨⟨n, hlocked.trans ?_⟩, ?_, ?_, hlbus.trans hbus, Records.before hrecords hlrecords, hlreports.trans hreports,
    hlpool.trans hpool⟩
  · rw [hl]
    cases j <;> rfl
  · rw [lockCued_state hcued rfl rfl htakes true o, houtlet]
  · rw [← prepOf_for, ← material_pinned ch l hdata (some { (runOf o offset).holding j.hold with
      cued := some (j.item offset s.itemSerial), cueMoment := none }), ← houtlet o]
    exact hprep

theorem openRun_joinCued (hc : s.chan? c = some ch) (ho : s.Takes o) (d offset : Time) :
    JoinCued s (s.openRun c o d offset) c ch o offset (join (s.joinInput ch (runOf o offset) d) ch.list) := by
  rw [openRun_eq hc]
  exact lockItem_joinCued hc ho offset _

/-! ## JOINING (R116, R119) -/

/-- The takeover record of a channel in JOINING that has offered its HOLD (R103, R116, R119). -/
def State.joiningTk (s : State) (tk : TakeoverRec) : TakeoverRec :=
  { tk.joins with holdDl := some (s.tb.now + BitVec.ofNat 48 (s.sp.holdPeriod * 240)) }

theorem joiningTk_eq {tk : TakeoverRec} (hk : tk.ownClaim = some k) (s : State) : s.joiningTk tk = { tk with
    state := .joining, ownHold := some k, ownClaim := none, claimSent := false, windowEnd := none
    holdDl := some (s.tb.now + BitVec.ofNat 48 (s.sp.holdPeriod * 240)) } := by
  unfold State.joiningTk TakeoverRec.joins
  rw [hk]

/-- The HOLD of a channel entering JOINING (R95, R119). -/
def State.joiningHold (s : State) (c : Channel) (ch : Chan) (k : Key) : Frame :=
  ⟨k.merit, s.bus.own, .hold c .joining (ch.mirror.version.getD 0) ch.currentEvent⟩

/-- The state in which a channel has entered JOINING and offered its HOLD. -/
def State.joiningHeld (s : State) (c : Channel) (ch : Chan) (k : Key) : State :=
  State.modTk { s with bus := (s.offerFrame (s.joiningHold c ch k)).bus } c s.joiningTk

theorem joiningHeld_chan? (hc : s.chan? c = some ch) (k : Key) :
    (s.joiningHeld c ch k).chan? c = some { ch with tk := s.joiningTk ch.tk } :=
  modTk_get { s with bus := (s.offerFrame (s.joiningHold c ch k)).bus } hc _

theorem assertHold_joins (hc : s.chan? c = some ch) (hk : ch.tk.ownClaim = some k) :
    (s.modTk c TakeoverRec.joins).assertHold c = s.joiningHeld c ch k := by
  have hjoins := modTk_get s hc TakeoverRec.joins
  have hbus := offerFrame_bus (s.modTk c TakeoverRec.joins) s (s.joiningHold c ch k) rfl
  have hheld := modTk_modTk { s with bus := (s.offerFrame (s.joiningHold c ch k)).bus } c TakeoverRec.joins fun tk =>
    { tk with holdDl := some (s.tb.now + BitVec.ofNat 48 (s.sp.holdPeriod * 240)) }
  rw [assertHold_eq hjoins (k := k) hk, offerFrame_rest]
  refine Eq.trans ?_ hheld
  rw [← hbus]
  rfl

/-- A command put behind an empty queue is at its head, whatever follows it. -/
theorem queue_head {q t : List Cmd} {cmd : Cmd} (hq : q = []) (h : q ++ [cmd] <+: t) : t.head? = some cmd := by
  obtain ⟨tail, rfl⟩ := h
  rw [hq]
  rfl

/-! ## The command (R3, R116) -/

theorem windowReached_eq (hc : s.chan? c = some ch) (hs : ch.tk.state = .contending) {d : Time} (hd : ch.tk.windowEnd = some d) :
    s.windowReached c = atOrBefore d s.tb.now := by
  unfold State.windowReached Chan.contending
  rw [hc, Option.any_some, hs, hd]
  rfl

theorem exec_claimWindowEnd (hq : s.mirrorReqs = []) :
    exec (.claimWindowEnd c) s = .next (if s.windowReached c then (s.enterJoining c).settle else s) := by
  show execClaimWindowEnd c s = _
  unfold execClaimWindowEnd
  rw [serveAll_of_nil hq]
  dsimp only
  split <;> rfl

theorem enterJoining_eq (hc : s.chan? c = some ch) (hk : ch.tk.ownClaim = some k) {d : Time} (hd : ch.tk.windowEnd = some d)
    (ho : ch.tk.outlet = some o) : s.enterJoining c = (s.joiningHeld c ch k).openRun c o d ch.watch.estimate := by
  unfold State.enterJoining
  rw [hc]
  dsimp only
  rw [hd, ho]
  dsimp only
  rw [assertHold_joins hc hk]

/-- Settles O40: the channel is JOINING with its HOLD offered, and then its run opens on the join result at the window's end. -/
theorem claimWindowEndJoins : Obligations.ClaimWindowEndJoins := by
  intro s c ch d o k hrep hq hc hs hd ho hk hres hempty
  rw [exec_claimWindowEnd hq, windowReached_eq hc hs hd]
  refine ⟨fun hbefore => by rw [if_neg (by rw [hbefore]; nofun)], fun hreached => ?_⟩
  rw [if_pos hreached]
  have htakes : (s.joiningHeld c ch k).Takes o := by
    show (s.outlet o).state ≠ .stopping ∧ (s.outlet o).state ≠ .faulted ∧ (s.outlet o).queue.length < 4
    rw [hres, hempty]
    decide
  have hcued := openRun_joinCued (joiningHeld_chan? hc k) htakes d ch.watch.estimate
  have hkeeps := keeps_enterJoining s c
  rw [← enterJoining_eq hc hk hd ho] at hcued
  obtain ⟨⟨n, hchan⟩, hstate, hprep, hbus, hrecords, hreports, hpool⟩ := hcued
  rw [settle_of_nil (hreports.trans hrep)]
  exact ⟨_, _, _, _, rfl, hchan, joiningTk_eq hk s, hbus, rfl, rfl, rfl, rfl, rfl, rfl, rfl, rfl, rfl, rfl, rfl, rfl, hstate.trans hres,
    queue_head hempty hprep, rfl, rfl, hpool, hrecords, hkeeps.outer.sameWatches, hkeeps.sameMirror⟩

end Sys2Proof.Machine
end

section
/-! SUPPORT. The join point: the frame boundary at or after the join time, the event that contains it, the walk to what comes next, and
the statement that a join lands on the frame grid of what it enters (R127 to R134, R137). -/

namespace Sys2Proof.Machine
-- Proofs are checked one after another: in parallel they would not fit the memory that the check allows.
set_option Elab.async false

variable {i : JoinInput} {e : EventRec} {x : Times} {j t u : Time} {d k n p f : Nat}

/-! ## Times less than one period apart (R129, R131, R132) -/

/-- A period is short against the range of times, so a time less than one period ahead reads as that far ahead. -/
theorem diff_ahead (hp : p ≤ 10010) (hn : n < p) : diff (j + BitVec.ofNat 48 n) j = n := by
  have hsmall : n < 2 ^ 48 := by omega
  unfold diff
  rw [add_sub_cancel_left, BitVec.toInt_eq_toNat_of_lt] <;> rw [BitVec.toNat_ofNat, Nat.mod_eq_of_lt hsmall]
  omega

theorem add_toNat_sub (t u : Time) : u + BitVec.ofNat 48 (t - u).toNat = t := by
  rw [BitVec.ofNat_toNat, BitVec.setWidth_eq, add_sub_cancel]

/-- A point `n` grains behind a start that lies at most `n` grains before `j`. -/
theorem boundary_eq (h : (j - t).toNat ≤ n) : t + BitVec.ofNat 48 n = j + BitVec.ofNat 48 (n - (j - t).toNat) := by
  calc t + BitVec.ofNat 48 n = t + BitVec.ofNat 48 ((j - t).toNat + (n - (j - t).toNat)) := by rw [Nat.add_sub_cancel' h]
    _ = t + BitVec.ofNat 48 (j - t).toNat + BitVec.ofNat 48 (n - (j - t).toNat) := by rw [BitVec.ofNat_add, BitVec.add_assoc]
    _ = j + BitVec.ofNat 48 (n - (j - t).toNat) := by rw [add_toNat_sub]

/-- A point `n` grains before a time that lies at least `n` grains behind `j`. -/
theorem beforeNext_eq (h : n ≤ (t - j).toNat) : t - BitVec.ofNat 48 n = j + BitVec.ofNat 48 ((t - j).toNat - n) := by
  have hsum : t = j + BitVec.ofNat 48 ((t - j).toNat - n) + BitVec.ofNat 48 n := by
    rw [BitVec.add_assoc, ← BitVec.ofNat_add, Nat.sub_add_cancel h, add_toNat_sub]
  rw [← eq_sub_iff_add_eq.2 hsum.symm]

theorem ceilDiv_eq_iff (hp : 0 < p) : ceilDiv d p = k ↔ d ≤ k * p ∧ k * p < d + p := by
  unfold ceilDiv
  rw [Nat.div_eq_iff hp]
  omega

/-! ## The event that contains the join time, and the last one that has ended (R128) -/

theorem contains_iff (e : EventRec) (j : Time) : e.contains j = true ↔
    e.eclipsed = false ∧ ∃ x, e.times = some x ∧ diff x.nomStart j ≤ 0 ∧ diff j x.effEnd < 0 := by
  unfold EventRec.contains atOrBefore before
  cases e.times <;> simp [and_assoc]

theorem endsBy_iff (e : EventRec) (t : Time) : e.endsBy t = true ↔
    e.eclipsed = false ∧ ∃ x, e.times = some x ∧ diff x.effEnd t ≤ 0 := by
  unfold EventRec.endsBy atOrBefore
  cases e.times <;> simp

theorem splitAtContaining_of_none {l : List EventRec} (h : ∀ e ∈ l, e.contains j = false) : splitAtContaining j l = none := by
  induction l with
  | nil => rfl
  | cons e l ih =>
    unfold splitAtContaining
    rw [h e List.mem_cons_self, if_neg Bool.false_ne_true, ih fun y hy => h y (List.mem_cons_of_mem e hy)]

theorem splitAtContaining_of_first {a b : List EventRec} (h : ∀ y ∈ a, y.contains j = false) (he : e.contains j = true) :
    splitAtContaining j (a ++ e :: b) = some (e, b) := by
  induction a with
  | nil => exact if_pos he
  | cons y a ih =>
    rw [List.cons_append, splitAtContaining, h y List.mem_cons_self, if_neg Bool.false_ne_true]
    exact ih fun z hz => h z (List.mem_cons_of_mem y hz)

theorem dropThroughLast_suffix {α : Type} (q : α → Bool) (l : List α) : dropThroughLast q l <:+ l := by
  induction l with
  | nil => exact List.suffix_refl _
  | cons y l ih =>
    unfold dropThroughLast
    split
    · exact ih.trans (List.suffix_cons y l)
    split
    · exact List.suffix_cons y l
    · exact List.suffix_refl _

theorem dropThroughLast_of_none {α : Type} {q : α → Bool} {l : List α} (h : ∀ y ∈ l, q y = false) : dropThroughLast q l = l := by
  cases l with
  | nil => rfl
  | cons y l =>
    have hany : l.any q = false := List.any_eq_false.2 fun z hz => by simp [h z (List.mem_cons_of_mem y hz)]
    unfold dropThroughLast
    rw [hany, if_neg Bool.false_ne_true, h y List.mem_cons_self, if_neg Bool.false_ne_true]

/-- A list is dropped through the last element that passes the test, and is whole where none does. -/
theorem dropThroughLast_append {α : Type} {q : α → Bool} {a b : List α} (ha : a = [] ∨ ∃ y, a.getLast? = some y ∧ q y = true)
    (hb : ∀ y ∈ b, q y = false) : dropThroughLast q (a ++ b) = b := by
  induction a with
  | nil => exact dropThroughLast_of_none hb
  | cons z a ih =>
    obtain ⟨y, hy, hq⟩ := ha.resolve_left (List.cons_ne_nil z a)
    unfold dropThroughLast
    rw [List.cons_append]
    dsimp only
    cases a with
    | nil =>
      have hany : ([] ++ b).any q = false := List.any_eq_false.2 fun w hw => by simp [hb w hw]
      rw [hany, if_neg Bool.false_ne_true, show z = y from Option.some.inj hy, if_pos hq]
      rfl
    | cons w a =>
      have hlast : (w :: a).getLast? = some y := by rw [← hy, List.getLast?_cons_cons]
      have hany : (w :: a ++ b).any q = true :=
        List.any_eq_true.2 ⟨y, List.mem_append_left b (List.mem_of_getLast? hlast), hq⟩
      rw [if_pos hany]
      exact ih (.inr ⟨y, hlast, hq⟩)

/-! ## The walk to what comes next (R132, R133) -/

/-- What a join gives for the next event, at its own start or behind whole frames of filler (R132). -/
def JoinInput.toNext (i : JoinInput) (e : EventRec) (x : Times) : JoinResult :=
  let f := (x.nomStart - i.joinTime).toNat / i.period
  if f = 0 then .eventStart e x.nomStart (e.framesOf i.period x)
  else .fillerThen e (x.nomStart - BitVec.ofNat 48 (f * i.period)) x.nomStart f

theorem joinWalk_eclipsed {l : List EventRec} (ht : e.times ≠ none) (he : e.eclipsed = true) : joinWalk i (e :: l) = joinWalk i l := by
  obtain ⟨x, hx⟩ := Option.ne_none_iff_exists'.1 ht
  rw [joinWalk, hx]
  exact if_pos he

theorem joinWalk_next {l : List EventRec} (ht : e.times = some x) (he : e.eclipsed = false) :
    joinWalk i (e :: l) = i.toNext e x := by
  rw [joinWalk, ht]
  dsimp only
  rw [he, if_neg Bool.false_ne_true]
  rfl

theorem joinWalk_untimed {l : List EventRec} (ht : e.times = none) :
    joinWalk i (e :: l) = .fillerOpen i.joinTime (if e.data.start = .manual then some e.data.id else none) := by
  rw [joinWalk, ht]

theorem joinWalk_append {a b : List EventRec} (ha : ∀ y ∈ a, y.times ≠ none ∧ y.eclipsed = true) :
    joinWalk i (a ++ b) = joinWalk i b := by
  induction a with
  | nil => rfl
  | cons y a ih =>
    obtain ⟨ht, he⟩ := ha y List.mem_cons_self
    rw [List.cons_append, joinWalk_eclipsed ht he, ih fun z hz => ha z (List.mem_cons_of_mem y hz)]

/-- The walk of the model is the one R132 and R133 say. -/
theorem joinWalk_walked (i : JoinInput) (hp : 0 < i.period) (l : List EventRec) : i.Walked l (joinWalk i l) := by
  refine ⟨fun h => ?_, fun a b e hl ha => ?_⟩
  · rw [← List.append_nil l, joinWalk_append h]
    rfl
  rw [hl, joinWalk_append ha]
  refine ⟨joinWalk_untimed, fun x n hx he hn => ?_⟩
  have hframes : e.framesOf i.period x = n := by
    rw [EventRec.effFrames, hx] at hn
    exact Option.some.inj hn
  rw [joinWalk_next hx he, JoinInput.toNext]
  dsimp only
  refine ⟨fun hnear => ?_, fun f hf hlo hhi => ?_⟩
  · rw [if_pos (Nat.div_eq_of_lt hnear), hframes]
  · have hdiv : (x.nomStart - i.joinTime).toNat / i.period = f := by
      rw [Nat.div_eq_iff hp]
      rw [Nat.succ_mul] at hhi
      omega
    rw [hdiv, if_neg (Nat.ne_of_gt hf)]

/-- A result that a walk over `l` can end in: an event of `l` that airs, as the next one, or open filler at the join time, with the hold
of a MANUAL event of `l` (R132, R133). -/
def JoinInput.WalkEnd (i : JoinInput) (l : List EventRec) (res : JoinResult) : Prop :=
  (∃ e ∈ l, ∃ x, e.eclipsed = false ∧ e.times = some x ∧ res = i.toNext e x) ∨
  ∃ hold, res = .fillerOpen i.joinTime hold ∧
    ∀ id, hold = some id → ∃ e ∈ l, e.times = none ∧ e.data.start = .manual ∧ e.data.id = id

theorem JoinInput.WalkEnd.mono {a b : List EventRec} {res : JoinResult} (h : i.WalkEnd a res) (hab : a ⊆ b) : i.WalkEnd b res := by
  rcases h with ⟨e, he, hrest⟩ | ⟨hold, hres, hm⟩
  · exact .inl ⟨e, hab he, hrest⟩
  · exact .inr ⟨hold, hres, fun id hid => (hm id hid).imp fun _ h => h.imp_left (hab ·)⟩

theorem joinWalk_walkEnd (i : JoinInput) (l : List EventRec) : i.WalkEnd l (joinWalk i l) := by
  induction l with
  | nil => exact .inr ⟨none, rfl, nofun⟩
  | cons e l ih =>
    cases ht : e.times with
    | none =>
      refine .inr ⟨_, joinWalk_untimed ht, fun id hid => ⟨e, List.mem_cons_self, ht, ?_⟩⟩
      split at hid
      next hm => exact ⟨hm, Option.some.inj hid⟩
      next => cases hid
    | some x =>
      cases he : e.eclipsed with
      | false => exact .inl ⟨e, List.mem_cons_self, x, he, ht, joinWalk_next ht he⟩
      | true =>
        rw [joinWalk_eclipsed (by rw [ht]; nofun) he]
        exact ih.mono (List.subset_cons_self e l)

/-! ## The join (R127 to R131) -/

/-- What a join gives for the event that contains the join time, with the events behind it (R129 to R132). -/
theorem join_container {a b : List EventRec} (ha : ∀ y ∈ a, y.contains i.joinTime = false) (he : e.contains i.joinTime = true)
    (hx : e.times = some x) :
    join i (a ++ e :: b) =
      let k := boundaryFrames i.period x.nomStart i.joinTime
      if tailPasses e (e.framesOf i.period x) i.minTail k then
        .entry e (x.nomStart + BitVec.ofNat 48 (k * i.period)) k (e.framesOf i.period x - k)
      else joinWalk i b := by
  unfold join
  dsimp only
  rw [splitAtContaining_of_first ha he]
  dsimp only
  rw [hx]
  rfl

theorem join_noContainer {l : List EventRec} (h : ∀ e ∈ l, e.contains i.joinTime = false) :
    join i l = joinWalk i (dropThroughLast (fun e => e.endsBy i.joinTime) l) := by
  unfold join
  dsimp only
  rw [splitAtContaining_of_none h]

theorem tailPasses_iff : tailPasses e n d k = true ↔ k + d ≤ n ∧ (e.joinWhole = true → k = 0) := by
  unfold tailPasses
  cases e.joinWhole <;> simp

/-- Where the result of a join comes from: the event of the list that contains the join time, where it passes the tail test, or a walk
over the list. -/
theorem join_cases (i : JoinInput) (l : List EventRec) :
    (∃ e ∈ l, ∃ x, e.eclipsed = false ∧ e.times = some x ∧ (diff x.nomStart i.joinTime ≤ 0 ∧ diff i.joinTime x.effEnd < 0) ∧
      let k := boundaryFrames i.period x.nomStart i.joinTime
      (k + i.minTail ≤ e.framesOf i.period x ∧ (e.joinWhole = true → k = 0)) ∧
      join i l = .entry e (x.nomStart + BitVec.ofNat 48 (k * i.period)) k (e.framesOf i.period x - k)) ∨
    i.WalkEnd l (join i l) := by
  by_cases h : ∃ e ∈ l, e.contains i.joinTime = true
  · obtain ⟨y, hy, hcontains⟩ := h
    obtain ⟨e, a, b, ha, he, rfl, -⟩ := List.exists_of_eraseP (p := fun e => e.contains i.joinTime) hy hcontains
    have ha : ∀ y ∈ a, y.contains i.joinTime = false := fun y hy => by simpa using ha y hy
    obtain ⟨heclipsed, x, hx, hin⟩ := (contains_iff e _).1 he
    have hjoin := join_container (b := b) ha he hx
    dsimp only at hjoin
    split at hjoin
    next hpass => exact .inl ⟨e, List.mem_append_right a List.mem_cons_self, x, heclipsed, hx, hin, tailPasses_iff.1 hpass, hjoin⟩
    next =>
      rw [hjoin]
      exact .inr ((joinWalk_walkEnd i b).mono fun y hy => List.mem_append_right a (List.mem_cons_of_mem e hy))
  · have hnone : ∀ e ∈ l, e.contains i.joinTime = false := fun e he => by
      simpa using fun hc => h ⟨e, he, hc⟩
    rw [join_noContainer hnone]
    exact .inr ((joinWalk_walkEnd i _).mono (dropThroughLast_suffix _ l).subset)

/-- What a join gives for the next event says which of the two it is (R132). -/
theorem toNext_cases (i : JoinInput) (e : EventRec) (x : Times) :
    i.toNext e x = .eventStart e x.nomStart (e.framesOf i.period x) ∨
    ∃ f, 0 < f ∧ i.toNext e x = .fillerThen e (x.nomStart - BitVec.ofNat 48 (f * i.period)) x.nomStart f := by
  unfold JoinInput.toNext
  dsimp only
  split
  next => exact .inl rfl
  next hf => exact .inr ⟨_, Nat.pos_of_ne_zero hf, rfl⟩

/-- What a join finds at the next event starts at the join time or less than one period after it (R132). -/
theorem toNext_onGrid (hp : 0 < i.period) (hp' : i.period ≤ 10010) (e : EventRec) (x : Times) :
    0 ≤ diff (i.toNext e x).mainStart i.joinTime ∧ diff (i.toNext e x).mainStart i.joinTime < i.period := by
  have hmod := Nat.mod_lt (x.nomStart - i.joinTime).toNat hp
  have hstart : (i.toNext e x).mainStart = i.joinTime + BitVec.ofNat 48 ((x.nomStart - i.joinTime).toNat % i.period) := by
    unfold JoinInput.toNext
    dsimp only
    split
    next hnear =>
      rw [Nat.mod_eq_of_lt ((Nat.div_eq_zero_iff.1 hnear).resolve_left (Nat.ne_of_gt hp)), add_toNat_sub]
      rfl
    next =>
      rw [Nat.mod_eq_sub_div_mul]
      exact beforeNext_eq (Nat.div_mul_le_self _ _)
  rw [hstart, diff_ahead hp' hmod]
  omega

/-- The item of a join result, written as an item that a choice makes (table 7.5). -/
theorem joinItem_eq (res : JoinResult) (offset : Time) (serial : Nat) :
    let event (e : EventRec) (start : Time) (k n : Nat) : Item :=
      { chosenItem (.event e.slot e.data.id) offset start (e.data.entry.toNat + k) n (e.times.map (·.effEnd)) serial with
        skipped := k, nextCue := e.data.cues.findIdx (fun cue => decide (k ≤ cue.offset.toNat)) }
    res.item offset serial = match res with
      | .entry e start k n => event e start k n
      | .eventStart e start n => event e start 0 n
      | .fillerThen e start next f => { chosenItem .filler offset start 0 f (some next) serial with upTo := some e.slot }
      | .fillerOpen start _ => chosenItem .filler offset start 0 0 none serial := by
  cases res <;> rfl

/-- An entry is at the event's first frame boundary at or after the join time, less than one period later (R129). -/
theorem entry_onGrid (hp : 0 < i.period) (hp' : i.period ≤ 10010) (t : Time) :
    let start := t + BitVec.ofNat 48 (boundaryFrames i.period t i.joinTime * i.period)
    0 ≤ diff start i.joinTime ∧ diff start i.joinTime < i.period := by
  obtain ⟨hlo, hhi⟩ := (ceilDiv_eq_iff hp).1 (rfl : boundaryFrames i.period t i.joinTime = _)
  dsimp only
  rw [boundary_eq hlo, diff_ahead hp' (by omega)]
  omega

theorem effFrames_of_times (hx : e.times = some x) (p : Nat) : e.effFrames p = some (e.framesOf p x) := by
  rw [EventRec.effFrames, hx, Option.map_some]

/-- Settles O41: where a result comes from is `join_cases`; when each comes, `join_container` and `joinWalk_walked`. -/
theorem joinEntersOnTheGrid : Obligations.JoinEntersOnTheGrid := by
  intro i l hp hp'
  have hgrid := toNext_onGrid (i := i) hp hp'
  refine ⟨fun e start k n h => ?_, fun e start n h => ?_, fun e start next f h => ?_, fun start hold h => ?_,
    fun offset serial => joinItem_eq _ offset serial, ?_⟩
  · rcases join_cases i l with ⟨y, hy, x, heclipsed, hx, ⟨hstart, hend⟩, ⟨htail, hwhole⟩, hj⟩ | ⟨y, -, x, -, -, hj⟩ | ⟨_, hj, -⟩
    · cases h.symm.trans hj
      obtain ⟨hfrom, hto⟩ := entry_onGrid (i := i) hp hp' x.nomStart
      refine ⟨hy, heclipsed, x, hx, rfl, hstart, hend, hfrom, hto, Nat.le_sub_of_add_le' htail, ?_, hwhole⟩
      rw [effFrames_of_times hx, Nat.add_sub_cancel' (Nat.le_of_add_right_le htail)]
    · rcases toNext_cases i y x with hn | ⟨_, -, hn⟩ <;> cases h.symm.trans (hj.trans hn)
    · cases h.symm.trans hj
  · rcases join_cases i l with ⟨_, -, _, -, -, -, -, hj⟩ | ⟨y, hy, x, heclipsed, hx, hj⟩ | ⟨_, hj, -⟩
    · cases h.symm.trans hj
    · rcases toNext_cases i y x with hn | ⟨_, -, hn⟩ <;> cases h.symm.trans (hj.trans hn)
      have hstart := hgrid e x
      rw [hn] at hstart
      exact ⟨hy, heclipsed, effFrames_of_times hx _, ⟨x, hx, rfl⟩, hstart⟩
    · cases h.symm.trans hj
  · rcases join_cases i l with ⟨_, -, _, -, -, -, -, hj⟩ | ⟨y, hy, x, heclipsed, hx, hj⟩ | ⟨_, hj, -⟩
    · cases h.symm.trans hj
    · rcases toNext_cases i y x with hn | ⟨_, hf, hn⟩ <;> cases h.symm.trans (hj.trans hn)
      have hstart := hgrid e x
      rw [hn] at hstart
      exact ⟨hf, sub_add_cancel _ _, hy, heclipsed, ⟨x, hx, rfl⟩, hstart⟩
    · cases h.symm.trans hj
  · rcases join_cases i l with ⟨_, -, _, -, -, -, -, hj⟩ | ⟨y, -, x, -, -, hj⟩ | ⟨_, hj, hmanual⟩
    · cases h.symm.trans hj
    · rcases toNext_cases i y x with hn | ⟨_, -, hn⟩ <;> cases h.symm.trans (hj.trans hn)
    · cases h.symm.trans hj
      exact ⟨rfl, hmanual⟩
  simp only [← contains_iff, ← endsBy_iff, Bool.not_eq_true]
  refine ⟨fun a b e x n k hl ha he hx hn hlo hhi => ?_, fun a b hl hnone ha hb => ?_⟩
  · have hk : boundaryFrames i.period x.nomStart i.joinTime = k := (ceilDiv_eq_iff hp).2 ⟨hlo, hhi⟩
    rw [effFrames_of_times hx] at hn
    rw [hl, join_container ha he hx, hk, Option.some.inj hn]
    refine ⟨fun hpass => if_pos (tailPasses_iff.2 hpass), fun hfail => ?_⟩
    dsimp only
    rw [if_neg (mt tailPasses_iff.1 hfail)]
    exact joinWalk_walked i hp b
  · rw [join_noContainer hnone, hl, dropThroughLast_append ha hb]
    exact joinWalk_walked i hp b

end Sys2Proof.Machine
end

section
/-! SUPPORT. What a choice rests on: where its walk begins, how it examines the list from an on-air end, and that end, with the statement
about them (R139 to R141, R143). -/

namespace Sys2Proof.Machine
-- Proofs are checked one after another: in parallel they would not fit the memory that the check allows.
set_option Elab.async false

variable {l a b : List EventRec} {e : EventRec} {t : Times} {period n slot : Nat} {stop : Time} {id : EventId} {r : RunRec} {ch : Chan}
  {it : Item}

/-! ## Where the walk begins (R140) -/

theorem walkStart_head (h : r.walkOrigin = none ∨ ∃ id, r.walkOrigin = some id ∧ ∀ e ∈ l, e.data.id ≠ id) : r.walkStart l = l := by
  unfold RunRec.walkStart
  rcases h with h | ⟨id, h, hgone⟩
  · rw [h]
  · have hid : hasId id l = false := by
      rw [← Bool.not_eq_true, hasId_iff]
      exact fun ⟨e, he, hid⟩ => hgone e he hid
    rw [h]
    dsimp only
    rw [hid, if_neg Bool.false_ne_true]

theorem walkStart_behind (h : r.walkOrigin = some id) (he : e.data.id = id) (ha : ∀ x ∈ a, x.data.id ≠ id) :
    r.walkStart (a ++ e :: b) = b := by
  have hid : hasId id (a ++ e :: b) = true := (hasId_iff id _).2 ⟨e, List.mem_append_right a List.mem_cons_self, he⟩
  unfold RunRec.walkStart
  rw [h]
  dsimp only
  rw [if_pos hid, List.dropWhile_append_of_pos (fun x hx => bne_iff_ne.2 (ha x hx)),
    List.dropWhile_cons_of_neg (by rw [he, bne_self_eq_false]; nofun)]
  rfl

/-! ## The examination (R140) -/

theorem examine_untimed (h : e.times = none) :
    examine period stop (e :: l) = .fillerOpen (if e.data.start = .manual then some e.data.id else none) := by
  rw [examine, h]

theorem examine_eclipsed (ht : e.times ≠ none) (he : e.eclipsed = true) : examine period stop (e :: l) = examine period stop l := by
  obtain ⟨t, ht⟩ := Option.ne_none_iff_exists'.1 ht
  rw [examine, ht]
  exact if_pos he

theorem examine_append (ha : ∀ x ∈ a, x.times ≠ none ∧ x.eclipsed = true) :
    examine period stop (a ++ b) = examine period stop b := by
  induction a with
  | nil => rfl
  | cons x a ih =>
    obtain ⟨ht, he⟩ := ha x List.mem_cons_self
    rw [List.cons_append, examine_eclipsed ht he, ih fun y hy => ha y (List.mem_cons_of_mem x hy)]

/-- What the examination ends at where it meets an event that airs. -/
theorem examine_airs (ht : e.times = some t) (he : e.eclipsed = false) (hn : e.effFrames period = some n) :
    examine period stop (e :: l) =
      if diff t.nomStart stop < 0 then .late
      else if (t.nomStart - stop).toNat < period then .event e t.nomStart n else .gapTo e t.nomStart n := by
  rw [effFrames_of_times ht] at hn
  rw [examine, ht]
  dsimp only
  rw [he, if_neg Bool.false_ne_true, Option.some.inj hn]
  unfold before
  simp only [decide_eq_true_eq]

/-- A time that does not read as before another lies ahead of it by what the two differ. -/
theorem diff_eq_toNat {t u : Time} (h : 0 ≤ diff t u) : diff t u = (t - u).toNat := by
  unfold diff at *
  rw [BitVec.toInt_eq_toNat_cond] at *
  split at h <;> omega

/-- A choice passes every event through the last one that airs and has ended by then, and eclipsed ones behind it (R140). -/
theorem choiceOf_eq {passed eclipsed tail : List EventRec}
    (hpassed : passed = [] ∨ ∃ e, passed.getLast? = some e ∧ e.endsBy stop = true)
    (heclipsed : ∀ e ∈ eclipsed, e.times ≠ none ∧ e.eclipsed = true) (htail : ∀ e ∈ tail, e.endsBy stop = false) :
    choiceOf period stop (passed ++ eclipsed ++ tail) = examine period stop tail := by
  have hrest : ∀ e ∈ eclipsed ++ tail, e.endsBy stop = false := by
    intro e he
    rcases List.mem_append.1 he with he | he
    · rw [← Bool.not_eq_true, endsBy_iff, (heclipsed e he).2]
      nofun
    · exact htail e he
  unfold choiceOf
  rw [List.append_assoc, dropThroughLast_append hpassed hrest, examine_append heclipsed]

/-! ## The on-air end (R139) -/

theorem onAirEnd_locked {next : Item} (h : r.cued = some next) (hl : next.locked = true) (it : Item) :
    ch.onAirEnd r it = some next.mainStart := by
  unfold Chan.onAirEnd
  rw [h, Option.filter_some, if_pos hl]

section Own

/-! Without a locked cued item the end is that of the item on air. -/

variable (h : ∀ next, r.cued = some next → next.locked = false)
include h

theorem noLockedCue : r.cued.filter (·.locked) = none := Option.filter_eq_none_iff.2 fun next hnext => by simp [h next hnext]

theorem onAirEnd_filler (hs : it.source = .filler) : ch.onAirEnd r it = it.cuedEnd := by
  unfold Chan.onAirEnd
  rw [noLockedCue h]
  dsimp only
  rw [hs]

theorem onAirEnd_event (hs : it.source = .event slot id) : ch.onAirEnd r it = ch.eventEnd slot id it.cuedEnd := by
  unfold Chan.onAirEnd
  rw [noLockedCue h]
  dsimp only
  rw [hs]

end Own

theorem find?_first {q : EventRec → Bool} (ha : ∀ x ∈ a, q x = false) (he : q e = true) : (a ++ e :: b).find? q = some e := by
  rw [List.find?_append, List.find?_eq_none.2 fun x hx => by simp [ha x hx], Option.none_or, List.find?_cons_of_pos he]

/-- The effective end of an event where it has times, else the end the item was cued with. -/
def EventRec.endOr (e : EventRec) (cuedEnd : Option Time) : Option Time :=
  match e.times with
  | some t => some t.effEnd
  | none => cuedEnd

theorem endOr_cases (e : EventRec) (cuedEnd : Option Time) :
    (e.times = none → e.endOr cuedEnd = cuedEnd) ∧ ∀ t, e.times = some t → e.endOr cuedEnd = some t.effEnd :=
  ⟨fun h => by rw [EventRec.endOr, h], fun t h => by rw [EventRec.endOr, h]⟩

theorem eventEnd_listed (hl : ch.list = a ++ e :: b) (ha : ∀ x ∈ a, x.data.id ≠ id) (he : e.data.id = id) (cuedEnd : Option Time) :
    ch.eventEnd slot id cuedEnd = e.endOr cuedEnd := by
  unfold Chan.eventEnd
  rw [hl, find?_first (fun x hx => beq_eq_false_iff_ne.2 (ha x hx)) (beq_iff_eq.2 he)]
  rfl

/-- The end of an event that the list no longer holds is read off its unlinked record. -/
theorem eventEnd_unlisted (h : ∀ x ∈ ch.list, x.data.id ≠ id) (cuedEnd : Option Time) :
    ch.eventEnd slot id cuedEnd = ((ch.unlinked.find? (fun e => e.slot == slot)).elim cuedEnd (·.endOr cuedEnd)) := by
  unfold Chan.eventEnd
  rw [List.find?_eq_none.2 fun x hx => by simp [h x hx]]
  cases ch.unlinked.find? (fun e => e.slot == slot) <;> rfl

/-- Settles O45, part by part: the start of the walk, the examination behind what has ended, and the on-air end by its source. -/
theorem choiceExaminesInOrder : Obligations.ChoiceExaminesInOrder := by
  refine ⟨fun r l => ⟨walkStart_head, fun id p q e h hl he hp => by rw [hl, walkStart_behind h he hp]⟩,
    fun period stop passed eclipsed tail => ?_, fun ch r it => ⟨fun next h hl => onAirEnd_locked h hl it, fun hcued => ?_⟩⟩
  · simp only [← endsBy_iff, Bool.not_eq_true]
    intro hpassed heclipsed htail
    rw [choiceOf_eq hpassed heclipsed htail]
    refine ⟨fun h => by rw [h]; rfl, fun x rest h => ?_⟩
    rw [h]
    refine ⟨examine_untimed, fun t n ht he hn => ?_⟩
    rw [examine_airs ht he hn]
    refine ⟨fun hlate => if_pos hlate, fun hahead hnear => ?_, fun hahead hfar => ?_⟩
    · rw [diff_eq_toNat hahead] at hnear
      rw [if_neg (not_lt.2 hahead), if_pos (by omega)]
    · rw [diff_eq_toNat hahead] at hfar
      rw [if_neg (not_lt.2 hahead), if_neg (by omega)]
  · refine ⟨onAirEnd_filler hcued, fun slot id hs => ?_⟩
    rw [onAirEnd_event hcued hs]
    refine ⟨fun p q e hl hp he => ?_, fun hgone => ?_⟩
    · rw [eventEnd_listed hl hp he]
      exact endOr_cases e _
    · rw [eventEnd_unlisted hgone]
      refine ⟨fun hnone => ?_, fun p q e hl hp he => ?_⟩
      · rw [List.find?_eq_none.2 fun x hx => by simp [hnone x hx], Option.elim_none]
      · rw [hl, find?_first (fun x hx => beq_eq_false_iff_ne.2 (hp x hx)) (beq_iff_eq.2 he), Option.elim_some]
        exact endOr_cases e _

end Sys2Proof.Machine
end

section
/-! SUPPORT. The as-run queue and CUE_FAULT while the runner acts: what it does adds records behind those that stand and counts further
faults, and takes back neither (R145, R152, R164, R186). -/

namespace Sys2Proof.Machine
-- Proofs are checked one after another: in parallel they would not fit the memory that the check allows.
set_option Elab.async false

/-- Between `s` and `t` as-run records were at most added, and CUE_FAULT at most raised. -/
structure Logged (s t : State) : Prop where
  asrun : s.asrun <+: t.asrun
  pending : s.notices[(5 : Fin 12)].pending = true → t.notices[(5 : Fin 12)].pending = true
  count : min 255 s.notices[(5 : Fin 12)].count ≤ min 255 t.notices[(5 : Fin 12)].count

variable {s t u : State}

theorem Logged.same (ha : t.asrun = s.asrun) (hn : t.notices[(5 : Fin 12)] = s.notices[(5 : Fin 12)]) : Logged s t :=
  ⟨ha ▸ List.prefix_refl _, fun h => hn ▸ h, hn ▸ Nat.le_refl _⟩

theorem Logged.refl (s : State) : Logged s s := .same rfl rfl

theorem Logged.trans (h : Logged s t) (k : Logged t u) : Logged s u :=
  ⟨h.asrun.trans k.asrun, fun x => k.pending (h.pending x), h.count.trans k.count⟩

/-- What an operation does behind a change of neither. -/
theorem Logged.behind (k : Logged t u) (ha : t.asrun = s.asrun := by rfl) (hn : t.notices[(5 : Fin 12)] = s.notices[(5 : Fin 12)] := by rfl) :
    Logged s u := (Logged.same ha hn).trans k

variable (s) (c : Channel) (ch : Chan) (r : RunRec) (it : Item) (o : OutletNo)

/-! ## Notices, records and requests (R18, R152, R186) -/

theorem logged_raise (cls : NoticeClass) (b : Byte) (d : NoticeCode) : Logged s (s.raise cls b d) := by
  by_cases h : (5 : Fin 12) = cls.number
  · have hn := raise_noticed s cls b d
    rw [← h] at hn
    unfold State.Noticed at hn
    refine ⟨List.prefix_refl _, fun _ => by rw [hn], ?_⟩
    rw [hn]
    dsimp only
    omega
  · exact .same rfl (raise_other s cls b d 5 h)

theorem logged_writeAsRun (a : AsRun) : Logged s (s.writeAsRun a) := by
  obtain ⟨-, -, hn, ha, -⟩ := writeAsRun_changes s a
  refine ⟨?_, fun h => (hn 5 nofun) ▸ h, (hn 5 nofun) ▸ Nat.le_refl _⟩
  rw [ha]
  split
  · exact List.prefix_refl _
  · exact List.prefix_append _ _

/-- A request that the mirror serves raises MIRROR_STALE at most (R24, R26, R39). -/
theorem logged_serve (x : MirrorReq) : Logged s (s.serve x) := by
  refine .same (serve_served s x).asrun ?_
  cases x with
  | sweep c =>
    show (s.sweep c).notices[(5 : Fin 12)] = _
    unfold State.sweep
    repeat' split
    all_goals rfl
  | drift c v e =>
    show (s.driftCheck c v e).notices[(5 : Fin 12)] = _
    unfold State.driftCheck
    cases hc : s.chan? c with
    | none => rfl
    | some ch =>
      dsimp only
      split
      · unfold State.markStale
        refine (congrArg (·[(5 : Fin 12)]) (setCondition_claims hc Condition.markStale (markStale_ok _)).notices).trans ?_
        unfold State.marked
        split
        · rfl
        · exact raise_other (s.modMirror c _) .mirrorStale c _ 5 nofun
      · rfl

theorem logged_serveThrough (q : MirrorReq → Bool) (l : List MirrorReq) : ∀ s : State, Logged s (State.serveThrough q l s) := by
  induction l with
  | nil => exact Logged.refl
  | cons x l ih =>
    intro s
    have hserved : Logged s (({ s with mirrorReqs := l } : State).serve x) :=
      (logged_serve { s with mirrorReqs := l } x).behind
    unfold State.serveThrough
    dsimp only
    split
    · exact hserved
    · exact hserved.trans (ih _)

theorem logged_serveAll : Logged s s.serveAll := logged_serveThrough _ _ s

theorem logged_mirrorTurn : Logged s (s.mirrorTurn c) := by
  unfold State.mirrorTurn
  split
  · exact logged_serveAll s
  · exact .refl s

/-! ## Commands (R157, R162, R164) -/

theorem logged_settled (f : Outlet → Outlet) : Logged s ((s.modOutlet o f).settleOrder o) := by
  obtain ⟨-, -, -, hn, ha, -⟩ := settleOrder_keeps (s.modOutlet o f) o
  exact .same ha (by rw [hn]; rfl)

theorem logged_stopFailed (f : Failure) : Logged s (s.stopFailed o f) := by
  unfold State.stopFailed
  dsimp only
  split
  · exact (logged_settled _ o _).behind
  · exact .same rfl rfl

/-- A command that fails is noticed; only the join PREP ends a hold (R123, R164). -/
theorem logged_failCmd {cmd : Cmd} (hj : cmd.joins = false) (f : Failure) : Logged s (s.failCmd o cmd false f) := by
  have hraise := logged_raise s .cueFault (outletByte o) (.cueFault (cmdKind cmd) f)
  unfold State.failCmd
  dsimp only
  rw [if_neg Bool.false_ne_true]
  cases cmd with
  | side => exact hraise
  | stop t deciding =>
    dsimp only
    split
    · exact hraise.trans (logged_stopFailed _ o f)
    · exact hraise
  | prep p =>
    dsimp only
    split
    · exact hraise
    · rw [if_neg fun h => Bool.false_ne_true (hj.symm.trans h.2)]
      exact hraise.trans (.same rfl rfl)

theorem logged_offerCmd {cmd : Cmd} (hj : cmd.joins = false) : Logged s (s.offerCmd o cmd) := by
  unfold State.offerCmd
  dsimp only
  split
  · exact .refl s
  split
  · exact logged_settled s o _
  · exact logged_failCmd s o hj .missed

theorem logged_requestStop (t : Time) : Logged s (s.requestStop o t) := by
  unfold State.requestStop
  dsimp only
  split
  · exact .same rfl rfl
  · exact (logged_offerCmd _ o rfl).behind

theorem logged_retryStop : Logged s (s.retryStop c) := by
  unfold State.retryStop State.makeStop
  split
  · exact .refl s
  split
  · exact .refl s
  split
  · split
    · exact .refl s
    · split
      · exact (logged_requestStop s _ _).trans (.same rfl rfl)
      · exact .refl s
  · exact .refl s

/-! ## Items (R137, R142, R146) -/

theorem logged_unpin (n : Nat) : Logged s (s.unpin c n) := by
  obtain ⟨-, -, hn, ha, -⟩ := unpin_keeps s c n
  exact .same ha (by rw [hn])

theorem logged_releaseItem : Logged s (s.releaseItem c it) := by
  unfold State.releaseItem
  split
  · exact .refl s
  · dsimp only
    split
    · exact .refl s
    · exact logged_unpin s c _

theorem logged_setCued : Logged s (s.setCued c it) := by
  unfold State.setCued State.pinItem
  split <;> exact .same rfl rfl

theorem logged_dropGo : Logged s (s.dropGo c) := by
  unfold State.dropGo
  split
  · exact .refl s
  · exact (logged_releaseItem _ c _).behind

theorem logged_settleSide (p : ItemPlace) : Logged s (s.settleSide c p) := by
  unfold State.settleSide
  split
  · exact .refl s
  split
  · exact .refl s
  split
  · exact .refl s
  dsimp only
  split
  · exact (logged_offerCmd _ _ rfl).behind
  · exact .same rfl rfl

theorem logged_settleDueSides (p : ItemPlace) (n : Nat) : ∀ s : State, Logged s (s.settleDueSides c p n) := by
  induction n with
  | zero => exact Logged.refl
  | succ n ih =>
    intro s
    unfold State.settleDueSides
    split
    · exact (logged_settleSide s c p).trans (ih _)
    · exact .refl s

theorem logged_lockItem (p : ItemPlace) : Logged s (s.lockItem c p false) := by
  unfold State.lockItem
  split
  · exact .refl s
  split
  · exact .refl s
  split
  · exact .refl s
  · exact (logged_offerCmd _ _ rfl).behind.trans (logged_settleDueSides c p 4 _)

/-- An item made the cued one and locked at once. -/
theorem logged_cueNow : Logged s ((s.setCued c it).lockItem c .cued false) :=
  (logged_setCued s c it).trans (logged_lockItem _ c .cued)

/-! ## Choosing (R139 to R142) -/

theorem logged_cueJoin (j : JoinResult) : Logged s (s.cueJoin c ch r j) := by
  unfold State.cueJoin
  split
  · exact .refl s
  · exact (logged_cueNow _ c _).behind

theorem logged_lateCue : Logged s (s.lateCue c ch r) := by
  unfold State.lateCue
  split
  · split
    · exact .same rfl rfl
    · exact logged_cueJoin s c ch r _
  · exact logged_cueJoin s c ch r _

theorem logged_takeChoice (hold : Option EventId) : Logged s (s.takeChoice c ch r it hold) := by
  have hhold : Logged s (s.setHold c hold) := .same rfl rfl
  unfold State.takeChoice
  dsimp only
  split
  · exact .refl s
  split
  · exact logged_lateCue s c ch r
  split
  · exact hhold.trans (logged_cueNow _ c it)
  · exact (hhold.trans (logged_setCued _ c it)).trans (.same rfl rfl)

theorem logged_choose (stop : Option Time) : Logged s (s.choose c stop) := by
  unfold State.choose State.chooseBehindFiller State.chooseFrom
  repeat' split
  all_goals first
    | exact .refl s
    | exact .same rfl rfl
    | exact logged_takeChoice ..
    | exact logged_lateCue ..

theorem logged_chooseLate : Logged s (s.chooseLate c) := by
  unfold State.chooseLate
  repeat' split
  · exact .refl s
  · exact .refl s
  · exact logged_lateCue s c _ _

theorem logged_chooseIfNone : Logged s (s.chooseIfNone c) := by
  unfold State.chooseIfNone
  split
  · exact (logged_serveAll s).trans (logged_choose _ c none)
  · exact .refl s

/-! ## Starts and failures of items (R144, R145) -/

theorem logged_cuedStarts (start : Time) (unconfirmed : Bool) : Logged s (s.cuedStarts c ch r it start unconfirmed) := by
  unfold State.cuedStarts
  cases r.onAir with
  | none => exact (logged_chooseIfNone _ c).behind
  | some old =>
    refine Logged.trans ?_ (logged_chooseIfNone _ c)
    refine Logged.trans ?_ (Logged.same (s := State.releaseItem _ c old) rfl rfl)
    exact (logged_writeAsRun s _).trans (logged_releaseItem _ c old).behind

theorem logged_takeGoReport : Logged s (s.takeGoReport c) := by
  unfold State.takeGoReport
  split
  · exact .refl s
  split
  · exact .refl s
  split
  · exact ((logged_mirrorTurn s c).trans (Logged.same (t := State.modRun _ c _) rfl rfl)).trans (logged_cuedStarts _ c _ _ _ _ _)
  · exact .refl s

theorem logged_itemStarted (n : Nat) (start : Time) (unconfirmed : Bool) : Logged s (s.itemStarted c n start unconfirmed) := by
  unfold State.itemStarted
  split
  · exact .refl s
  split
  · exact .refl s
  split
  · exact (logged_cuedStarts s c _ _ _ start unconfirmed).trans (logged_takeGoReport _ c)
  split
  · exact .same rfl rfl
  · exact .refl s

theorem logged_replaceItem : Logged s (s.replaceItem c ch r it) := by
  unfold State.replaceItem
  dsimp only
  repeat' split
  · exact .refl s
  · exact logged_cueNow s c _
  · exact logged_chooseLate s c
  · exact .refl s
  · exact logged_cueNow s c _

/-- The failure of the cued item writes its MISSED record before anything else (R145). -/
theorem logged_cuedFails : Logged (s.writeAsRun (asRunMissed ch r it)) (s.cuedFails c ch r it) := by
  unfold State.cuedFails
  dsimp only
  generalize s.writeAsRun (asRunMissed ch r it) = w
  have hgone : Logged w ((w.modRun c fun r =>
    { r with cued := r.goItem, goItem := none, cueMoment := none, cuedOrigin := r.goOrigin }).releaseItem c it) :=
    (logged_releaseItem _ c it).behind
  split
  · exact hgone.trans (logged_takeGoReport _ c)
  split
  · exact hgone.trans (logged_replaceItem _ c ch r it)
  split
  · exact hgone.trans (logged_choose _ c _)
  · exact hgone

theorem logged_itemFailed (n : Nat) : Logged s (s.itemFailed c n) := by
  unfold State.itemFailed State.goFails
  split
  · exact .refl s
  split
  · exact .refl s
  split
  · exact (logged_writeAsRun s _).trans (logged_cuedFails s c _ _ _)
  split
  · exact ((logged_writeAsRun s _).trans (logged_dropGo _ c)).trans (.same rfl rfl)
  · exact .refl s

theorem logged_takeReport (x : ItemReport) : Logged s (s.takeReport x) := by
  have hturn := logged_mirrorTurn s x.channel
  unfold State.takeReport
  dsimp only
  refine Logged.trans ?_ (logged_retryStop _ _)
  split
  · split
    · exact hturn.trans (logged_itemStarted _ _ _ _ _)
    · exact hturn
  · exact hturn.trans (logged_itemFailed _ _ _)

theorem logged_settleReports (n : Nat) : ∀ s : State, Logged s (State.settleReports n s) := by
  induction n with
  | zero => exact fun s => .same rfl rfl
  | succ n ih =>
    intro s
    unfold State.settleReports
    split
    · exact .refl s
    · exact (logged_takeReport _ _).behind.trans (ih _)

end Sys2Proof.Machine
end

section
/-! SUPPORT. The runner's moments: the cue moment that locks the chosen item, its PREP at a full queue, and a side cue's time, with the
statement about them (R53, R142, R145, R146, R157, R164). -/

namespace Sys2Proof.Machine
-- Proofs are checked one after another: in parallel they would not fit the memory that the check allows.
set_option Elab.async false

variable {s t : State} {c : Channel} {ch : Chan} {r : RunRec} {it : Item} {p : ItemPlace} {cue : SideCue} {e : EventRec} {o : OutletNo}

/-! ## The cue moment (R142) -/

theorem exec_cueMoment_early (hc : s.chan? c = some ch) (hr : ch.run = some r) (hd : due r.cueMoment s.tb.now = false) :
    exec (.cueMoment c) s = .next s := by
  have hd' : due r.cueMoment s.now = false := hd
  show execCueMoment c s = _
  unfold execCueMoment
  simp only [hc, hr, hd', Bool.false_and, Bool.false_eq_true, if_false]

/-- The run with its cued item locked (R142). -/
def RunRec.lockedCue (r : RunRec) (it : Item) : RunRec :=
  { r with cued := some { it with locked := true }, cueMoment := none, cuedOrigin := r.walkOrigin
           walkOrigin := it.event?.or r.walkOrigin }

theorem lockItem_cued (hc : s.chan? c = some ch) (hr : ch.run = some r) (hcued : r.cued = some it) :
    ∃ f : RunRec → RunRec, f r = r.lockedCue it ∧ s.lockItem c .cued false =
      ((s.modRun c f).offerCmd r.outlet (.prep (ch.prepOf it false))).settleDueSides c .cued 4 := by
  have hitem : r.item .cued = some it := hcued
  unfold State.lockItem
  rw [hc]
  dsimp only
  rw [hr]
  dsimp only
  rw [hitem]
  refine ⟨_, ?_, rfl⟩
  unfold RunRec.lockedCue RunRec.modItem
  cases hs : it.event? <;> simp [hcued]

/-! ## The lock at a full queue (R145, R157, R164) -/

/-- What a PREP of a later item leaves that finds the queue full: its failure noticed and reported for the channel that the outlet
serves (R157, R164). -/
def State.prepMissed (s : State) (o : OutletNo) (c : Channel) (serial : Nat) : State :=
  { s.raise .cueFault (outletByte o) (.cueFault .prep .missed) with
    reports := s.reports ++ [{ channel := c, serial := serial, lapse := false }] }

theorem offerPrep_full {prep : Prep} (hstop : (s.outlet o).state ≠ .stopping) (hfault : (s.outlet o).state ≠ .faulted)
    (hfull : 4 ≤ (s.outlet o).queue.length) (hserves : (s.outlet o).channel = some c) (hj : prep.join = false) :
    s.offerCmd o (.prep prep) = s.prepMissed o c prep.serial := by
  have hdepth : ¬ (s.outlet o).queue.length < Config.commandDepth := Nat.not_lt.2 hfull
  have hraised : ((s.raise .cueFault (outletByte o) (.cueFault (cmdKind (.prep prep)) .missed)).outlet o).channel = some c := hserves
  unfold State.offerCmd State.failCmd
  dsimp only
  rw [if_neg (by tauto), if_neg hdepth, if_neg Bool.false_ne_true, hraised]
  dsimp only
  rw [hj, if_neg fun h => Bool.false_ne_true h.2]
  rfl

/-- A SIDE that finds the queue full is only noticed (R157, R164). -/
theorem offerSide_full {code : BitVec 16} {x : Time} (hstop : (s.outlet o).state ≠ .stopping)
    (hfault : (s.outlet o).state ≠ .faulted) (hfull : 4 ≤ (s.outlet o).queue.length) :
    s.offerCmd o (.side code x) = s.raise .cueFault (outletByte o) (.cueFault .side .missed) := by
  have hdepth : ¬ (s.outlet o).queue.length < Config.commandDepth := Nat.not_lt.2 hfull
  unfold State.offerCmd State.failCmd
  dsimp only
  rw [if_neg (by tauto), if_neg hdepth, if_neg Bool.false_ne_true]
  rfl

/-- An outlet that is STOPPING or FAULTED takes a STOP alone (R157). -/
theorem offerSide_closed {code : BitVec 16} {x : Time} (h : (s.outlet o).state = .stopping ∨ (s.outlet o).state = .faulted) :
    s.offerCmd o (.side code x) = s := if_pos ⟨h, nofun⟩

theorem cuedIs_locked {n : Nat} (h : r.cued = some it) (hl : it.locked = true) (hn : it.serial = n) : r.cuedIs n = some it := by
  unfold RunRec.cuedIs
  rw [h, Option.filter_some, if_pos (by rw [hl, hn, beq_self_eq_true]; rfl)]

/-- An item locked at a full queue: its failed PREP is reported and counted, and nothing is recorded yet. -/
structure LockedFull (s t : State) (c : Channel) (ch : Chan) (r : RunRec) (it : Item) : Prop where
  chan : ∃ x q i, t.chan? c = some x ∧ x.run = some q ∧ q.cuedIs it.serial = some i ∧ asRunMissed x q i = asRunMissed ch r it
  reports : t.reports = [{ channel := c, serial := it.serial, lapse := false }]
  reqs : t.mirrorReqs = []
  asrun : t.asrun = s.asrun
  pending : t.notices[(5 : Fin 12)].pending = true
  count : min 255 (s.notices[(5 : Fin 12)].count + 1) ≤ t.notices[(5 : Fin 12)].count

theorem lockItem_full (hc : s.chan? c = some ch) (hr : ch.run = some r) (hcued : r.cued = some it) (hrep : s.ReportsSettled)
    (hq : s.mirrorReqs = []) (hstop : (s.outlet r.outlet).state ≠ .stopping) (hfault : (s.outlet r.outlet).state ≠ .faulted)
    (hfull : 4 ≤ (s.outlet r.outlet).queue.length) (hserves : (s.outlet r.outlet).channel = some c) :
    LockedFull s (s.lockItem c .cued false) c ch r it := by
  obtain ⟨f, hf, hlock⟩ := lockItem_cued hc hr hcued
  have hmissed : (s.modRun c f).offerCmd r.outlet (.prep (ch.prepOf it false)) = (s.modRun c f).prepMissed r.outlet c it.serial :=
    offerPrep_full (s := s.modRun c f) hstop hfault hfull hserves rfl
  rw [hlock, hmissed]
  have hnoticed := raise_noticed (s.modRun c f) .cueFault (outletByte r.outlet) (.cueFault .prep .missed)
  change ((s.modRun c f).prepMissed r.outlet c it.serial).notices[(5 : Fin 12)] = _ at hnoticed
  have hchan := modRun_get hc f
  rw [hr, Option.map_some, hf] at hchan
  change ((s.modRun c f).prepMissed r.outlet c it.serial).chan? c = _ at hchan
  have hreports : ((s.modRun c f).prepMissed r.outlet c it.serial).reports = _ := congrArg (· ++ _) hrep
  obtain ⟨⟨n, hx⟩, -, -, -, hrecords, hreqs, hreported, -⟩ :=
    settleDueSides_sides (r := r.lockedCue it) (it := { it with locked := true }) 4 _ it.nextCue hchan
  have hlogged := logged_settleDueSides c .cued 4 ((s.modRun c f).prepMissed r.outlet c it.serial)
  refine ⟨⟨_, _, { it with locked := true, nextCue := n }, hx, rfl, cuedIs_locked rfl rfl rfl, rfl⟩, hreported.trans hreports,
    hreqs.trans hq, hrecords.1, hlogged.pending (by rw [hnoticed]), ?_⟩
  have hcount := hlogged.count
  rw [hnoticed] at hcount
  change min 255 (min 255 (s.notices[(5 : Fin 12)].count + 1)) ≤ _ at hcount
  omega

/-- The failure that a lock at a full queue reports is acted on: the item gets its MISSED record, whatever the runner does then. -/
theorem settle_lockedFull (h : LockedFull s t c ch r it) (hroom : s.asrun.length < 64) :
    s.asrun ++ [asRunMissed ch r it] <+: t.settle.asrun ∧ t.settle.notices[(5 : Fin 12)].pending = true ∧
      min 255 (s.notices[(5 : Fin 12)].count + 1) ≤ t.settle.notices[(5 : Fin 12)].count := by
  obtain ⟨⟨x, q, i, hx, hrun, his, hrecord⟩, hreports, hreqs, hasrun, hpending, hcount⟩ := h
  have hx' : ({ t with reports := [] } : State).chan? c = some x := hx
  have hreqs' : ({ t with reports := [] } : State).mirrorReqs = [] := hreqs
  have hsettle : t.settle = State.settleReports 1023 (State.retryStop (State.cuedFails { t with reports := [] } c x q i) c) := by
    show State.settleReports (1023 + 1) t = _
    unfold State.settleReports
    rw [hreports]
    dsimp only
    unfold State.takeReport State.itemFailed
    dsimp only
    rw [mirrorTurn_of_nil hreqs', hx']
    dsimp only
    rw [hrun]
    dsimp only
    rw [his]
    rfl
  obtain ⟨-, -, hnotices, hwritten, -⟩ := writeAsRun_changes { t with reports := [] } (asRunMissed x q i)
  have hwritten : (State.writeAsRun { t with reports := [] } (asRunMissed x q i)).asrun = s.asrun ++ [asRunMissed ch r it] := by
    rw [hwritten, show ({ t with reports := [] } : State).asrun = s.asrun from hasrun, if_neg (Nat.not_le.2 hroom), hrecord]
  have hnotices : (State.writeAsRun { t with reports := [] } (asRunMissed x q i)).notices[(5 : Fin 12)] = t.notices[(5 : Fin 12)] :=
    hnotices 5 nofun
  have hlogged : Logged (State.writeAsRun { t with reports := [] } (asRunMissed x q i)) t.settle := by
    rw [hsettle]
    exact ((logged_cuedFails _ c x q i).trans (logged_retryStop _ c)).trans (logged_settleReports 1023 _)
  have hgrown := hlogged.count
  rw [hnotices] at hgrown
  exact ⟨hwritten ▸ hlogged.asrun, hlogged.pending (by rw [hnotices, hpending]), by omega⟩

/-! ## Side cues (R146) -/

theorem exec_sideCueTime_none (hc : s.chan? c = some ch) (hr : ch.run = some r) (hn : s.firstDueSide ch r = none) :
    exec (.sideCueTime c) s = .next s := by
  show execSideCueTime c s = _
  unfold execSideCueTime
  simp only [hc, hr, hn]

/-- The side cue of the item in a place, once it has been looked at, is not looked at again (R146). -/
def State.pastSide (s : State) (c : Channel) (p : ItemPlace) : State :=
  s.modRun c (fun r => r.modItem p (fun i => { i with nextCue := i.nextCue + 1 }))

/-- The first due side cue is offered where it passes its check, else passed over (R146). -/
theorem exec_sideCueTime (hrep : s.ReportsSettled) (hc : s.chan? c = some ch) (hr : ch.run = some r)
    (hp : s.firstDueSide ch r = some p) (hnext : ch.nextSide r p = some (it, cue, e)) :
    exec (.sideCueTime c) s = .next (if s.sidePasses ch r p it cue e then
      (s.pastSide c p).offerCmd r.outlet (.side cue.code (it.cueTime ch.period cue + r.offset)) else s.pastSide c p) := by
  have hsettled : s.settleSide c p = if s.sidePasses ch r p it cue e then
      (s.pastSide c p).offerCmd r.outlet (.side cue.code (it.cueTime ch.period cue + r.offset)) else s.pastSide c p := by
    unfold State.settleSide
    simp only [hc, hr, hnext]
    rfl
  have hreports : (s.settleSide c p).reports = [] := by
    rw [hsettled]
    split
    · exact (offerSide_sides (s.pastSide c p) r.outlet _ _).2.2.2.2.2.2.1.trans hrep
    · exact hrep
  show execSideCueTime c s = _
  unfold execSideCueTime
  simp only [hc, hr, hp]
  rw [settle_of_nil hreports, hsettled]

/-- The check at the moment of issue (R53, R146). -/
theorem sidePasses_iff : s.sidePasses ch r p it cue e = true ↔
    diff s.tb.now (it.cueTime ch.period cue + r.offset) < 0 ∧
      (∃ x, (if p = .onAir then ch.sideEnd r it else it.cuedEnd) = some x ∧ diff (it.cueTime ch.period cue) x < 0) ∧
      e.liveCue ch.period cue = true := by
  unfold State.sidePasses before
  simp only [Bool.and_eq_true, decide_eq_true_eq, Option.any_eq_true, and_assoc]
  rfl

/-- Settles O42: the lock by whether the queue has room, and the side cue by its check and then by the outlet. -/
theorem runnerMomentsIssueCommands : Obligations.RunnerMomentsIssueCommands := by
  intro s c ch r hrep hc hr
  refine ⟨exec_cueMoment_early hc hr, fun it hd hcued hl hq hstop hfault => ?_, exec_sideCueTime_none hc hr,
    fun p it cue e hp hnext => ?_⟩
  · have hexec := exec_cueMoment hc hr hd hcued hl
    rw [serveAll_of_nil hq] at hexec
    have houtside : s.SameOutside (s.lockItem c .cued false).settle :=
      (tends_settle (keeps_lockItem (.refl s) c .cued false).tends).toKeepsOuter.sameOutside
    refine ⟨fun hroom => ?_, fun hfull hserves hasrun => ?_⟩
    · obtain ⟨n, hchan, hprep, hothers, hbus, -, -, hreports, -⟩ := lockCued_locks hc hr hcued hstop hfault hroom false
      rw [settle_of_nil (hreports.trans hrep)] at hexec houtside
      rw [prepOf_for] at hprep
      exact ⟨_, _, { it with locked := true, nextCue := n }, hexec, hchan, rfl, rfl, hprep, hothers, hbus, houtside⟩
    · obtain ⟨hrecord, hpending, hcount⟩ :=
        settle_lockedFull (lockItem_full hc hr hcued hrep hq hstop hfault hfull hserves) hasrun
      exact ⟨_, hexec, hrecord, hpending, hcount, houtside⟩
  · have hexec := exec_sideCueTime hrep hc hr hp hnext
    refine ⟨fun hpass => ?_, fun hfail => ?_⟩
    · rw [if_pos (sidePasses_iff.2 hpass)] at hexec
      refine ⟨fun hclosed => ?_, fun hstop hfault => ⟨fun hroom => ?_, fun hfull => ?_⟩⟩
      · rw [hexec, offerSide_closed (s := s.pastSide c p) hclosed]
        rfl
      · rw [hexec, offerCmd_takes (s.pastSide c p) _ _ hstop hfault hroom]
        rfl
      · rw [hexec, offerSide_full (s := s.pastSide c p) hstop hfault hfull]
        rfl
    · rw [hexec, if_neg (mt sidePasses_iff.1 hfail)]
      rfl

end Sys2Proof.Machine
end

section
/-! SUPPORT. GO where the run's outlet serves another channel: what its failed PREP then starts there, and the refutation of the statement
about GO, whose last clause leaves out that case (R38, R144, R148, R153). -/

namespace Sys2Proof.Machine
-- Proofs are checked one after another: in parallel they would not fit the memory that the check allows.
set_option Elab.async false

namespace CrossedOutlet

/-! Two channels with runs on outlet 0, which is full and serves channel 8. No agreement of outlets and channels (`State.PlacesAgree`)
is among the premises of the statement, so it speaks of this state too. -/

def part (c : Channel) : ChannelPart :=
  { channel := c, rate := 3, filler := 9, rank := 2, beaconPeriod := 500, k1 := 3, k2 := 8, windowMin := 6, returnCount := 5
    minTail := 25 }

/-- The record of event 1 in pool slot 1, 50 frames long. -/
def record (start : StartRule) (times : Option Times) : EventRec :=
  { slot := 1, times := times, eclipsed := false, pinned := false
    data := { id := 1, start := start, duration := 50, material := 1, entry := 0, flags := 0, cues := [] } }

/-- Open filler from local time 50. -/
def filler : Item := fillerItem 0 50 0 none 0

/-- Hold filler on air, with nothing cued, and event 1 waiting for GO. -/
def waiting : RunRec := { runOf 0 0 with mode := .awaitingGo, manualHold := some 1, onAir := some filler }

/-- A locked cued item, named as the next item will be, and behind it a go item whose start report waits. -/
def reported : RunRec :=
  { runOf 0 0 with cued := some { filler with locked := true }, goItem := some { filler with locked := true, serial := 1 }
                   goReport := some (100, false) }

/-- Channel 7, which takes GO. -/
def asked : Chan := { Chan.added (part 7) with list := [record .manual none], run := some waiting }

/-- Channel 8, whose one event has ended before the cutoff of a sweep. -/
def served : Chan :=
  { Chan.added (part 8) with
    list := [record (.fixed 1) (some ⟨1, 2, 2⟩)], run := some reported, watch := { WatchRec.start with seeded := true } }

def state : State :=
  State.modOutlet
    { State.reset with
      locked := true, chans := [asked, served], poolFree := [], tb := { TimeBase.reset with now := 100 } }
    0 (fun x => { x with state := .air, air := true, channel := some 8, queue := List.replicate 4 (.side 5 200) })

/-- The PREP of the event that GO cues on channel 7 fails and is reported to channel 8, whose item of that name gives way to its go
item; the start report that waited starts that one, and the sweep behind it reclaims the event. -/
theorem giveGo_sweeps : (state.giveGo 7 asked waiting 1).settle.chans.map (fun ch => ch.list.length) = [1, 0] := by decide +kernel

theorem chan?_asked : state.chan? 7 = some asked := by decide +kernel

end CrossedOutlet

/-- A DONE leaves every channel record as it was (R181). -/
theorem chans_of_done {a b : State} (h : Host.Outcome.next (a.done []) = (.next (b.done []) : Host.Outcome State Fault Refusal)) :
    a.chans = b.chans := by
  have hdone : a.done [] = b.done [] := Host.Outcome.next.inj h
  show (a.done []).chans = (b.done []).chans
  rw [hdone]

open CrossedOutlet in
/-- Refutes O44: its clause that GO leaves what the mirror holds as it was. An outlet that serves another channel than the one it runs
for takes the failure of GO's PREP there, where a start and its sweep can follow. -/
theorem not_goSetsAnchor : ¬ Obligations.GoSetsAnchor := by
  intro h
  obtain ⟨t, x, r', hexec, -, -, -, -, -, -, -, -, -, hmirror, -⟩ :=
    (h state 7 asked rfl rfl chan?_asked).2 waiting 1 rfl rfl rfl rfl rfl
  rw [exec_go rfl chan?_asked (r := waiting) rfl rfl (id := 1) rfl] at hexec
  have hlengths := congrArg (List.map fun x => x.2.1.length) hmirror
  rw [← chans_of_done hexec] at hlengths
  simp only [List.map_map, Function.comp_def, storedIn, List.length_map] at hlengths
  rw [giveGo_sweeps] at hlengths
  exact absurd hlengths (by decide)

end Sys2Proof.Machine
end
